-- ==== Sys2Proof/Word.lean ====
section
/-! DEFINITION. The word types of the core (00_scope.md R4, R6): a symbol is a byte, a bus word has 32 bits,
a node index has 9 bits. Everything the manual adds, counts or indexes with is read as a natural number. -/

namespace Sys2Proof

/-- A byte: a symbol of the input (R5), a byte of IN or OUT, an EINFO symbol. -/
abbrev Byte := BitVec 8

/-- A 32-bit word: a bus word, a command word (R90), a count, a weight, a length or a cursor (LEN_W, R4). -/
abbrev Word := BitVec 32

/-- An index of the NODE table, 0 to 511 (R41, R92). -/
abbrev NodeIx := BitVec 9

/-- A natural number as a 32-bit word. -/
abbrev word (n : Nat) : Word := BitVec.ofNat 32 n

end Sys2Proof
end

