-- ==== Sys2Proof/Syntax.lean ====
section
/-! DEFINITION. The twenty commands (30_encoding.md R93), one constructor per row of spec/opcode_table.json, in the table's order. -/

namespace Sys2Proof

/-- A command. Format N has no operand (R91); PQ_INSERT carries ARG, a node index as an unsigned number (R92). -/
inductive Instr where
  | nop
  | clr
  | pqInsert (n : Nat)
  | pqExtract
  | count
  | mkleaves
  | merge
  | setroot
  | build
  | gencode
  | serialize
  | deserialize
  | wrhdr
  | pack
  | rdhdr
  | unpack
  | encsym
  | decsym
  | encode
  | decode
  deriving DecidableEq, Repr

end Sys2Proof
end

