-- ==== Sys2Proof/WellFormed.lean ====
section
/-! DEFINITION. Which commands a command word can stand for: the one operand, ARG of PQ_INSERT, is 0 to 511 (30_encoding.md R92).
Whether ARG names an allocated node is checked by the command (BAD_ARG), not here. -/

namespace Sys2Proof

/-- The command has an encoding: ARG fits the nine bits R92 gives it. -/
def WellFormed : Instr → Bool
  | .nop => true
  | .clr => true
  | .pqInsert n => decide (n < 512)
  | .pqExtract => true
  | .count => true
  | .mkleaves => true
  | .merge => true
  | .setroot => true
  | .build => true
  | .gencode => true
  | .serialize => true
  | .deserialize => true
  | .wrhdr => true
  | .pack => true
  | .rdhdr => true
  | .unpack => true
  | .encsym => true
  | .decsym => true
  | .encode => true
  | .decode => true

end Sys2Proof
end

