-- ==== Sys2Proof/Decode.lean ====
section
/-! DEFINITION. Decoding of command words, total, rejecting by name (30_encoding.md R91, R92, R93, R95, R96), and the encoder.
The table is the opcode map of R93 with the masks and matches of R91 and R92. -/

namespace Sys2Proof

/-- One row of the opcode map: the word is the row's when `w &&& mask = pat`; `build` reads the operand. -/
structure OpcodeRow where
  mask : Word
  pat : Word
  build : Word → Instr

/-- Why a word is no command (R95). Both are the fault ILLEGAL (R287). -/
inductive Reject where
  /-- Bits 7:0 are no opcode of R93. -/
  | noSuchOpcode (opc : Byte)
  /-- The opcode exists and a bit that must be 0 (R91, R92) is not. -/
  | reservedBits (opc : Byte)
  deriving DecidableEq, Repr

/-- ARG = w[16:8] (R92). -/
def argField (w : Word) : Nat := (w.extractLsb' 8 9).toNat

/-- OPC = w[7:0] (R91, R92). -/
def opcField (w : Word) : Byte := w.extractLsb' 0 8

/-- A format-N row: the whole word is the opcode (R91). -/
def rowN (opc : Word) (i : Instr) : OpcodeRow := { mask := 0xFFFFFFFF, pat := opc, build := fun _ => i }

/-- The opcode map, R93. -/
def opcodeMap : List OpcodeRow :=
  [ rowN 0x00 .nop,
    rowN 0x01 .clr,
    { mask := 0xFFFE00FF, pat := 0x10, build := fun w => .pqInsert (argField w) },
    rowN 0x11 .pqExtract,
    rowN 0x20 .count,
    rowN 0x21 .mkleaves,
    rowN 0x22 .merge,
    rowN 0x23 .setroot,
    rowN 0x24 .build,
    rowN 0x30 .gencode,
    rowN 0x40 .serialize,
    rowN 0x41 .deserialize,
    rowN 0x50 .wrhdr,
    rowN 0x51 .pack,
    rowN 0x52 .rdhdr,
    rowN 0x53 .unpack,
    rowN 0x60 .encsym,
    rowN 0x61 .decsym,
    rowN 0x70 .encode,
    rowN 0x71 .decode ]

/-- The word is the row's. -/
def rowMatches (w : Word) (r : OpcodeRow) : Bool := decide (w &&& r.mask = r.pat)

/-- The first row of a list of rows that matches; the rows are disjoint (R95), so it is the only one. -/
def firstMatch (w : Word) : List OpcodeRow → Option Instr
  | [] => none
  | r :: rest => if rowMatches w r then some (r.build w) else firstMatch w rest

/-- The name of the rejection of a word that matches no row: its opcode is unknown, or it has a bit set that must be 0. -/
def rejectOf (w : Word) : Reject :=
  if opcodeMap.any (fun r => decide (opcField r.pat = opcField w)) then .reservedBits (opcField w)
  else .noSuchOpcode (opcField w)

/-- The command a word selects, or the name of its rejection (R95). -/
def decode (w : Word) : Except Reject Instr :=
  match firstMatch w opcodeMap with
  | some i => .ok i
  | none => .error (rejectOf w)

/-- The command word of a well-formed command (R91, R92, R93). -/
def encode : Instr → Word
  | .nop => 0x00
  | .clr => 0x01
  | .pqInsert n => 0x10 ||| (word n <<< 8)
  | .pqExtract => 0x11
  | .count => 0x20
  | .mkleaves => 0x21
  | .merge => 0x22
  | .setroot => 0x23
  | .build => 0x24
  | .gencode => 0x30
  | .serialize => 0x40
  | .deserialize => 0x41
  | .wrhdr => 0x50
  | .pack => 0x51
  | .rdhdr => 0x52
  | .unpack => 0x53
  | .encsym => 0x60
  | .decsym => 0x61
  | .encode => 0x70
  | .decode => 0x71

/-- What the decoder reads from a table row's bits: a command is one 32-bit word moved whole (R67, R90), so there is no byte order
to lay out; bits above `nbits` are 0. -/
def decodeTableWord (nbits w : Nat) : Option Instr :=
  match decode (word (w % 2 ^ nbits)) with
  | .ok i => some i
  | .error _ => none

end Sys2Proof
end

