-- ==== Sys2Proof/Machine/Bits.lean ====
section
/-! DEFINITION. Bit order: most significant bit first, in payload bytes and in codes (00_scope.md R7, R10; 20_memory.md R66; 10_state.md R42). -/

namespace Sys2Proof.Machine

/-- A bit-string read as a binary numeral, first bit most significant (R7, R66). -/
def bitsToNat (b : List Bool) : Nat := b.foldl (fun v x => 2 * v + x.toNat) 0

/-- `bits8(v)`: position j of the string is `v[7 − j]` (R7). -/
def bits8 (v : Byte) : List Bool := (List.range 8).map (fun j => v.getLsbD (7 - j))

/-- `byte8(b)`, the inverse of `bits8` on strings of eight bits (R7). -/
def byte8 (b : List Bool) : Byte := BitVec.ofNat 8 (bitsToNat b)

/-- `rem(L) = (8 − (L mod 8)) mod 8` (R10). -/
def remOf (l : Nat) : Nat := (8 - l % 8) % 8

/-- A bit-string of at most 256 bits as a CODEBITS entry: position j of the string is bit 255 − j, that is bit 31 − (j mod 32) of
word (j div 32); the bits beyond the string are 0 (R42). -/
def codeBitsOf (c : List Bool) : BitVec 256 := BitVec.ofNat 256 (bitsToNat c <<< (256 - c.length))

/-- The first `n` bits of a CODEBITS entry as a bit-string (R42). -/
def codeString (n : Nat) (v : BitVec 256) : List Bool := (List.range n).map (fun j => v.getMsbD j)

/-- Word `w` (0 to 7) of a CODEBITS entry, as the host reads it (R42, R166). -/
def codeWord (v : BitVec 256) (w : Nat) : Word := v.extractLsb' (224 - 32 * w) 32

end Sys2Proof.Machine
end

