-- ==== Sys2Proof/Config.lean ====
section
/-! DEFINITION. What an implementation fixes (the open parameters of 00_scope.md R4) and the value the spec leaves free.
The parameters are plain data, held in State by one field that no step changes (log 3). The free value is a constant with no
body: nothing can be proved about which value it has. -/

namespace Sys2Proof.Config

/-- The open parameters of R4: bytes of IN, bytes of OUT, bits of BITS. -/
structure Params where
  inCap : Nat
  outCap : Nat
  bitsCap : Nat
  deriving DecidableEq, Repr

/-- The default values of R4. -/
def Params.default : Params := { inCap := 65536, outCap := 65536, bitsCap := 524288 }

/-- The constraints R4 puts on the parameters. -/
abbrev Params.Allowed (p : Params) : Prop :=
  1 ≤ p.inCap ∧ p.inCap ≤ 2 ^ 24 ∧ 1 ≤ p.outCap ∧ p.outCap ≤ 2 ^ 24 ∧
    8 ≤ p.bitsCap ∧ p.bitsCap < 2 ^ 32 ∧ p.bitsCap % 8 = 0

/-- FREE VALUE (R44, R321; 93_implementation_defined.md U2; log 4). The byte that IN holds at index `i` after reset number `n`
until the host writes it: unspecified, so a constant without a body. -/
opaque inAfterReset (n i : Nat) : Byte

end Sys2Proof.Config
end

