-- ==== Sys2Proof/Machine/Table.lean ====
section
/-! DEFINITION. Tables and buffers as sparse lists of (index, value) pairs in one canonical form: indices strictly rising, no entry
equal to what an unlisted index reads as (log 15). `tableGet` and `tableSet` are the only ways in and out, so that equal tables are equal data. -/

namespace Sys2Proof.Machine

/-- A sparse table: the listed entries. A `Host.Cell` list is `Table Byte`. -/
abbrev Table (α : Type) := List (Nat × α)

/-- The listed value at an index. -/
def tableFind {α : Type} : Table α → Nat → Option α
  | [], _ => none
  | (k, v) :: rest, i => if i = k then some v else tableFind rest i

/-- The value at an index: the listed one, else `d`. -/
def tableGet {α : Type} (d : α) (m : Table α) (i : Nat) : α := (tableFind m i).getD d

/-- List a value at an index, in place of one listed there. -/
def tablePut {α : Type} : Table α → Nat → α → Table α
  | [], i, v => [(i, v)]
  | (k, w) :: rest, i, v =>
    if i < k then (i, v) :: (k, w) :: rest
    else if i = k then (i, v) :: rest
    else (k, w) :: tablePut rest i v

/-- Unlist an index. -/
def tableErase {α : Type} (m : Table α) (i : Nat) : Table α := m.filter (fun e => decide (e.1 ≠ i))

/-- `T[i] <- v` for a table whose unlisted entries read as `d`: writing `d` unlists the index. -/
def tableSet {α : Type} [DecidableEq α] (d : α) (m : Table α) (i : Nat) (v : α) : Table α :=
  if v = d then tableErase m i else tablePut m i v

/-- Indices strictly rising. -/
abbrev tableSorted {α : Type} (m : Table α) : Prop := (m.map Prod.fst).Pairwise (· < ·)

/-- The canonical form of a table whose unlisted entries read as `d`. -/
abbrev tableWf {α : Type} [DecidableEq α] (d : α) (m : Table α) : Prop := tableSorted m ∧ ∀ e ∈ m, e.2 ≠ d

/-- Write a list of values at consecutive indices from `i` up. -/
def tableWrite {α : Type} [DecidableEq α] (d : α) (m : Table α) (i : Nat) : List α → Table α
  | [] => m
  | v :: vs => tableWrite d (tableSet d m i v) (i + 1) vs

end Sys2Proof.Machine
end

