-- ==== Sys2Proof/Machine/State.lean ====
section
/-! DEFINITION. The state of the core (10_state.md R20 to R45), of the bus port and its host (20_memory.md R60), the reasons a step can
stop, the core's own faults by name (60_exceptions.md R280), and the state after reset (R50, R321). Plain data throughout. -/

namespace Sys2Proof.Machine

/-- A NODE entry, the tagged union of R41: KIND 0 is a leaf with a symbol, KIND 1 is internal with two children. The zero entry is
`leaf 0 0`. -/
inductive Node where
  | leaf (weight : Word) (sym : Byte)
  | internal (weight : Word) (left right : NodeIx)
  deriving DecidableEq, Repr

/-- The resource a CAPACITY fault names in EINFO (R285). -/
inductive Resource where
  | inBytes
  | outBytes
  | bitsBits
  | nodes
  | heapItems
  | weights
  deriving DecidableEq, Repr

/-- The nine faults of the core (R280). They are states of the machine (ERR, EINFO), not ends of a run. -/
inductive CoreFault where
  | emptyInput
  | parse
  | degenerate
  | pqEmpty
  | capacity
  | stateAbsent
  | illegal
  | badArg
  | noCode
  deriving DecidableEq, Repr

/-- A bus transaction (R60): a read or a write of an aligned 32-bit word or of one byte at an offset below 2^26. -/
inductive Txn where
  | read4 (a : BitVec 26)
  | read1 (a : BitVec 26)
  | write4 (a : BitVec 26) (v : Word)
  | write1 (a : BitVec 26) (v : Byte)
  deriving DecidableEq, Repr

/-- What the bus answers (R60): OK to a write, OK with the value read, or ERROR. -/
inductive Response where
  | okWrite
  | okWord (v : Word)
  | okByte (v : Byte)
  | error
  deriving DecidableEq, Repr

/-- What the host does next: a transaction (R60), waiting until BUSY reads 0 (R102, WAIT), or a pulse of `rst` (R320). -/
inductive HostMove where
  | txn (t : Txn)
  | wait
  | rst
  deriving DecidableEq, Repr

/-- The state. The fields are in the order of 10_state.md; the last four are the model's own (INVENTORY.md, State). -/
structure State where
  /-- CTRL bit 0 (R22). -/
  dgm : Bool
  /-- CTRL bit 1 (R22). -/
  ie : Bool
  /-- CMD, the last command word accepted (R23). -/
  cmd : Word
  /-- STATUS bit 0 (R24). -/
  busy : Bool
  /-- STATUS bit 1 (R24). -/
  done : Bool
  /-- STATUS bit 3 (R24). -/
  treev : Bool
  /-- STATUS bit 4 (R24). -/
  codev : Bool
  /-- STATUS bit 5 (R24). -/
  bitsv : Bool
  /-- STATUS bit 6 (R24). -/
  hdrv : Bool
  /-- STATUS bit 7 (R24). -/
  degen : Bool
  /-- STATUS bit 8 (R24). -/
  resid : Bool
  /-- ERR (R25); STATUS bit 2, ERRF, is computed from it (R24). -/
  err : BitVec 8
  /-- EINFO (R26). -/
  einfo : Word
  /-- SEQ, the step counter of a composite command (R27). -/
  seq : BitVec 4
  /-- IN_LEN (R28). -/
  inLen : Word
  /-- OUT_LEN (R29). -/
  outLen : Word
  /-- PAY_LEN (R30). -/
  payLen : Word
  /-- REM (R31). -/
  rem : BitVec 3
  /-- CUR, the read cursor of the decode path (R32). -/
  cur : Word
  /-- BITLEN (R33). -/
  bitLen : Word
  /-- NNODE (R34). -/
  nnode : BitVec 10
  /-- ROOT (R35). -/
  root : NodeIx
  /-- HSIZE (R36). -/
  hsize : BitVec 9
  /-- PQ_OUT (R37). -/
  pqOut : NodeIx
  /-- FREQ, unlisted entries 0 (R39). -/
  freq : Table Word
  /-- HEAP, unlisted entries 0 (R40). -/
  heap : Table NodeIx
  /-- NODE, unlisted entries `leaf 0 0` (R41). -/
  node : Table Node
  /-- CODELEN, unlisted entries 0 (R42). -/
  codeLen : Table (BitVec 8)
  /-- CODEBITS, unlisted entries 0 (R42). -/
  codeBits : Table (BitVec 256)
  /-- BITS, unlisted bits 0 (R43). -/
  bits : Table Bool
  /-- IN: the bytes the host has written since reset (R44); an unlisted byte is unspecified. -/
  inBuf : List Host.Cell
  /-- OUT, unlisted bytes 0 (R45). -/
  outBuf : List Host.Cell
  /-- The open parameters of R4; no step changes them (log 3). -/
  cfg : Config.Params
  /-- What the host does next, first move first (log 1). -/
  host : List HostMove
  /-- The bus responses given so far, newest first (log 1). -/
  log : List Response
  /-- How many times `rst` has been asserted since the first reset: the argument of the free value of unwritten IN bytes (log 4). -/
  resets : Nat
  deriving DecidableEq, Repr

/-- Why the machine stops with a fault. -/
inductive Fault where
  /-- Raised by GENCODE and SERIALIZE (and ENCODE, through them) when the walk goes deeper than the NODE table has entries: the table
  is cyclic, so the walk of R160 or R175 never ends. R47 (b) rules that out in every state a run reaches. Safe: the model stops. -/
  | endlessWalk
  deriving DecidableEq, Repr

/-- Why the model gives no meaning. -/
inductive Refusal where
  /-- Raised by an arm of exec that has no meaning yet; no arm of this model. Safe: the model stops. -/
  | notModelled (mnemonic : String)
  deriving DecidableEq, Repr

/-- The state after reset (R50, R321): every register and flag 0, every table and buffer all zero, IN unwritten, the core idle. The
parameters are the defaults of R4 (log 3), and the host has no move to make (log 1). -/
def State.reset : State :=
  { dgm := false, ie := false, cmd := 0, busy := false, done := false, treev := false, codev := false, bitsv := false,
    hdrv := false, degen := false, resid := false, err := 0, einfo := 0, seq := 0, inLen := 0, outLen := 0, payLen := 0,
    rem := 0, cur := 0, bitLen := 0, nnode := 0, root := 0, hsize := 0, pqOut := 0, freq := [], heap := [], node := [],
    codeLen := [], codeBits := [], bits := [], inBuf := [], outBuf := [], cfg := Config.Params.default, host := [], log := [],
    resets := 0 }

end Sys2Proof.Machine
end

