-- ==== Sys2Proof/Machine/Ops.lean ====
section
/-! DEFINITION. The named operations over registers, tables and buffers that the commands share: reading and writing entries, CLRW (R48),
CLRT (R49), CheckIn (R68), OutAppend (R69), Alloc (R133), AcceptRoot (R146), fault entry (R290) and the return from a fault (R251, R292),
completion (R94). -/

namespace Sys2Proof.Machine

/-- What a procedure of the manual's pseudocode answers: the state it leaves, `raise Fault(code, info)` with the state it was raised
in (R8), or a walk of a cyclic NODE table, which never ends. -/
inductive Res where
  | ok (s : State)
  | raise (c : CoreFault) (info : Word) (s : State)
  | endless
  deriving DecidableEq, Repr

/-- Sequencing: what follows runs only where the first part neither raised nor ran on for ever (R8: nothing after a raise runs). -/
def Res.andThen (r : Res) (f : State → Res) : Res :=
  match r with
  | .ok s => f s
  | .raise c info s => .raise c info s
  | .endless => .endless

/-! ## Node entries -/

/-- NODE[i].WEIGHT (R41). -/
def Node.weight : Node → Word
  | .leaf w _ => w
  | .internal w _ _ => w

/-- NODE[i].KIND = 0 (R41). -/
def Node.isLeaf : Node → Bool
  | .leaf _ _ => true
  | .internal _ _ _ => false

/-- Word 1 of a NODE entry as the host reads it (R41): KIND at 31, RIGHT at 24:16, LEFT or SYM at 8:0. -/
def Node.word1 : Node → Word
  | .leaf _ s => s.setWidth 32
  | .internal _ l r => 0x80000000 ||| (r.setWidth 32 <<< 16) ||| l.setWidth 32

/-! ## Reading and writing entries -/

/-- FREQ[s] (R39). -/
def freqAt (s : State) (i : Nat) : Word := tableGet 0 s.freq i

/-- FREQ[s] <- v (R39). -/
def setFreq (s : State) (i : Nat) (v : Word) : State := { s with freq := tableSet 0 s.freq i v }

/-- HEAP[i] (R40). -/
def heapAt (s : State) (i : Nat) : NodeIx := tableGet 0 s.heap i

/-- HEAP[i] <- v (R40). -/
def setHeap (s : State) (i : Nat) (v : NodeIx) : State := { s with heap := tableSet 0 s.heap i v }

/-- An entry of a NODE table (R41). -/
def nodeOf (t : Table Node) (i : Nat) : Node := tableGet (.leaf 0 0) t i

/-- NODE[i] (R41). -/
def nodeAt (s : State) (i : Nat) : Node := nodeOf s.node i

/-- CODELEN[s] (R42). -/
def codeLenAt (s : State) (i : Nat) : BitVec 8 := tableGet 0 s.codeLen i

/-- CODEBITS[s] (R42). -/
def codeBitsAt (s : State) (i : Nat) : BitVec 256 := tableGet 0 s.codeBits i

/-- CODE[s], the bit-string the two code tables hold for a symbol (R42). -/
def codeAt (s : State) (i : Nat) : List Bool := codeString (codeLenAt s i).toNat (codeBitsAt s i)

/-- CODE[s] <- c, for a code of at most CODE_MAX bits (R4, R42); `recordCode` sees to that. -/
def setCode (s : State) (i : Nat) (c : List Bool) : State :=
  { s with codeLen := tableSet 0 s.codeLen i (BitVec.ofNat 8 c.length), codeBits := tableSet 0 s.codeBits i (codeBitsOf c) }

/-- BITS[p] (R43). -/
def bitAt (s : State) (p : Nat) : Bool := tableGet false s.bits p

/-- BITS[p], BITS[p + 1], … <- the bits of a string (R43). -/
def writeBits (s : State) (p : Nat) (b : List Bool) : State := { s with bits := tableWrite false s.bits p b }

/-- BITS[0 .. BITLEN − 1] (R43). -/
def bitString (s : State) : List Bool := (List.range s.bitLen.toNat).map (bitAt s)

/-- IN[i] (R44): the byte the host wrote; the free value of this reset where it has written none (log 4). -/
def inByte (s : State) (i : Nat) : Byte := (tableFind s.inBuf i).getD (Config.inAfterReset s.resets i)

/-- The host's write of IN[i] (R63, R75). -/
def setIn (s : State) (i : Nat) (v : Byte) : State := { s with inBuf := tablePut s.inBuf i v }

/-- IN[from .. from + n − 1]. -/
def inBytes (s : State) (start n : Nat) : List Byte := (List.range n).map (fun i => inByte s (start + i))

/-- IN[0 .. IN_LEN − 1], the input (R28). -/
def inputBytes (s : State) : List Byte := inBytes s 0 s.inLen.toNat

/-- The OUT array at i, whatever OUT_LEN (R45). -/
def outArray (s : State) (i : Nat) : Byte := tableGet 0 s.outBuf i

/-- OUT[i] as the host reads it (R45, R70): 0 at and above OUT_LEN. -/
def outByte (s : State) (i : Nat) : Byte := if i < s.outLen.toNat then outArray s i else 0

/-- OUT[0 .. OUT_LEN − 1], the output (R45). -/
def outputBytes (s : State) : List Byte := (List.range s.outLen.toNat).map (outArray s)

/-! ## Clearing -/

/-- CLRW, clear work state (R48). -/
def clrw (s : State) : State :=
  { s with
    treev := false, codev := false, bitsv := false, hdrv := false, degen := false, resid := false,
    outLen := 0, payLen := 0, rem := 0, cur := 0, bitLen := 0,
    nnode := 0, root := 0, hsize := 0, pqOut := 0,
    node := [], heap := [], codeLen := [], codeBits := [], bits := [] }

/-- CLRT, clear tree state (R49). -/
def clrt (s : State) : State :=
  { s with
    treev := false, codev := false, degen := false,
    nnode := 0, root := 0, hsize := 0, pqOut := 0,
    node := [], heap := [] }

/-- SEQ <- n (R27). -/
def setSeq (n : Nat) (s : State) : State := { s with seq := BitVec.ofNat 4 n }

/-! ## Faults: entry, completion, return -/

/-- The numbers of R280. -/
def CoreFault.code : CoreFault → BitVec 8
  | .emptyInput => 1
  | .parse => 2
  | .degenerate => 3
  | .pqEmpty => 4
  | .capacity => 5
  | .stateAbsent => 6
  | .illegal => 7
  | .badArg => 8
  | .noCode => 9

/-- The resource numbers of R285. -/
def Resource.number : Resource → Word
  | .inBytes => 1
  | .outBytes => 2
  | .bitsBits => 3
  | .nodes => 4
  | .heapItems => 5
  | .weights => 6

/-- raise Fault(CAPACITY, resource) (R285). -/
def raiseCapacity (r : Resource) (s : State) : Res := .raise .capacity r.number s

/-- raise Fault(STATE, 0) (R286). -/
def raiseState (s : State) : Res := .raise .stateAbsent 0 s

/-- Fault entry (R290): CLRW, then ERR and EINFO; SEQ, CMD, CTRL, IN_LEN, FREQ and IN keep their values. -/
def faultEntry (c : CoreFault) (info : Word) (s : State) : State := { clrw s with err := c.code, einfo := info }

/-- Completion of a command (R94): BUSY <- 0, DONE <- 1. -/
def complete (s : State) : State := { s with busy := false, done := true }

/-- The return from a fault (R251, R292): CLRW, ERR, EINFO and SEQ 0. -/
def faultReturn (s : State) : State := { clrw s with err := 0, einfo := 0, seq := 0 }

/-- The end of a command (R94, R290): fault entry if it raised, and completion either way. -/
def finish (r : Res) : Host.Outcome State Fault Refusal :=
  match r with
  | .ok s => .next (complete s)
  | .raise c info s => .next (complete (faultEntry c info s))
  | .endless => .fault .endlessWalk

/-! ## Shared procedures -/

/-- CheckIn (R68): a command that reads IN first checks IN_LEN ≤ IN_CAP. -/
def checkIn (s : State) : Res := if s.cfg.inCap < s.inLen.toNat then raiseCapacity .inBytes s else .ok s

/-- OutAppend(b) (R69). -/
def outAppend (b : Byte) (s : State) : Res :=
  if s.outLen.toNat = s.cfg.outCap then raiseCapacity .outBytes s
  else .ok { s with outBuf := tableSet 0 s.outBuf s.outLen.toNat b, outLen := s.outLen + 1 }

/-- OutAppend of each byte of a list in turn. -/
def appendAll : List Byte → State → Res
  | [], s => .ok s
  | b :: bs, s => (outAppend b s).andThen (appendAll bs)

/-- Alloc (R133): the new entry's index is the old NNODE. -/
def alloc (n : Node) (s : State) : Res :=
  if s.nnode = 511 then raiseCapacity .nodes s
  else .ok { s with node := tableSet (.leaf 0 0) s.node s.nnode.toNat n, nnode := s.nnode + 1 }

/-- The index the next Alloc returns (R133). -/
def nextIx (s : State) : NodeIx := s.nnode.setWidth 9

/-- CODE[s] <- c where the path `c` has been walked (R160), under the capacity CODE_MAX = 255 of R4. D4 makes exceeding a capacity
the fault CAPACITY; a leaf deeper than 255 belongs to a tree of more than 511 nodes (R165), so the resource is NODE (log 6). -/
def recordCode (i : Nat) (c : List Bool) (s : State) : Res :=
  if 255 < c.length then raiseCapacity .nodes s else .ok (setCode s i c)

/-- AcceptRoot(r) (R146). -/
def acceptRoot (r : NodeIx) (s : State) : Res :=
  match nodeAt s r.toNat with
  | .leaf _ sym =>
    if s.dgm then .ok { s with root := r, degen := true, treev := true }
    else .raise .degenerate (sym.setWidth 32) { s with root := r }
  | .internal _ _ _ => .ok { s with root := r, degen := false, treev := true }

end Sys2Proof.Machine
end

