-- ==== Sys2Proof/Machine/CodeGen.lean ====
section
/-! DEFINITION. The code table generator (42_codegen.md): GENCODE. -/

namespace Sys2Proof.Machine

/-- How deep a walk of the NODE table can go: one turn per entry. Children have smaller indices than their parent in every state a run
reaches (R47 (b)), so a deeper walk is one of a cyclic table (log 7, log 8). -/
def walkDepth : Nat := 512

/-- Walk(i, path) (R160): at a leaf CODE[sym] <- path; else the left child with "0", then the right with "1". -/
def walkCodes : Nat → Nat → List Bool → State → Res
  | 0, _, _, _ => .endless
  | fuel + 1, i, path, s =>
    match nodeAt s i with
    | .leaf _ sym => recordCode sym.toNat path s
    | .internal _ l r =>
      (walkCodes fuel l.toNat (path ++ [false]) s).andThen (walkCodes fuel r.toNat (path ++ [true]))

/-- The code table of the tree at ROOT (R160): a lone leaf gets the code "0" (R162), else the walk from ROOT. -/
def genCodes (s : State) : Res :=
  match nodeAt s s.root.toNat with
  | .leaf _ sym => .ok (setCode s sym.toNat [false])
  | .internal _ _ _ => walkCodes walkDepth s.root.toNat [] s

/-- GENCODE (R160): the code table is emptied, filled, and marked valid. -/
def opGencode (s : State) : Res :=
  if s.treev = false then raiseState s
  else (genCodes { s with codeLen := [], codeBits := [] }).andThen fun s => .ok { s with codev := true }

/-- GENCODE (R160), to its completion. -/
def execGencode (s : State) : Host.Outcome State Fault Refusal := finish (opGencode s)

end Sys2Proof.Machine
end

