-- ==== Sys2Proof/Machine/TreeSer.lean ====
section
/-! DEFINITION. The tree serializer and deserializer (43_treeser.md): SERIALIZE, DESERIALIZE. The marker bytes are those of
30_encoding.md R99. -/

namespace Sys2Proof.Machine

/-- The quote-marker (R99). -/
def quoteMark : Byte := 0x27

/-- The marker "0" (R99). -/
def zeroMark : Byte := 0x30

/-- The marker "1" (R99). -/
def oneMark : Byte := 0x31

/-- The newline (R99). -/
def newline : Byte := 0x0A

/-- Ser(i) (R175). -/
def serNode : Nat → Nat → State → Res
  | 0, _, _ => .endless
  | fuel + 1, i, s =>
    match nodeAt s i with
    | .leaf _ sym => (outAppend quoteMark s).andThen (outAppend sym)
    | .internal _ l r =>
      (((outAppend zeroMark s).andThen (serNode fuel l.toNat)).andThen (outAppend oneMark)).andThen (serNode fuel r.toNat)

/-- SERIALIZE (R175). -/
def opSerialize (s : State) : Res :=
  if s.treev = false then raiseState s else serNode walkDepth s.root.toNat s

/-- What Parse answers (R181): the node's index, the cursor after the subtree and the count of nodes begun, with the state; or a raise. -/
inductive ParseRes where
  | ok (r : NodeIx) (c seen : Nat) (s : State)
  | raise (f : CoreFault) (info : Word) (s : State)
  deriving DecidableEq, Repr

/-- Continue a parse where it did not raise. -/
def ParseRes.andThen (p : ParseRes) (f : NodeIx → Nat → Nat → State → ParseRes) : ParseRes :=
  match p with
  | .ok r c seen s => f r c seen s
  | .raise k info s => .raise k info s

/-- Alloc as the end of a parse (R181): the new node and the cursor after its text. -/
def parseAlloc (n : Node) (c seen : Nat) (s : State) : ParseRes :=
  match alloc n s with
  | .ok s' => .ok (nextIx s) c seen s'
  | .raise k info s' => .raise k info s'
  | .endless => .raise .capacity Resource.nodes.number s

/-- Whether IN holds the byte `b` at offset `c` (R181: `c < IN_LEN and IN[c] = b`). -/
def inHas (s : State) (c : Nat) (b : Byte) : Bool := decide (c < s.inLen.toNat ∧ inByte s c = b)

/-- Parse(c) (R181). The first argument bounds the recursion; R183's count `seen` stops it first, at 512 frames at the most, so 512
is never used up when `seen` starts at 0 (log 8). -/
def parse : Nat → Nat → Nat → State → ParseRes
  | 0, _, _, s => .raise .capacity Resource.nodes.number s
  | fuel + 1, c, seen, s =>
    if s.inLen.toNat ≤ c then .raise .parse (word c) s
    else if inByte s c = quoteMark then
      if seen = 511 then .raise .capacity Resource.nodes.number s
      else if s.inLen.toNat ≤ c + 1 then .raise .parse (word (c + 1)) s
      else parseAlloc (.leaf 0 (inByte s (c + 1))) (c + 2) (seen + 1) s
    else if inByte s c = zeroMark then
      if seen = 511 then .raise .capacity Resource.nodes.number s
      else
        (parse fuel (c + 1) (seen + 1) s).andThen fun l c1 seen1 s1 =>
          if inHas s1 c1 oneMark then
            (parse fuel (c1 + 1) seen1 s1).andThen fun r c2 seen2 s2 =>
              parseAlloc (.internal 0 l r) c2 seen2 s2
          else .raise .parse (word c1) s1
    else .raise .parse (word c) s

/-- DESERIALIZE (R180). -/
def opDeserialize (s : State) : Res :=
  (checkIn s).andThen fun s =>
    match parse 512 s.cur.toNat 0 (clrt s) with
    | .ok r c _ s' => acceptRoot r { s' with cur := word c }
    | .raise k info s' => .raise k info s'

/-- SERIALIZE (R175), to its completion. -/
def execSerialize (s : State) : Host.Outcome State Fault Refusal := finish (opSerialize s)

/-- DESERIALIZE (R180), to its completion. -/
def execDeserialize (s : State) : Host.Outcome State Fault Refusal := finish (opDeserialize s)

end Sys2Proof.Machine
end

