-- ==== Sys2Proof/Machine/BitPack.lean ====
section
/-! DEFINITION. The bit packer and unpacker with padding (44_bitpack.md): WRHDR, PACK, RDHDR, UNPACK. -/

namespace Sys2Proof.Machine

/-- The digit byte of a padding length (R99, R100): 0x30 + rem. -/
def digitOf (r : Nat) : Byte := BitVec.ofNat 8 (0x30 + r)

/-- The padding-length header "\n<rem>\n" (R97, R200). -/
def headerBytes (r : Nat) : List Byte := [newline, digitOf r, newline]

/-- REM <- rem(BITLEN) (R200, R201). -/
def setRem (s : State) : State := { s with rem := BitVec.ofNat 3 (remOf s.bitLen.toNat) }

/-- WRHDR (R200). -/
def opWrhdr (s : State) : Res :=
  if s.bitsv = false then raiseState s
  else appendAll (headerBytes (setRem s).rem.toNat) (setRem s)

/-- The bit PACK takes at a position (R201): virtual zero padding at and above BITLEN. -/
def packBit (s : State) (p : Nat) : Bool := if p < s.bitLen.toNat then bitAt s p else false

/-- Payload byte j (R201): eight bits, the first most significant. -/
def packByte (s : State) (j : Nat) : Byte := byte8 ((List.range 8).map (fun t => packBit s (8 * j + t)))

/-- The number of payload bytes (R201). -/
def packCount (s : State) : Nat := (s.bitLen.toNat + remOf s.bitLen.toNat) / 8

/-- PACK (R201). -/
def opPack (s : State) : Res :=
  if s.bitsv = false then raiseState s
  else
    (appendAll ((List.range (packCount s)).map (packByte s)) (setRem s)).andThen fun s' =>
      .ok { s' with payLen := word (packCount s) }

/-- RDHDR (R205). -/
def opRdhdr (s : State) : Res :=
  (checkIn s).andThen fun s =>
    if inHas s s.cur.toNat newline = false then .raise .parse (word s.cur.toNat) s
    else if s.inLen.toNat ≤ s.cur.toNat + 1 ∨ inByte s (s.cur.toNat + 1) < 0x30 ∨ 0x37 < inByte s (s.cur.toNat + 1) then
      .raise .parse (word (s.cur.toNat + 1)) s
    else if inHas s (s.cur.toNat + 2) newline = false then .raise .parse (word (s.cur.toNat + 2)) s
    else
      .ok { s with
        rem := BitVec.ofNat 3 ((inByte s (s.cur.toNat + 1)).toNat - 0x30), cur := word (s.cur.toNat + 3), hdrv := true }

/-- The bits of a list of bytes, one byte after the other (R206, R207). -/
def expandBytes (p : List Byte) : List Bool := p.flatMap bits8

/-- The lines of UNPACK after its checks (R206), for `nb` payload bytes. -/
def unpackBits (nb : Nat) (s : State) : State :=
  { writeBits s 0 (expandBytes (inBytes s s.cur.toNat nb)) with
    bitLen := word (8 * nb - s.rem.toNat), payLen := word nb, cur := s.inLen, bitsv := true }

/-- UNPACK (R206). -/
def opUnpack (s : State) : Res :=
  if s.hdrv = false then raiseState s
  else
    (checkIn s).andThen fun s =>
      if s.inLen.toNat < s.cur.toNat then raiseState s
      else if 8 * (s.inLen.toNat - s.cur.toNat) < s.rem.toNat then .raise .parse s.cur s
      else if s.cfg.bitsCap < 8 * (s.inLen.toNat - s.cur.toNat) then raiseCapacity .bitsBits s
      else .ok (unpackBits (s.inLen.toNat - s.cur.toNat) s)

/-- WRHDR (R200), to its completion. -/
def execWrhdr (s : State) : Host.Outcome State Fault Refusal := finish (opWrhdr s)

/-- PACK (R201), to its completion. -/
def execPack (s : State) : Host.Outcome State Fault Refusal := finish (opPack s)

/-- RDHDR (R205), to its completion. -/
def execRdhdr (s : State) : Host.Outcome State Fault Refusal := finish (opRdhdr s)

/-- UNPACK (R206), to its completion. -/
def execUnpack (s : State) : Host.Outcome State Fault Refusal := finish (opUnpack s)

end Sys2Proof.Machine
end

