-- ==== Sys2Proof/Machine/Pq.lean ====
section
/-! DEFINITION. The priority queue (40_pq.md): REFHEAP, an array binary min-heap of node indices with strict comparisons, and the
commands PQ_INSERT and PQ_EXTRACT. The procedures' answers stand in the state: PqExtract's in PQ_OUT. -/

namespace Sys2Proof.Machine

/-- hkey(j) = NODE[HEAP[j]].WEIGHT (R111). -/
def hkey (s : State) (j : Nat) : Word := (nodeAt s (heapAt s j).toNat).weight

/-- Swap HEAP[i] and HEAP[j]. -/
def swapHeap (s : State) (i j : Nat) : State := setHeap (setHeap s i (heapAt s j)) j (heapAt s i)

/-- The loop of PqInsert from position `j` (R112): up past parents of strictly greater key. A position above 0 strictly falls at each
turn, so `j` turns are enough (log 8). -/
def siftUp : Nat → Nat → State → State
  | 0, _, s => s
  | fuel + 1, j, s =>
    if 0 < j then
      if hkey s j < hkey s ((j - 1) / 2) then siftUp fuel ((j - 1) / 2) (swapHeap s j ((j - 1) / 2))
      else s
    else s

/-- PqInsert(n) (R112). -/
def pqInsert (n : NodeIx) (s : State) : Res :=
  if s.hsize = 256 then raiseCapacity .heapItems s
  else .ok (siftUp s.hsize.toNat s.hsize.toNat { setHeap s s.hsize.toNat n with hsize := s.hsize + 1 })

/-- `m` or `c`, whichever the sift-down prefers (R113): the child `c` if it is in the queue and its key is strictly less. -/
def smallerOf (s : State) (m c : Nat) : Nat :=
  if c < s.hsize.toNat ∧ hkey s c < hkey s m then c else m

/-- The loop of PqExtract from position `j` (R113): down to the smaller child, left examined first, on strictly less only. The position
strictly rises below HSIZE, so HSIZE turns are enough (log 8). -/
def siftDown : Nat → Nat → State → State
  | 0, _, s => s
  | fuel + 1, j, s =>
    if smallerOf s (smallerOf s j (2 * j + 1)) (2 * j + 2) = j then s
    else
      siftDown fuel (smallerOf s (smallerOf s j (2 * j + 1)) (2 * j + 2))
        (swapHeap s j (smallerOf s (smallerOf s j (2 * j + 1)) (2 * j + 2)))

/-- The lines of PqExtract before its loop (R113): the last item goes to the top, its place becomes 0. -/
def dropTop (s : State) : State :=
  setHeap (setHeap { s with hsize := s.hsize - 1 } 0 (heapAt s (s.hsize - 1).toNat)) (s.hsize - 1).toNat 0

/-- PqExtract() (R113); the index it returns is PQ_OUT. -/
def pqExtract (s : State) : Res :=
  if s.hsize = 0 then .raise .pqEmpty 0 s
  else .ok { siftDown (s.hsize - 1).toNat 0 (dropTop s) with pqOut := heapAt s 0 }

/-- PQ_INSERT n (R114). -/
def opPqInsert (n : Nat) (s : State) : Res :=
  if s.nnode.toNat ≤ n then .raise .badArg (word n) s
  else pqInsert (BitVec.ofNat 9 n) s

/-- PQ_EXTRACT (R115). -/
def opPqExtract (s : State) : Res := pqExtract s

/-- PQ_INSERT n (R114), to its completion. -/
def execPqInsert (n : Nat) (s : State) : Host.Outcome State Fault Refusal := finish (opPqInsert n s)

/-- PQ_EXTRACT (R115), to its completion. -/
def execPqExtract (s : State) : Host.Outcome State Fault Refusal := finish (opPqExtract s)

end Sys2Proof.Machine
end

