-- ==== Sys2Proof/Machine/Build.lean ====
section
/-! DEFINITION. The frequency analyzer and the tree builder (41_build.md): COUNT, MKLEAVES, MERGE, SETROOT, BUILD. -/

namespace Sys2Proof.Machine

/-- FREQ[b] <- FREQ[b] + 1 for each byte of a list in turn (R132). -/
def countBytes : List Byte → State → State
  | [], s => s
  | b :: bs, s => countBytes bs (setFreq s b.toNat (freqAt s b.toNat + 1))

/-- COUNT (R132). -/
def opCount (s : State) : Res :=
  (checkIn s).andThen fun s => .ok (countBytes (inputBytes s) { s with freq := [] })

/-- Whether no symbol is present (R130, R134). -/
def noSymbols (s : State) : Bool := (List.range 256).all (fun i => decide (freqAt s i = 0))

/-- The loop of MKLEAVES over the symbols of a list (R134): Alloc a leaf for each present one and queue it. -/
def makeLeaves : List Nat → State → Res
  | [], s => .ok s
  | i :: rest, s =>
    if freqAt s i = 0 then makeLeaves rest s
    else
      (alloc (.leaf (freqAt s i) (BitVec.ofNat 8 i)) s).andThen fun s' =>
        (pqInsert (nextIx s) s').andThen (makeLeaves rest)

/-- MKLEAVES (R134): in ascending symbol value. -/
def opMkleaves (s : State) : Res :=
  if noSymbols s then .raise .emptyInput 0 s
  else makeLeaves (List.range 256) (clrt s)

/-- The lines of MERGE after the two extractions gave `a` and `b` (R140, R141, R142): the sum as a natural number, the new node with
the first extracted on the left, back into the queue. -/
def mergeNodes (a b : NodeIx) (s : State) : Res :=
  if 0xFFFFFFFF < (nodeAt s a.toNat).weight.toNat + (nodeAt s b.toNat).weight.toNat then raiseCapacity .weights s
  else
    (alloc (.internal ((nodeAt s a.toNat).weight + (nodeAt s b.toNat).weight) a b) s).andThen fun s' =>
      pqInsert (nextIx s) s'

/-- MERGE (R140). -/
def opMerge (s : State) : Res :=
  if s.hsize.toNat < 2 then .raise .pqEmpty 0 s
  else if s.nnode = 511 then raiseCapacity .nodes s
  else
    (pqExtract { s with treev := false, codev := false, degen := false }).andThen fun s1 =>
      (pqExtract s1).andThen fun s2 => mergeNodes s1.pqOut s2.pqOut s2

/-- SETROOT (R145). -/
def opSetroot (s : State) : Res :=
  if s.hsize ≠ 1 then raiseState s
  else (pqExtract { s with codev := false }).andThen fun s => acceptRoot s.pqOut s

/-- The loop of BUILD (R148): MERGE while HSIZE > 1. Each MERGE lowers HSIZE by 1 (R153), so HSIZE turns are enough (log 8). -/
def mergeLoop : Nat → State → Res
  | 0, s => .ok s
  | fuel + 1, s => if 1 < s.hsize.toNat then (opMerge s).andThen (mergeLoop fuel) else .ok s

/-- BUILD (R148). -/
def opBuild (s : State) : Res :=
  (opMkleaves s).andThen fun s => (mergeLoop s.hsize.toNat s).andThen opSetroot

/-- COUNT (R132), to its completion. -/
def execCount (s : State) : Host.Outcome State Fault Refusal := finish (opCount s)

/-- MKLEAVES (R134), to its completion. -/
def execMkleaves (s : State) : Host.Outcome State Fault Refusal := finish (opMkleaves s)

/-- MERGE (R140), to its completion. -/
def execMerge (s : State) : Host.Outcome State Fault Refusal := finish (opMerge s)

/-- SETROOT (R145), to its completion. -/
def execSetroot (s : State) : Host.Outcome State Fault Refusal := finish (opSetroot s)

/-- BUILD (R148), to its completion. -/
def execBuild (s : State) : Host.Outcome State Fault Refusal := finish (opBuild s)

end Sys2Proof.Machine
end

