-- ==== Sys2Proof/Machine/SymCodec.lean ====
section
/-! DEFINITION. The symbol encoder and decoder (45_symcodec.md): ENCSYM, DECSYM. -/

namespace Sys2Proof.Machine

/-- The loop of ENCSYM (R230) over the input's bytes from index `i` on, `L` bits having been written. BITLEN and BITSV are set at the end. -/
def encodeFrom : List Byte → Nat → Nat → State → Res
  | [], _, L, s => .ok { s with bitLen := word L, bitsv := true }
  | b :: bs, i, L, s =>
    if codeLenAt s b.toNat = 0 then .raise .noCode (word i) s
    else if s.cfg.bitsCap < L + (codeLenAt s b.toNat).toNat then raiseCapacity .bitsBits s
    else encodeFrom bs (i + 1) (L + (codeLenAt s b.toNat).toNat) (writeBits s L (codeAt s b.toNat))

/-- ENCSYM (R230). -/
def opEncsym (s : State) : Res :=
  if s.codev = false then raiseState s
  else (checkIn s).andThen fun s => encodeFrom (inputBytes s) 0 0 s

/-- NODE[p].RIGHT for a 1, NODE[p].LEFT for a 0 (R240); a leaf has no child and DECSYM never asks for one of it. -/
def childOf (n : Node) (b : Bool) : NodeIx :=
  match n with
  | .leaf _ _ => 0
  | .internal _ l r => if b then r else l

/-- The loop of DECSYM (R240) over the bits, the walk standing at node `p`; RESID is set at the end (R243). With a leaf root the sole
symbol is emitted for each bit, whatever its value (R242). -/
def decodeBits : List Bool → NodeIx → State → Res
  | [], p, s => .ok { s with resid := decide (p ≠ s.root) }
  | b :: bs, p, s =>
    match nodeAt s s.root.toNat with
    | .leaf _ sym => (outAppend sym s).andThen (decodeBits bs p)
    | .internal _ _ _ =>
      match nodeAt s (childOf (nodeAt s p.toNat) b).toNat with
      | .leaf _ sym => (outAppend sym s).andThen (decodeBits bs s.root)
      | .internal _ _ _ => decodeBits bs (childOf (nodeAt s p.toNat) b) s

/-- DECSYM (R240). -/
def opDecsym (s : State) : Res :=
  if s.treev = false ∨ s.bitsv = false then raiseState s
  else decodeBits (bitString s) s.root s

/-- ENCSYM (R230), to its completion. -/
def execEncsym (s : State) : Host.Outcome State Fault Refusal := finish (opEncsym s)

/-- DECSYM (R240), to its completion. -/
def execDecsym (s : State) : Host.Outcome State Fault Refusal := finish (opDecsym s)

end Sys2Proof.Machine
end

