-- ==== Sys2Proof/Machine/Control.lean ====
section
/-! DEFINITION. The control and composite commands (46_control.md): NOP, CLR, ENCODE, DECODE, and a word that is no command (R95). -/

namespace Sys2Proof.Machine

/-- NOP (R250): nothing beyond acceptance and completion. -/
def opNop (s : State) : Res := .ok s

/-- CLR (R251): the return from a fault. -/
def opClr (s : State) : Res := .ok (faultReturn s)

/-- Begin step `n` of a composite command (R27) and run its procedure. -/
def stepOf (n : Nat) (op : State → Res) (s : State) : Res := op (setSeq n s)

/-- Step 0 of ENCODE (R255): the empty-input check first, then CheckIn, then CLRW. -/
def encodeStart (s : State) : Res :=
  if s.inLen = 0 then .raise .emptyInput 0 s else (checkIn s).andThen fun s => .ok (clrw s)

/-- Step 0 of DECODE (R260). -/
def decodeStart (s : State) : Res := (checkIn s).andThen fun s => .ok (clrw s)

/-- The end of a composite command: SEQ <- one past its last step. -/
def endSeq (n : Nat) (s : State) : Res := .ok (setSeq n s)

/-- ENCODE (R255): SEQ names the step that is running. -/
def opEncode (s : State) : Res :=
  ((((((((stepOf 0 encodeStart s).andThen (stepOf 1 opCount)).andThen (stepOf 2 opBuild)).andThen (stepOf 3 opGencode)).andThen
    (stepOf 4 opSerialize)).andThen (stepOf 5 opEncsym)).andThen (stepOf 6 opWrhdr)).andThen (stepOf 7 opPack)).andThen (endSeq 8)

/-- DECODE (R260). -/
def opDecode (s : State) : Res :=
  (((((stepOf 0 decodeStart s).andThen (stepOf 1 opDeserialize)).andThen (stepOf 2 opRdhdr)).andThen (stepOf 3 opUnpack)).andThen
    (stepOf 4 opDecsym)).andThen (endSeq 5)

/-- NOP (R250), to its completion. -/
def execNop (s : State) : Host.Outcome State Fault Refusal := finish (opNop s)

/-- CLR (R251), to its completion. -/
def execClr (s : State) : Host.Outcome State Fault Refusal := finish (opClr s)

/-- ENCODE (R255), to its completion. -/
def execEncode (s : State) : Host.Outcome State Fault Refusal := finish (opEncode s)

/-- DECODE (R260), to its completion. -/
def execDecode (s : State) : Host.Outcome State Fault Refusal := finish (opDecode s)

/-- A command word that selects no command (R94, R95, R287): Fault(ILLEGAL, w), to its completion. -/
def execIllegal (w : Word) (s : State) : Host.Outcome State Fault Refusal := finish (.raise .illegal w s)

end Sys2Proof.Machine
end

