-- ==== Sys2Proof/Machine/Dispatch.lean ====
section
/-! DEFINITION. The one dispatch from a command to its meaning. Each meaning runs the command from its acceptance to its completion
(30_encoding.md R94). -/

namespace Sys2Proof.Machine

def exec (i : Instr) (s : State) : Host.Outcome State Fault Refusal :=
  match i with
  | .nop => Sys2Proof.Machine.execNop s
  | .clr => Sys2Proof.Machine.execClr s
  | .pqInsert n => Sys2Proof.Machine.execPqInsert n s
  | .pqExtract => Sys2Proof.Machine.execPqExtract s
  | .count => Sys2Proof.Machine.execCount s
  | .mkleaves => Sys2Proof.Machine.execMkleaves s
  | .merge => Sys2Proof.Machine.execMerge s
  | .setroot => Sys2Proof.Machine.execSetroot s
  | .build => Sys2Proof.Machine.execBuild s
  | .gencode => Sys2Proof.Machine.execGencode s
  | .serialize => Sys2Proof.Machine.execSerialize s
  | .deserialize => Sys2Proof.Machine.execDeserialize s
  | .wrhdr => Sys2Proof.Machine.execWrhdr s
  | .pack => Sys2Proof.Machine.execPack s
  | .rdhdr => Sys2Proof.Machine.execRdhdr s
  | .unpack => Sys2Proof.Machine.execUnpack s
  | .encsym => Sys2Proof.Machine.execEncsym s
  | .decsym => Sys2Proof.Machine.execDecsym s
  | .encode => Sys2Proof.Machine.execEncode s
  | .decode => Sys2Proof.Machine.execDecode s

end Sys2Proof.Machine
end

