-- ==== Sys2Proof/Machine/Flags.lean ====
section
/-! DEFINITION. The flags: STATUS and CTRL as words (10_state.md R22, R24), ERRF, the host's write to STATUS, and irq (R295). -/

namespace Sys2Proof.Machine

/-- STATUS.ERRF equals (ERR ≠ 0) at all times (R24). -/
def errf (s : State) : Bool := decide (s.err ≠ 0)

/-- A flag at its bit of a word. -/
def flagBit (b : Bool) (i : Nat) : Word := if b then (1 : Word) <<< i else 0

/-- STATUS as the host reads it (R24): bits 31:9 read 0. -/
def statusWord (s : State) : Word :=
  flagBit s.busy 0 ||| flagBit s.done 1 ||| flagBit (errf s) 2 ||| flagBit s.treev 3 ||| flagBit s.codev 4 |||
    flagBit s.bitsv 5 ||| flagBit s.hdrv 6 ||| flagBit s.degen 7 ||| flagBit s.resid 8

/-- CTRL as the host reads it (R22): bits 31:2 read 0. -/
def ctrlWord (s : State) : Word := flagBit s.dgm 0 ||| flagBit s.ie 1

/-- The host's write to CTRL (R22): bits 31:2 ignored. -/
def writeCtrl (v : Word) (s : State) : State := { s with dgm := v.getLsbD 0, ie := v.getLsbD 1 }

/-- The host's write to STATUS (R24): a 1 in bit 1 clears DONE, everything else is ignored. -/
def writeStatus (v : Word) (s : State) : State := { s with done := s.done && !v.getLsbD 1 }

/-- The interrupt output (R295). -/
def irq (s : State) : Bool := s.ie && s.done

end Sys2Proof.Machine
end

