-- ==== Sys2Proof/Machine/Operands.lean ====
section
/-! DEFINITION. The forms in which the outside names what a command works on: the address map of the host bus (20_memory.md R61 to R65,
R70, R75), the reads and writes through it, and the acceptance of a command word (30_encoding.md R94). A command's own operand is
ARG, read by the decoder (R92). -/

namespace Sys2Proof.Machine

/-- An item of the map that is read and written as a 32-bit word (R61). -/
inductive WordItem where
  | id
  | ctrl
  | cmd
  | status
  | err
  | einfo
  | seq
  | inLen
  | outLen
  | payLen
  | rem
  | cur
  | bitLen
  | nnode
  | root
  | hsize
  | pqOut
  | freq (s : Nat)
  | heap (i : Nat)
  | codeLen (s : Nat)
  | node (i w : Nat)
  | codeBits (s w : Nat)
  deriving DecidableEq, Repr

/-- An item of the map that is read and written as a byte (R61). -/
inductive ByteItem where
  | inp (i : Nat)
  | out (i : Nat)
  deriving DecidableEq, Repr

/-- The registers of the map (R61). -/
def registerMap : List (Nat × WordItem) :=
  [ (0x000, .id), (0x004, .ctrl), (0x008, .cmd), (0x00C, .status), (0x010, .err), (0x014, .einfo), (0x018, .seq),
    (0x020, .inLen), (0x024, .outLen), (0x028, .payLen), (0x02C, .rem), (0x030, .cur), (0x034, .bitLen), (0x038, .nnode),
    (0x03C, .root), (0x040, .hsize), (0x044, .pqOut) ]

/-- The word item at an offset, if the offset is mapped, a multiple of 4 and below 0x4000 (R61, R62). -/
def wordItem (a : Nat) : Option WordItem :=
  if a % 4 ≠ 0 then none
  else if a < 0x400 then registerMap.lookup a
  else if a < 0x800 then some (.freq ((a - 0x400) / 4))
  else if a < 0xC00 then some (.heap ((a - 0x800) / 4))
  else if a < 0x1000 then some (.codeLen ((a - 0xC00) / 4))
  else if a < 0x2000 then some (.node ((a - 0x1000) / 8) ((a - 0x1000) % 8 / 4))
  else if a < 0x4000 then some (.codeBits ((a - 0x2000) / 32) ((a - 0x2000) % 32 / 4))
  else none

/-- The byte item at an offset, if the offset lies in the IN or the OUT window (R61, R63). -/
def byteItem (p : Config.Params) (a : Nat) : Option ByteItem :=
  if 0x01000000 ≤ a ∧ a < 0x01000000 + p.inCap then some (.inp (a - 0x01000000))
  else if 0x02000000 ≤ a ∧ a < 0x02000000 + p.outCap then some (.out (a - 0x02000000))
  else none

/-- A word item's value, zero-extended (R62; the layouts of R21 to R42). -/
def readWord (s : State) : WordItem → Word
  | .id => 0x00070001
  | .ctrl => ctrlWord s
  | .cmd => s.cmd
  | .status => statusWord s
  | .err => s.err.setWidth 32
  | .einfo => s.einfo
  | .seq => s.seq.setWidth 32
  | .inLen => s.inLen
  | .outLen => s.outLen
  | .payLen => s.payLen
  | .rem => s.rem.setWidth 32
  | .cur => s.cur
  | .bitLen => s.bitLen
  | .nnode => s.nnode.setWidth 32
  | .root => s.root.setWidth 32
  | .hsize => s.hsize.setWidth 32
  | .pqOut => s.pqOut.setWidth 32
  | .freq i => freqAt s i
  | .heap i => (heapAt s i).setWidth 32
  | .codeLen i => (codeLenAt s i).setWidth 32
  | .node i w => if w = 0 then (nodeAt s i).weight else (nodeAt s i).word1
  | .codeBits i w => codeWord (codeBitsAt s i) w

/-- A byte item's value (R63, R70). -/
def readByte (s : State) : ByteItem → Byte
  | .inp i => inByte s i
  | .out i => outByte s i

/-- A write to CMD while idle (R94, R291): ignored while ERR ≠ 0 unless the word is CLR, else the command is accepted. -/
def offerCommand (w : Word) (s : State) : State :=
  if s.err ≠ 0 ∧ w ≠ 0x00000001 then s
  else { s with cmd := w, done := false, busy := true, seq := 0 }

/-- A write to a word item while idle (R61, R75): a read-only item ignores it. -/
def writeWord (s : State) (v : Word) : WordItem → State
  | .id => s
  | .ctrl => writeCtrl v s
  | .cmd => offerCommand v s
  | .status => writeStatus v s
  | .err => s
  | .einfo => s
  | .seq => s
  | .inLen => { s with inLen := v }
  | .outLen => s
  | .payLen => s
  | .rem => s
  | .cur => s
  | .bitLen => s
  | .nnode => s
  | .root => s
  | .hsize => s
  | .pqOut => s
  | .freq i => setFreq s i v
  | .heap _ => s
  | .codeLen _ => s
  | .node _ _ => s
  | .codeBits _ _ => s

/-- A write to a byte item while idle (R63, R75): OUT is read-only. -/
def writeByte (s : State) (v : Byte) : ByteItem → State
  | .inp i => setIn s i v
  | .out _ => s

/-- Give the host a response (R60). -/
def respond (r : Response) (s : State) : State := { s with log := r :: s.log }

/-- A transaction while BUSY (R65): a 4-byte read of STATUS is answered, everything else gets ERROR and has no effect. -/
def busyTransact (t : Txn) (s : State) : State :=
  if t = .read4 0x00C then respond (.okWord (statusWord s)) s else respond .error s

/-- A transaction while idle (R61 to R64). -/
def idleTransact (t : Txn) (s : State) : State :=
  match t with
  | .read4 a =>
    match wordItem a.toNat with
    | some i => respond (.okWord (readWord s i)) s
    | none => respond .error s
  | .read1 a =>
    match byteItem s.cfg a.toNat with
    | some i => respond (.okByte (readByte s i)) s
    | none => respond .error s
  | .write4 a v =>
    match wordItem a.toNat with
    | some i => respond .okWrite (writeWord s v i)
    | none => respond .error s
  | .write1 a v =>
    match byteItem s.cfg a.toNat with
    | some i => respond .okWrite (writeByte s v i)
    | none => respond .error s

/-- One bus transaction (R60, R64, R65). -/
def transact (t : Txn) (s : State) : State := if s.busy then busyTransact t s else idleTransact t s

/-- Assertion of `rst` (R320 to R322): the reset state of R321, whatever the core was doing. IN becomes unspecified again: the bytes
the host wrote are unlisted and the counter of resets advances (log 4, log 13). The parameters and the host's side of the bus stay. -/
def assertReset (s : State) : State :=
  { State.reset with cfg := s.cfg, host := s.host, log := s.log, resets := s.resets + 1 }

end Sys2Proof.Machine
end

