-- ==== Sys2Proof/Machine/Turn.lean ====
section
/-! DEFINITION. Whose turn it is and what happens in it: the core runs the accepted command, or the host makes its next move
(00_scope.md R11; 20_memory.md R65, R71, R74; 30_encoding.md R94). -/

namespace Sys2Proof.Machine

/-- The atomic change by which a BUSY core runs the command in CMD (R94): decode, then the command or Fault(ILLEGAL). -/
def runCommand (s : State) : Host.Outcome State Fault Refusal :=
  match Sys2Proof.decode s.cmd with
  | .ok i => exec i s
  | .error _ => execIllegal s.cmd s

/-- The core's turn: a BUSY core completes its command; an idle one waits (R323). -/
def coreTurn (s : State) : Host.Outcome State Fault Refusal := if s.busy then runCommand s else .next s

/-- The host's move `m` (R60, R102, R320): a transaction, waiting (the core has its turn before the host's next transaction), reset. -/
def hostTurn (m : HostMove) (s : State) : Host.Outcome State Fault Refusal :=
  match m with
  | .txn t => .next (transact t s)
  | .wait => coreTurn s
  | .rst => .next (assertReset s)

/-- One turn: the host's next move where it has one, else the core's turn (log 1). -/
def turn (s : State) : Host.Outcome State Fault Refusal :=
  match s.host with
  | [] => coreTurn s
  | m :: rest => hostTurn m { s with host := rest }

/-- The state right after the acceptance of the command word `w` (R94), the host waiting for the command's completion: the very
next turn runs the word. -/
def acceptedWord (w : Word) (s : State) : State :=
  { s with cmd := w, done := false, busy := true, seq := 0, host := .wait :: s.host }

end Sys2Proof.Machine
end

