-- ==== Sys2Proof/Machine/Step.lean ====
section
/-! DEFINITION. One step of the machine, and how a command word is put where the next step runs it (log 9). -/

namespace Sys2Proof.Machine

/-- One step: one turn of the host or of the core. -/
def step (s : State) : Host.Outcome State Fault Refusal := turn s

/-- `s` with the command word of a table row accepted (R94): CMD holds it, the core is BUSY and the host waits, so that the very next
step runs it. Bits above `nbits` are 0. -/
def State.withFetchWord (s : State) (nbits w : Nat) : State := acceptedWord (word (w % 2 ^ nbits)) s

end Sys2Proof.Machine
end

