-- ==== Sys2Proof/Machine/Abstract.lean ====
section
/-! DEFINITION. The manual's functions on abstract values, in which statements are made: trees (00_scope.md R9; 10_state.md R51), codes
(R161), the serialized tree (R176), packing (R202), unpacking (R207), encoding (R231), walking (R241), the queue as a list (R110), and where a text is no tree (R184) or no
header (R205). -/

namespace Sys2Proof.Machine

/-- The abstract tree (R9). -/
inductive Tree where
  | leaf (w : Nat) (s : Byte)
  | internal (w : Nat) (l r : Tree)
  deriving DecidableEq, Repr

/-- The node count of a tree (R9). -/
def Tree.size : Tree → Nat
  | .leaf _ _ => 1
  | .internal _ l r => 1 + l.size + r.size

/-- The number of edges on the longest path from the root to a leaf (R9). -/
def Tree.depth : Tree → Nat
  | .leaf _ _ => 0
  | .internal _ l r => 1 + max l.depth r.depth

/-- The leaf symbols from left to right (R9). -/
def Tree.leaves : Tree → List Byte
  | .leaf _ s => [s]
  | .internal _ l r => l.leaves ++ r.leaves

/-- The leaves from left to right, each with its weight (R9). -/
def Tree.weighted : Tree → List (Byte × Nat)
  | .leaf w s => [(s, w)]
  | .internal _ l r => l.weighted ++ r.weighted

/-- The weight at the root (R9). -/
def Tree.weight : Tree → Nat
  | .leaf w _ => w
  | .internal w _ _ => w

/-- Every internal node's weight is the sum of its children's (R9, R151). -/
def Tree.Summed : Tree → Prop
  | .leaf _ _ => True
  | .internal w l r => w = l.weight + r.weight ∧ l.Summed ∧ r.Summed

/-- The tree is more than a single leaf (R9, R149). -/
def Tree.isInternal : Tree → Bool
  | .leaf _ _ => false
  | .internal _ _ _ => true

/-- The tree with every weight replaced by 0 (R182, R191). -/
def Tree.zeroed : Tree → Tree
  | .leaf _ s => .leaf 0 s
  | .internal _ l r => .internal 0 l.zeroed r.zeroed

/-- `tree_of(i)` (R51), reading the NODE table to a given depth; none where the tree goes deeper. -/
def treeOf (t : Table Node) : Nat → Nat → Option Tree
  | 0, _ => none
  | fuel + 1, i =>
    match nodeOf t i with
    | .leaf w s => some (.leaf w.toNat s)
    | .internal w l r =>
      match treeOf t fuel l.toNat, treeOf t fuel r.toNat with
      | some a, some b => some (.internal w.toNat a b)
      | _, _ => none

/-- "The tree", tree_of(ROOT) (R51). -/
def stateTree (s : State) : Option Tree := treeOf s.node walkDepth s.root.toNat

/-- `codes(t, path)` (R161). -/
def Tree.codes : Tree → List Bool → List (Byte × List Bool)
  | .leaf _ s, path => [(s, path)]
  | .internal _ l r, path => l.codes (path ++ [false]) ++ r.codes (path ++ [true])

/-- The path of the last pair for a symbol in a list of pairs, the empty string if there is none (R161, R164). -/
def lastCode (c : List (Byte × List Bool)) (b : Byte) : List Bool :=
  c.foldl (fun acc p => if p.1 = b then p.2 else acc) []

/-- CODE[b] after GENCODE on a tree (R161, R162). -/
def Tree.codeOf (t : Tree) (b : Byte) : List Bool :=
  match t with
  | .leaf _ s => if s = b then [false] else []
  | .internal _ _ _ => lastCode (t.codes []) b

/-- `ser(t)` (R176). -/
def Tree.ser : Tree → List Byte
  | .leaf _ s => [quoteMark, s]
  | .internal _ l r => [zeroMark] ++ l.ser ++ [oneMark] ++ r.ser

/-- The entries DESERIALIZE allocates for a tree, in the order of their indices, the first at index `b` (R181, R182): the left subtree's,
then the right subtree's, then the node's own, weights 0, each child the last entry of its subtree. -/
def Tree.postorder (b : Nat) : Tree → List Node
  | .leaf _ s => [.leaf 0 s]
  | .internal _ l r =>
    l.postorder b ++ r.postorder (b + l.size) ++
      [.internal 0 (BitVec.ofNat 9 (b + l.size - 1)) (BitVec.ofNat 9 (b + l.size + r.size - 1))]

/-- The way down to a node in the text of a tree (R98): one entry per internal node above it, outermost first, `none` where the way goes
left, `some l` where the left subtree `l` is complete and the way goes right. -/
abbrev Way := List (Option Tree)

/-- The bytes of the text on the way down (R98). -/
def Way.text (w : Way) : List Byte :=
  w.flatMap fun o => match o with
    | none => [0x30]
    | some l => 0x30 :: (l.ser ++ [0x31])

/-- The nodes begun on the way down (R183). -/
def Way.nodes (w : Way) : Nat :=
  (w.map fun o => match o with
    | none => 1
    | some l => 1 + l.size).sum

/-- The bytes `x`, which stand at offset `start` and end the input, do not begin with a tree of at most 511 nodes: `w` is the way to the
node where R181 meets the first error, and `e` and `info` are the fault (R184 (b), (a), (c), (d), R183). -/
inductive TreeError (start : Nat) (x : List Byte) : CoreFault → Word → Prop where
  | marker (w : Way) (b : Byte) (y : List Byte) (hx : x = w.text ++ b :: y) (hw : w.nodes ≤ 511) (h27 : b ≠ 0x27) (h30 : b ≠ 0x30) :
      TreeError start x .parse (word (start + w.text.length))
  | ended (w : Way) (hx : x = w.text) (hw : w.nodes ≤ 511) : TreeError start x .parse (word (start + w.text.length))
  | symbol (w : Way) (hx : x = w.text ++ [0x27]) (hw : w.nodes < 511) : TreeError start x .parse (word (start + w.text.length + 1))
  | separator (w : Way) (l : Tree) (y : List Byte) (hx : x = w.text ++ 0x30 :: (l.ser ++ y)) (hw : w.nodes + 1 + l.size ≤ 511)
      (hy : y.head? ≠ some 0x31) : TreeError start x .parse (word (start + w.text.length + 1 + l.ser.length))
  | capacity (w : Way) (b : Byte) (y : List Byte) (hx : x = w.text ++ b :: y) (hw : w.nodes = 511) (hb : b = 0x27 ∨ b = 0x30) :
      TreeError start x .capacity 4

/-- The bytes `y`, which stand at offset `start` and end the input, do not begin with a padding-length header; `info` is the offset of the
first byte that is missing or wrong (R205). -/
inductive HeaderError (start : Nat) (y : List Byte) : Word → Prop where
  | first (h : y.head? ≠ some 0x0A) : HeaderError start y (word start)
  | digit (z : List Byte) (hy : y = 0x0A :: z) (h : ∀ d ≤ 7, z.head? ≠ some (BitVec.ofNat 8 (0x30 + d))) :
      HeaderError start y (word (start + 1))
  | second (d : Nat) (z : List Byte) (hd : d ≤ 7) (hy : y = 0x0A :: BitVec.ofNat 8 (0x30 + d) :: z) (h : z.head? ≠ some 0x0A) :
      HeaderError start y (word (start + 2))

/-- `enc(C, X)` (R231). -/
def encOf (c : Byte → List Bool) (x : List Byte) : List Bool := x.flatMap c

/-- `pad(B)` (R202). -/
def padOf (b : List Bool) : List Bool := b ++ List.replicate (remOf b.length) false

/-- `pack(B)` (R202): byte j is `byte8` of the bits 8j to 8j + 7 of `pad(B)`. -/
def packOf (b : List Bool) : List Byte :=
  (List.range ((padOf b).length / 8)).map (fun j => byte8 (((padOf b).drop (8 * j)).take 8))

/-- `unpack(P, r)` (R207), defined when r ≤ 8·len(P). -/
def unpackOf (p : List Byte) (r : Nat) : List Bool := (expandBytes p).take (8 * p.length - r)

/-- `go(u, B, i)` of R241, on the bits not yet consumed; `moved` is "u is not t": a bit has been consumed since the last emission. -/
def walkFrom (t : Tree) : Tree → Bool → List Bool → List Byte × Bool
  | _, moved, [] => ([], moved)
  | u, moved, b :: bs =>
    match u with
    | .leaf _ _ => ([], moved)
    | .internal _ l r =>
      match (if b then r else l) with
      | .leaf _ s => (s :: (walkFrom t t false bs).1, (walkFrom t t false bs).2)
      | .internal w l' r' => walkFrom t (.internal w l' r') true bs

/-- What DECSYM emits, and the residual flag: `walk(t, B)` for an internal root (R241), the sole symbol once a bit for a lone leaf (R242). -/
def Tree.walk (t : Tree) (b : List Bool) : List Byte × Bool :=
  match t with
  | .leaf _ s => (b.map (fun _ => s), false)
  | .internal w l r => walkFrom (.internal w l r) (.internal w l r) false b

/-- The queue, HEAP[0 .. HSIZE − 1] (R110, R111). -/
def queueOf (s : State) : List NodeIx := (List.range s.hsize.toNat).map (heapAt s)

/-- The key of an item (R110). -/
def keyOf (s : State) (n : NodeIx) : Nat := (nodeAt s n.toNat).weight.toNat

/-- The node a second PqExtract would return (R113): the top after the first one. -/
def secondLeast (s : State) : NodeIx := heapAt (siftDown (s.hsize - 1).toNat 0 (dropTop s)) 0

/-- The present symbols in ascending order (R130, R134). -/
def presentSymbols (s : State) : List Nat := (List.range 256).filter (fun i => decide (freqAt s i ≠ 0))

/-- The sum of the frequencies (R151). -/
def freqTotal (s : State) : Nat := ((List.range 256).map (fun i => (freqAt s i).toNat)).sum

/-- The state a command that raises Fault(c, info) in state `s` ends in (R290): fault entry and completion. -/
def faulted (c : CoreFault) (info : Word) (s : State) : State := complete (faultEntry c info s)

end Sys2Proof.Machine
end

