-- ==== Sys2Proof/Safety.lean ====
section
/-! DEFINITION. What counts as a safe run: the canonical form of the tables, the invariants of 10_state.md R47 and 40_pq.md R116, the
ranges of the registers, and the launch premise on IN of R44. Statements use them as invariants and as premises. -/

namespace Sys2Proof.Machine

/-- Every table and buffer is in its one canonical form (log 15): indices strictly rising, nothing listed that an unlisted index reads as. -/
abbrev Memory.wf (s : State) : Prop :=
  tableWf 0 s.freq ∧ tableWf 0 s.heap ∧ tableWf (Node.leaf 0 0) s.node ∧ tableWf 0 s.codeLen ∧ tableWf 0 s.codeBits ∧
    tableWf false s.bits ∧ tableWf 0 s.outBuf ∧ tableSorted s.inBuf

/-- R47 (b) and what R133 says with it: the children of an internal node have smaller indices. -/
abbrev childrenBelow (t : Table Node) : Prop :=
  ∀ e ∈ t, match e.2 with
    | .leaf _ _ => True
    | .internal _ l r => l.toNat < e.1 ∧ r.toNat < e.1

/-- R47 (a), (b), (c) first half and (f) of NNODE and HSIZE: nothing listed at or above NNODE in NODE or HSIZE in HEAP, children below
their parent, queued items allocated, NNODE ≤ 511, HSIZE ≤ 256. -/
abbrev TreeStructure (s : State) : Prop :=
  s.nnode.toNat ≤ 511 ∧ s.hsize.toNat ≤ 256 ∧
    (∀ e ∈ s.node, e.1 < s.nnode.toNat) ∧ (∀ e ∈ s.heap, e.1 < s.hsize.toNat) ∧ childrenBelow s.node ∧
    (∀ n ∈ queueOf s, n.toNat < s.nnode.toNat) ∧ (s.treev = true → s.root.toNat < s.nnode.toNat)

/-- The next step runs the command `i` (R94). -/
abbrev Runs (i : Instr) (s : State) : Prop :=
  s.busy = true ∧ (s.host = [] ∨ ∃ rest, s.host = .wait :: rest) ∧ decode s.cmd = .ok i

/-- R35: an accepted tree's root is the last entry allocated. -/
abbrev RootIsLast (s : State) : Prop := s.treev = true → s.root.toNat + 1 = s.nnode.toNat

/-- R47 (d): the root of an accepted tree is the last entry allocated, and the queue is empty. -/
abbrev RootAlone (s : State) : Prop := RootIsLast s ∧ (s.treev = true → s.hsize = 0)

/-- While anything is queued, the last entry allocated is: so the one item SETROOT finds is that entry. -/
abbrev LastQueued (s : State) : Prop := s.hsize ≠ 0 → ∃ n ∈ queueOf s, n.toNat + 1 = s.nnode.toNat

/-- The next step runs PQ_INSERT or PQ_EXTRACT: the host drives the queue by hand (R47 (d), R145). -/
abbrev QueueByHand (s : State) : Prop := Runs .pqExtract s ∨ ∃ n, Runs (.pqInsert n) s

/-- The next step runs PQ_INSERT and a tree has been accepted: the exception R47 (d) makes. -/
abbrev InsertAfterTree (s : State) : Prop := s.treev = true ∧ ∃ n, Runs (.pqInsert n) s

/-- The next step runs SETROOT, and the one item queued is not the last entry allocated: the corner case of R145. -/
abbrev RootByHand (s : State) : Prop := Runs .setroot s ∧ s.hsize = 1 ∧ (heapAt s 0).toNat + 1 ≠ s.nnode.toNat

/-- R116: no queued item has a smaller key than the item at its parent's position. -/
abbrev HeapOrder (s : State) : Prop :=
  ∀ j < s.hsize.toNat, 0 < j → (hkey s ((j - 1) / 2)).toNat ≤ (hkey s j).toNat

/-- R47 (e) without its history: DEGEN only with an accepted tree whose root is a leaf. -/
abbrev DegenMeansLeaf (s : State) : Prop :=
  s.degen = true → s.treev = true ∧ ∃ w b, nodeAt s s.root.toNat = .leaf w b

/-- R47 (f) of the lengths, with the parameters as R4 allows them. -/
abbrev LengthsFit (s : State) : Prop :=
  s.cfg.Allowed ∧ s.outLen.toNat ≤ s.cfg.outCap ∧ s.bitLen.toNat ≤ s.cfg.bitsCap

/-- The ranges of the fault registers and of SEQ (R25, R26, R27, R280), and R94: ERR is 0 to 9, EINFO is 0 when ERR is 0, SEQ is at
most 8, DONE is 0 while BUSY is 1. -/
abbrev RegisterRanges (s : State) : Prop :=
  s.err.toNat ≤ 9 ∧ (s.err = 0 → s.einfo = 0) ∧ s.seq.toNat ≤ 8 ∧ (s.busy = true → s.done = false)

/-- R42: every bit of CODEBITS[b] at and above position CODELEN[b] is 0. -/
abbrev CodeBitsMasked (s : State) : Prop :=
  ∀ b < 256, ∀ j < 256, (codeLenAt s b).toNat ≤ j → (codeBitsAt s b).getMsbD j = false

/-- The launch premise of R44 and U2: the host has written IN[0 .. IN_LEN − 1] since reset. -/
abbrev InputWritten (s : State) : Prop := ∀ i < s.inLen.toNat, (tableFind s.inBuf i).isSome

end Sys2Proof.Machine
end

