-- ==== Sys2Proof/Certificates/Slice0/Obligations.lean ====
section
/-! DEFINITION. The statements for the provers, by family: encoding, the step, the bus, reset, faults, invariants, then the commands in the
opcode table's order. A frame is written as `t = { s with … }`: whatever is not named there is unchanged, every byte of IN and OUT among it. -/

namespace Sys2Proof.Claims

open Sys2Proof Sys2Proof.Machine

/-- The format-N words of R93 and the commands they stand for. -/
def formatNWords : List (Word × Instr) :=
  [ (0x00, .nop), (0x01, .clr), (0x11, .pqExtract), (0x20, .count), (0x21, .mkleaves), (0x22, .merge), (0x23, .setroot),
    (0x24, .build), (0x30, .gencode), (0x40, .serialize), (0x41, .deserialize), (0x50, .wrhdr), (0x51, .pack), (0x52, .rdhdr),
    (0x53, .unpack), (0x60, .encsym), (0x61, .decsym), (0x70, .encode), (0x71, .decode) ]

/-- What R61 to R63 let a transaction address: a mapped, aligned word or a byte of the IN or the OUT window. -/
def LegalAccess (p : Config.Params) : Txn → Prop
  | .read4 a => a.toNat % 4 = 0 ∧ (a.toNat < 0x1C ∨ 0x20 ≤ a.toNat ∧ a.toNat < 0x48 ∨ 0x400 ≤ a.toNat ∧ a.toNat < 0x4000)
  | .write4 a _ => a.toNat % 4 = 0 ∧ (a.toNat < 0x1C ∨ 0x20 ≤ a.toNat ∧ a.toNat < 0x48 ∨ 0x400 ≤ a.toNat ∧ a.toNat < 0x4000)
  | .read1 a =>
    0x01000000 ≤ a.toNat ∧ a.toNat < 0x01000000 + p.inCap ∨ 0x02000000 ≤ a.toNat ∧ a.toNat < 0x02000000 + p.outCap
  | .write1 a _ =>
    0x01000000 ≤ a.toNat ∧ a.toNat < 0x01000000 + p.inCap ∨ 0x02000000 ≤ a.toNat ∧ a.toNat < 0x02000000 + p.outCap

/-- `t` differs from `s` only in having all work state cleared (R48), in ERR, EINFO, SEQ, FREQ, the OUT array behind OUT_LEN = 0, BUSY
and DONE. -/
def WorkStateCleared (s t : State) : Prop :=
  t = { s with
    treev := false, codev := false, bitsv := false, hdrv := false, degen := false, resid := false,
    outLen := 0, payLen := 0, rem := 0, cur := 0, bitLen := 0, nnode := 0, root := 0, hsize := 0, pqOut := 0,
    node := [], heap := [], codeLen := [], codeBits := [], bits := [],
    err := t.err, einfo := t.einfo, seq := t.seq, freq := t.freq, outBuf := t.outBuf, busy := t.busy, done := t.done }

/-- The complete list of R286: the state a command needs is absent. UNPACK checks IN_LEN before the cursor (R206, R293). -/
def Lacks (i : Instr) (s : State) : Prop :=
  match i with
  | .gencode => s.treev = false
  | .serialize => s.treev = false
  | .decsym => s.treev = false ∨ s.bitsv = false
  | .encsym => s.codev = false
  | .wrhdr => s.bitsv = false
  | .pack => s.bitsv = false
  | .unpack => s.hdrv = false ∨ s.inLen.toNat ≤ s.cfg.inCap ∧ s.inLen.toNat < s.cur.toNat
  | .setroot => s.hsize ≠ 1
  | .nop | .clr | .pqInsert _ | .pqExtract | .count | .mkleaves | .merge | .build | .deserialize | .rdhdr | .encode | .decode => False

/-- What a command's end is continued by: where it ended without fault, the command `i` runs next, accepted like any other (R94: BUSY 1,
DONE 0) but for CMD and SEQ, which stay; where it faulted, nothing runs. -/
def thenRun (i : Instr) : Host.Outcome State Fault Refusal → Host.Outcome State Fault Refusal
  | .next t => if t.err = 0 then exec i { t with busy := true, done := false } else .next t
  | .fault f => .fault f
  | .refused r => .refused r

/-- SEQ <- n where no fault has ended the command (R27). -/
def atStep (n : Nat) : Host.Outcome State Fault Refusal → Host.Outcome State Fault Refusal
  | .next t => if t.err = 0 then .next { t with seq := BitVec.ofNat 4 n } else .next t
  | .fault f => .fault f
  | .refused r => .refused r

/-- `while HSIZE > 1: MERGE` (R148), for at most a number of turns. -/
def mergeWhile : Nat → Host.Outcome State Fault Refusal → Host.Outcome State Fault Refusal
  | 0, o => o
  | k + 1, .next t => if t.err = 0 ∧ 1 < t.hsize.toNat then mergeWhile k (thenRun .merge (.next t)) else .next t
  | _ + 1, .fault f => .fault f
  | _ + 1, .refused r => .refused r

/-- The outcome is fault entry from `s` with this ERR, EINFO and SEQ. -/
def EndsIn (s : State) (o : Host.Outcome State Fault Refusal) (err : BitVec 8) (einfo : Word) (seq : BitVec 4) : Prop :=
  ∃ t, o = .next t ∧ WorkStateCleared s t ∧ t.err = err ∧ t.einfo = einfo ∧ t.seq = seq

end Sys2Proof.Claims

open Sys2Proof Sys2Proof.Machine Sys2Proof.Claims

/-! ## Encoding and the step -/

/-- R91, R92, R93, R95: decoding the word of a well-formed command gives the command back, every operand at every value. -/
def Obligations.DecodeOfEncodeIsIdentity : Prop :=
  ∀ i : Instr, WellFormed i = true → decode (encode i) = .ok i

/-- R95: which words select which command, that the rows are disjoint, and that every other word is illegal and raises
Fault(ILLEGAL, w). -/
def Obligations.WordSelectsTheCommandOfItsRow : Prop :=
  ∀ w : Word,
    (∀ n, decode w = .ok (.pqInsert n) ↔ w &&& 0xFFFE00FF = 0x00000010 ∧ n = (w.extractLsb' 8 9).toNat) ∧
    (∀ e ∈ formatNWords, decode w = .ok e.2 ↔ w = e.1) ∧
    ((∃ r, decode w = .error r) ↔ w &&& 0xFFFE00FF ≠ 0x00000010 ∧ ∀ e ∈ formatNWords, w ≠ e.1) ∧
    (opcodeMap.filter (rowMatches w)).length ≤ 1 ∧
    ∀ s : State, s.busy = true → s.host = [] → s.cmd = w → (∃ r, decode w = .error r) → step s = .next (faulted .illegal w s)

/-- Sanity: words written out from R93 and the examples of R95, one per family, decode to what they stand for. -/
def Obligations.SpecWordsDecode : Prop :=
  decode 0x00000000 = .ok .nop ∧ decode 0x0001FF10 = .ok (.pqInsert 511) ∧ decode 0x00000020 = .ok .count ∧
    decode 0x00000030 = .ok .gencode ∧ decode 0x00000041 = .ok .deserialize ∧ decode 0x00000053 = .ok .unpack ∧
    decode 0x00000060 = .ok .encsym ∧ decode 0x00000071 = .ok .decode ∧
    decode 0x00000002 = .error (.noSuchOpcode 0x02) ∧ decode 0x00000120 = .error (.reservedBits 0x20) ∧
    decode 0x00020010 = .error (.reservedBits 0x10)

/-- R94: when CMD of a BUSY core holds a command's word and it is the core's turn (the host has no move to make, or waits), the step
is exec of that command; `withFetchWord` makes exactly that the next step. -/
def Obligations.StepRunsTheDecodedCommand : Prop :=
  ∀ (s : State) (i : Instr),
    (s.busy = true → decode s.cmd = .ok i → s.host = [] → step s = exec i s) ∧
    (∀ rest, s.busy = true → decode s.cmd = .ok i → s.host = .wait :: rest → step s = exec i { s with host := rest }) ∧
    (∀ w : Word, decode w = .ok i →
      step (s.withFetchWord 32 w.toNat) = exec i { s with cmd := w, done := false, busy := true, seq := 0 })

/-- R94, R95, R287: a word that is no command ends in Fault(ILLEGAL, w), CMD and EINFO holding the word. -/
def Obligations.IllegalWordFaults : Prop :=
  ∀ (s : State) (r : Reject), s.busy = true → decode s.cmd = .error r → s.host = [] →
    ∃ t, step s = .next t ∧ WorkStateCleared s t ∧ t.err = 7 ∧ t.einfo = s.cmd ∧ t.cmd = s.cmd ∧ t.seq = s.seq ∧ t.freq = s.freq ∧
      t.busy = false ∧ t.done = true

/-- R94, R291, R65: what a write to CMD does: refused while BUSY, ignored while ERR ≠ 0 unless it is CLR, else accepted. -/
def Obligations.CommandAcceptance : Prop :=
  ∀ (s : State) (w : Word) (rest : List HostMove), s.host = .txn (.write4 0x008 w) :: rest →
    (s.busy = true → step s = .next { s with host := rest, log := .error :: s.log }) ∧
    (s.busy = false → s.err ≠ 0 → w ≠ 0x00000001 → step s = .next { s with host := rest, log := .okWrite :: s.log }) ∧
    (s.busy = false → (s.err = 0 ∨ w = 0x00000001) →
      step s = .next { s with host := rest, log := .okWrite :: s.log, cmd := w, done := false, busy := true, seq := 0 })

/-! ## The bus -/

/-- R65: while BUSY the only transaction that gets OK is the 4-byte read of STATUS, which returns the flags as they stand, BUSY = 1 and
(R94: acceptance cleared it) DONE = 0; every other transaction gets ERROR; nothing changes. -/
def Obligations.BusyBusAnswersOnlyStatus : Prop :=
  ∀ (s : State) (t : Txn) (rest : List HostMove), s.busy = true → s.done = false → s.host = .txn t :: rest →
    step s = .next { s with
      host := rest, log := (if t = .read4 0x00C then .okWord (statusWord s) else .error) :: s.log } ∧
    (statusWord s).getLsbD 0 = true ∧ (statusWord s).getLsbD 1 = false

/-- R64: when ERROR is returned, and that nothing but the response comes of it. -/
def Obligations.BusErrorRule : Prop :=
  ∀ (s : State) (t : Txn), ∃ r, (transact t s).log = r :: s.log ∧
    (r = .error ↔ s.busy = true ∧ t ≠ .read4 0x00C ∨ s.busy = false ∧ ¬ LegalAccess s.cfg t) ∧
    (r = .error → transact t s = { s with log := .error :: s.log })

/-- R75: the complete list of side effects of host accesses while idle: no read has any, and what each write changes. -/
def Obligations.BusSideEffects : Prop :=
  ∀ (s : State), s.busy = false →
    (∀ a, ∃ r, transact (.read4 a) s = { s with log := r :: s.log }) ∧
    (∀ a, ∃ r, transact (.read1 a) s = { s with log := r :: s.log }) ∧
    (∀ a v, ∃ u r, transact (.write4 a v) s = { u with log := r :: s.log } ∧
      if a = 0x004 then u = { s with dgm := v.getLsbD 0, ie := v.getLsbD 1 }
      else if a = 0x008 then
        u = if s.err ≠ 0 ∧ v ≠ 0x00000001 then s else { s with cmd := v, done := false, busy := true, seq := 0 }
      else if a = 0x00C then u = { s with done := s.done && !v.getLsbD 1 }
      else if a = 0x020 then u = { s with inLen := v }
      else if 0x400 ≤ a.toNat ∧ a.toNat < 0x800 ∧ a.toNat % 4 = 0 then
        u = { s with freq := u.freq } ∧ ∀ i, freqAt u i = if i = (a.toNat - 0x400) / 4 then v else freqAt s i
      else u = s) ∧
    (∀ a v, ∃ u r, transact (.write1 a v) s = { u with log := r :: s.log } ∧
      if 0x01000000 ≤ a.toNat ∧ a.toNat < 0x01000000 + s.cfg.inCap then
        u = { s with inBuf := u.inBuf } ∧ ∀ i, inByte u i = if i = a.toNat - 0x01000000 then v else inByte s i
      else u = s)

/-- R61, R62, R63, R22, R41, R42: what an idle core answers to a read of each register, table entry and byte of IN; CTRL reads DGM at
bit 0, IE at bit 1 and 0 above. -/
def Obligations.BusReadValues : Prop :=
  ∀ (s : State), s.busy = false →
    (∀ e ∈ ([ (0x000, 0x00070001), (0x004, word (s.dgm.toNat + 2 * s.ie.toNat)), (0x008, s.cmd), (0x00C, statusWord s), (0x010, s.err.setWidth 32),
          (0x014, s.einfo), (0x018, s.seq.setWidth 32), (0x020, s.inLen), (0x024, s.outLen), (0x028, s.payLen),
          (0x02C, s.rem.setWidth 32), (0x030, s.cur), (0x034, s.bitLen), (0x038, s.nnode.setWidth 32),
          (0x03C, s.root.setWidth 32), (0x040, s.hsize.setWidth 32), (0x044, s.pqOut.setWidth 32) ] : List (BitVec 26 × Word)),
      transact (.read4 e.1) s = { s with log := .okWord e.2 :: s.log }) ∧
    (∀ i < 256,
      transact (.read4 (BitVec.ofNat 26 (0x400 + 4 * i))) s = { s with log := .okWord (freqAt s i) :: s.log } ∧
      transact (.read4 (BitVec.ofNat 26 (0x800 + 4 * i))) s = { s with log := .okWord ((heapAt s i).setWidth 32) :: s.log } ∧
      transact (.read4 (BitVec.ofNat 26 (0xC00 + 4 * i))) s = { s with log := .okWord ((codeLenAt s i).setWidth 32) :: s.log } ∧
      ∀ w < 8, ∃ v, transact (.read4 (BitVec.ofNat 26 (0x2000 + 32 * i + 4 * w))) s = { s with log := .okWord v :: s.log } ∧
        ∀ j < 32, v.getLsbD (31 - j) = (codeBitsAt s i).getMsbD (32 * w + j)) ∧
    (∀ i < 512,
      transact (.read4 (BitVec.ofNat 26 (0x1000 + 8 * i))) s = { s with log := .okWord (nodeAt s i).weight :: s.log } ∧
      ∃ v, transact (.read4 (BitVec.ofNat 26 (0x1004 + 8 * i))) s = { s with log := .okWord v :: s.log } ∧
        match nodeAt s i with
        | .leaf _ b => v = b.setWidth 32
        | .internal _ l r => v.toNat = 2 ^ 31 + r.toNat * 2 ^ 16 + l.toNat) ∧
    (s.cfg.Allowed → ∀ i < s.cfg.inCap,
      transact (.read1 (BitVec.ofNat 26 (0x01000000 + i))) s = { s with log := .okByte (inByte s i) :: s.log })

/-- R70: OUT reads 0 at and above OUT_LEN, hence everywhere after reset, CLR and a fault. -/
def Obligations.OutReadsZeroBeyondItsLength : Prop :=
  (∀ s : State, s.busy = false → s.cfg.Allowed → ∀ i < s.cfg.outCap,
    transact (.read1 (BitVec.ofNat 26 (0x02000000 + i))) s =
      { s with log := .okByte (if i < s.outLen.toNat then outArray s i else 0) :: s.log }) ∧
  (∀ i, outByte State.reset i = 0) ∧
  (∀ s t i, exec .clr s = .next t → outByte t i = 0) ∧
  (∀ c info s t i, finish (.raise c info s) = .next t → outByte t i = 0) ∧
  (∀ k s t i, s.err = 0 → exec k s = .next t → t.err ≠ 0 → outByte t i = 0)

/-- R24: the bits of STATUS. -/
def Obligations.StatusWordBits : Prop :=
  ∀ (s : State) (i : Nat),
    (statusWord s).getLsbD i =
      [s.busy, s.done, decide (s.err ≠ 0), s.treev, s.codev, s.bitsv, s.hdrv, s.degen, s.resid].getD i false

/-- R295: irq is IE and DONE. It rises when a command completes, with or without fault, while IE = 1, and falls when the host writes 1
to STATUS bit 1, when the next command is accepted and when IE is written 0. -/
def Obligations.InterruptFollowsDone : Prop :=
  (∀ s, irq s = true ↔ s.ie = true ∧ s.done = true) ∧
  (∀ i s t, exec i s = .next t → irq t = s.ie) ∧
  (∀ s v, s.busy = false → (v.getLsbD 1 = true → irq (transact (.write4 0x00C v) s) = false) ∧
    (v.getLsbD 1 = false → irq (transact (.write4 0x00C v) s) = irq s)) ∧
  (∀ s v, s.busy = false → v.getLsbD 1 = false → irq (transact (.write4 0x004 v) s) = false) ∧
  (∀ s v, s.busy = false → (s.err = 0 ∨ v = 0x00000001) → irq (transact (.write4 0x008 v) s) = false)

/-! ## Reset -/

/-- R50, R321: what reset leaves, as the host reads it: ID, every other register and every table entry 0, every OUT byte 0, irq 0, the
core idle. (IN is unspecified and nothing is said of it; the parameters are the model's, log 3.) -/
def Obligations.ResetState : Prop :=
  (∀ i : WordItem, readWord State.reset i = if i = .id then 0x00070001 else 0) ∧
  (∀ i, outByte State.reset i = 0) ∧ (∀ p, bitAt State.reset p = false) ∧ irq State.reset = false ∧
  State.reset.busy = false ∧ (∀ i, tableFind State.reset.inBuf i = none)

/-- R320, R322: asserting `rst` at any time, a command running or not, gives the reset state; the parameters, the host's side of the
bus and the model's counter of resets are no part of it (logs 1, 3, 4). -/
def Obligations.AssertedResetGivesTheResetState : Prop :=
  ∀ (s : State) (rest : List HostMove), s.host = .rst :: rest →
    step s = .next { State.reset with cfg := s.cfg, host := rest, log := s.log, resets := s.resets + 1 }

/-! ## Faults, over all commands -/

/-- R290: what raising a fault leaves. -/
def Obligations.FaultEntryEffect : Prop :=
  ∀ (c : CoreFault) (info : Word) (s : State), ∃ t, finish (.raise c info s) = .next t ∧ WorkStateCleared s t ∧
    t.err = c.code ∧ t.einfo = info ∧ t.err ≠ 0 ∧ t.seq = s.seq ∧ t.cmd = s.cmd ∧ t.busy = false ∧ t.done = true ∧
    t.dgm = s.dgm ∧ t.ie = s.ie ∧ t.inLen = s.inLen ∧ t.freq = s.freq ∧ t.inBuf = s.inBuf ∧ ∀ i, outByte t i = 0

/-- R48, R94, R290: no command changes what the host owns (CTRL, CMD, IN_LEN, IN, the parameters, its moves and its responses); each
ends with BUSY 0 and DONE 1; only COUNT and ENCODE write FREQ. -/
def Obligations.CommandsKeepTheHostSide : Prop :=
  ∀ (i : Instr) (s t : State), exec i s = .next t →
    t.busy = false ∧ t.done = true ∧ t.dgm = s.dgm ∧ t.ie = s.ie ∧ t.cmd = s.cmd ∧ t.inLen = s.inLen ∧ t.inBuf = s.inBuf ∧
    t.cfg = s.cfg ∧ t.host = s.host ∧ t.log = s.log ∧ t.resets = s.resets ∧ (∀ a, inByte t a = inByte s a) ∧
    (i ≠ .count → i ≠ .encode → t.freq = s.freq)

/-- R94, R290: a command that ran with ERR = 0 either completes without fault, ERR and EINFO as they were, or ends in fault entry with
every piece of work state cleared. -/
def Obligations.CommandSucceedsOrLeavesNothing : Prop :=
  ∀ (i : Instr) (s t : State), s.err = 0 → exec i s = .next t →
    t.err = 0 ∧ (i ≠ .clr → t.einfo = s.einfo) ∨
    t.err ≠ 0 ∧ WorkStateCleared s t ∧ (∀ a, outByte t a = 0) ∧ (i ≠ .encode → i ≠ .decode → t.seq = s.seq ∧ t.freq = s.freq)

/-- R292: the only ways ERR becomes 0 are the command CLR and reset. -/
def Obligations.OnlyClrAndResetClearErr : Prop :=
  ∀ s t : State, step s = .next t → s.err ≠ 0 → t.err = 0 →
    (∃ rest, s.host = .rst :: rest) ∨ s.busy = true ∧ s.cmd = 0x00000001

/-- R327: every command completes with BUSY 0, and every step has a next state, in every state whose NODE table is acyclic as R47 (b) says. -/
def Obligations.EveryCommandCompletes : Prop :=
  ∀ s : State, TreeStructure s → (∀ i : Instr, ∃ t, exec i s = .next t ∧ t.busy = false) ∧ ∃ t, step s = .next t

/-! ## Invariants that every step keeps -/

/-- The tables and buffers stay in their one canonical form. -/
def Obligations.StepKeepsTablesCanonical : Prop :=
  ∀ s t : State, Memory.wf s → step s = .next t → Memory.wf t

/-- R47 (a), (b), (c), (f): the structure of NODE and HEAP; (e): DEGEN means an accepted tree whose root is a leaf; and R35: an
accepted tree's root is NNODE − 1, for every step but a SETROOT of another node, which R145 has become the root (log 10); and (d): the
queue is empty besides, for every step but that one and the PQ_INSERT after acceptance that (d) excepts. Without PQ_INSERT and
PQ_EXTRACT the last entry allocated stays queued while anything is, so that no SETROOT finds another node. -/
def Obligations.StepKeepsTreeStructure : Prop :=
  ∀ s t : State, TreeStructure s → step s = .next t →
    TreeStructure t ∧ (DegenMeansLeaf s → DegenMeansLeaf t) ∧ (RootIsLast s → ¬ RootByHand s → RootIsLast t) ∧
      (RootAlone s → ¬ RootByHand s → ¬ InsertAfterTree s → RootAlone t) ∧
      (LastQueued s → ¬ QueueByHand s → LastQueued t ∧ ¬ RootByHand s)

/-- R116: the heap order, with the structure that makes keys constant while queued. -/
def Obligations.StepKeepsHeapOrder : Prop :=
  ∀ s t : State, TreeStructure s → HeapOrder s → step s = .next t → HeapOrder t

/-- R25, R26, R27, R94, R280: ERR, EINFO, SEQ and DONE stay in range; R47 (f), R29, R33: OUT_LEN and BITLEN stay within the
parameters. -/
def Obligations.StepKeepsRegisterRanges : Prop :=
  ∀ s t : State, step s = .next t → (RegisterRanges s → RegisterRanges t) ∧ (LengthsFit s → LengthsFit t)

/-- R42: CODEBITS beyond CODELEN stays 0. -/
def Obligations.StepKeepsCodeBitsMasked : Prop :=
  ∀ s t : State, CodeBitsMasked s → step s = .next t → CodeBitsMasked t

/-- The invariants hold at reset. -/
def Obligations.ResetMeetsTheInvariants : Prop :=
  Memory.wf State.reset ∧ TreeStructure State.reset ∧ HeapOrder State.reset ∧ DegenMeansLeaf State.reset ∧ RootAlone State.reset ∧ LastQueued State.reset ∧
    LengthsFit State.reset ∧ RegisterRanges State.reset ∧ CodeBitsMasked State.reset

/-! ## Control commands -/

/-- R250, R251: NOP changes nothing but completion; CLR clears the work state, ERR, EINFO and SEQ and keeps everything else. -/
def Obligations.NopAndClr : Prop :=
  ∀ s : State,
    exec .nop s = .next { s with busy := false, done := true } ∧
    exec .clr s = .next { s with
      treev := false, codev := false, bitsv := false, hdrv := false, degen := false, resid := false,
      outLen := 0, payLen := 0, rem := 0, cur := 0, bitLen := 0, nnode := 0, root := 0, hsize := 0, pqOut := 0,
      node := [], heap := [], codeLen := [], codeBits := [], bits := [],
      err := 0, einfo := 0, seq := 0, busy := false, done := true }

/-! ## The priority queue -/

/-- R112, R114: PQ_INSERT n adds one occurrence of n to the queue and keeps the heap order. -/
def Obligations.PqInsertQueuesItsNode : Prop :=
  ∀ (s : State) (n : Nat), n < 512 → n < s.nnode.toNat → s.hsize.toNat < 256 →
    ∃ t, exec (.pqInsert n) s = .next t ∧
      t = { s with heap := t.heap, hsize := s.hsize + 1, busy := false, done := true } ∧
      (queueOf t).Perm (BitVec.ofNat 9 n :: queueOf s) ∧
      (∀ j, s.hsize.toNat < j → heapAt t j = heapAt s j) ∧ (HeapOrder s → HeapOrder t)

/-- R114, R115, R284, R285, R288: PQ_INSERT of no allocated node faults BAD_ARG; into a full queue, CAPACITY(5); BAD_ARG is checked
first. PQ_EXTRACT on an empty queue faults PQ_EMPTY. -/
def Obligations.QueueTraps : Prop :=
  ∀ s : State,
    (∀ n, s.nnode.toNat ≤ n → exec (.pqInsert n) s = .next (faulted .badArg (word n) s)) ∧
    (∀ n, n < s.nnode.toNat → s.hsize.toNat = 256 → exec (.pqInsert n) s = .next (faulted .capacity 5 s)) ∧
    (s.hsize = 0 → exec .pqExtract s = .next (faulted .pqEmpty 0 s))

/-- R113, R115: PQ_EXTRACT removes HEAP[0], an item of least key, and reports it in PQ_OUT. -/
def Obligations.PqExtractTakesALeastItem : Prop :=
  ∀ s : State, s.hsize ≠ 0 →
    ∃ t, exec .pqExtract s = .next t ∧
      t = { s with heap := t.heap, hsize := s.hsize - 1, pqOut := heapAt s 0, busy := false, done := true } ∧
      (heapAt s 0 :: queueOf t).Perm (queueOf s) ∧ heapAt t (s.hsize.toNat - 1) = 0 ∧
      (∀ j, s.hsize.toNat ≤ j → heapAt t j = heapAt s j) ∧
      (HeapOrder s → HeapOrder t ∧ ∀ n ∈ queueOf s, keyOf s (heapAt s 0) ≤ keyOf s n)

/-! ## The frequency analyzer and the tree builder -/

/-- R132: COUNT sets FREQ to the occurrence counts of the input and changes nothing else. -/
def Obligations.CountCountsTheInput : Prop :=
  ∀ s : State, s.cfg.Allowed → s.inLen.toNat ≤ s.cfg.inCap →
    ∃ t, exec .count s = .next t ∧ t = { s with freq := t.freq, busy := false, done := true } ∧
      (∀ b : Byte, (freqAt t b.toNat).toNat = (inputBytes s).count b) ∧ ∀ i, 256 ≤ i → freqAt t i = 0

/-- R68: every command that reads IN faults CAPACITY(1) when IN_LEN exceeds IN_CAP, after the checks its rule makes first. -/
def Obligations.InputTooLongTraps : Prop :=
  ∀ s : State, s.cfg.inCap < s.inLen.toNat →
    exec .count s = .next (faulted .capacity 1 s) ∧ exec .deserialize s = .next (faulted .capacity 1 s) ∧
    exec .rdhdr s = .next (faulted .capacity 1 s) ∧
    (s.hdrv = true → exec .unpack s = .next (faulted .capacity 1 s)) ∧
    (s.codev = true → exec .encsym s = .next (faulted .capacity 1 s)) ∧
    exec .encode s = .next (faulted .capacity 1 { s with seq := 0 }) ∧
    exec .decode s = .next (faulted .capacity 1 { s with seq := 0 })

/-- R134, R152: MKLEAVES makes a leaf for each present symbol, in ascending order, and queues each. -/
def Obligations.MkleavesMakesTheLeaves : Prop :=
  ∀ s : State, presentSymbols s ≠ [] →
    ∃ t, exec .mkleaves s = .next t ∧
      t = { s with
        treev := false, codev := false, degen := false, nnode := BitVec.ofNat 10 (presentSymbols s).length, root := 0,
        hsize := BitVec.ofNat 9 (presentSymbols s).length, pqOut := 0, node := t.node, heap := t.heap,
        busy := false, done := true } ∧
      (∀ j i, (presentSymbols s)[j]? = some i → nodeAt t j = .leaf (freqAt s i) (BitVec.ofNat 8 i)) ∧
      (∀ j, (presentSymbols s).length ≤ j → nodeAt t j = .leaf 0 0 ∧ heapAt t j = 0) ∧
      (queueOf t).Perm ((List.range (presentSymbols s).length).map (BitVec.ofNat 9)) ∧ HeapOrder t

/-- R134, R148, R150, R281: MKLEAVES and BUILD with no symbol present fault EMPTY_INPUT; BUILD with one symbol and DGM = 0 faults
DEGENERATE with the symbol (R149); frequencies whose total does not fit 32 bits make BUILD fault CAPACITY(6) (R141). -/
def Obligations.BuildTraps : Prop :=
  ∀ s : State,
    (presentSymbols s = [] →
      exec .mkleaves s = .next (faulted .emptyInput 0 s) ∧ exec .build s = .next (faulted .emptyInput 0 s)) ∧
    (∀ i, presentSymbols s = [i] → s.dgm = false → exec .build s = .next (faulted .degenerate (word i) s)) ∧
    (0xFFFFFFFF < freqTotal s → exec .build s = .next (faulted .capacity 6 s))

/-- R140, R141, R142: MERGE takes the two least items out, joins them under a new internal node, the first on the left, whose weight is
their sum, and queues it. -/
def Obligations.MergeJoinsTheTwoLeast : Prop :=
  ∀ s : State, 2 ≤ s.hsize.toNat → s.hsize.toNat ≤ 256 → s.nnode.toNat < 511 →
    keyOf s (heapAt s 0) + keyOf s (secondLeast s) ≤ 0xFFFFFFFF →
    ∃ t rest, exec .merge s = .next t ∧
      t = { s with
        treev := false, codev := false, degen := false, heap := t.heap, hsize := s.hsize - 1, pqOut := secondLeast s,
        node := t.node, nnode := s.nnode + 1, busy := false, done := true } ∧
      (∀ i, nodeAt t i =
        if i = s.nnode.toNat then
          .internal (word (keyOf s (heapAt s 0) + keyOf s (secondLeast s))) (heapAt s 0) (secondLeast s)
        else nodeAt s i) ∧
      (queueOf s).Perm (heapAt s 0 :: secondLeast s :: rest) ∧ (queueOf t).Perm (nextIx s :: rest) ∧
      (HeapOrder s → (∀ n ∈ queueOf s, keyOf s (heapAt s 0) ≤ keyOf s n) ∧ ∀ n ∈ rest, keyOf s (secondLeast s) ≤ keyOf s n)

/-- R140, R141, R284, R285, R293: MERGE faults PQ_EMPTY with fewer than two items, then CAPACITY(4) with a full NODE table, then
CAPACITY(6) when the sum does not fit. -/
def Obligations.MergeTraps : Prop :=
  ∀ s : State,
    (s.hsize.toNat < 2 → exec .merge s = .next (faulted .pqEmpty 0 s)) ∧
    (2 ≤ s.hsize.toNat → s.nnode = 511 → exec .merge s = .next (faulted .capacity 4 s)) ∧
    (2 ≤ s.hsize.toNat → s.nnode ≠ 511 → 0xFFFFFFFF < keyOf s (heapAt s 0) + keyOf s (secondLeast s) →
      exec .merge s = .next (faulted .capacity 6 s))

/-- R145, R146: SETROOT takes the last item out of the queue and accepts it as the root. -/
def Obligations.SetrootAcceptsTheLastItem : Prop :=
  ∀ s : State, s.hsize = 1 → (s.dgm = true ∨ (nodeAt s (heapAt s 0).toNat).isLeaf = false) →
    ∃ t, exec .setroot s = .next t ∧
      t = { s with
        codev := false, treev := true, degen := (nodeAt s (heapAt s 0).toNat).isLeaf, heap := t.heap, hsize := 0,
        pqOut := heapAt s 0, root := heapAt s 0, busy := false, done := true } ∧
      ∀ j, heapAt t j = if j = 0 then 0 else heapAt s j

/-- R145, R146, R283, R286: SETROOT faults STATE unless exactly one item is queued, and DEGENERATE with the symbol for a leaf with DGM = 0. -/
def Obligations.SetrootTraps : Prop :=
  ∀ s : State,
    (s.hsize ≠ 1 → exec .setroot s = .next (faulted .stateAbsent 0 s)) ∧
    (∀ w b, s.hsize = 1 → s.dgm = false → nodeAt s (heapAt s 0).toNat = .leaf w b →
      exec .setroot s = .next (faulted .degenerate (b.setWidth 32) s))

/-- R148, R103, R153, R151, R152: BUILD is MKLEAVES, then MERGE while HSIZE > 1, then SETROOT, the first fault ending it; the loop turns
k − 1 times for k present symbols. It makes a tree whose leaves are the present symbols with their frequencies, whose inner weights are the sums
of the children's, whose root weight is the total, and whose nodes are numbered leaves first, root last. -/
def Obligations.BuildMakesTheTree : Prop :=
  (∀ s : State, s.busy = true → s.done = false → s.err = 0 →
    exec .build s = thenRun .setroot (mergeWhile 256 (exec .mkleaves s)) ∧
    exec .build s = thenRun .setroot ((thenRun .merge)^[(presentSymbols s).length - 1] (exec .mkleaves s))) ∧
  ∀ s : State, presentSymbols s ≠ [] → freqTotal s ≤ 0xFFFFFFFF → (s.dgm = true ∨ (presentSymbols s).length ≠ 1) →
    ∃ t T, exec .build s = .next t ∧
      t = { s with
        treev := true, codev := false, degen := decide ((presentSymbols s).length = 1),
        nnode := BitVec.ofNat 10 (2 * (presentSymbols s).length - 1), root := BitVec.ofNat 9 (2 * (presentSymbols s).length - 2),
        hsize := 0, pqOut := BitVec.ofNat 9 (2 * (presentSymbols s).length - 2), node := t.node, heap := t.heap,
        busy := false, done := true } ∧
      (∀ j, heapAt t j = 0) ∧
      (∀ j i, (presentSymbols s)[j]? = some i → nodeAt t j = .leaf (freqAt s i) (BitVec.ofNat 8 i)) ∧
      stateTree t = some T ∧ T.Summed ∧ T.weight = freqTotal s ∧
      T.weighted.Perm ((presentSymbols s).map (fun i => (BitVec.ofNat 8 i, (freqAt s i).toNat)))

/-! ## The code table -/

/-- R160, R161, R162, R42: GENCODE fills the code table from the tree: CODE[b] is the path to b's last leaf, "0" for a lone leaf, empty
for a symbol at no leaf; bits beyond a code are 0. Of a tree deeper than CODE_MAX = 255, which only nodes shared by hand make, GENCODE
faults CAPACITY, the resource being NODE by the model's reading of R4 and ruling D4 (log 6). -/
def Obligations.GencodeFillsTheCodeTable : Prop :=
  ∀ (s : State) (T : Tree), s.treev = true → stateTree s = some T →
    (255 < T.depth → exec .gencode s = .next (faulted .capacity 4 s)) ∧ (T.depth ≤ 255 →
    ∃ t, exec .gencode s = .next t ∧
      t = { s with codeLen := t.codeLen, codeBits := t.codeBits, codev := true, busy := false, done := true } ∧
      (∀ b : Byte, codeAt t b.toNat = T.codeOf b ∧ (codeLenAt t b.toNat).toNat = (T.codeOf b).length) ∧ CodeBitsMasked t)

/-- R163: after GENCODE on a tree with an internal root no code of the table is a prefix of another, symbols that stand at two leaves
included, and no code of a leaf is empty. The bound on the depth is R165's (log 6). -/
def Obligations.CodesArePrefixFree : Prop :=
  ∀ (s : State) (T : Tree), s.treev = true → stateTree s = some T → T.depth ≤ 255 → T.isInternal = true →
    ∃ t, exec .gencode s = .next t ∧
      (∀ b c : Byte, b ≠ c → codeLenAt t b.toNat ≠ 0 → codeLenAt t c.toNat ≠ 0 → ¬ codeAt t b.toNat <+: codeAt t c.toNat) ∧
      ∀ b ∈ T.leaves, 1 ≤ (codeAt t b.toNat).length

/-- R286: a command faults STATE, EINFO 0, when the state it needs is absent, and only then; BUILD, ENCODE and DECODE never do. -/
def Obligations.MissingStateTraps : Prop :=
  ∀ (i : Instr) (s : State),
    (Lacks i s → exec i s = .next (faulted .stateAbsent 0 s)) ∧
    (∀ t, s.err = 0 → exec i s = .next t → t.err = 6 → Lacks i s)

/-! ## The tree serializer and deserializer -/

/-- R175, R176, R177: SERIALIZE appends ser(tree), two bytes a node, to OUT. -/
def Obligations.SerializeAppendsTheTree : Prop :=
  ∀ (s : State) (T : Tree), s.treev = true → stateTree s = some T → s.cfg.Allowed →
    s.outLen.toNat + 2 * T.size ≤ s.cfg.outCap →
    ∃ t, exec .serialize s = .next t ∧
      t = { s with outBuf := t.outBuf, outLen := word (s.outLen.toNat + 2 * T.size), busy := false, done := true } ∧
      outputBytes t = outputBytes s ++ T.ser ∧
      ∀ a, (a < s.outLen.toNat ∨ s.outLen.toNat + 2 * T.size ≤ a) → outArray t a = outArray s a

/-- R180, R182, R191: DESERIALIZE parses the tree whose serialized form stands at the cursor, whatever follows it, rebuilds it with
weights 0, the nodes numbered in postorder (left subtree, right subtree, node), and leaves the cursor behind it. -/
def Obligations.DeserializeRebuildsTheTree : Prop :=
  ∀ (s : State) (T : Tree) (x : List Byte), s.inLen.toNat ≤ s.cfg.inCap →
    inBytes s s.cur.toNat (s.inLen.toNat - s.cur.toNat) = T.ser ++ x → T.size ≤ 511 → (s.dgm = true ∨ T.isInternal = true) →
    ∃ t, exec .deserialize s = .next t ∧
      t = { s with
        treev := true, codev := false, degen := !T.isInternal, nnode := BitVec.ofNat 10 T.size,
        root := BitVec.ofNat 9 (T.size - 1), hsize := 0, pqOut := 0, cur := word (s.cur.toNat + T.ser.length),
        node := t.node, heap := [], busy := false, done := true } ∧
      stateTree t = some T.zeroed ∧ (∀ j n, (T.postorder 0)[j]? = some n → nodeAt t j = n) ∧
      ∀ j, T.size ≤ j → nodeAt t j = .leaf 0 0

/-- R181, R183, R184, R283: where the bytes at the cursor do not begin with a tree of at most 511 nodes, DESERIALIZE faults PARSE with
the offset of the first byte that is wrong or missing, or CAPACITY(4) at the 512th node marker, whichever the parse meets first, at any
depth; and DEGENERATE for a lone leaf with DGM = 0. -/
def Obligations.DeserializeTraps : Prop :=
  ∀ s : State, s.inLen.toNat ≤ s.cfg.inCap →
    (∀ e info, TreeError s.cur.toNat (inBytes s s.cur.toNat (s.inLen.toNat - s.cur.toNat)) e info →
      exec .deserialize s = .next (faulted e info s)) ∧
    (∀ b x, inBytes s s.cur.toNat (s.inLen.toNat - s.cur.toNat) = 0x27 :: b :: x → s.dgm = false →
      exec .deserialize s = .next (faulted .degenerate (b.setWidth 32) s))

/-! ## The bit packer and unpacker -/

/-- R200: WRHDR appends newline, the digit of rem(BITLEN), newline, and sets REM. -/
def Obligations.WrhdrAppendsTheHeader : Prop :=
  ∀ s : State, s.bitsv = true → s.cfg.Allowed → s.outLen.toNat + 3 ≤ s.cfg.outCap →
    ∃ t, exec .wrhdr s = .next t ∧
      t = { s with
        rem := BitVec.ofNat 3 ((8 - s.bitLen.toNat % 8) % 8), outBuf := t.outBuf, outLen := word (s.outLen.toNat + 3),
        busy := false, done := true } ∧
      outputBytes t = outputBytes s ++ [0x0A, BitVec.ofNat 8 (0x30 + (8 - s.bitLen.toNat % 8) % 8), 0x0A] ∧
      ∀ a, (a < s.outLen.toNat ∨ s.outLen.toNat + 3 ≤ a) → outArray t a = outArray s a

/-- R201, R202, R210: PACK appends the bit-string padded with zeros to bytes, most significant bit first, and sets REM and PAY_LEN; the
padded length is a multiple of 8 and REM at most 7. -/
def Obligations.PackAppendsThePayload : Prop :=
  ∀ s : State, s.bitsv = true → s.cfg.Allowed → s.outLen.toNat + (s.bitLen.toNat + 7) / 8 ≤ s.cfg.outCap →
    ∃ t, exec .pack s = .next t ∧
      t = { s with
        rem := BitVec.ofNat 3 ((8 - s.bitLen.toNat % 8) % 8), payLen := word ((s.bitLen.toNat + 7) / 8), outBuf := t.outBuf,
        outLen := word (s.outLen.toNat + (s.bitLen.toNat + 7) / 8), busy := false, done := true } ∧
      outputBytes t = outputBytes s ++ packOf (bitString s) ∧
      (∀ a, (a < s.outLen.toNat ∨ s.outLen.toNat + (s.bitLen.toNat + 7) / 8 ≤ a) → outArray t a = outArray s a) ∧
      t.rem.toNat ≤ 7 ∧ (s.bitLen.toNat + t.rem.toNat) % 8 = 0 ∧ t.payLen.toNat = (s.bitLen.toNat + t.rem.toNat) / 8

/-- R69, R285: the appending commands fault CAPACITY(2) when OUT has no room for what they append. -/
def Obligations.OutputFullTraps : Prop :=
  ∀ s : State, LengthsFit s →
    (∀ T, s.treev = true → stateTree s = some T → s.cfg.outCap < s.outLen.toNat + 2 * T.size →
      ∃ t, exec .serialize s = .next t ∧ WorkStateCleared s t ∧ t.err = 5 ∧ t.einfo = 2) ∧
    (s.bitsv = true → s.cfg.outCap < s.outLen.toNat + 3 →
      ∃ t, exec .wrhdr s = .next t ∧ WorkStateCleared s t ∧ t.err = 5 ∧ t.einfo = 2) ∧
    (s.bitsv = true → s.cfg.outCap < s.outLen.toNat + (s.bitLen.toNat + 7) / 8 →
      ∃ t, exec .pack s = .next t ∧ WorkStateCleared s t ∧ t.err = 5 ∧ t.einfo = 2) ∧
    (∀ T, s.treev = true → s.bitsv = true → stateTree s = some T →
      s.cfg.outCap < s.outLen.toNat + (T.walk (bitString s)).1.length →
      ∃ t, exec .decsym s = .next t ∧ WorkStateCleared s t ∧ t.err = 5 ∧ t.einfo = 2)

/-- R205, R100: RDHDR reads newline, one digit 0 to 7, newline at the cursor. -/
def Obligations.RdhdrReadsTheHeader : Prop :=
  ∀ (s : State) (d : Nat), s.inLen.toNat ≤ s.cfg.inCap → s.cur.toNat + 3 ≤ s.inLen.toNat → d ≤ 7 →
    inByte s s.cur.toNat = 0x0A → inByte s (s.cur.toNat + 1) = BitVec.ofNat 8 (0x30 + d) → inByte s (s.cur.toNat + 2) = 0x0A →
    exec .rdhdr s = .next { s with
      rem := BitVec.ofNat 3 d, cur := word (s.cur.toNat + 3), hdrv := true, busy := false, done := true }

/-- R205, R206, R212, R282, R285: RDHDR faults PARSE with the offset of the header's first missing or wrong byte; UNPACK faults PARSE
at the cursor when the payload is shorter than the padding, CAPACITY(3) when it exceeds BITS. -/
def Obligations.HeaderAndPayloadTraps : Prop :=
  ∀ s : State, s.inLen.toNat ≤ s.cfg.inCap →
    (s.inLen.toNat ≤ s.cur.toNat ∨ inByte s s.cur.toNat ≠ 0x0A → exec .rdhdr s = .next (faulted .parse s.cur s)) ∧
    (s.cur.toNat < s.inLen.toNat → inByte s s.cur.toNat = 0x0A →
      (s.inLen.toNat ≤ s.cur.toNat + 1 ∨ inByte s (s.cur.toNat + 1) < 0x30 ∨ 0x37 < inByte s (s.cur.toNat + 1)) →
      exec .rdhdr s = .next (faulted .parse (word (s.cur.toNat + 1)) s)) ∧
    (s.cur.toNat + 1 < s.inLen.toNat → inByte s s.cur.toNat = 0x0A →
      0x30 ≤ inByte s (s.cur.toNat + 1) → inByte s (s.cur.toNat + 1) ≤ 0x37 →
      (s.inLen.toNat ≤ s.cur.toNat + 2 ∨ inByte s (s.cur.toNat + 2) ≠ 0x0A) →
      exec .rdhdr s = .next (faulted .parse (word (s.cur.toNat + 2)) s)) ∧
    (s.hdrv = true → s.cur.toNat ≤ s.inLen.toNat → 8 * (s.inLen.toNat - s.cur.toNat) < s.rem.toNat →
      exec .unpack s = .next (faulted .parse s.cur s)) ∧
    (s.hdrv = true → s.cur.toNat ≤ s.inLen.toNat → s.rem.toNat ≤ 8 * (s.inLen.toNat - s.cur.toNat) →
      s.cfg.bitsCap < 8 * (s.inLen.toNat - s.cur.toNat) → exec .unpack s = .next (faulted .capacity 3 s))

/-- R206, R207: UNPACK expands the rest of IN to bits, most significant first, and drops the last REM of them. -/
def Obligations.UnpackExpandsThePayload : Prop :=
  ∀ s : State, s.hdrv = true → s.cfg.Allowed → s.inLen.toNat ≤ s.cfg.inCap → s.cur.toNat ≤ s.inLen.toNat →
    s.rem.toNat ≤ 8 * (s.inLen.toNat - s.cur.toNat) → 8 * (s.inLen.toNat - s.cur.toNat) ≤ s.cfg.bitsCap →
    ∃ t, exec .unpack s = .next t ∧
      t = { s with
        bits := t.bits, bitLen := word (8 * (s.inLen.toNat - s.cur.toNat) - s.rem.toNat),
        payLen := word (s.inLen.toNat - s.cur.toNat), cur := s.inLen, bitsv := true, busy := false, done := true } ∧
      bitString t = unpackOf (inBytes s s.cur.toNat (s.inLen.toNat - s.cur.toNat)) s.rem.toNat ∧
      ∀ p, 8 * (s.inLen.toNat - s.cur.toNat) ≤ p → bitAt t p = bitAt s p

/-- R211: unpacking a packed bit-string with its padding length gives the bit-string back; packing what was unpacked gives the bytes back
with the last r bits zeroed. -/
def Obligations.UnpackOfPackIsIdentity : Prop :=
  (∀ b : List Bool, unpackOf (packOf b) (remOf b.length) = b) ∧
  ∀ (p : List Byte) (r : Nat), r ≤ 7 → r ≤ 8 * p.length →
    (packOf (unpackOf p r)).length = p.length ∧
    expandBytes (packOf (unpackOf p r)) = (expandBytes p).take (8 * p.length - r) ++ List.replicate r false

/-! ## The symbol encoder and decoder -/

/-- R230, R231: ENCSYM concatenates the codes of the input's symbols into BITS. -/
def Obligations.EncsymConcatenatesTheCodes : Prop :=
  ∀ s : State, s.codev = true → s.cfg.Allowed → s.inLen.toNat ≤ s.cfg.inCap →
    (∀ b ∈ inputBytes s, codeLenAt s b.toNat ≠ 0) →
    (encOf (fun b => codeAt s b.toNat) (inputBytes s)).length ≤ s.cfg.bitsCap →
    ∃ t, exec .encsym s = .next t ∧
      t = { s with
        bits := t.bits, bitLen := word (encOf (fun b => codeAt s b.toNat) (inputBytes s)).length, bitsv := true,
        busy := false, done := true } ∧
      bitString t = encOf (fun b => codeAt s b.toNat) (inputBytes s) ∧
      ∀ p, (encOf (fun b => codeAt s b.toNat) (inputBytes s)).length ≤ p → bitAt t p = bitAt s p

/-- R230, R232, R233: ENCSYM faults at the first input byte that has no code (NO_CODE, its index) or whose code does not fit
(CAPACITY(3)). -/
def Obligations.EncsymTraps : Prop :=
  ∀ (s : State) (x y : List Byte) (b : Byte), s.codev = true → s.inLen.toNat ≤ s.cfg.inCap → inputBytes s = x ++ b :: y →
    (∀ c ∈ x, codeLenAt s c.toNat ≠ 0) → (encOf (fun c => codeAt s c.toNat) x).length ≤ s.cfg.bitsCap →
    (codeLenAt s b.toNat = 0 →
      ∃ t, exec .encsym s = .next t ∧ WorkStateCleared s t ∧ t.err = 9 ∧ t.einfo = word x.length) ∧
    (codeLenAt s b.toNat ≠ 0 →
      s.cfg.bitsCap < (encOf (fun c => codeAt s c.toNat) x).length + (codeLenAt s b.toNat).toNat →
      ∃ t, exec .encsym s = .next t ∧ WorkStateCleared s t ∧ t.err = 5 ∧ t.einfo = 3)

/-- R240, R241, R242, R243: DECSYM walks the bit-string against the tree, appends what it emits and sets RESID to the residual flag. -/
def Obligations.DecsymWalksTheTree : Prop :=
  ∀ (s : State) (T : Tree), s.treev = true → s.bitsv = true → stateTree s = some T → s.cfg.Allowed →
    s.outLen.toNat + (T.walk (bitString s)).1.length ≤ s.cfg.outCap →
    ∃ t, exec .decsym s = .next t ∧
      t = { s with
        outBuf := t.outBuf, outLen := word (s.outLen.toNat + (T.walk (bitString s)).1.length),
        resid := (T.walk (bitString s)).2, busy := false, done := true } ∧
      outputBytes t = outputBytes s ++ (T.walk (bitString s)).1 ∧
      ∀ a, (a < s.outLen.toNat ∨ s.outLen.toNat + (T.walk (bitString s)).1.length ≤ a) → outArray t a = outArray s a

/-- R244: walking the encoding of a text against the tree of distinct leaves it was encoded with gives the text back, nothing left over. -/
def Obligations.WalkOfEncodingIsTheText : Prop :=
  ∀ (T : Tree) (x : List Byte), T.leaves.Nodup → (∀ b ∈ x, b ∈ T.leaves) → T.walk (encOf T.codeOf x) = (x, false)

/-! ## The composite commands -/

/-- R255, R97, R266: ENCODE of a non-empty input with two distinct bytes or DGM = 1 writes the wire format: the tree, the header, the
packed codes. The margins on OUT_CAP and BITS_CAP are those of codes of at most 255 bits (R165); R236's smaller ones rest on the
optimality of the greedy tree, which the spec does not state. -/
def Obligations.EncodeWritesTheWireFormat : Prop :=
  ∀ s : State, s.cfg.Allowed → s.inLen ≠ 0 → s.inLen.toNat ≤ s.cfg.inCap →
    (s.dgm = true ∨ ∃ b ∈ inputBytes s, ∃ c ∈ inputBytes s, b ≠ c) →
    1025 + 32 * s.inLen.toNat ≤ s.cfg.outCap → 255 * s.inLen.toNat ≤ s.cfg.bitsCap →
    ∃ t T, exec .encode s = .next t ∧
      t = { s with
        treev := true, codev := true, bitsv := true, hdrv := false, resid := false, degen := !T.isInternal, seq := 8,
        outLen := word (2 * T.size + 3 + (packOf (encOf T.codeOf (inputBytes s))).length),
        payLen := word (packOf (encOf T.codeOf (inputBytes s))).length,
        rem := BitVec.ofNat 3 (remOf (encOf T.codeOf (inputBytes s)).length), cur := 0,
        bitLen := word (encOf T.codeOf (inputBytes s)).length, nnode := BitVec.ofNat 10 T.size,
        root := BitVec.ofNat 9 (T.size - 1), hsize := 0, pqOut := BitVec.ofNat 9 (T.size - 1),
        freq := t.freq, heap := t.heap, node := t.node, codeLen := t.codeLen, codeBits := t.codeBits, bits := t.bits,
        outBuf := t.outBuf, busy := false, done := true } ∧
      stateTree t = some T ∧ T.Summed ∧ T.weight = s.inLen.toNat ∧ T.leaves.Nodup ∧
      (∀ b n, (b, n) ∈ T.weighted ↔ n = (inputBytes s).count b ∧ n ≠ 0) ∧
      (∀ b : Byte, (freqAt t b.toNat).toNat = (inputBytes s).count b ∧ codeAt t b.toNat = T.codeOf b) ∧
      bitString t = encOf T.codeOf (inputBytes s) ∧
      outputBytes t =
        T.ser ++ [0x0A, BitVec.ofNat 8 (0x30 + remOf (encOf T.codeOf (inputBytes s)).length), 0x0A] ++
          packOf (encOf T.codeOf (inputBytes s)) ∧
      ∀ a, 2 * T.size + 3 + (packOf (encOf T.codeOf (inputBytes s))).length ≤ a → outArray t a = outArray s a

/-- R255, R260, R103, R27: ENCODE and DECODE run their steps in order, each as its unit command, from a cleared core, with SEQ naming the
step, and the first fault ends them with SEQ at the step that faulted; and the faults that follow: of ENCODE EMPTY_INPUT (SEQ 0), DEGENERATE
(SEQ 2), CAPACITY(2) (SEQ 4, 6, 7) and CAPACITY(3) (SEQ 5); of DECODE the tree's PARSE and CAPACITY(4) and DEGENERATE (SEQ 1), the header's
PARSE (SEQ 2), PARSE and CAPACITY(3) of the payload (SEQ 3) and CAPACITY(2) (SEQ 4). (CAPACITY(1), SEQ 0, is InputTooLongTraps.) -/
def Obligations.CompositeTraps : Prop :=
  (∀ s : State, s.busy = true → s.done = false → s.err = 0 → s.einfo = 0 → s.inLen.toNat ≤ s.cfg.inCap →
    (s.inLen ≠ 0 →
      exec .encode s = (exec .clr s |> atStep 1 |> thenRun .count |> atStep 2 |> thenRun .build |> atStep 3 |> thenRun .gencode |>
        atStep 4 |> thenRun .serialize |> atStep 5 |> thenRun .encsym |> atStep 6 |> thenRun .wrhdr |> atStep 7 |> thenRun .pack |>
        atStep 8)) ∧
    exec .decode s = (exec .clr s |> atStep 1 |> thenRun .deserialize |> atStep 2 |> thenRun .rdhdr |> atStep 3 |> thenRun .unpack |>
      atStep 4 |> thenRun .decsym |> atStep 5)) ∧
  (∀ s : State,
    (s.inLen = 0 → exec .encode s = .next (faulted .emptyInput 0 { s with seq := 0 })) ∧
    (∀ b, s.cfg.Allowed → s.inLen ≠ 0 → s.inLen.toNat ≤ s.cfg.inCap → s.dgm = false → (∀ c ∈ inputBytes s, c = b) →
      ∃ t, exec .encode s = .next t ∧ WorkStateCleared s t ∧ t.err = 3 ∧ t.einfo = b.setWidth 32 ∧ t.seq = 2 ∧
        freqAt t b.toNat = s.inLen)) ∧
  (∀ (s u : State) (T : Tree) (n : Nat), s.busy = true → s.done = false → s.err = 0 → s.einfo = 0 →
    s.cfg.Allowed → s.inLen ≠ 0 → s.inLen.toNat ≤ s.cfg.inCap →
    (exec .clr s |> atStep 1 |> thenRun .count |> atStep 2 |> thenRun .build) = .next u → u.err = 0 → stateTree u = some T →
    n = (encOf T.codeOf (inputBytes s)).length →
    (s.cfg.outCap < 2 * T.size → EndsIn s (exec .encode s) 5 2 4) ∧
    (2 * T.size ≤ s.cfg.outCap → s.cfg.bitsCap < n → EndsIn s (exec .encode s) 5 3 5) ∧
    (2 * T.size ≤ s.cfg.outCap → n ≤ s.cfg.bitsCap → s.cfg.outCap < 2 * T.size + 3 → EndsIn s (exec .encode s) 5 2 6) ∧
    (2 * T.size + 3 ≤ s.cfg.outCap → n ≤ s.cfg.bitsCap → s.cfg.outCap < 2 * T.size + 3 + (n + 7) / 8 →
      EndsIn s (exec .encode s) 5 2 7)) ∧
  ∀ s : State, s.cfg.Allowed → s.inLen.toNat ≤ s.cfg.inCap →
    (∀ e info, TreeError 0 (inputBytes s) e info → exec .decode s = .next (faulted e info { s with seq := 1 })) ∧
    (∀ b x, s.dgm = false → inputBytes s = 0x27 :: b :: x → exec .decode s = .next (faulted .degenerate (b.setWidth 32) { s with seq := 1 })) ∧
    (∀ (T : Tree) (y : List Byte) (info : Word), T.size ≤ 511 → (s.dgm = true ∨ T.isInternal = true) → inputBytes s = T.ser ++ y →
      HeaderError T.ser.length y info → exec .decode s = .next (faulted .parse info { s with seq := 2 })) ∧
    (∀ (T : Tree) (r : Nat) (p : List Byte), T.size ≤ 511 → (s.dgm = true ∨ T.isInternal = true) → r ≤ 7 →
      inputBytes s = T.ser ++ [0x0A, BitVec.ofNat 8 (0x30 + r), 0x0A] ++ p →
      (8 * p.length < r → exec .decode s = .next (faulted .parse s.inLen { s with seq := 3 })) ∧
      (r ≤ 8 * p.length → s.cfg.bitsCap < 8 * p.length → exec .decode s = .next (faulted .capacity 3 { s with seq := 3 })) ∧
      (r ≤ 8 * p.length → 8 * p.length ≤ s.cfg.bitsCap → s.cfg.outCap < (T.walk (unpackOf p r)).1.length →
        EndsIn s (exec .decode s) 5 2 4))

/-- R260, R97: DECODE of a wire format writes the text the walk of its payload emits. -/
def Obligations.DecodeExpandsTheWireFormat : Prop :=
  ∀ (s : State) (T : Tree) (r : Nat) (p : List Byte), s.cfg.Allowed → s.inLen.toNat ≤ s.cfg.inCap →
    inputBytes s = T.ser ++ [0x0A, BitVec.ofNat 8 (0x30 + r), 0x0A] ++ p → T.size ≤ 511 → (s.dgm = true ∨ T.isInternal = true) →
    r ≤ 7 → r ≤ 8 * p.length → 8 * p.length ≤ s.cfg.bitsCap → (T.walk (unpackOf p r)).1.length ≤ s.cfg.outCap →
    ∃ t, exec .decode s = .next t ∧
      t = { s with
        treev := true, codev := false, bitsv := true, hdrv := true, degen := !T.isInternal, resid := (T.walk (unpackOf p r)).2,
        seq := 5, outLen := word (T.walk (unpackOf p r)).1.length, payLen := word p.length, rem := BitVec.ofNat 3 r,
        cur := s.inLen, bitLen := word (8 * p.length - r), nnode := BitVec.ofNat 10 T.size, root := BitVec.ofNat 9 (T.size - 1),
        hsize := 0, pqOut := 0, heap := [], node := t.node, codeLen := [], codeBits := [], bits := t.bits, outBuf := t.outBuf,
        busy := false, done := true } ∧
      stateTree t = some T.zeroed ∧ bitString t = unpackOf p r ∧ outputBytes t = (T.walk (unpackOf p r)).1 ∧
      ∀ a, (T.walk (unpackOf p r)).1.length ≤ a → outArray t a = outArray s a

/-- R265: what ENCODE wrote without fault, DECODE with the same DGM turns back into the input, wherever the capacities of the decoding
core hold the wire format, its payload's bits and the text. -/
def Obligations.RoundTrip : Prop :=
  ∀ s t u : State, s.cfg.Allowed → s.err = 0 → exec .encode s = .next t → t.err = 0 →
    u.cfg.Allowed → u.dgm = s.dgm → u.inLen = t.outLen → inputBytes u = outputBytes t → u.inLen.toNat ≤ u.cfg.inCap →
    8 * t.payLen.toNat ≤ u.cfg.bitsCap → s.inLen.toNat ≤ u.cfg.outCap →
    ∃ v, exec .decode u = .next v ∧ v.err = u.err ∧ outputBytes v = inputBytes s ∧ v.outLen = s.inLen ∧ v.resid = false ∧
      v.cur = v.inLen
end

