-- ==== Sys2Proof/Laws/Bits.lean ====
section
/-! SUPPORT. The laws of bit order: bytes and 8-bit strings are inverse (R7), CODEBITS entries hold their bit-string (R42), rem (R10, R210). -/

namespace Sys2Proof.Machine

theorem foldl_bits (b : List Bool) (a : Nat) :
    b.foldl (fun v x => 2 * v + x.toNat) a = a * 2 ^ b.length + bitsToNat b := by
  induction b generalizing a with
  | nil => simp [bitsToNat]
  | cons x b ih =>
    simp only [bitsToNat, List.foldl_cons, List.length_cons] at ih ⊢
    rw [ih, ih (2 * 0 + x.toNat)]
    ring

theorem bitsToNat_cons (x : Bool) (b : List Bool) : bitsToNat (x :: b) = x.toNat * 2 ^ b.length + bitsToNat b := by
  have := foldl_bits b (2 * 0 + x.toNat)
  simpa [bitsToNat] using this

theorem bitsToNat_lt (b : List Bool) : bitsToNat b < 2 ^ b.length := by
  induction b with
  | nil => simp [bitsToNat]
  | cons x b ih =>
    rw [bitsToNat_cons, List.length_cons, pow_succ]
    cases x <;> simp <;> omega

/-- Bit `k` of the numeral is the bit `k` places from the end of the string. -/
theorem testBit_bitsToNat (b : List Bool) (k : Nat) :
    (bitsToNat b).testBit k = if k < b.length then b.getD (b.length - 1 - k) false else false := by
  induction b with
  | nil => simp [bitsToNat]
  | cons x b ih =>
    rw [bitsToNat_cons, mul_comm, Nat.testBit_two_pow_mul_add _ (bitsToNat_lt b), ih, List.length_cons]
    by_cases h : k < b.length
    · rw [if_pos h, if_pos h, if_pos (by omega)]
      rw [show b.length + 1 - 1 - k = (b.length - 1 - k) + 1 by omega]; simp
    · rw [if_neg h]
      by_cases h' : k = b.length
      · subst h'; simp; cases x <;> rfl
      · rw [if_neg (by omega)]
        obtain ⟨m, hm⟩ : ∃ m, k - b.length = m + 1 := ⟨k - b.length - 1, by omega⟩
        rw [hm]; cases x <;> simp [Nat.testBit_succ]

@[simp] theorem bits8_length (v : Byte) : (bits8 v).length = 8 := by simp [bits8]

/-- `byte8` undoes `bits8` (R7). -/
@[simp] theorem byte8_bits8 (v : Byte) : byte8 (bits8 v) = v := by
  apply BitVec.eq_of_getLsbD_eq
  intro i hi
  simp only [byte8, BitVec.getLsbD_ofNat, testBit_bitsToNat, bits8_length]
  simp only [hi, decide_true, Bool.true_and, if_true]
  simp [bits8, List.getD_eq_getElem?_getD, List.getElem?_range (show 8 - 1 - i < 8 by omega)]
  congr 1; omega

/-- `bits8` undoes `byte8` on strings of eight bits (R7). -/
theorem bits8_byte8 (b : List Bool) (h : b.length = 8) : bits8 (byte8 b) = b := by
  apply List.ext_getElem (by simp [h])
  intro i h1 h2
  have hi : i < 8 := by simpa using h1
  simp only [bits8, List.getElem_map, List.getElem_range, byte8, BitVec.getLsbD_ofNat, testBit_bitsToNat, h]
  rw [if_pos (by omega)]
  simp only [show (7 - i < 8) = True by simp; omega, decide_true, Bool.true_and]
  rw [show 8 - 1 - (7 - i) = i by omega]
  simp [List.getD_eq_getElem?_getD, List.getElem?_eq_getElem h2]

/-- A CODEBITS entry holds its bit-string, with zeros beyond it (R42). -/
theorem getMsbD_codeBitsOf (c : List Bool) (h : c.length ≤ 256) (j : Nat) (hj : j < 256) :
    (codeBitsOf c).getMsbD j = c.getD j false := by
  rw [codeBitsOf, BitVec.getMsbD, BitVec.getLsbD_ofNat, Nat.testBit_shiftLeft, testBit_bitsToNat]
  simp only [hj, decide_true, Bool.true_and, show (256 - 1 - j < 256) = True by simp; omega]
  by_cases hc : j < c.length
  · rw [if_pos (by omega), decide_eq_true (show 256 - 1 - j ≥ 256 - c.length by omega), Bool.true_and,
      show c.length - 1 - (256 - 1 - j - (256 - c.length)) = j by omega]
  · rw [List.getD_eq_default _ _ (by omega : c.length ≤ j)]
    by_cases h0 : c.length = 0
    · simp [h0]
    · rw [decide_eq_false (show ¬ 256 - 1 - j ≥ 256 - c.length by omega), Bool.false_and]

@[simp] theorem codeString_length (n : Nat) (v : BitVec 256) : (codeString n v).length = n := by simp [codeString]

/-- The code table gives the code back (R42). -/
theorem codeString_codeBitsOf (c : List Bool) (h : c.length ≤ 256) : codeString c.length (codeBitsOf c) = c := by
  apply List.ext_getElem (by simp)
  intro i h1 h2
  simp only [codeString, List.getElem_map, List.getElem_range]
  rw [getMsbD_codeBitsOf c h i (by omega)]
  simp [List.getD_eq_getElem?_getD, List.getElem?_eq_getElem h2]

theorem remOf_le (l : Nat) : remOf l ≤ 7 := by unfold remOf; omega

/-- L + rem(L) is a multiple of 8 (R10, R210). -/
theorem add_remOf_mod (l : Nat) : (l + remOf l) % 8 = 0 := by unfold remOf; omega

theorem add_remOf_div (l : Nat) : (l + remOf l) / 8 = (l + 7) / 8 := by unfold remOf; omega

end Sys2Proof.Machine
end

