-- ==== Sys2Proof/Laws/State.lean ====
section
/-! SUPPORT. The named updates of State, field by field: what each leaves in every field, true by rfl, so that no proof unfolds a record update. -/

namespace Sys2Proof.Machine

/-! ## setFreq -/

@[simp] theorem setFreq_dgm (s : State) (i : Nat) (v : Word) : (setFreq s i v).dgm = s.dgm := rfl
@[simp] theorem setFreq_ie (s : State) (i : Nat) (v : Word) : (setFreq s i v).ie = s.ie := rfl
@[simp] theorem setFreq_cmd (s : State) (i : Nat) (v : Word) : (setFreq s i v).cmd = s.cmd := rfl
@[simp] theorem setFreq_busy (s : State) (i : Nat) (v : Word) : (setFreq s i v).busy = s.busy := rfl
@[simp] theorem setFreq_done (s : State) (i : Nat) (v : Word) : (setFreq s i v).done = s.done := rfl
@[simp] theorem setFreq_treev (s : State) (i : Nat) (v : Word) : (setFreq s i v).treev = s.treev := rfl
@[simp] theorem setFreq_codev (s : State) (i : Nat) (v : Word) : (setFreq s i v).codev = s.codev := rfl
@[simp] theorem setFreq_bitsv (s : State) (i : Nat) (v : Word) : (setFreq s i v).bitsv = s.bitsv := rfl
@[simp] theorem setFreq_hdrv (s : State) (i : Nat) (v : Word) : (setFreq s i v).hdrv = s.hdrv := rfl
@[simp] theorem setFreq_degen (s : State) (i : Nat) (v : Word) : (setFreq s i v).degen = s.degen := rfl
@[simp] theorem setFreq_resid (s : State) (i : Nat) (v : Word) : (setFreq s i v).resid = s.resid := rfl
@[simp] theorem setFreq_err (s : State) (i : Nat) (v : Word) : (setFreq s i v).err = s.err := rfl
@[simp] theorem setFreq_einfo (s : State) (i : Nat) (v : Word) : (setFreq s i v).einfo = s.einfo := rfl
@[simp] theorem setFreq_seq (s : State) (i : Nat) (v : Word) : (setFreq s i v).seq = s.seq := rfl
@[simp] theorem setFreq_inLen (s : State) (i : Nat) (v : Word) : (setFreq s i v).inLen = s.inLen := rfl
@[simp] theorem setFreq_outLen (s : State) (i : Nat) (v : Word) : (setFreq s i v).outLen = s.outLen := rfl
@[simp] theorem setFreq_payLen (s : State) (i : Nat) (v : Word) : (setFreq s i v).payLen = s.payLen := rfl
@[simp] theorem setFreq_rem (s : State) (i : Nat) (v : Word) : (setFreq s i v).rem = s.rem := rfl
@[simp] theorem setFreq_cur (s : State) (i : Nat) (v : Word) : (setFreq s i v).cur = s.cur := rfl
@[simp] theorem setFreq_bitLen (s : State) (i : Nat) (v : Word) : (setFreq s i v).bitLen = s.bitLen := rfl
@[simp] theorem setFreq_nnode (s : State) (i : Nat) (v : Word) : (setFreq s i v).nnode = s.nnode := rfl
@[simp] theorem setFreq_root (s : State) (i : Nat) (v : Word) : (setFreq s i v).root = s.root := rfl
@[simp] theorem setFreq_hsize (s : State) (i : Nat) (v : Word) : (setFreq s i v).hsize = s.hsize := rfl
@[simp] theorem setFreq_pqOut (s : State) (i : Nat) (v : Word) : (setFreq s i v).pqOut = s.pqOut := rfl
@[simp] theorem setFreq_freq (s : State) (i : Nat) (v : Word) : (setFreq s i v).freq = tableSet 0 s.freq i v := rfl
@[simp] theorem setFreq_heap (s : State) (i : Nat) (v : Word) : (setFreq s i v).heap = s.heap := rfl
@[simp] theorem setFreq_node (s : State) (i : Nat) (v : Word) : (setFreq s i v).node = s.node := rfl
@[simp] theorem setFreq_codeLen (s : State) (i : Nat) (v : Word) : (setFreq s i v).codeLen = s.codeLen := rfl
@[simp] theorem setFreq_codeBits (s : State) (i : Nat) (v : Word) : (setFreq s i v).codeBits = s.codeBits := rfl
@[simp] theorem setFreq_bits (s : State) (i : Nat) (v : Word) : (setFreq s i v).bits = s.bits := rfl
@[simp] theorem setFreq_inBuf (s : State) (i : Nat) (v : Word) : (setFreq s i v).inBuf = s.inBuf := rfl
@[simp] theorem setFreq_outBuf (s : State) (i : Nat) (v : Word) : (setFreq s i v).outBuf = s.outBuf := rfl
@[simp] theorem setFreq_cfg (s : State) (i : Nat) (v : Word) : (setFreq s i v).cfg = s.cfg := rfl
@[simp] theorem setFreq_host (s : State) (i : Nat) (v : Word) : (setFreq s i v).host = s.host := rfl
@[simp] theorem setFreq_log (s : State) (i : Nat) (v : Word) : (setFreq s i v).log = s.log := rfl
@[simp] theorem setFreq_resets (s : State) (i : Nat) (v : Word) : (setFreq s i v).resets = s.resets := rfl

/-! ## setHeap -/

@[simp] theorem setHeap_dgm (s : State) (i : Nat) (v : NodeIx) : (setHeap s i v).dgm = s.dgm := rfl
@[simp] theorem setHeap_ie (s : State) (i : Nat) (v : NodeIx) : (setHeap s i v).ie = s.ie := rfl
@[simp] theorem setHeap_cmd (s : State) (i : Nat) (v : NodeIx) : (setHeap s i v).cmd = s.cmd := rfl
@[simp] theorem setHeap_busy (s : State) (i : Nat) (v : NodeIx) : (setHeap s i v).busy = s.busy := rfl
@[simp] theorem setHeap_done (s : State) (i : Nat) (v : NodeIx) : (setHeap s i v).done = s.done := rfl
@[simp] theorem setHeap_treev (s : State) (i : Nat) (v : NodeIx) : (setHeap s i v).treev = s.treev := rfl
@[simp] theorem setHeap_codev (s : State) (i : Nat) (v : NodeIx) : (setHeap s i v).codev = s.codev := rfl
@[simp] theorem setHeap_bitsv (s : State) (i : Nat) (v : NodeIx) : (setHeap s i v).bitsv = s.bitsv := rfl
@[simp] theorem setHeap_hdrv (s : State) (i : Nat) (v : NodeIx) : (setHeap s i v).hdrv = s.hdrv := rfl
@[simp] theorem setHeap_degen (s : State) (i : Nat) (v : NodeIx) : (setHeap s i v).degen = s.degen := rfl
@[simp] theorem setHeap_resid (s : State) (i : Nat) (v : NodeIx) : (setHeap s i v).resid = s.resid := rfl
@[simp] theorem setHeap_err (s : State) (i : Nat) (v : NodeIx) : (setHeap s i v).err = s.err := rfl
@[simp] theorem setHeap_einfo (s : State) (i : Nat) (v : NodeIx) : (setHeap s i v).einfo = s.einfo := rfl
@[simp] theorem setHeap_seq (s : State) (i : Nat) (v : NodeIx) : (setHeap s i v).seq = s.seq := rfl
@[simp] theorem setHeap_inLen (s : State) (i : Nat) (v : NodeIx) : (setHeap s i v).inLen = s.inLen := rfl
@[simp] theorem setHeap_outLen (s : State) (i : Nat) (v : NodeIx) : (setHeap s i v).outLen = s.outLen := rfl
@[simp] theorem setHeap_payLen (s : State) (i : Nat) (v : NodeIx) : (setHeap s i v).payLen = s.payLen := rfl
@[simp] theorem setHeap_rem (s : State) (i : Nat) (v : NodeIx) : (setHeap s i v).rem = s.rem := rfl
@[simp] theorem setHeap_cur (s : State) (i : Nat) (v : NodeIx) : (setHeap s i v).cur = s.cur := rfl
@[simp] theorem setHeap_bitLen (s : State) (i : Nat) (v : NodeIx) : (setHeap s i v).bitLen = s.bitLen := rfl
@[simp] theorem setHeap_nnode (s : State) (i : Nat) (v : NodeIx) : (setHeap s i v).nnode = s.nnode := rfl
@[simp] theorem setHeap_root (s : State) (i : Nat) (v : NodeIx) : (setHeap s i v).root = s.root := rfl
@[simp] theorem setHeap_hsize (s : State) (i : Nat) (v : NodeIx) : (setHeap s i v).hsize = s.hsize := rfl
@[simp] theorem setHeap_pqOut (s : State) (i : Nat) (v : NodeIx) : (setHeap s i v).pqOut = s.pqOut := rfl
@[simp] theorem setHeap_freq (s : State) (i : Nat) (v : NodeIx) : (setHeap s i v).freq = s.freq := rfl
@[simp] theorem setHeap_heap (s : State) (i : Nat) (v : NodeIx) : (setHeap s i v).heap = tableSet 0 s.heap i v := rfl
@[simp] theorem setHeap_node (s : State) (i : Nat) (v : NodeIx) : (setHeap s i v).node = s.node := rfl
@[simp] theorem setHeap_codeLen (s : State) (i : Nat) (v : NodeIx) : (setHeap s i v).codeLen = s.codeLen := rfl
@[simp] theorem setHeap_codeBits (s : State) (i : Nat) (v : NodeIx) : (setHeap s i v).codeBits = s.codeBits := rfl
@[simp] theorem setHeap_bits (s : State) (i : Nat) (v : NodeIx) : (setHeap s i v).bits = s.bits := rfl
@[simp] theorem setHeap_inBuf (s : State) (i : Nat) (v : NodeIx) : (setHeap s i v).inBuf = s.inBuf := rfl
@[simp] theorem setHeap_outBuf (s : State) (i : Nat) (v : NodeIx) : (setHeap s i v).outBuf = s.outBuf := rfl
@[simp] theorem setHeap_cfg (s : State) (i : Nat) (v : NodeIx) : (setHeap s i v).cfg = s.cfg := rfl
@[simp] theorem setHeap_host (s : State) (i : Nat) (v : NodeIx) : (setHeap s i v).host = s.host := rfl
@[simp] theorem setHeap_log (s : State) (i : Nat) (v : NodeIx) : (setHeap s i v).log = s.log := rfl
@[simp] theorem setHeap_resets (s : State) (i : Nat) (v : NodeIx) : (setHeap s i v).resets = s.resets := rfl

/-! ## swapHeap -/

@[simp] theorem swapHeap_dgm (s : State) (i j : Nat) : (swapHeap s i j).dgm = s.dgm := rfl
@[simp] theorem swapHeap_ie (s : State) (i j : Nat) : (swapHeap s i j).ie = s.ie := rfl
@[simp] theorem swapHeap_cmd (s : State) (i j : Nat) : (swapHeap s i j).cmd = s.cmd := rfl
@[simp] theorem swapHeap_busy (s : State) (i j : Nat) : (swapHeap s i j).busy = s.busy := rfl
@[simp] theorem swapHeap_done (s : State) (i j : Nat) : (swapHeap s i j).done = s.done := rfl
@[simp] theorem swapHeap_treev (s : State) (i j : Nat) : (swapHeap s i j).treev = s.treev := rfl
@[simp] theorem swapHeap_codev (s : State) (i j : Nat) : (swapHeap s i j).codev = s.codev := rfl
@[simp] theorem swapHeap_bitsv (s : State) (i j : Nat) : (swapHeap s i j).bitsv = s.bitsv := rfl
@[simp] theorem swapHeap_hdrv (s : State) (i j : Nat) : (swapHeap s i j).hdrv = s.hdrv := rfl
@[simp] theorem swapHeap_degen (s : State) (i j : Nat) : (swapHeap s i j).degen = s.degen := rfl
@[simp] theorem swapHeap_resid (s : State) (i j : Nat) : (swapHeap s i j).resid = s.resid := rfl
@[simp] theorem swapHeap_err (s : State) (i j : Nat) : (swapHeap s i j).err = s.err := rfl
@[simp] theorem swapHeap_einfo (s : State) (i j : Nat) : (swapHeap s i j).einfo = s.einfo := rfl
@[simp] theorem swapHeap_seq (s : State) (i j : Nat) : (swapHeap s i j).seq = s.seq := rfl
@[simp] theorem swapHeap_inLen (s : State) (i j : Nat) : (swapHeap s i j).inLen = s.inLen := rfl
@[simp] theorem swapHeap_outLen (s : State) (i j : Nat) : (swapHeap s i j).outLen = s.outLen := rfl
@[simp] theorem swapHeap_payLen (s : State) (i j : Nat) : (swapHeap s i j).payLen = s.payLen := rfl
@[simp] theorem swapHeap_rem (s : State) (i j : Nat) : (swapHeap s i j).rem = s.rem := rfl
@[simp] theorem swapHeap_cur (s : State) (i j : Nat) : (swapHeap s i j).cur = s.cur := rfl
@[simp] theorem swapHeap_bitLen (s : State) (i j : Nat) : (swapHeap s i j).bitLen = s.bitLen := rfl
@[simp] theorem swapHeap_nnode (s : State) (i j : Nat) : (swapHeap s i j).nnode = s.nnode := rfl
@[simp] theorem swapHeap_root (s : State) (i j : Nat) : (swapHeap s i j).root = s.root := rfl
@[simp] theorem swapHeap_hsize (s : State) (i j : Nat) : (swapHeap s i j).hsize = s.hsize := rfl
@[simp] theorem swapHeap_pqOut (s : State) (i j : Nat) : (swapHeap s i j).pqOut = s.pqOut := rfl
@[simp] theorem swapHeap_freq (s : State) (i j : Nat) : (swapHeap s i j).freq = s.freq := rfl
@[simp] theorem swapHeap_heap (s : State) (i j : Nat) : (swapHeap s i j).heap = tableSet 0 (tableSet 0 s.heap i (heapAt s j)) j (heapAt s i) := rfl
@[simp] theorem swapHeap_node (s : State) (i j : Nat) : (swapHeap s i j).node = s.node := rfl
@[simp] theorem swapHeap_codeLen (s : State) (i j : Nat) : (swapHeap s i j).codeLen = s.codeLen := rfl
@[simp] theorem swapHeap_codeBits (s : State) (i j : Nat) : (swapHeap s i j).codeBits = s.codeBits := rfl
@[simp] theorem swapHeap_bits (s : State) (i j : Nat) : (swapHeap s i j).bits = s.bits := rfl
@[simp] theorem swapHeap_inBuf (s : State) (i j : Nat) : (swapHeap s i j).inBuf = s.inBuf := rfl
@[simp] theorem swapHeap_outBuf (s : State) (i j : Nat) : (swapHeap s i j).outBuf = s.outBuf := rfl
@[simp] theorem swapHeap_cfg (s : State) (i j : Nat) : (swapHeap s i j).cfg = s.cfg := rfl
@[simp] theorem swapHeap_host (s : State) (i j : Nat) : (swapHeap s i j).host = s.host := rfl
@[simp] theorem swapHeap_log (s : State) (i j : Nat) : (swapHeap s i j).log = s.log := rfl
@[simp] theorem swapHeap_resets (s : State) (i j : Nat) : (swapHeap s i j).resets = s.resets := rfl

/-! ## writeBits -/

@[simp] theorem writeBits_dgm (s : State) (p : Nat) (b : List Bool) : (writeBits s p b).dgm = s.dgm := rfl
@[simp] theorem writeBits_ie (s : State) (p : Nat) (b : List Bool) : (writeBits s p b).ie = s.ie := rfl
@[simp] theorem writeBits_cmd (s : State) (p : Nat) (b : List Bool) : (writeBits s p b).cmd = s.cmd := rfl
@[simp] theorem writeBits_busy (s : State) (p : Nat) (b : List Bool) : (writeBits s p b).busy = s.busy := rfl
@[simp] theorem writeBits_done (s : State) (p : Nat) (b : List Bool) : (writeBits s p b).done = s.done := rfl
@[simp] theorem writeBits_treev (s : State) (p : Nat) (b : List Bool) : (writeBits s p b).treev = s.treev := rfl
@[simp] theorem writeBits_codev (s : State) (p : Nat) (b : List Bool) : (writeBits s p b).codev = s.codev := rfl
@[simp] theorem writeBits_bitsv (s : State) (p : Nat) (b : List Bool) : (writeBits s p b).bitsv = s.bitsv := rfl
@[simp] theorem writeBits_hdrv (s : State) (p : Nat) (b : List Bool) : (writeBits s p b).hdrv = s.hdrv := rfl
@[simp] theorem writeBits_degen (s : State) (p : Nat) (b : List Bool) : (writeBits s p b).degen = s.degen := rfl
@[simp] theorem writeBits_resid (s : State) (p : Nat) (b : List Bool) : (writeBits s p b).resid = s.resid := rfl
@[simp] theorem writeBits_err (s : State) (p : Nat) (b : List Bool) : (writeBits s p b).err = s.err := rfl
@[simp] theorem writeBits_einfo (s : State) (p : Nat) (b : List Bool) : (writeBits s p b).einfo = s.einfo := rfl
@[simp] theorem writeBits_seq (s : State) (p : Nat) (b : List Bool) : (writeBits s p b).seq = s.seq := rfl
@[simp] theorem writeBits_inLen (s : State) (p : Nat) (b : List Bool) : (writeBits s p b).inLen = s.inLen := rfl
@[simp] theorem writeBits_outLen (s : State) (p : Nat) (b : List Bool) : (writeBits s p b).outLen = s.outLen := rfl
@[simp] theorem writeBits_payLen (s : State) (p : Nat) (b : List Bool) : (writeBits s p b).payLen = s.payLen := rfl
@[simp] theorem writeBits_rem (s : State) (p : Nat) (b : List Bool) : (writeBits s p b).rem = s.rem := rfl
@[simp] theorem writeBits_cur (s : State) (p : Nat) (b : List Bool) : (writeBits s p b).cur = s.cur := rfl
@[simp] theorem writeBits_bitLen (s : State) (p : Nat) (b : List Bool) : (writeBits s p b).bitLen = s.bitLen := rfl
@[simp] theorem writeBits_nnode (s : State) (p : Nat) (b : List Bool) : (writeBits s p b).nnode = s.nnode := rfl
@[simp] theorem writeBits_root (s : State) (p : Nat) (b : List Bool) : (writeBits s p b).root = s.root := rfl
@[simp] theorem writeBits_hsize (s : State) (p : Nat) (b : List Bool) : (writeBits s p b).hsize = s.hsize := rfl
@[simp] theorem writeBits_pqOut (s : State) (p : Nat) (b : List Bool) : (writeBits s p b).pqOut = s.pqOut := rfl
@[simp] theorem writeBits_freq (s : State) (p : Nat) (b : List Bool) : (writeBits s p b).freq = s.freq := rfl
@[simp] theorem writeBits_heap (s : State) (p : Nat) (b : List Bool) : (writeBits s p b).heap = s.heap := rfl
@[simp] theorem writeBits_node (s : State) (p : Nat) (b : List Bool) : (writeBits s p b).node = s.node := rfl
@[simp] theorem writeBits_codeLen (s : State) (p : Nat) (b : List Bool) : (writeBits s p b).codeLen = s.codeLen := rfl
@[simp] theorem writeBits_codeBits (s : State) (p : Nat) (b : List Bool) : (writeBits s p b).codeBits = s.codeBits := rfl
@[simp] theorem writeBits_bits (s : State) (p : Nat) (b : List Bool) : (writeBits s p b).bits = tableWrite false s.bits p b := rfl
@[simp] theorem writeBits_inBuf (s : State) (p : Nat) (b : List Bool) : (writeBits s p b).inBuf = s.inBuf := rfl
@[simp] theorem writeBits_outBuf (s : State) (p : Nat) (b : List Bool) : (writeBits s p b).outBuf = s.outBuf := rfl
@[simp] theorem writeBits_cfg (s : State) (p : Nat) (b : List Bool) : (writeBits s p b).cfg = s.cfg := rfl
@[simp] theorem writeBits_host (s : State) (p : Nat) (b : List Bool) : (writeBits s p b).host = s.host := rfl
@[simp] theorem writeBits_log (s : State) (p : Nat) (b : List Bool) : (writeBits s p b).log = s.log := rfl
@[simp] theorem writeBits_resets (s : State) (p : Nat) (b : List Bool) : (writeBits s p b).resets = s.resets := rfl

/-! ## setCode -/

@[simp] theorem setCode_dgm (s : State) (i : Nat) (c : List Bool) : (setCode s i c).dgm = s.dgm := rfl
@[simp] theorem setCode_ie (s : State) (i : Nat) (c : List Bool) : (setCode s i c).ie = s.ie := rfl
@[simp] theorem setCode_cmd (s : State) (i : Nat) (c : List Bool) : (setCode s i c).cmd = s.cmd := rfl
@[simp] theorem setCode_busy (s : State) (i : Nat) (c : List Bool) : (setCode s i c).busy = s.busy := rfl
@[simp] theorem setCode_done (s : State) (i : Nat) (c : List Bool) : (setCode s i c).done = s.done := rfl
@[simp] theorem setCode_treev (s : State) (i : Nat) (c : List Bool) : (setCode s i c).treev = s.treev := rfl
@[simp] theorem setCode_codev (s : State) (i : Nat) (c : List Bool) : (setCode s i c).codev = s.codev := rfl
@[simp] theorem setCode_bitsv (s : State) (i : Nat) (c : List Bool) : (setCode s i c).bitsv = s.bitsv := rfl
@[simp] theorem setCode_hdrv (s : State) (i : Nat) (c : List Bool) : (setCode s i c).hdrv = s.hdrv := rfl
@[simp] theorem setCode_degen (s : State) (i : Nat) (c : List Bool) : (setCode s i c).degen = s.degen := rfl
@[simp] theorem setCode_resid (s : State) (i : Nat) (c : List Bool) : (setCode s i c).resid = s.resid := rfl
@[simp] theorem setCode_err (s : State) (i : Nat) (c : List Bool) : (setCode s i c).err = s.err := rfl
@[simp] theorem setCode_einfo (s : State) (i : Nat) (c : List Bool) : (setCode s i c).einfo = s.einfo := rfl
@[simp] theorem setCode_seq (s : State) (i : Nat) (c : List Bool) : (setCode s i c).seq = s.seq := rfl
@[simp] theorem setCode_inLen (s : State) (i : Nat) (c : List Bool) : (setCode s i c).inLen = s.inLen := rfl
@[simp] theorem setCode_outLen (s : State) (i : Nat) (c : List Bool) : (setCode s i c).outLen = s.outLen := rfl
@[simp] theorem setCode_payLen (s : State) (i : Nat) (c : List Bool) : (setCode s i c).payLen = s.payLen := rfl
@[simp] theorem setCode_rem (s : State) (i : Nat) (c : List Bool) : (setCode s i c).rem = s.rem := rfl
@[simp] theorem setCode_cur (s : State) (i : Nat) (c : List Bool) : (setCode s i c).cur = s.cur := rfl
@[simp] theorem setCode_bitLen (s : State) (i : Nat) (c : List Bool) : (setCode s i c).bitLen = s.bitLen := rfl
@[simp] theorem setCode_nnode (s : State) (i : Nat) (c : List Bool) : (setCode s i c).nnode = s.nnode := rfl
@[simp] theorem setCode_root (s : State) (i : Nat) (c : List Bool) : (setCode s i c).root = s.root := rfl
@[simp] theorem setCode_hsize (s : State) (i : Nat) (c : List Bool) : (setCode s i c).hsize = s.hsize := rfl
@[simp] theorem setCode_pqOut (s : State) (i : Nat) (c : List Bool) : (setCode s i c).pqOut = s.pqOut := rfl
@[simp] theorem setCode_freq (s : State) (i : Nat) (c : List Bool) : (setCode s i c).freq = s.freq := rfl
@[simp] theorem setCode_heap (s : State) (i : Nat) (c : List Bool) : (setCode s i c).heap = s.heap := rfl
@[simp] theorem setCode_node (s : State) (i : Nat) (c : List Bool) : (setCode s i c).node = s.node := rfl
@[simp] theorem setCode_codeLen (s : State) (i : Nat) (c : List Bool) : (setCode s i c).codeLen = tableSet 0 s.codeLen i (BitVec.ofNat 8 c.length) := rfl
@[simp] theorem setCode_codeBits (s : State) (i : Nat) (c : List Bool) : (setCode s i c).codeBits = tableSet 0 s.codeBits i (codeBitsOf c) := rfl
@[simp] theorem setCode_bits (s : State) (i : Nat) (c : List Bool) : (setCode s i c).bits = s.bits := rfl
@[simp] theorem setCode_inBuf (s : State) (i : Nat) (c : List Bool) : (setCode s i c).inBuf = s.inBuf := rfl
@[simp] theorem setCode_outBuf (s : State) (i : Nat) (c : List Bool) : (setCode s i c).outBuf = s.outBuf := rfl
@[simp] theorem setCode_cfg (s : State) (i : Nat) (c : List Bool) : (setCode s i c).cfg = s.cfg := rfl
@[simp] theorem setCode_host (s : State) (i : Nat) (c : List Bool) : (setCode s i c).host = s.host := rfl
@[simp] theorem setCode_log (s : State) (i : Nat) (c : List Bool) : (setCode s i c).log = s.log := rfl
@[simp] theorem setCode_resets (s : State) (i : Nat) (c : List Bool) : (setCode s i c).resets = s.resets := rfl

/-! ## setIn -/

@[simp] theorem setIn_dgm (s : State) (i : Nat) (v : Byte) : (setIn s i v).dgm = s.dgm := rfl
@[simp] theorem setIn_ie (s : State) (i : Nat) (v : Byte) : (setIn s i v).ie = s.ie := rfl
@[simp] theorem setIn_cmd (s : State) (i : Nat) (v : Byte) : (setIn s i v).cmd = s.cmd := rfl
@[simp] theorem setIn_busy (s : State) (i : Nat) (v : Byte) : (setIn s i v).busy = s.busy := rfl
@[simp] theorem setIn_done (s : State) (i : Nat) (v : Byte) : (setIn s i v).done = s.done := rfl
@[simp] theorem setIn_treev (s : State) (i : Nat) (v : Byte) : (setIn s i v).treev = s.treev := rfl
@[simp] theorem setIn_codev (s : State) (i : Nat) (v : Byte) : (setIn s i v).codev = s.codev := rfl
@[simp] theorem setIn_bitsv (s : State) (i : Nat) (v : Byte) : (setIn s i v).bitsv = s.bitsv := rfl
@[simp] theorem setIn_hdrv (s : State) (i : Nat) (v : Byte) : (setIn s i v).hdrv = s.hdrv := rfl
@[simp] theorem setIn_degen (s : State) (i : Nat) (v : Byte) : (setIn s i v).degen = s.degen := rfl
@[simp] theorem setIn_resid (s : State) (i : Nat) (v : Byte) : (setIn s i v).resid = s.resid := rfl
@[simp] theorem setIn_err (s : State) (i : Nat) (v : Byte) : (setIn s i v).err = s.err := rfl
@[simp] theorem setIn_einfo (s : State) (i : Nat) (v : Byte) : (setIn s i v).einfo = s.einfo := rfl
@[simp] theorem setIn_seq (s : State) (i : Nat) (v : Byte) : (setIn s i v).seq = s.seq := rfl
@[simp] theorem setIn_inLen (s : State) (i : Nat) (v : Byte) : (setIn s i v).inLen = s.inLen := rfl
@[simp] theorem setIn_outLen (s : State) (i : Nat) (v : Byte) : (setIn s i v).outLen = s.outLen := rfl
@[simp] theorem setIn_payLen (s : State) (i : Nat) (v : Byte) : (setIn s i v).payLen = s.payLen := rfl
@[simp] theorem setIn_rem (s : State) (i : Nat) (v : Byte) : (setIn s i v).rem = s.rem := rfl
@[simp] theorem setIn_cur (s : State) (i : Nat) (v : Byte) : (setIn s i v).cur = s.cur := rfl
@[simp] theorem setIn_bitLen (s : State) (i : Nat) (v : Byte) : (setIn s i v).bitLen = s.bitLen := rfl
@[simp] theorem setIn_nnode (s : State) (i : Nat) (v : Byte) : (setIn s i v).nnode = s.nnode := rfl
@[simp] theorem setIn_root (s : State) (i : Nat) (v : Byte) : (setIn s i v).root = s.root := rfl
@[simp] theorem setIn_hsize (s : State) (i : Nat) (v : Byte) : (setIn s i v).hsize = s.hsize := rfl
@[simp] theorem setIn_pqOut (s : State) (i : Nat) (v : Byte) : (setIn s i v).pqOut = s.pqOut := rfl
@[simp] theorem setIn_freq (s : State) (i : Nat) (v : Byte) : (setIn s i v).freq = s.freq := rfl
@[simp] theorem setIn_heap (s : State) (i : Nat) (v : Byte) : (setIn s i v).heap = s.heap := rfl
@[simp] theorem setIn_node (s : State) (i : Nat) (v : Byte) : (setIn s i v).node = s.node := rfl
@[simp] theorem setIn_codeLen (s : State) (i : Nat) (v : Byte) : (setIn s i v).codeLen = s.codeLen := rfl
@[simp] theorem setIn_codeBits (s : State) (i : Nat) (v : Byte) : (setIn s i v).codeBits = s.codeBits := rfl
@[simp] theorem setIn_bits (s : State) (i : Nat) (v : Byte) : (setIn s i v).bits = s.bits := rfl
@[simp] theorem setIn_inBuf (s : State) (i : Nat) (v : Byte) : (setIn s i v).inBuf = tablePut s.inBuf i v := rfl
@[simp] theorem setIn_outBuf (s : State) (i : Nat) (v : Byte) : (setIn s i v).outBuf = s.outBuf := rfl
@[simp] theorem setIn_cfg (s : State) (i : Nat) (v : Byte) : (setIn s i v).cfg = s.cfg := rfl
@[simp] theorem setIn_host (s : State) (i : Nat) (v : Byte) : (setIn s i v).host = s.host := rfl
@[simp] theorem setIn_log (s : State) (i : Nat) (v : Byte) : (setIn s i v).log = s.log := rfl
@[simp] theorem setIn_resets (s : State) (i : Nat) (v : Byte) : (setIn s i v).resets = s.resets := rfl

/-! ## clrw -/

@[simp] theorem clrw_dgm (s : State) : (clrw s).dgm = s.dgm := rfl
@[simp] theorem clrw_ie (s : State) : (clrw s).ie = s.ie := rfl
@[simp] theorem clrw_cmd (s : State) : (clrw s).cmd = s.cmd := rfl
@[simp] theorem clrw_busy (s : State) : (clrw s).busy = s.busy := rfl
@[simp] theorem clrw_done (s : State) : (clrw s).done = s.done := rfl
@[simp] theorem clrw_treev (s : State) : (clrw s).treev = false := rfl
@[simp] theorem clrw_codev (s : State) : (clrw s).codev = false := rfl
@[simp] theorem clrw_bitsv (s : State) : (clrw s).bitsv = false := rfl
@[simp] theorem clrw_hdrv (s : State) : (clrw s).hdrv = false := rfl
@[simp] theorem clrw_degen (s : State) : (clrw s).degen = false := rfl
@[simp] theorem clrw_resid (s : State) : (clrw s).resid = false := rfl
@[simp] theorem clrw_err (s : State) : (clrw s).err = s.err := rfl
@[simp] theorem clrw_einfo (s : State) : (clrw s).einfo = s.einfo := rfl
@[simp] theorem clrw_seq (s : State) : (clrw s).seq = s.seq := rfl
@[simp] theorem clrw_inLen (s : State) : (clrw s).inLen = s.inLen := rfl
@[simp] theorem clrw_outLen (s : State) : (clrw s).outLen = 0 := rfl
@[simp] theorem clrw_payLen (s : State) : (clrw s).payLen = 0 := rfl
@[simp] theorem clrw_rem (s : State) : (clrw s).rem = 0 := rfl
@[simp] theorem clrw_cur (s : State) : (clrw s).cur = 0 := rfl
@[simp] theorem clrw_bitLen (s : State) : (clrw s).bitLen = 0 := rfl
@[simp] theorem clrw_nnode (s : State) : (clrw s).nnode = 0 := rfl
@[simp] theorem clrw_root (s : State) : (clrw s).root = 0 := rfl
@[simp] theorem clrw_hsize (s : State) : (clrw s).hsize = 0 := rfl
@[simp] theorem clrw_pqOut (s : State) : (clrw s).pqOut = 0 := rfl
@[simp] theorem clrw_freq (s : State) : (clrw s).freq = s.freq := rfl
@[simp] theorem clrw_heap (s : State) : (clrw s).heap = [] := rfl
@[simp] theorem clrw_node (s : State) : (clrw s).node = [] := rfl
@[simp] theorem clrw_codeLen (s : State) : (clrw s).codeLen = [] := rfl
@[simp] theorem clrw_codeBits (s : State) : (clrw s).codeBits = [] := rfl
@[simp] theorem clrw_bits (s : State) : (clrw s).bits = [] := rfl
@[simp] theorem clrw_inBuf (s : State) : (clrw s).inBuf = s.inBuf := rfl
@[simp] theorem clrw_outBuf (s : State) : (clrw s).outBuf = s.outBuf := rfl
@[simp] theorem clrw_cfg (s : State) : (clrw s).cfg = s.cfg := rfl
@[simp] theorem clrw_host (s : State) : (clrw s).host = s.host := rfl
@[simp] theorem clrw_log (s : State) : (clrw s).log = s.log := rfl
@[simp] theorem clrw_resets (s : State) : (clrw s).resets = s.resets := rfl

/-! ## clrt -/

@[simp] theorem clrt_dgm (s : State) : (clrt s).dgm = s.dgm := rfl
@[simp] theorem clrt_ie (s : State) : (clrt s).ie = s.ie := rfl
@[simp] theorem clrt_cmd (s : State) : (clrt s).cmd = s.cmd := rfl
@[simp] theorem clrt_busy (s : State) : (clrt s).busy = s.busy := rfl
@[simp] theorem clrt_done (s : State) : (clrt s).done = s.done := rfl
@[simp] theorem clrt_treev (s : State) : (clrt s).treev = false := rfl
@[simp] theorem clrt_codev (s : State) : (clrt s).codev = false := rfl
@[simp] theorem clrt_bitsv (s : State) : (clrt s).bitsv = s.bitsv := rfl
@[simp] theorem clrt_hdrv (s : State) : (clrt s).hdrv = s.hdrv := rfl
@[simp] theorem clrt_degen (s : State) : (clrt s).degen = false := rfl
@[simp] theorem clrt_resid (s : State) : (clrt s).resid = s.resid := rfl
@[simp] theorem clrt_err (s : State) : (clrt s).err = s.err := rfl
@[simp] theorem clrt_einfo (s : State) : (clrt s).einfo = s.einfo := rfl
@[simp] theorem clrt_seq (s : State) : (clrt s).seq = s.seq := rfl
@[simp] theorem clrt_inLen (s : State) : (clrt s).inLen = s.inLen := rfl
@[simp] theorem clrt_outLen (s : State) : (clrt s).outLen = s.outLen := rfl
@[simp] theorem clrt_payLen (s : State) : (clrt s).payLen = s.payLen := rfl
@[simp] theorem clrt_rem (s : State) : (clrt s).rem = s.rem := rfl
@[simp] theorem clrt_cur (s : State) : (clrt s).cur = s.cur := rfl
@[simp] theorem clrt_bitLen (s : State) : (clrt s).bitLen = s.bitLen := rfl
@[simp] theorem clrt_nnode (s : State) : (clrt s).nnode = 0 := rfl
@[simp] theorem clrt_root (s : State) : (clrt s).root = 0 := rfl
@[simp] theorem clrt_hsize (s : State) : (clrt s).hsize = 0 := rfl
@[simp] theorem clrt_pqOut (s : State) : (clrt s).pqOut = 0 := rfl
@[simp] theorem clrt_freq (s : State) : (clrt s).freq = s.freq := rfl
@[simp] theorem clrt_heap (s : State) : (clrt s).heap = [] := rfl
@[simp] theorem clrt_node (s : State) : (clrt s).node = [] := rfl
@[simp] theorem clrt_codeLen (s : State) : (clrt s).codeLen = s.codeLen := rfl
@[simp] theorem clrt_codeBits (s : State) : (clrt s).codeBits = s.codeBits := rfl
@[simp] theorem clrt_bits (s : State) : (clrt s).bits = s.bits := rfl
@[simp] theorem clrt_inBuf (s : State) : (clrt s).inBuf = s.inBuf := rfl
@[simp] theorem clrt_outBuf (s : State) : (clrt s).outBuf = s.outBuf := rfl
@[simp] theorem clrt_cfg (s : State) : (clrt s).cfg = s.cfg := rfl
@[simp] theorem clrt_host (s : State) : (clrt s).host = s.host := rfl
@[simp] theorem clrt_log (s : State) : (clrt s).log = s.log := rfl
@[simp] theorem clrt_resets (s : State) : (clrt s).resets = s.resets := rfl

/-! ## setSeq -/

@[simp] theorem setSeq_dgm (n : Nat) (s : State) : (setSeq n s).dgm = s.dgm := rfl
@[simp] theorem setSeq_ie (n : Nat) (s : State) : (setSeq n s).ie = s.ie := rfl
@[simp] theorem setSeq_cmd (n : Nat) (s : State) : (setSeq n s).cmd = s.cmd := rfl
@[simp] theorem setSeq_busy (n : Nat) (s : State) : (setSeq n s).busy = s.busy := rfl
@[simp] theorem setSeq_done (n : Nat) (s : State) : (setSeq n s).done = s.done := rfl
@[simp] theorem setSeq_treev (n : Nat) (s : State) : (setSeq n s).treev = s.treev := rfl
@[simp] theorem setSeq_codev (n : Nat) (s : State) : (setSeq n s).codev = s.codev := rfl
@[simp] theorem setSeq_bitsv (n : Nat) (s : State) : (setSeq n s).bitsv = s.bitsv := rfl
@[simp] theorem setSeq_hdrv (n : Nat) (s : State) : (setSeq n s).hdrv = s.hdrv := rfl
@[simp] theorem setSeq_degen (n : Nat) (s : State) : (setSeq n s).degen = s.degen := rfl
@[simp] theorem setSeq_resid (n : Nat) (s : State) : (setSeq n s).resid = s.resid := rfl
@[simp] theorem setSeq_err (n : Nat) (s : State) : (setSeq n s).err = s.err := rfl
@[simp] theorem setSeq_einfo (n : Nat) (s : State) : (setSeq n s).einfo = s.einfo := rfl
@[simp] theorem setSeq_seq (n : Nat) (s : State) : (setSeq n s).seq = BitVec.ofNat 4 n := rfl
@[simp] theorem setSeq_inLen (n : Nat) (s : State) : (setSeq n s).inLen = s.inLen := rfl
@[simp] theorem setSeq_outLen (n : Nat) (s : State) : (setSeq n s).outLen = s.outLen := rfl
@[simp] theorem setSeq_payLen (n : Nat) (s : State) : (setSeq n s).payLen = s.payLen := rfl
@[simp] theorem setSeq_rem (n : Nat) (s : State) : (setSeq n s).rem = s.rem := rfl
@[simp] theorem setSeq_cur (n : Nat) (s : State) : (setSeq n s).cur = s.cur := rfl
@[simp] theorem setSeq_bitLen (n : Nat) (s : State) : (setSeq n s).bitLen = s.bitLen := rfl
@[simp] theorem setSeq_nnode (n : Nat) (s : State) : (setSeq n s).nnode = s.nnode := rfl
@[simp] theorem setSeq_root (n : Nat) (s : State) : (setSeq n s).root = s.root := rfl
@[simp] theorem setSeq_hsize (n : Nat) (s : State) : (setSeq n s).hsize = s.hsize := rfl
@[simp] theorem setSeq_pqOut (n : Nat) (s : State) : (setSeq n s).pqOut = s.pqOut := rfl
@[simp] theorem setSeq_freq (n : Nat) (s : State) : (setSeq n s).freq = s.freq := rfl
@[simp] theorem setSeq_heap (n : Nat) (s : State) : (setSeq n s).heap = s.heap := rfl
@[simp] theorem setSeq_node (n : Nat) (s : State) : (setSeq n s).node = s.node := rfl
@[simp] theorem setSeq_codeLen (n : Nat) (s : State) : (setSeq n s).codeLen = s.codeLen := rfl
@[simp] theorem setSeq_codeBits (n : Nat) (s : State) : (setSeq n s).codeBits = s.codeBits := rfl
@[simp] theorem setSeq_bits (n : Nat) (s : State) : (setSeq n s).bits = s.bits := rfl
@[simp] theorem setSeq_inBuf (n : Nat) (s : State) : (setSeq n s).inBuf = s.inBuf := rfl
@[simp] theorem setSeq_outBuf (n : Nat) (s : State) : (setSeq n s).outBuf = s.outBuf := rfl
@[simp] theorem setSeq_cfg (n : Nat) (s : State) : (setSeq n s).cfg = s.cfg := rfl
@[simp] theorem setSeq_host (n : Nat) (s : State) : (setSeq n s).host = s.host := rfl
@[simp] theorem setSeq_log (n : Nat) (s : State) : (setSeq n s).log = s.log := rfl
@[simp] theorem setSeq_resets (n : Nat) (s : State) : (setSeq n s).resets = s.resets := rfl

/-! ## faultEntry -/

@[simp] theorem faultEntry_dgm (c : CoreFault) (info : Word) (s : State) : (faultEntry c info s).dgm = s.dgm := rfl
@[simp] theorem faultEntry_ie (c : CoreFault) (info : Word) (s : State) : (faultEntry c info s).ie = s.ie := rfl
@[simp] theorem faultEntry_cmd (c : CoreFault) (info : Word) (s : State) : (faultEntry c info s).cmd = s.cmd := rfl
@[simp] theorem faultEntry_busy (c : CoreFault) (info : Word) (s : State) : (faultEntry c info s).busy = s.busy := rfl
@[simp] theorem faultEntry_done (c : CoreFault) (info : Word) (s : State) : (faultEntry c info s).done = s.done := rfl
@[simp] theorem faultEntry_treev (c : CoreFault) (info : Word) (s : State) : (faultEntry c info s).treev = false := rfl
@[simp] theorem faultEntry_codev (c : CoreFault) (info : Word) (s : State) : (faultEntry c info s).codev = false := rfl
@[simp] theorem faultEntry_bitsv (c : CoreFault) (info : Word) (s : State) : (faultEntry c info s).bitsv = false := rfl
@[simp] theorem faultEntry_hdrv (c : CoreFault) (info : Word) (s : State) : (faultEntry c info s).hdrv = false := rfl
@[simp] theorem faultEntry_degen (c : CoreFault) (info : Word) (s : State) : (faultEntry c info s).degen = false := rfl
@[simp] theorem faultEntry_resid (c : CoreFault) (info : Word) (s : State) : (faultEntry c info s).resid = false := rfl
@[simp] theorem faultEntry_err (c : CoreFault) (info : Word) (s : State) : (faultEntry c info s).err = c.code := rfl
@[simp] theorem faultEntry_einfo (c : CoreFault) (info : Word) (s : State) : (faultEntry c info s).einfo = info := rfl
@[simp] theorem faultEntry_seq (c : CoreFault) (info : Word) (s : State) : (faultEntry c info s).seq = s.seq := rfl
@[simp] theorem faultEntry_inLen (c : CoreFault) (info : Word) (s : State) : (faultEntry c info s).inLen = s.inLen := rfl
@[simp] theorem faultEntry_outLen (c : CoreFault) (info : Word) (s : State) : (faultEntry c info s).outLen = 0 := rfl
@[simp] theorem faultEntry_payLen (c : CoreFault) (info : Word) (s : State) : (faultEntry c info s).payLen = 0 := rfl
@[simp] theorem faultEntry_rem (c : CoreFault) (info : Word) (s : State) : (faultEntry c info s).rem = 0 := rfl
@[simp] theorem faultEntry_cur (c : CoreFault) (info : Word) (s : State) : (faultEntry c info s).cur = 0 := rfl
@[simp] theorem faultEntry_bitLen (c : CoreFault) (info : Word) (s : State) : (faultEntry c info s).bitLen = 0 := rfl
@[simp] theorem faultEntry_nnode (c : CoreFault) (info : Word) (s : State) : (faultEntry c info s).nnode = 0 := rfl
@[simp] theorem faultEntry_root (c : CoreFault) (info : Word) (s : State) : (faultEntry c info s).root = 0 := rfl
@[simp] theorem faultEntry_hsize (c : CoreFault) (info : Word) (s : State) : (faultEntry c info s).hsize = 0 := rfl
@[simp] theorem faultEntry_pqOut (c : CoreFault) (info : Word) (s : State) : (faultEntry c info s).pqOut = 0 := rfl
@[simp] theorem faultEntry_freq (c : CoreFault) (info : Word) (s : State) : (faultEntry c info s).freq = s.freq := rfl
@[simp] theorem faultEntry_heap (c : CoreFault) (info : Word) (s : State) : (faultEntry c info s).heap = [] := rfl
@[simp] theorem faultEntry_node (c : CoreFault) (info : Word) (s : State) : (faultEntry c info s).node = [] := rfl
@[simp] theorem faultEntry_codeLen (c : CoreFault) (info : Word) (s : State) : (faultEntry c info s).codeLen = [] := rfl
@[simp] theorem faultEntry_codeBits (c : CoreFault) (info : Word) (s : State) : (faultEntry c info s).codeBits = [] := rfl
@[simp] theorem faultEntry_bits (c : CoreFault) (info : Word) (s : State) : (faultEntry c info s).bits = [] := rfl
@[simp] theorem faultEntry_inBuf (c : CoreFault) (info : Word) (s : State) : (faultEntry c info s).inBuf = s.inBuf := rfl
@[simp] theorem faultEntry_outBuf (c : CoreFault) (info : Word) (s : State) : (faultEntry c info s).outBuf = s.outBuf := rfl
@[simp] theorem faultEntry_cfg (c : CoreFault) (info : Word) (s : State) : (faultEntry c info s).cfg = s.cfg := rfl
@[simp] theorem faultEntry_host (c : CoreFault) (info : Word) (s : State) : (faultEntry c info s).host = s.host := rfl
@[simp] theorem faultEntry_log (c : CoreFault) (info : Word) (s : State) : (faultEntry c info s).log = s.log := rfl
@[simp] theorem faultEntry_resets (c : CoreFault) (info : Word) (s : State) : (faultEntry c info s).resets = s.resets := rfl

/-! ## complete -/

@[simp] theorem complete_dgm (s : State) : (complete s).dgm = s.dgm := rfl
@[simp] theorem complete_ie (s : State) : (complete s).ie = s.ie := rfl
@[simp] theorem complete_cmd (s : State) : (complete s).cmd = s.cmd := rfl
@[simp] theorem complete_busy (s : State) : (complete s).busy = false := rfl
@[simp] theorem complete_done (s : State) : (complete s).done = true := rfl
@[simp] theorem complete_treev (s : State) : (complete s).treev = s.treev := rfl
@[simp] theorem complete_codev (s : State) : (complete s).codev = s.codev := rfl
@[simp] theorem complete_bitsv (s : State) : (complete s).bitsv = s.bitsv := rfl
@[simp] theorem complete_hdrv (s : State) : (complete s).hdrv = s.hdrv := rfl
@[simp] theorem complete_degen (s : State) : (complete s).degen = s.degen := rfl
@[simp] theorem complete_resid (s : State) : (complete s).resid = s.resid := rfl
@[simp] theorem complete_err (s : State) : (complete s).err = s.err := rfl
@[simp] theorem complete_einfo (s : State) : (complete s).einfo = s.einfo := rfl
@[simp] theorem complete_seq (s : State) : (complete s).seq = s.seq := rfl
@[simp] theorem complete_inLen (s : State) : (complete s).inLen = s.inLen := rfl
@[simp] theorem complete_outLen (s : State) : (complete s).outLen = s.outLen := rfl
@[simp] theorem complete_payLen (s : State) : (complete s).payLen = s.payLen := rfl
@[simp] theorem complete_rem (s : State) : (complete s).rem = s.rem := rfl
@[simp] theorem complete_cur (s : State) : (complete s).cur = s.cur := rfl
@[simp] theorem complete_bitLen (s : State) : (complete s).bitLen = s.bitLen := rfl
@[simp] theorem complete_nnode (s : State) : (complete s).nnode = s.nnode := rfl
@[simp] theorem complete_root (s : State) : (complete s).root = s.root := rfl
@[simp] theorem complete_hsize (s : State) : (complete s).hsize = s.hsize := rfl
@[simp] theorem complete_pqOut (s : State) : (complete s).pqOut = s.pqOut := rfl
@[simp] theorem complete_freq (s : State) : (complete s).freq = s.freq := rfl
@[simp] theorem complete_heap (s : State) : (complete s).heap = s.heap := rfl
@[simp] theorem complete_node (s : State) : (complete s).node = s.node := rfl
@[simp] theorem complete_codeLen (s : State) : (complete s).codeLen = s.codeLen := rfl
@[simp] theorem complete_codeBits (s : State) : (complete s).codeBits = s.codeBits := rfl
@[simp] theorem complete_bits (s : State) : (complete s).bits = s.bits := rfl
@[simp] theorem complete_inBuf (s : State) : (complete s).inBuf = s.inBuf := rfl
@[simp] theorem complete_outBuf (s : State) : (complete s).outBuf = s.outBuf := rfl
@[simp] theorem complete_cfg (s : State) : (complete s).cfg = s.cfg := rfl
@[simp] theorem complete_host (s : State) : (complete s).host = s.host := rfl
@[simp] theorem complete_log (s : State) : (complete s).log = s.log := rfl
@[simp] theorem complete_resets (s : State) : (complete s).resets = s.resets := rfl

/-! ## faultReturn -/

@[simp] theorem faultReturn_dgm (s : State) : (faultReturn s).dgm = s.dgm := rfl
@[simp] theorem faultReturn_ie (s : State) : (faultReturn s).ie = s.ie := rfl
@[simp] theorem faultReturn_cmd (s : State) : (faultReturn s).cmd = s.cmd := rfl
@[simp] theorem faultReturn_busy (s : State) : (faultReturn s).busy = s.busy := rfl
@[simp] theorem faultReturn_done (s : State) : (faultReturn s).done = s.done := rfl
@[simp] theorem faultReturn_treev (s : State) : (faultReturn s).treev = false := rfl
@[simp] theorem faultReturn_codev (s : State) : (faultReturn s).codev = false := rfl
@[simp] theorem faultReturn_bitsv (s : State) : (faultReturn s).bitsv = false := rfl
@[simp] theorem faultReturn_hdrv (s : State) : (faultReturn s).hdrv = false := rfl
@[simp] theorem faultReturn_degen (s : State) : (faultReturn s).degen = false := rfl
@[simp] theorem faultReturn_resid (s : State) : (faultReturn s).resid = false := rfl
@[simp] theorem faultReturn_err (s : State) : (faultReturn s).err = 0 := rfl
@[simp] theorem faultReturn_einfo (s : State) : (faultReturn s).einfo = 0 := rfl
@[simp] theorem faultReturn_seq (s : State) : (faultReturn s).seq = 0 := rfl
@[simp] theorem faultReturn_inLen (s : State) : (faultReturn s).inLen = s.inLen := rfl
@[simp] theorem faultReturn_outLen (s : State) : (faultReturn s).outLen = 0 := rfl
@[simp] theorem faultReturn_payLen (s : State) : (faultReturn s).payLen = 0 := rfl
@[simp] theorem faultReturn_rem (s : State) : (faultReturn s).rem = 0 := rfl
@[simp] theorem faultReturn_cur (s : State) : (faultReturn s).cur = 0 := rfl
@[simp] theorem faultReturn_bitLen (s : State) : (faultReturn s).bitLen = 0 := rfl
@[simp] theorem faultReturn_nnode (s : State) : (faultReturn s).nnode = 0 := rfl
@[simp] theorem faultReturn_root (s : State) : (faultReturn s).root = 0 := rfl
@[simp] theorem faultReturn_hsize (s : State) : (faultReturn s).hsize = 0 := rfl
@[simp] theorem faultReturn_pqOut (s : State) : (faultReturn s).pqOut = 0 := rfl
@[simp] theorem faultReturn_freq (s : State) : (faultReturn s).freq = s.freq := rfl
@[simp] theorem faultReturn_heap (s : State) : (faultReturn s).heap = [] := rfl
@[simp] theorem faultReturn_node (s : State) : (faultReturn s).node = [] := rfl
@[simp] theorem faultReturn_codeLen (s : State) : (faultReturn s).codeLen = [] := rfl
@[simp] theorem faultReturn_codeBits (s : State) : (faultReturn s).codeBits = [] := rfl
@[simp] theorem faultReturn_bits (s : State) : (faultReturn s).bits = [] := rfl
@[simp] theorem faultReturn_inBuf (s : State) : (faultReturn s).inBuf = s.inBuf := rfl
@[simp] theorem faultReturn_outBuf (s : State) : (faultReturn s).outBuf = s.outBuf := rfl
@[simp] theorem faultReturn_cfg (s : State) : (faultReturn s).cfg = s.cfg := rfl
@[simp] theorem faultReturn_host (s : State) : (faultReturn s).host = s.host := rfl
@[simp] theorem faultReturn_log (s : State) : (faultReturn s).log = s.log := rfl
@[simp] theorem faultReturn_resets (s : State) : (faultReturn s).resets = s.resets := rfl

/-! ## dropTop -/

@[simp] theorem dropTop_dgm (s : State) : (dropTop s).dgm = s.dgm := rfl
@[simp] theorem dropTop_ie (s : State) : (dropTop s).ie = s.ie := rfl
@[simp] theorem dropTop_cmd (s : State) : (dropTop s).cmd = s.cmd := rfl
@[simp] theorem dropTop_busy (s : State) : (dropTop s).busy = s.busy := rfl
@[simp] theorem dropTop_done (s : State) : (dropTop s).done = s.done := rfl
@[simp] theorem dropTop_treev (s : State) : (dropTop s).treev = s.treev := rfl
@[simp] theorem dropTop_codev (s : State) : (dropTop s).codev = s.codev := rfl
@[simp] theorem dropTop_bitsv (s : State) : (dropTop s).bitsv = s.bitsv := rfl
@[simp] theorem dropTop_hdrv (s : State) : (dropTop s).hdrv = s.hdrv := rfl
@[simp] theorem dropTop_degen (s : State) : (dropTop s).degen = s.degen := rfl
@[simp] theorem dropTop_resid (s : State) : (dropTop s).resid = s.resid := rfl
@[simp] theorem dropTop_err (s : State) : (dropTop s).err = s.err := rfl
@[simp] theorem dropTop_einfo (s : State) : (dropTop s).einfo = s.einfo := rfl
@[simp] theorem dropTop_seq (s : State) : (dropTop s).seq = s.seq := rfl
@[simp] theorem dropTop_inLen (s : State) : (dropTop s).inLen = s.inLen := rfl
@[simp] theorem dropTop_outLen (s : State) : (dropTop s).outLen = s.outLen := rfl
@[simp] theorem dropTop_payLen (s : State) : (dropTop s).payLen = s.payLen := rfl
@[simp] theorem dropTop_rem (s : State) : (dropTop s).rem = s.rem := rfl
@[simp] theorem dropTop_cur (s : State) : (dropTop s).cur = s.cur := rfl
@[simp] theorem dropTop_bitLen (s : State) : (dropTop s).bitLen = s.bitLen := rfl
@[simp] theorem dropTop_nnode (s : State) : (dropTop s).nnode = s.nnode := rfl
@[simp] theorem dropTop_root (s : State) : (dropTop s).root = s.root := rfl
@[simp] theorem dropTop_hsize (s : State) : (dropTop s).hsize = s.hsize - 1 := rfl
@[simp] theorem dropTop_pqOut (s : State) : (dropTop s).pqOut = s.pqOut := rfl
@[simp] theorem dropTop_freq (s : State) : (dropTop s).freq = s.freq := rfl
@[simp] theorem dropTop_heap (s : State) : (dropTop s).heap = tableSet 0 (tableSet 0 s.heap 0 (heapAt s (s.hsize - 1).toNat)) (s.hsize - 1).toNat 0 := rfl
@[simp] theorem dropTop_node (s : State) : (dropTop s).node = s.node := rfl
@[simp] theorem dropTop_codeLen (s : State) : (dropTop s).codeLen = s.codeLen := rfl
@[simp] theorem dropTop_codeBits (s : State) : (dropTop s).codeBits = s.codeBits := rfl
@[simp] theorem dropTop_bits (s : State) : (dropTop s).bits = s.bits := rfl
@[simp] theorem dropTop_inBuf (s : State) : (dropTop s).inBuf = s.inBuf := rfl
@[simp] theorem dropTop_outBuf (s : State) : (dropTop s).outBuf = s.outBuf := rfl
@[simp] theorem dropTop_cfg (s : State) : (dropTop s).cfg = s.cfg := rfl
@[simp] theorem dropTop_host (s : State) : (dropTop s).host = s.host := rfl
@[simp] theorem dropTop_log (s : State) : (dropTop s).log = s.log := rfl
@[simp] theorem dropTop_resets (s : State) : (dropTop s).resets = s.resets := rfl

/-! ## setRem -/

@[simp] theorem setRem_dgm (s : State) : (setRem s).dgm = s.dgm := rfl
@[simp] theorem setRem_ie (s : State) : (setRem s).ie = s.ie := rfl
@[simp] theorem setRem_cmd (s : State) : (setRem s).cmd = s.cmd := rfl
@[simp] theorem setRem_busy (s : State) : (setRem s).busy = s.busy := rfl
@[simp] theorem setRem_done (s : State) : (setRem s).done = s.done := rfl
@[simp] theorem setRem_treev (s : State) : (setRem s).treev = s.treev := rfl
@[simp] theorem setRem_codev (s : State) : (setRem s).codev = s.codev := rfl
@[simp] theorem setRem_bitsv (s : State) : (setRem s).bitsv = s.bitsv := rfl
@[simp] theorem setRem_hdrv (s : State) : (setRem s).hdrv = s.hdrv := rfl
@[simp] theorem setRem_degen (s : State) : (setRem s).degen = s.degen := rfl
@[simp] theorem setRem_resid (s : State) : (setRem s).resid = s.resid := rfl
@[simp] theorem setRem_err (s : State) : (setRem s).err = s.err := rfl
@[simp] theorem setRem_einfo (s : State) : (setRem s).einfo = s.einfo := rfl
@[simp] theorem setRem_seq (s : State) : (setRem s).seq = s.seq := rfl
@[simp] theorem setRem_inLen (s : State) : (setRem s).inLen = s.inLen := rfl
@[simp] theorem setRem_outLen (s : State) : (setRem s).outLen = s.outLen := rfl
@[simp] theorem setRem_payLen (s : State) : (setRem s).payLen = s.payLen := rfl
@[simp] theorem setRem_rem (s : State) : (setRem s).rem = BitVec.ofNat 3 (remOf s.bitLen.toNat) := rfl
@[simp] theorem setRem_cur (s : State) : (setRem s).cur = s.cur := rfl
@[simp] theorem setRem_bitLen (s : State) : (setRem s).bitLen = s.bitLen := rfl
@[simp] theorem setRem_nnode (s : State) : (setRem s).nnode = s.nnode := rfl
@[simp] theorem setRem_root (s : State) : (setRem s).root = s.root := rfl
@[simp] theorem setRem_hsize (s : State) : (setRem s).hsize = s.hsize := rfl
@[simp] theorem setRem_pqOut (s : State) : (setRem s).pqOut = s.pqOut := rfl
@[simp] theorem setRem_freq (s : State) : (setRem s).freq = s.freq := rfl
@[simp] theorem setRem_heap (s : State) : (setRem s).heap = s.heap := rfl
@[simp] theorem setRem_node (s : State) : (setRem s).node = s.node := rfl
@[simp] theorem setRem_codeLen (s : State) : (setRem s).codeLen = s.codeLen := rfl
@[simp] theorem setRem_codeBits (s : State) : (setRem s).codeBits = s.codeBits := rfl
@[simp] theorem setRem_bits (s : State) : (setRem s).bits = s.bits := rfl
@[simp] theorem setRem_inBuf (s : State) : (setRem s).inBuf = s.inBuf := rfl
@[simp] theorem setRem_outBuf (s : State) : (setRem s).outBuf = s.outBuf := rfl
@[simp] theorem setRem_cfg (s : State) : (setRem s).cfg = s.cfg := rfl
@[simp] theorem setRem_host (s : State) : (setRem s).host = s.host := rfl
@[simp] theorem setRem_log (s : State) : (setRem s).log = s.log := rfl
@[simp] theorem setRem_resets (s : State) : (setRem s).resets = s.resets := rfl

/-! ## writeCtrl -/

@[simp] theorem writeCtrl_dgm (v : Word) (s : State) : (writeCtrl v s).dgm = v.getLsbD 0 := rfl
@[simp] theorem writeCtrl_ie (v : Word) (s : State) : (writeCtrl v s).ie = v.getLsbD 1 := rfl
@[simp] theorem writeCtrl_cmd (v : Word) (s : State) : (writeCtrl v s).cmd = s.cmd := rfl
@[simp] theorem writeCtrl_busy (v : Word) (s : State) : (writeCtrl v s).busy = s.busy := rfl
@[simp] theorem writeCtrl_done (v : Word) (s : State) : (writeCtrl v s).done = s.done := rfl
@[simp] theorem writeCtrl_treev (v : Word) (s : State) : (writeCtrl v s).treev = s.treev := rfl
@[simp] theorem writeCtrl_codev (v : Word) (s : State) : (writeCtrl v s).codev = s.codev := rfl
@[simp] theorem writeCtrl_bitsv (v : Word) (s : State) : (writeCtrl v s).bitsv = s.bitsv := rfl
@[simp] theorem writeCtrl_hdrv (v : Word) (s : State) : (writeCtrl v s).hdrv = s.hdrv := rfl
@[simp] theorem writeCtrl_degen (v : Word) (s : State) : (writeCtrl v s).degen = s.degen := rfl
@[simp] theorem writeCtrl_resid (v : Word) (s : State) : (writeCtrl v s).resid = s.resid := rfl
@[simp] theorem writeCtrl_err (v : Word) (s : State) : (writeCtrl v s).err = s.err := rfl
@[simp] theorem writeCtrl_einfo (v : Word) (s : State) : (writeCtrl v s).einfo = s.einfo := rfl
@[simp] theorem writeCtrl_seq (v : Word) (s : State) : (writeCtrl v s).seq = s.seq := rfl
@[simp] theorem writeCtrl_inLen (v : Word) (s : State) : (writeCtrl v s).inLen = s.inLen := rfl
@[simp] theorem writeCtrl_outLen (v : Word) (s : State) : (writeCtrl v s).outLen = s.outLen := rfl
@[simp] theorem writeCtrl_payLen (v : Word) (s : State) : (writeCtrl v s).payLen = s.payLen := rfl
@[simp] theorem writeCtrl_rem (v : Word) (s : State) : (writeCtrl v s).rem = s.rem := rfl
@[simp] theorem writeCtrl_cur (v : Word) (s : State) : (writeCtrl v s).cur = s.cur := rfl
@[simp] theorem writeCtrl_bitLen (v : Word) (s : State) : (writeCtrl v s).bitLen = s.bitLen := rfl
@[simp] theorem writeCtrl_nnode (v : Word) (s : State) : (writeCtrl v s).nnode = s.nnode := rfl
@[simp] theorem writeCtrl_root (v : Word) (s : State) : (writeCtrl v s).root = s.root := rfl
@[simp] theorem writeCtrl_hsize (v : Word) (s : State) : (writeCtrl v s).hsize = s.hsize := rfl
@[simp] theorem writeCtrl_pqOut (v : Word) (s : State) : (writeCtrl v s).pqOut = s.pqOut := rfl
@[simp] theorem writeCtrl_freq (v : Word) (s : State) : (writeCtrl v s).freq = s.freq := rfl
@[simp] theorem writeCtrl_heap (v : Word) (s : State) : (writeCtrl v s).heap = s.heap := rfl
@[simp] theorem writeCtrl_node (v : Word) (s : State) : (writeCtrl v s).node = s.node := rfl
@[simp] theorem writeCtrl_codeLen (v : Word) (s : State) : (writeCtrl v s).codeLen = s.codeLen := rfl
@[simp] theorem writeCtrl_codeBits (v : Word) (s : State) : (writeCtrl v s).codeBits = s.codeBits := rfl
@[simp] theorem writeCtrl_bits (v : Word) (s : State) : (writeCtrl v s).bits = s.bits := rfl
@[simp] theorem writeCtrl_inBuf (v : Word) (s : State) : (writeCtrl v s).inBuf = s.inBuf := rfl
@[simp] theorem writeCtrl_outBuf (v : Word) (s : State) : (writeCtrl v s).outBuf = s.outBuf := rfl
@[simp] theorem writeCtrl_cfg (v : Word) (s : State) : (writeCtrl v s).cfg = s.cfg := rfl
@[simp] theorem writeCtrl_host (v : Word) (s : State) : (writeCtrl v s).host = s.host := rfl
@[simp] theorem writeCtrl_log (v : Word) (s : State) : (writeCtrl v s).log = s.log := rfl
@[simp] theorem writeCtrl_resets (v : Word) (s : State) : (writeCtrl v s).resets = s.resets := rfl

/-! ## writeStatus -/

@[simp] theorem writeStatus_dgm (v : Word) (s : State) : (writeStatus v s).dgm = s.dgm := rfl
@[simp] theorem writeStatus_ie (v : Word) (s : State) : (writeStatus v s).ie = s.ie := rfl
@[simp] theorem writeStatus_cmd (v : Word) (s : State) : (writeStatus v s).cmd = s.cmd := rfl
@[simp] theorem writeStatus_busy (v : Word) (s : State) : (writeStatus v s).busy = s.busy := rfl
@[simp] theorem writeStatus_done (v : Word) (s : State) : (writeStatus v s).done = (s.done && !v.getLsbD 1) := rfl
@[simp] theorem writeStatus_treev (v : Word) (s : State) : (writeStatus v s).treev = s.treev := rfl
@[simp] theorem writeStatus_codev (v : Word) (s : State) : (writeStatus v s).codev = s.codev := rfl
@[simp] theorem writeStatus_bitsv (v : Word) (s : State) : (writeStatus v s).bitsv = s.bitsv := rfl
@[simp] theorem writeStatus_hdrv (v : Word) (s : State) : (writeStatus v s).hdrv = s.hdrv := rfl
@[simp] theorem writeStatus_degen (v : Word) (s : State) : (writeStatus v s).degen = s.degen := rfl
@[simp] theorem writeStatus_resid (v : Word) (s : State) : (writeStatus v s).resid = s.resid := rfl
@[simp] theorem writeStatus_err (v : Word) (s : State) : (writeStatus v s).err = s.err := rfl
@[simp] theorem writeStatus_einfo (v : Word) (s : State) : (writeStatus v s).einfo = s.einfo := rfl
@[simp] theorem writeStatus_seq (v : Word) (s : State) : (writeStatus v s).seq = s.seq := rfl
@[simp] theorem writeStatus_inLen (v : Word) (s : State) : (writeStatus v s).inLen = s.inLen := rfl
@[simp] theorem writeStatus_outLen (v : Word) (s : State) : (writeStatus v s).outLen = s.outLen := rfl
@[simp] theorem writeStatus_payLen (v : Word) (s : State) : (writeStatus v s).payLen = s.payLen := rfl
@[simp] theorem writeStatus_rem (v : Word) (s : State) : (writeStatus v s).rem = s.rem := rfl
@[simp] theorem writeStatus_cur (v : Word) (s : State) : (writeStatus v s).cur = s.cur := rfl
@[simp] theorem writeStatus_bitLen (v : Word) (s : State) : (writeStatus v s).bitLen = s.bitLen := rfl
@[simp] theorem writeStatus_nnode (v : Word) (s : State) : (writeStatus v s).nnode = s.nnode := rfl
@[simp] theorem writeStatus_root (v : Word) (s : State) : (writeStatus v s).root = s.root := rfl
@[simp] theorem writeStatus_hsize (v : Word) (s : State) : (writeStatus v s).hsize = s.hsize := rfl
@[simp] theorem writeStatus_pqOut (v : Word) (s : State) : (writeStatus v s).pqOut = s.pqOut := rfl
@[simp] theorem writeStatus_freq (v : Word) (s : State) : (writeStatus v s).freq = s.freq := rfl
@[simp] theorem writeStatus_heap (v : Word) (s : State) : (writeStatus v s).heap = s.heap := rfl
@[simp] theorem writeStatus_node (v : Word) (s : State) : (writeStatus v s).node = s.node := rfl
@[simp] theorem writeStatus_codeLen (v : Word) (s : State) : (writeStatus v s).codeLen = s.codeLen := rfl
@[simp] theorem writeStatus_codeBits (v : Word) (s : State) : (writeStatus v s).codeBits = s.codeBits := rfl
@[simp] theorem writeStatus_bits (v : Word) (s : State) : (writeStatus v s).bits = s.bits := rfl
@[simp] theorem writeStatus_inBuf (v : Word) (s : State) : (writeStatus v s).inBuf = s.inBuf := rfl
@[simp] theorem writeStatus_outBuf (v : Word) (s : State) : (writeStatus v s).outBuf = s.outBuf := rfl
@[simp] theorem writeStatus_cfg (v : Word) (s : State) : (writeStatus v s).cfg = s.cfg := rfl
@[simp] theorem writeStatus_host (v : Word) (s : State) : (writeStatus v s).host = s.host := rfl
@[simp] theorem writeStatus_log (v : Word) (s : State) : (writeStatus v s).log = s.log := rfl
@[simp] theorem writeStatus_resets (v : Word) (s : State) : (writeStatus v s).resets = s.resets := rfl

/-! ## respond -/

@[simp] theorem respond_dgm (r : Response) (s : State) : (respond r s).dgm = s.dgm := rfl
@[simp] theorem respond_ie (r : Response) (s : State) : (respond r s).ie = s.ie := rfl
@[simp] theorem respond_cmd (r : Response) (s : State) : (respond r s).cmd = s.cmd := rfl
@[simp] theorem respond_busy (r : Response) (s : State) : (respond r s).busy = s.busy := rfl
@[simp] theorem respond_done (r : Response) (s : State) : (respond r s).done = s.done := rfl
@[simp] theorem respond_treev (r : Response) (s : State) : (respond r s).treev = s.treev := rfl
@[simp] theorem respond_codev (r : Response) (s : State) : (respond r s).codev = s.codev := rfl
@[simp] theorem respond_bitsv (r : Response) (s : State) : (respond r s).bitsv = s.bitsv := rfl
@[simp] theorem respond_hdrv (r : Response) (s : State) : (respond r s).hdrv = s.hdrv := rfl
@[simp] theorem respond_degen (r : Response) (s : State) : (respond r s).degen = s.degen := rfl
@[simp] theorem respond_resid (r : Response) (s : State) : (respond r s).resid = s.resid := rfl
@[simp] theorem respond_err (r : Response) (s : State) : (respond r s).err = s.err := rfl
@[simp] theorem respond_einfo (r : Response) (s : State) : (respond r s).einfo = s.einfo := rfl
@[simp] theorem respond_seq (r : Response) (s : State) : (respond r s).seq = s.seq := rfl
@[simp] theorem respond_inLen (r : Response) (s : State) : (respond r s).inLen = s.inLen := rfl
@[simp] theorem respond_outLen (r : Response) (s : State) : (respond r s).outLen = s.outLen := rfl
@[simp] theorem respond_payLen (r : Response) (s : State) : (respond r s).payLen = s.payLen := rfl
@[simp] theorem respond_rem (r : Response) (s : State) : (respond r s).rem = s.rem := rfl
@[simp] theorem respond_cur (r : Response) (s : State) : (respond r s).cur = s.cur := rfl
@[simp] theorem respond_bitLen (r : Response) (s : State) : (respond r s).bitLen = s.bitLen := rfl
@[simp] theorem respond_nnode (r : Response) (s : State) : (respond r s).nnode = s.nnode := rfl
@[simp] theorem respond_root (r : Response) (s : State) : (respond r s).root = s.root := rfl
@[simp] theorem respond_hsize (r : Response) (s : State) : (respond r s).hsize = s.hsize := rfl
@[simp] theorem respond_pqOut (r : Response) (s : State) : (respond r s).pqOut = s.pqOut := rfl
@[simp] theorem respond_freq (r : Response) (s : State) : (respond r s).freq = s.freq := rfl
@[simp] theorem respond_heap (r : Response) (s : State) : (respond r s).heap = s.heap := rfl
@[simp] theorem respond_node (r : Response) (s : State) : (respond r s).node = s.node := rfl
@[simp] theorem respond_codeLen (r : Response) (s : State) : (respond r s).codeLen = s.codeLen := rfl
@[simp] theorem respond_codeBits (r : Response) (s : State) : (respond r s).codeBits = s.codeBits := rfl
@[simp] theorem respond_bits (r : Response) (s : State) : (respond r s).bits = s.bits := rfl
@[simp] theorem respond_inBuf (r : Response) (s : State) : (respond r s).inBuf = s.inBuf := rfl
@[simp] theorem respond_outBuf (r : Response) (s : State) : (respond r s).outBuf = s.outBuf := rfl
@[simp] theorem respond_cfg (r : Response) (s : State) : (respond r s).cfg = s.cfg := rfl
@[simp] theorem respond_host (r : Response) (s : State) : (respond r s).host = s.host := rfl
@[simp] theorem respond_log (r : Response) (s : State) : (respond r s).log = r :: s.log := rfl
@[simp] theorem respond_resets (r : Response) (s : State) : (respond r s).resets = s.resets := rfl

/-! ## assertReset -/

@[simp] theorem assertReset_dgm (s : State) : (assertReset s).dgm = false := rfl
@[simp] theorem assertReset_ie (s : State) : (assertReset s).ie = false := rfl
@[simp] theorem assertReset_cmd (s : State) : (assertReset s).cmd = 0 := rfl
@[simp] theorem assertReset_busy (s : State) : (assertReset s).busy = false := rfl
@[simp] theorem assertReset_done (s : State) : (assertReset s).done = false := rfl
@[simp] theorem assertReset_treev (s : State) : (assertReset s).treev = false := rfl
@[simp] theorem assertReset_codev (s : State) : (assertReset s).codev = false := rfl
@[simp] theorem assertReset_bitsv (s : State) : (assertReset s).bitsv = false := rfl
@[simp] theorem assertReset_hdrv (s : State) : (assertReset s).hdrv = false := rfl
@[simp] theorem assertReset_degen (s : State) : (assertReset s).degen = false := rfl
@[simp] theorem assertReset_resid (s : State) : (assertReset s).resid = false := rfl
@[simp] theorem assertReset_err (s : State) : (assertReset s).err = 0 := rfl
@[simp] theorem assertReset_einfo (s : State) : (assertReset s).einfo = 0 := rfl
@[simp] theorem assertReset_seq (s : State) : (assertReset s).seq = 0 := rfl
@[simp] theorem assertReset_inLen (s : State) : (assertReset s).inLen = 0 := rfl
@[simp] theorem assertReset_outLen (s : State) : (assertReset s).outLen = 0 := rfl
@[simp] theorem assertReset_payLen (s : State) : (assertReset s).payLen = 0 := rfl
@[simp] theorem assertReset_rem (s : State) : (assertReset s).rem = 0 := rfl
@[simp] theorem assertReset_cur (s : State) : (assertReset s).cur = 0 := rfl
@[simp] theorem assertReset_bitLen (s : State) : (assertReset s).bitLen = 0 := rfl
@[simp] theorem assertReset_nnode (s : State) : (assertReset s).nnode = 0 := rfl
@[simp] theorem assertReset_root (s : State) : (assertReset s).root = 0 := rfl
@[simp] theorem assertReset_hsize (s : State) : (assertReset s).hsize = 0 := rfl
@[simp] theorem assertReset_pqOut (s : State) : (assertReset s).pqOut = 0 := rfl
@[simp] theorem assertReset_freq (s : State) : (assertReset s).freq = [] := rfl
@[simp] theorem assertReset_heap (s : State) : (assertReset s).heap = [] := rfl
@[simp] theorem assertReset_node (s : State) : (assertReset s).node = [] := rfl
@[simp] theorem assertReset_codeLen (s : State) : (assertReset s).codeLen = [] := rfl
@[simp] theorem assertReset_codeBits (s : State) : (assertReset s).codeBits = [] := rfl
@[simp] theorem assertReset_bits (s : State) : (assertReset s).bits = [] := rfl
@[simp] theorem assertReset_inBuf (s : State) : (assertReset s).inBuf = [] := rfl
@[simp] theorem assertReset_outBuf (s : State) : (assertReset s).outBuf = [] := rfl
@[simp] theorem assertReset_cfg (s : State) : (assertReset s).cfg = s.cfg := rfl
@[simp] theorem assertReset_host (s : State) : (assertReset s).host = s.host := rfl
@[simp] theorem assertReset_log (s : State) : (assertReset s).log = s.log := rfl
@[simp] theorem assertReset_resets (s : State) : (assertReset s).resets = s.resets + 1 := rfl

end Sys2Proof.Machine
end

