-- ==== Sys2Proof/Laws/Table.lean ====
section
/-! SUPPORT. The laws of sparse tables: a read after a write, writes of runs, the canonical form kept, and equal tables equal data. -/

namespace Sys2Proof.Machine

variable {α : Type}

theorem tableFind_put (m : Table α) (i j : Nat) (v : α) :
    tableFind (tablePut m i v) j = if j = i then some v else tableFind m j := by
  induction m with
  | nil => simp [tablePut, tableFind]
  | cons e rest ih =>
    obtain ⟨k, w⟩ := e
    simp only [tablePut]
    split_ifs <;> simp_all [tableFind]

theorem tableFind_erase (m : Table α) (i j : Nat) :
    tableFind (tableErase m i) j = if j = i then none else tableFind m j := by
  induction m with
  | nil => simp [tableErase, tableFind]
  | cons e rest ih =>
    obtain ⟨k, w⟩ := e
    simp only [tableErase] at ih ⊢
    by_cases hk : k = i
    · subst hk; simp only [List.filter, ne_eq, not_true_eq_false, decide_false, ih, tableFind]
      split_ifs <;> simp_all
    · simp only [List.filter, ne_eq, hk, not_false_eq_true, decide_true, tableFind, ih]
      split_ifs <;> simp_all

variable [DecidableEq α] (d : α)

/-- A read after a write. -/
theorem tableGet_set (m : Table α) (i j : Nat) (v : α) :
    tableGet d (tableSet d m i v) j = if j = i then v else tableGet d m j := by
  unfold tableSet tableGet
  split_ifs with h h' h' <;> simp_all [tableFind_put, tableFind_erase]

@[simp] theorem tableGet_set_same (m : Table α) (i : Nat) (v : α) : tableGet d (tableSet d m i v) i = v := by
  simp [tableGet_set]

theorem tableGet_set_ne (m : Table α) {i j : Nat} (v : α) (h : j ≠ i) :
    tableGet d (tableSet d m i v) j = tableGet d m j := by
  simp [tableGet_set, h]

omit [DecidableEq α] in
@[simp] theorem tableGet_nil (i : Nat) : tableGet d [] i = d := rfl

/-- A read after the write of a run of values. -/
theorem tableGet_write (m : Table α) (i j : Nat) (vs : List α) :
    tableGet d (tableWrite d m i vs) j = if i ≤ j ∧ j < i + vs.length then vs.getD (j - i) d else tableGet d m j := by
  induction vs generalizing m i with
  | nil => simp [tableWrite]
  | cons v vs ih =>
    simp only [tableWrite, ih, tableGet_set, List.length_cons]
    rcases Nat.lt_trichotomy j i with h | h | h
    · rw [if_neg (by omega), if_neg (by omega), if_neg (by omega)]
    · subst h; simp
    · by_cases hj : j < i + 1 + vs.length
      · rw [if_pos (by omega), if_pos (by omega)]
        obtain ⟨k, rfl⟩ : ∃ k, j = i + 1 + k := ⟨j - (i + 1), by omega⟩
        rw [show i + 1 + k - (i + 1) = k by omega, show i + 1 + k - i = k + 1 by omega]; simp
      · rw [if_neg (by omega), if_neg (by omega), if_neg (by omega)]

/-! ## The canonical form -/

omit [DecidableEq α] in
theorem tableSorted_cons {k : Nat} {w : α} {rest : Table α} :
    tableSorted ((k, w) :: rest) ↔ (∀ e ∈ rest, k < e.1) ∧ tableSorted rest := by
  simp [tableSorted, List.pairwise_cons]

omit [DecidableEq α] in
theorem mem_tablePut {m : Table α} {i : Nat} {v : α} {e : Nat × α} (h : e ∈ tablePut m i v) : e = (i, v) ∨ e ∈ m := by
  induction m with
  | nil => simpa [tablePut] using h
  | cons x rest ih =>
    obtain ⟨k, w⟩ := x
    simp only [tablePut] at h
    split_ifs at h <;> simp only [List.mem_cons] at h ⊢ <;> tauto

omit [DecidableEq α] in
theorem tableSorted_put {m : Table α} (h : tableSorted m) (i : Nat) (v : α) : tableSorted (tablePut m i v) := by
  induction m with
  | nil => simp [tablePut, tableSorted]
  | cons x rest ih =>
    obtain ⟨k, w⟩ := x
    rw [tableSorted_cons] at h
    simp only [tablePut]
    split_ifs with h1 h2
    · rw [tableSorted_cons, tableSorted_cons]
      exact ⟨fun e he => by
        rcases List.mem_cons.1 he with rfl | he
        · exact h1
        · exact h1.trans (h.1 e he), h⟩
    · subst h2; rw [tableSorted_cons]; exact h
    · rw [tableSorted_cons]
      refine ⟨fun e he => ?_, ih h.2⟩
      rcases mem_tablePut he with rfl | he
      · show k < i; omega
      · exact h.1 e he

omit [DecidableEq α] in
theorem tableSorted_erase {m : Table α} (h : tableSorted m) (i : Nat) : tableSorted (tableErase m i) :=
  List.Pairwise.sublist (List.filter_sublist.map Prod.fst) h

/-- Writing an entry keeps the canonical form. -/
theorem tableWf_set {m : Table α} (h : tableWf d m) (i : Nat) (v : α) : tableWf d (tableSet d m i v) := by
  unfold tableSet
  split_ifs with hv
  · exact ⟨tableSorted_erase h.1 i, fun e he => h.2 e (List.mem_of_mem_filter he)⟩
  · refine ⟨tableSorted_put h.1 i v, fun e he => ?_⟩
    rcases mem_tablePut he with rfl | he
    · exact hv
    · exact h.2 e he

/-- Writing a run of entries keeps the canonical form. -/
theorem tableWf_write {m : Table α} (h : tableWf d m) (i : Nat) (vs : List α) : tableWf d (tableWrite d m i vs) := by
  induction vs generalizing m i with
  | nil => exact h
  | cons v vs ih => exact ih (tableWf_set d h i v) (i + 1)

theorem tableWf_nil : tableWf d [] := ⟨List.Pairwise.nil, by simp⟩

/-- Where an entry of a written table comes from. -/
theorem mem_tableSet {m : Table α} {i : Nat} {v : α} {e : Nat × α} (h : e ∈ tableSet d m i v) : e = (i, v) ∨ e ∈ m := by
  unfold tableSet at h
  split_ifs at h with hv
  · exact .inr (List.mem_of_mem_filter h)
  · exact mem_tablePut h

/-- Writing the unlisted value takes the index out of the list. -/
theorem not_mem_tableSet_default {m : Table α} {i : Nat} {e : Nat × α} (h : e ∈ tableSet d m i d) : e ∈ m ∧ e.1 ≠ i := by
  rw [tableSet, if_pos rfl] at h
  simpa [tableErase] using h

omit [DecidableEq α] in
theorem tableFind_eq_none_of_lt {m : Table α} {i : Nat} (h : ∀ e ∈ m, i < e.1) : tableFind m i = none := by
  induction m with
  | nil => rfl
  | cons e rest ih =>
    obtain ⟨k, w⟩ := e
    have := h (k, w) (by simp)
    simp only [tableFind]
    rw [if_neg (by simp at this; omega)]
    exact ih fun e he => h e (List.mem_cons_of_mem _ he)

omit [DecidableEq α] in
theorem tableFind_mem {m : Table α} {i : Nat} {v : α} (h : tableFind m i = some v) : (i, v) ∈ m := by
  induction m with
  | nil => simp [tableFind] at h
  | cons e rest ih =>
    obtain ⟨k, w⟩ := e
    simp only [tableFind] at h
    split_ifs at h with hk
    · subst hk; simp_all
    · exact List.mem_cons_of_mem _ (ih h)

omit [DecidableEq α] in
/-- An entry read as something else than the unlisted value is listed. -/
theorem mem_of_tableGet_ne {m : Table α} {i : Nat} (h : tableGet d m i ≠ d) : (i, tableGet d m i) ∈ m := by
  unfold tableGet at h ⊢
  cases hf : tableFind m i with
  | none => simp [hf] at h
  | some v => exact tableFind_mem hf

omit [DecidableEq α] in
/-- A bound on the listed indices bounds what reads as something else than the unlisted value. -/
theorem tableGet_of_bound {m : Table α} {n i : Nat} (h : ∀ e ∈ m, e.1 < n) (hi : n ≤ i) : tableGet d m i = d := by
  by_contra hc
  have := h _ (mem_of_tableGet_ne d hc)
  simp at this; omega

omit [DecidableEq α] in
/-- Sorted tables that answer every look-up alike are equal. -/
theorem tableFind_ext {m m' : Table α} (h : tableSorted m) (h' : tableSorted m')
    (he : ∀ i, tableFind m i = tableFind m' i) : m = m' := by
  induction m generalizing m' with
  | nil =>
    cases m' with
    | nil => rfl
    | cons e rest => obtain ⟨k, w⟩ := e; simpa [tableFind] using he k
  | cons e rest ih =>
    obtain ⟨k, w⟩ := e
    cases m' with
    | nil => simpa [tableFind] using he k
    | cons e' rest' =>
      obtain ⟨k', w'⟩ := e'
      rw [tableSorted_cons] at h h'
      have hk : k = k' := by
        rcases Nat.lt_trichotomy k k' with hlt | heq | hgt
        · have := he k
          rw [tableFind_eq_none_of_lt (m := (k', w') :: rest')
            (fun e he' => by
              rcases List.mem_cons.1 he' with rfl | he'
              · exact hlt
              · exact hlt.trans (h'.1 e he'))] at this
          simp [tableFind] at this
        · exact heq
        · have := he k'
          rw [tableFind_eq_none_of_lt (m := (k, w) :: rest)
            (fun e he' => by
              rcases List.mem_cons.1 he' with rfl | he'
              · exact hgt
              · exact hgt.trans (h.1 e he'))] at this
          simp [tableFind] at this
      subst hk
      have hw : w = w' := by simpa [tableFind] using he k
      subst hw
      have : rest = rest' := by
        refine ih h.2 h'.2 fun i => ?_
        by_cases hi : i = k
        · subst hi; rw [tableFind_eq_none_of_lt h.1, tableFind_eq_none_of_lt h'.1]
        · have := he i; simpa [tableFind, hi] using this
      rw [this]

/-- Equal tables are equal data: canonical tables with the same reads are the same list. -/
theorem tableGet_ext {m m' : Table α} (h : tableWf d m) (h' : tableWf d m') (he : ∀ i, tableGet d m i = tableGet d m' i) :
    m = m' := by
  have key : ∀ {m m' : Table α}, tableWf d m → tableWf d m' → (∀ i, tableGet d m i = tableGet d m' i) →
      ∀ i v, tableFind m i = some v → tableFind m' i = some v := by
    intro m m' hm hm' he i v hv
    have h1 : tableGet d m i = v := by simp [tableGet, hv]
    have h2 : v ≠ d := hm.2 _ (tableFind_mem hv)
    rw [he i] at h1
    cases hf : tableFind m' i with
    | none => simp [tableGet, hf] at h1; exact absurd h1.symm h2
    | some u => simp [tableGet, hf] at h1; rw [h1]
  refine tableFind_ext h.1 h'.1 fun i => ?_
  cases hf : tableFind m i with
  | none =>
    cases hf' : tableFind m' i with
    | none => rfl
    | some v => rw [key h' h (fun i => (he i).symm) i v hf'] at hf; simp at hf
  | some v => exact (key h h' he i v hf).symm

end Sys2Proof.Machine
end

