-- ==== Sys2Proof/Laws/Ops.lean ====
section
/-! SUPPORT. What each shared operation of Machine/Ops.lean can do, said once: sequencing, the end of a command, reads after writes of
the accessors, CheckIn, OutAppend, Alloc, AcceptRoot. Later proofs cite these and unfold none of the operations. -/

namespace Sys2Proof.Machine

/-! ## Sequencing -/

@[simp] theorem ok_andThen (s : State) (f : State → Res) : (Res.ok s).andThen f = f s := rfl

@[simp] theorem raise_andThen (c : CoreFault) (i : Word) (s : State) (f : State → Res) :
    (Res.raise c i s).andThen f = .raise c i s := rfl

@[simp] theorem endless_andThen (f : State → Res) : Res.endless.andThen f = .endless := rfl

theorem andThen_assoc (r : Res) (f g : State → Res) : (r.andThen f).andThen g = r.andThen (fun s => (f s).andThen g) := by
  cases r <;> rfl

theorem andThen_eq_ok {r : Res} {f : State → Res} {t : State} :
    r.andThen f = .ok t ↔ ∃ s, r = .ok s ∧ f s = .ok t := by
  cases r <;> simp

theorem andThen_eq_raise {r : Res} {f : State → Res} {c : CoreFault} {i : Word} {t : State} :
    r.andThen f = .raise c i t ↔ r = .raise c i t ∨ ∃ s, r = .ok s ∧ f s = .raise c i t := by
  cases r <;> simp

theorem andThen_eq_endless {r : Res} {f : State → Res} :
    r.andThen f = .endless ↔ r = .endless ∨ ∃ s, r = .ok s ∧ f s = .endless := by
  cases r <;> simp

/-- A property of the state a procedure leaves, whether it raised there or not. -/
def Res.Keeps (P : State → Prop) (r : Res) : Prop :=
  (∀ t, r = .ok t → P t) ∧ ∀ c i t, r = .raise c i t → P t

theorem Res.keeps_ok {P : State → Prop} {s : State} (h : P s) : (Res.ok s).Keeps P :=
  ⟨fun _ e => (by cases e; exact h), fun _ _ _ e => (by cases e)⟩

theorem Res.keeps_raise {P : State → Prop} {c : CoreFault} {i : Word} {s : State} (h : P s) : (Res.raise c i s).Keeps P :=
  ⟨fun t e => (by cases e), fun _ _ _ e => (by cases e; exact h)⟩

theorem Res.keeps_endless {P : State → Prop} : Res.endless.Keeps P :=
  ⟨fun _ e => (by cases e), fun _ _ _ e => (by cases e)⟩

/-- A property that every part keeps is kept by the sequence. -/
theorem Res.keeps_andThen {P Q : State → Prop} {r : Res} {f : State → Res} (hr : r.Keeps P)
    (hf : ∀ s, P s → (f s).Keeps Q) (hpq : ∀ s, P s → Q s) : (r.andThen f).Keeps Q := by
  cases r with
  | ok s => exact hf s (hr.1 s rfl)
  | raise c i s => exact Res.keeps_raise (hpq s (hr.2 c i s rfl))
  | endless => exact Res.keeps_endless

/-- The end of a command (R94, R290): the two ways there are. -/
theorem finish_eq_next {r : Res} {t : State} :
    finish r = .next t ↔
      (∃ s, r = .ok s ∧ t = complete s) ∨ ∃ c i s, r = .raise c i s ∧ t = complete (faultEntry c i s) := by
  cases r <;> simp [finish, eq_comm]

@[simp] theorem finish_ok (s : State) : finish (.ok s) = .next (complete s) := rfl

@[simp] theorem finish_raise (c : CoreFault) (i : Word) (s : State) :
    finish (.raise c i s) = .next (faulted c i s) := rfl

/-- What a fault leaves depends only on what CLRW (R48) does not touch. -/
theorem clrw_congr {s t : State} (h : clrw s = clrw t) (c : CoreFault) (i : Word) : faulted c i s = faulted c i t := by
  unfold faulted faultEntry; rw [h]

theorem clrw_clrt (s : State) : clrw (clrt s) = clrw s := rfl

/-! ## Reads after writes -/

@[simp] theorem freqAt_setFreq (s : State) (i j : Nat) (v : Word) :
    freqAt (setFreq s i v) j = if j = i then v else freqAt s j := tableGet_set 0 s.freq i j v

@[simp] theorem heapAt_setHeap (s : State) (i j : Nat) (v : NodeIx) :
    heapAt (setHeap s i v) j = if j = i then v else heapAt s j := tableGet_set 0 s.heap i j v

@[simp] theorem nodeAt_setHeap (s : State) (i j : Nat) (v : NodeIx) : nodeAt (setHeap s i v) j = nodeAt s j := rfl

/-- A swap exchanges two entries of the queue. -/
theorem heapAt_swapHeap (s : State) (i j k : Nat) :
    heapAt (swapHeap s i j) k = if k = j then heapAt s i else if k = i then heapAt s j else heapAt s k := by
  simp [swapHeap]

@[simp] theorem nodeAt_swapHeap (s : State) (i j k : Nat) : nodeAt (swapHeap s i j) k = nodeAt s k := rfl

theorem bitAt_writeBits (s : State) (p j : Nat) (b : List Bool) :
    bitAt (writeBits s p b) j = if p ≤ j ∧ j < p + b.length then b.getD (j - p) false else bitAt s j :=
  tableGet_write false s.bits p j b

theorem inByte_setIn (s : State) (i j : Nat) (v : Byte) :
    inByte (setIn s i v) j = if j = i then v else inByte s j := by
  unfold inByte; rw [setIn_inBuf, tableFind_put, setIn_resets]; split <;> rfl

theorem codeAt_setCode (s : State) (i j : Nat) (c : List Bool) (h : c.length ≤ 255) :
    codeAt (setCode s i c) j = if j = i then c else codeAt s j := by
  simp only [setCode, codeAt, codeLenAt, codeBitsAt, tableGet_set]
  split_ifs with hj
  · have : (BitVec.ofNat 8 c.length).toNat = c.length := by simp; omega
    rw [this, codeString_codeBitsOf c (by omega)]
  · rfl

/-- Recording a code that fits the table writes it (R160). -/
theorem recordCode_ok {i : Nat} {c : List Bool} {s : State} (h : c.length ≤ 255) : recordCode i c s = .ok (setCode s i c) :=
  if_neg (by omega)

/-- Recording a code longer than CODE_MAX faults (R4, log 6). -/
theorem recordCode_long {i : Nat} {c : List Bool} {s : State} (h : 255 < c.length) : recordCode i c s = .raise .capacity 4 s :=
  if_pos h

/-! ## CheckIn, OutAppend, Alloc, AcceptRoot -/

/-- CheckIn (R68) where the input fits. -/
theorem checkIn_ok {s : State} (h : s.inLen.toNat ≤ s.cfg.inCap) : checkIn s = .ok s := if_neg (by omega)

/-- CheckIn (R68) where it does not. -/
theorem checkIn_raise {s : State} (h : s.cfg.inCap < s.inLen.toNat) : checkIn s = .raise .capacity 1 s := if_pos h

/-- OutAppend (R69): what it does when it succeeds. -/
theorem outAppend_eq_ok {b : Byte} {s t : State} :
    outAppend b s = .ok t ↔ s.outLen.toNat ≠ s.cfg.outCap ∧
      t = { s with outBuf := tableSet 0 s.outBuf s.outLen.toNat b, outLen := s.outLen + 1 } := by
  unfold outAppend raiseCapacity
  split_ifs with h <;> simp [h, eq_comm]

/-- OutAppend of a list, one part after the other. -/
theorem appendAll_append (a b : List Byte) (s : State) :
    appendAll (a ++ b) s = (appendAll a s).andThen (appendAll b) := by
  induction a generalizing s with
  | nil => rfl
  | cons x a ih =>
    show (outAppend x s).andThen (appendAll (a ++ b)) = ((outAppend x s).andThen (appendAll a)).andThen (appendAll b)
    rw [andThen_assoc]; congr 1; funext s'; exact ih s'

/-- OutAppend of a list (R69) where OUT has room: the bytes stand behind the ones there, and nothing else changes. -/
theorem appendAll_ok (bs : List Byte) (s : State) (hc : s.cfg.outCap < 2 ^ 32)
    (h : s.outLen.toNat + bs.length ≤ s.cfg.outCap) :
    appendAll bs s =
      .ok { s with outBuf := tableWrite 0 s.outBuf s.outLen.toNat bs, outLen := word (s.outLen.toNat + bs.length) } := by
  induction bs generalizing s with
  | nil => simp [appendAll, tableWrite, word]
  | cons b bs ih =>
    have h1 : (s.outLen + 1).toNat = s.outLen.toNat + 1 := by
      rw [BitVec.toNat_add]; simp at h ⊢; omega
    rw [List.length_cons] at h ⊢
    rw [appendAll, outAppend, if_neg (by omega), ok_andThen,
      ih { s with outBuf := tableSet 0 s.outBuf s.outLen.toNat b, outLen := s.outLen + 1 } hc
        (by show (s.outLen + 1).toNat + _ ≤ s.cfg.outCap; omega)]
    simp only [h1, tableWrite]
    rw [show s.outLen.toNat + 1 + bs.length = s.outLen.toNat + (bs.length + 1) by omega]

/-- OutAppend of a list (R69, R285) where OUT has no room: CAPACITY(2), with only OUT changed so far. -/
theorem appendAll_raise (bs : List Byte) (s : State) (hc : s.cfg.outCap < 2 ^ 32) (hl : s.outLen.toNat ≤ s.cfg.outCap)
    (h : s.cfg.outCap < s.outLen.toNat + bs.length) :
    ∃ t, appendAll bs s = .raise .capacity 2 t ∧ t = { s with outBuf := t.outBuf, outLen := t.outLen } := by
  induction bs generalizing s with
  | nil => simp at h; omega
  | cons b bs ih =>
    by_cases hf : s.outLen.toNat = s.cfg.outCap
    · exact ⟨s, by rw [appendAll, outAppend, if_pos hf]; rfl, rfl⟩
    · have h1 : (s.outLen + 1).toNat = s.outLen.toNat + 1 := by
        rw [BitVec.toNat_add]; simp; omega
      rw [List.length_cons] at h
      obtain ⟨t, ht, hs⟩ := ih { s with outBuf := tableSet 0 s.outBuf s.outLen.toNat b, outLen := s.outLen + 1 } hc
        (by simp only [h1]; omega) (by simp only [h1]; omega)
      exact ⟨t, by rw [appendAll, outAppend, if_neg hf, ok_andThen, ht], by rw [hs]⟩

/-- OutAppend of a list changes nothing but OUT, and never runs for ever. -/
theorem appendAll_frame {bs : List Byte} {s : State} :
    (appendAll bs s).Keeps (fun t => t = { s with outBuf := t.outBuf, outLen := t.outLen }) ∧ appendAll bs s ≠ .endless := by
  induction bs generalizing s with
  | nil => exact ⟨Res.keeps_ok rfl, by simp [appendAll]⟩
  | cons b bs ih =>
    rw [appendAll, outAppend]
    split_ifs with h
    · exact ⟨Res.keeps_raise rfl, by simp [raiseCapacity]⟩
    · rw [ok_andThen]
      refine ⟨⟨fun t ht => ?_, fun c i t ht => ?_⟩, ih.2⟩
      · rw [ih.1.1 t ht]
      · rw [ih.1.2 c i t ht]

/-- The output after bytes were appended (R45, R69). -/
theorem outputBytes_append {s t : State} {bs : List Byte} (hb : t.outBuf = tableWrite 0 s.outBuf s.outLen.toNat bs)
    (hl : t.outLen.toNat = s.outLen.toNat + bs.length) : outputBytes t = outputBytes s ++ bs := by
  apply List.ext_getElem
  · simp [outputBytes, hl]
  · intro i h1 h2
    simp only [outputBytes, List.length_map, List.length_range, hl] at h1
    simp only [outputBytes, List.getElem_map, List.getElem_range, outArray, hb, tableGet_write]
    by_cases hi : i < s.outLen.toNat
    · rw [if_neg (by omega), List.getElem_append_left (by simpa [outputBytes] using hi)]; simp [outArray]
    · rw [if_pos (by omega), List.getElem_append_right (by simpa [outputBytes] using hi)]
      simp [List.getD_eq_getElem?_getD, List.getElem?_eq_getElem (show i - s.outLen.toNat < bs.length by omega)]

/-- The OUT array outside the bytes that were appended (R69). -/
theorem outArray_append {s t : State} {bs : List Byte} (hb : t.outBuf = tableWrite 0 s.outBuf s.outLen.toNat bs) (a : Nat)
    (h : a < s.outLen.toNat ∨ s.outLen.toNat + bs.length ≤ a) : outArray t a = outArray s a := by
  rw [outArray, hb, tableGet_write, if_neg (by omega)]; rfl

/-- Alloc (R133): what it does when it succeeds. -/
theorem alloc_eq_ok {n : Node} {s t : State} :
    alloc n s = .ok t ↔ s.nnode ≠ 511 ∧
      t = { s with node := tableSet (.leaf 0 0) s.node s.nnode.toNat n, nnode := s.nnode + 1 } := by
  unfold alloc raiseCapacity
  split_ifs with h
  · simp [h]
  · exact ⟨fun e => ⟨h, by cases e; rfl⟩, fun e => by rw [e.2]⟩

/-- Alloc (R133, R285) with a full NODE table. -/
theorem alloc_raise {n : Node} {s : State} (h : s.nnode = 511) : alloc n s = .raise .capacity 4 s := if_pos h

/-- A NODE entry after one was written. -/
theorem nodeOf_set (t : Table Node) (i j : Nat) (n : Node) :
    nodeOf (tableSet (.leaf 0 0) t i n) j = if j = i then n else nodeOf t j := tableGet_set _ t i j n

/-- AcceptRoot (R146) of an internal node. -/
theorem acceptRoot_internal {s : State} {r : NodeIx} (h : (nodeAt s r.toNat).isLeaf = false) :
    acceptRoot r s = .ok { s with root := r, degen := false, treev := true } := by
  unfold acceptRoot; cases hn : nodeAt s r.toNat <;> simp_all [Node.isLeaf]

/-- AcceptRoot (R146) of a leaf with DGM = 1. -/
theorem acceptRoot_leaf {s : State} {r : NodeIx} (h : (nodeAt s r.toNat).isLeaf = true) (hd : s.dgm = true) :
    acceptRoot r s = .ok { s with root := r, degen := true, treev := true } := by
  unfold acceptRoot; cases hn : nodeAt s r.toNat <;> simp_all [Node.isLeaf]

/-- AcceptRoot (R146, R283) of a leaf with DGM = 0. -/
theorem acceptRoot_raise {s : State} {r : NodeIx} {w : Word} {b : Byte} (h : nodeAt s r.toNat = .leaf w b) (hd : s.dgm = false) :
    acceptRoot r s = .raise .degenerate (b.setWidth 32) { s with root := r } := by
  unfold acceptRoot; simp [h, hd]

end Sys2Proof.Machine
end

