-- ==== Sys2Proof/Laws/BitPack.lean ====
section
/-! SUPPORT. WRHDR, PACK, UNPACK (44_bitpack.md): the bytes PACK takes are those of `pack` (R202), the bits UNPACK writes those of
`unpack` (R207), and the two are inverse (R211). -/

namespace Sys2Proof.Machine

@[simp] theorem bitString_length (s : State) : (bitString s).length = s.bitLen.toNat := by simp [bitString]

theorem padOf_length (b : List Bool) : (padOf b).length = b.length + remOf b.length := by simp [padOf]

/-- A bit of the padded string: the string's, then zeros (R202). -/
theorem getElem_padOf {b : List Bool} {i : Nat} (h : i < (padOf b).length) : (padOf b)[i] = b.getD i false := by
  have e : (padOf b)[i]? = (b ++ List.replicate (remOf b.length) false)[i]? := rfl
  rw [List.getElem?_eq_getElem h, List.getElem?_eq_getElem (by simpa [padOf] using h), Option.some_inj] at e
  rw [e, List.getElem_append]
  split_ifs with hi
  · simp [List.getD_eq_getElem?_getD, List.getElem?_eq_getElem hi]
  · rw [List.getElem_replicate, List.getD_eq_default _ _ (by omega)]

/-- The bit PACK takes at a position is the padded string's (R201, R202). -/
theorem packBit_eq (s : State) (p : Nat) : packBit s p = (bitString s).getD p false := by
  unfold packBit
  split_ifs with h
  · simp [bitString, List.getD_eq_getElem?_getD, List.getElem?_range h]
  · rw [List.getD_eq_default _ _ (by rw [bitString_length]; omega)]

/-- The bytes PACK appends are `pack` of the bit-string (R201, R202). -/
theorem packBytes_eq (s : State) : (List.range (packCount s)).map (packByte s) = packOf (bitString s) := by
  unfold packOf packCount
  rw [padOf_length, bitString_length]
  refine List.map_congr_left fun j hj => ?_
  rw [List.mem_range] at hj
  unfold packByte
  congr 1
  have hm := add_remOf_mod s.bitLen.toNat
  apply List.ext_getElem
  · rw [List.length_map, List.length_range, List.length_take, List.length_drop, padOf_length, bitString_length]; omega
  · intro i h1 h2
    simp only [List.length_map, List.length_range] at h1
    rw [List.getElem_map, List.getElem_range, packBit_eq, List.getElem_take, List.getElem_drop, getElem_padOf]

theorem packOf_length (b : List Bool) : (packOf b).length = (b.length + 7) / 8 := by
  unfold packOf; rw [List.length_map, List.length_range, padOf_length, add_remOf_div]

theorem expandBytes_length (p : List Byte) : (expandBytes p).length = 8 * p.length := by
  induction p with
  | nil => rfl
  | cons v p ih =>
    rw [show expandBytes (v :: p) = bits8 v ++ expandBytes p from rfl, List.length_append, ih, bits8_length, List.length_cons]
    omega

/-- A string cut into eights and put together again. -/
theorem flatMap_eights (n : Nat) (b : List Bool) (h : b.length = 8 * n) :
    (List.range n).flatMap (fun j => (b.drop (8 * j)).take 8) = b := by
  induction n generalizing b with
  | zero =>
    have : b = [] := List.length_eq_zero_iff.1 (by omega)
    subst this; rfl
  | succ n ih =>
    rw [List.range_succ_eq_map, List.flatMap_cons, List.flatMap_map]
    have := ih (b.drop 8) (by rw [List.length_drop]; omega)
    simp only [List.drop_drop] at this
    rw [show (fun a => List.take 8 (List.drop (8 * Nat.succ a) b)) = fun j => List.take 8 (List.drop (8 + 8 * j) b) by
      funext j; rw [show 8 * Nat.succ j = 8 + 8 * j by omega], this]
    simp

/-- Expanding the packed bytes gives the padded string (R202, R207). -/
theorem expand_packOf (b : List Bool) : expandBytes (packOf b) = padOf b := by
  have hm : (padOf b).length % 8 = 0 := by rw [padOf_length]; exact add_remOf_mod _
  unfold expandBytes packOf
  rw [List.flatMap_map]
  refine Eq.trans ?_ (flatMap_eights ((padOf b).length / 8) (padOf b) (by omega))
  refine List.flatMap_congr fun j hj => bits8_byte8 _ ?_
  rw [List.mem_range] at hj
  rw [List.length_take, List.length_drop]; omega

/-- The bits UNPACK leaves (R206, R207). -/
theorem bitString_unpackBits {s : State} {nb : Nat} (hr : s.rem.toNat ≤ 8 * nb) (hn : 8 * nb < 2 ^ 32) :
    bitString (unpackBits nb s) = unpackOf (inBytes s s.cur.toNat nb) s.rem.toNat := by
  have hl : (inBytes s s.cur.toNat nb).length = nb := by simp [inBytes]
  have hx := expandBytes_length (inBytes s s.cur.toNat nb)
  rw [hl] at hx
  have hb : (unpackBits nb s).bitLen.toNat = 8 * nb - s.rem.toNat := by
    show (word _).toNat = _
    rw [BitVec.toNat_ofNat]; omega
  unfold unpackOf
  rw [hl]
  apply List.ext_getElem
  · rw [bitString_length, hb, List.length_take, hx]; omega
  · intro i h1 h2
    rw [bitString_length, hb] at h1
    rw [List.getElem_take]
    simp only [bitString, List.getElem_map, List.getElem_range]
    show bitAt (writeBits s 0 _) i = _
    rw [bitAt_writeBits, if_pos (by rw [hx]; omega)]
    simp [List.getD_eq_getElem?_getD, List.getElem?_eq_getElem (show i < (expandBytes (inBytes s s.cur.toNat nb)).length by omega)]

/-- UNPACK changes nothing in BITS behind what it expands (R206). -/
theorem bitAt_unpackBits {s : State} {nb p : Nat} (h : 8 * nb ≤ p) : bitAt (unpackBits nb s) p = bitAt s p := by
  show bitAt (writeBits s 0 _) p = _
  rw [bitAt_writeBits, if_neg]
  rw [expandBytes_length]; simp only [inBytes, List.length_map, List.length_range]; omega

end Sys2Proof.Machine
end

