-- ==== Sys2Proof/Laws/Pq.lean ====
section
/-! SUPPORT. The priority queue: the loops of R112 and R113 change HEAP only, permute the queue, and restore the heap order of R116. -/

namespace Sys2Proof.Machine

/-! ## Swaps -/

theorem heapAt_swap (s : State) (i j k : Nat) : heapAt (swapHeap s i j) k = heapAt s (Equiv.swap i j k) := by
  rw [heapAt_swapHeap, Equiv.swap_apply_def]
  split_ifs <;> simp_all

theorem hkey_swap (s : State) (i j k : Nat) : hkey (swapHeap s i j) k = hkey s (Equiv.swap i j k) := by
  unfold hkey; rw [heapAt_swap]; rfl

/-- A list of positions below `n` is permuted by a swap of two of them. -/
theorem map_swap_range_perm {n i j : Nat} (hi : i < n) (hj : j < n) :
    ((List.range n).map (Equiv.swap i j)).Perm (List.range n) := by
  refine (List.perm_ext_iff_of_nodup (List.nodup_range.map (Equiv.injective _)) List.nodup_range).2 fun k => ?_
  simp only [List.mem_map, List.mem_range]
  constructor
  · rintro ⟨a, ha, rfl⟩
    rw [Equiv.swap_apply_def]; split_ifs <;> omega
  · intro hk
    exact ⟨Equiv.swap i j k, by rw [Equiv.swap_apply_def]; split_ifs <;> omega, by simp⟩

/-- Swapping two items of the queue permutes it. -/
theorem swapHeap_perm (s : State) {n i j : Nat} (hi : i < n) (hj : j < n) :
    ((List.range n).map (heapAt (swapHeap s i j))).Perm ((List.range n).map (heapAt s)) := by
  have := (map_swap_range_perm hi hj).map (heapAt s)
  rw [List.map_map] at this
  refine List.Perm.trans (List.Perm.of_eq ?_) this
  exact List.map_congr_left fun k _ => heapAt_swap s i j k

/-! ## The loop of PqInsert -/

/-- The sift-up changes HEAP only. -/
theorem siftUp_frame (fuel j : Nat) (s : State) : siftUp fuel j s = { s with heap := (siftUp fuel j s).heap } := by
  induction fuel generalizing j s with
  | zero => rfl
  | succ fuel ih =>
    rw [siftUp]
    split_ifs
    · rw [ih]; rfl
    · rfl
    · rfl

theorem nodeAt_siftUp (fuel j : Nat) (s : State) (i : Nat) : nodeAt (siftUp fuel j s) i = nodeAt s i := by
  rw [siftUp_frame]; rfl

/-- The sift-up permutes the first `n` items, if it starts at one of them. -/
theorem siftUp_perm (fuel j : Nat) (s : State) {n : Nat} (hj : j < n) :
    ((List.range n).map (heapAt (siftUp fuel j s))).Perm ((List.range n).map (heapAt s)) := by
  induction fuel generalizing j s with
  | zero => exact List.Perm.refl _
  | succ fuel ih =>
    rw [siftUp]
    split_ifs
    · exact (ih _ _ (by omega)).trans (swapHeap_perm s hj (by omega))
    · exact List.Perm.refl _
    · exact List.Perm.refl _

/-- The sift-up leaves every position above its start alone. -/
theorem heapAt_siftUp_above (fuel j : Nat) (s : State) {k : Nat} (hk : j < k) :
    heapAt (siftUp fuel j s) k = heapAt s k := by
  induction fuel generalizing j s with
  | zero => rfl
  | succ fuel ih =>
    rw [siftUp]
    split_ifs
    · rw [ih _ _ (by omega), heapAt_swapHeap, if_neg (by omega), if_neg (by omega)]
    · rfl
    · rfl

/-- The heap order among the first `n` positions, but for the pair of position `j` and its parent; and the order that makes up for it. -/
def OrderBut (s : State) (n j : Nat) : Prop :=
  (∀ k < n, 0 < k → k ≠ j → (hkey s ((k - 1) / 2)).toNat ≤ (hkey s k).toNat) ∧
  ∀ k < n, 0 < k → (k - 1) / 2 = j → 0 < j → (hkey s ((j - 1) / 2)).toNat ≤ (hkey s k).toNat

/-- The sift-up restores the heap order (R112, R116). -/
theorem siftUp_order (fuel j : Nat) (s : State) {n : Nat} (hj : j < n) (hf : j ≤ fuel) (h : OrderBut s n j) :
    ∀ k < n, 0 < k → (hkey (siftUp fuel j s) ((k - 1) / 2)).toNat ≤ (hkey (siftUp fuel j s) k).toNat := by
  induction fuel generalizing j s with
  | zero =>
    intro k hk h0
    exact h.1 k hk h0 (by omega)
  | succ fuel ih =>
    rw [siftUp]
    split_ifs with h0 hlt
    · rw [BitVec.lt_def] at hlt
      refine ih _ _ (by omega) (by omega) ⟨fun k hk hk0 hkp => ?_, fun k hk hk0 hkp hp => ?_⟩
      · rw [hkey_swap, hkey_swap]
        by_cases hkj : k = j
        · subst hkj; simp only [Equiv.swap_apply_left, Equiv.swap_apply_right]; omega
        · rw [Equiv.swap_apply_of_ne_of_ne hkj hkp]
          by_cases hq : (k - 1) / 2 = j
          · rw [hq, Equiv.swap_apply_left]; exact h.2 k hk hk0 hq h0
          · by_cases hq' : (k - 1) / 2 = (j - 1) / 2
            · rw [hq', Equiv.swap_apply_right]
              have := h.1 k hk hk0 hkj
              rw [hq'] at this; omega
            · rw [Equiv.swap_apply_of_ne_of_ne hq hq']; exact h.1 k hk hk0 hkj
      · rw [hkey_swap, hkey_swap, Equiv.swap_apply_of_ne_of_ne (by omega : ((j - 1) / 2 - 1) / 2 ≠ j) (by omega)]
        have hpp := h.1 ((j - 1) / 2) (by omega) hp (by omega)
        by_cases hkj : k = j
        · subst hkj; rw [Equiv.swap_apply_left]; exact hpp
        · rw [Equiv.swap_apply_of_ne_of_ne hkj (by omega)]
          have := h.1 k hk hk0 hkj
          rw [hkp] at this; omega
    · intro k hk hk0
      by_cases hkj : k = j
      · subst hkj; rw [BitVec.lt_def] at hlt; omega
      · exact h.1 k hk hk0 hkj
    · intro k hk hk0
      exact h.1 k hk hk0 (by omega)

/-! ## The loop of PqExtract -/

theorem smallerOf_lt {s : State} {m c n : Nat} (hn : s.hsize.toNat = n) (hm : m < n) : smallerOf s m c < n := by
  unfold smallerOf; split_ifs <;> omega

/-- Where the sift-down goes from a position: it stays, or goes to the left or the right child, inside the queue. -/
theorem smaller_cases (s : State) (j : Nat) :
    smallerOf s (smallerOf s j (2 * j + 1)) (2 * j + 2) = j ∨
      (smallerOf s (smallerOf s j (2 * j + 1)) (2 * j + 2) = 2 * j + 1 ∧ 2 * j + 1 < s.hsize.toNat) ∨
      (smallerOf s (smallerOf s j (2 * j + 1)) (2 * j + 2) = 2 * j + 2 ∧ 2 * j + 2 < s.hsize.toNat) := by
  unfold smallerOf; split_ifs <;> simp_all

/-- Where the sift-down goes has a key no greater than the position's and its children's. -/
theorem smaller_least (s : State) (j : Nat) :
    (hkey s (smallerOf s (smallerOf s j (2 * j + 1)) (2 * j + 2))).toNat ≤ (hkey s j).toNat ∧
      (2 * j + 1 < s.hsize.toNat →
        (hkey s (smallerOf s (smallerOf s j (2 * j + 1)) (2 * j + 2))).toNat ≤ (hkey s (2 * j + 1)).toNat) ∧
      (2 * j + 2 < s.hsize.toNat →
        (hkey s (smallerOf s (smallerOf s j (2 * j + 1)) (2 * j + 2))).toNat ≤ (hkey s (2 * j + 2)).toNat) := by
  unfold smallerOf
  split_ifs with h1 h2 h2 <;> simp only [BitVec.lt_def, not_and, not_lt] at * <;> refine ⟨?_, ?_, ?_⟩ <;> intros <;> omega

/-- The sift-down changes HEAP only. -/
theorem siftDown_frame (fuel j : Nat) (s : State) : siftDown fuel j s = { s with heap := (siftDown fuel j s).heap } := by
  induction fuel generalizing j s with
  | zero => rfl
  | succ fuel ih =>
    rw [siftDown]
    split_ifs
    · rfl
    · rw [ih]; rfl

theorem nodeAt_siftDown (fuel j : Nat) (s : State) (i : Nat) : nodeAt (siftDown fuel j s) i = nodeAt s i := by
  rw [siftDown_frame]; rfl

/-- The sift-down permutes the queue, if it starts inside it. -/
theorem siftDown_perm (fuel j : Nat) (s : State) {n : Nat} (hn : s.hsize.toNat = n) (hj : j < n) :
    ((List.range n).map (heapAt (siftDown fuel j s))).Perm ((List.range n).map (heapAt s)) := by
  induction fuel generalizing j s with
  | zero => exact List.Perm.refl _
  | succ fuel ih =>
    rw [siftDown]
    split_ifs
    · exact List.Perm.refl _
    · have hm := smallerOf_lt (c := 2 * j + 2) hn (smallerOf_lt (c := 2 * j + 1) hn hj)
      exact (ih _ (swapHeap s j _) hn hm).trans (swapHeap_perm s hj hm)

/-- The sift-down leaves every position outside the queue alone. -/
theorem heapAt_siftDown_above (fuel j : Nat) (s : State) {n k : Nat} (hn : s.hsize.toNat = n) (hj : j < n) (hk : n ≤ k) :
    heapAt (siftDown fuel j s) k = heapAt s k := by
  induction fuel generalizing j s with
  | zero => rfl
  | succ fuel ih =>
    rw [siftDown]
    split_ifs
    · rfl
    · have hm := smallerOf_lt (c := 2 * j + 2) hn (smallerOf_lt (c := 2 * j + 1) hn hj)
      rw [ih _ (swapHeap s j _) hn hm, heapAt_swapHeap, if_neg (by omega), if_neg (by omega)]

/-- The heap order among the first `n` positions, but for position `j` and its children; and the order that makes up for it. -/
def OrderUnder (s : State) (n j : Nat) : Prop :=
  (∀ k < n, 0 < k → (k - 1) / 2 ≠ j → (hkey s ((k - 1) / 2)).toNat ≤ (hkey s k).toNat) ∧
  ∀ k < n, 0 < k → (k - 1) / 2 = j → 0 < j → (hkey s ((j - 1) / 2)).toNat ≤ (hkey s k).toNat

/-- The sift-down restores the heap order (R113, R116). -/
theorem siftDown_order (fuel j : Nat) (s : State) {n : Nat} (hn : s.hsize.toNat = n) (hf : n ≤ fuel + j)
    (h : OrderUnder s n j) :
    ∀ k < n, 0 < k → (hkey (siftDown fuel j s) ((k - 1) / 2)).toNat ≤ (hkey (siftDown fuel j s) k).toNat := by
  induction fuel generalizing j s with
  | zero =>
    intro k hk h0
    exact h.1 k hk h0 (by omega)
  | succ fuel ih =>
    have hl := smaller_least s j
    have hc := smaller_cases s j
    rw [siftDown]
    generalize smallerOf s (smallerOf s j (2 * j + 1)) (2 * j + 2) = m at hl hc
    rw [hn] at hl hc
    split_ifs with hm
    · intro k hk h0
      by_cases hp : (k - 1) / 2 = j
      · subst hm; rw [hp]
        obtain hk' | hk' : k = 2 * m + 1 ∨ k = 2 * m + 2 := by omega
        · subst hk'; exact hl.2.1 hk
        · subst hk'; exact hl.2.2 hk
      · exact h.1 k hk h0 hp
    · have hmn : m < n := by omega
      have hmp : (m - 1) / 2 = j := by omega
      refine ih m _ hn (by omega) ⟨fun k hk h0 hp => ?_, fun k hk h0 hp hm0 => ?_⟩
      · rw [hkey_swap, hkey_swap]
        by_cases hpj : (k - 1) / 2 = j
        · rw [hpj, Equiv.swap_apply_left]
          by_cases hkm : k = m
          · subst hkm; rw [Equiv.swap_apply_right]; exact hl.1
          · rw [Equiv.swap_apply_of_ne_of_ne (by omega) hkm]
            obtain hk' | hk' : k = 2 * j + 1 ∨ k = 2 * j + 2 := by omega
            · subst hk'; exact hl.2.1 hk
            · subst hk'; exact hl.2.2 hk
        · rw [Equiv.swap_apply_of_ne_of_ne hpj hp]
          by_cases hkj : k = j
          · subst hkj; rw [Equiv.swap_apply_left]; exact h.2 m hmn (by omega) hmp h0
          · rw [Equiv.swap_apply_of_ne_of_ne hkj (by omega)]; exact h.1 k hk h0 hpj
      · rw [hkey_swap, hkey_swap, hmp, Equiv.swap_apply_left, Equiv.swap_apply_of_ne_of_ne (by omega) (by omega)]
        have := h.1 k hk h0 (by omega)
        rwa [hp] at this

/-! ## PqInsert and PqExtract -/

/-- In a heap the top has a least key (R116). -/
theorem heap_top_least {s : State} {n : Nat}
    (h : ∀ k < n, 0 < k → (hkey s ((k - 1) / 2)).toNat ≤ (hkey s k).toNat) (k : Nat) (hk : k < n) :
    (hkey s 0).toNat ≤ (hkey s k).toNat := by
  induction k using Nat.strong_induction_on with
  | _ k ih =>
    by_cases h0 : k = 0
    · subst h0; exact Nat.le_refl _
    · exact (ih ((k - 1) / 2) (by omega) (by omega)).trans (h k hk (by omega))

/-- PqInsert (R112) into a queue that is not full: HEAP and HSIZE change, one occurrence of the node is added, the heap order stays. -/
theorem pqInsert_ok {s : State} (n : NodeIx) (h : s.hsize.toNat < 256) :
    ∃ t, pqInsert n s = .ok t ∧ t = { s with heap := t.heap, hsize := s.hsize + 1 } ∧
      (queueOf t).Perm (n :: queueOf s) ∧ (∀ j, s.hsize.toNat < j → heapAt t j = heapAt s j) ∧
      (HeapOrder s → HeapOrder t) := by
  have hne : s.hsize ≠ 256 := fun e => by rw [e] at h; exact absurd h (by decide)
  have h1 : (s.hsize + 1).toNat = s.hsize.toNat + 1 := by rw [BitVec.toNat_add]; simp; omega
  refine ⟨_, by rw [pqInsert, if_neg hne], ?_, ?_, fun j hj => ?_, fun ho => ?_⟩
  · rw [siftUp_frame]; rfl
  · rw [queueOf, siftUp_frame]
    show ((List.range (s.hsize + 1).toNat).map (heapAt (siftUp _ _ _))).Perm _
    rw [h1]
    refine (siftUp_perm _ _ _ (Nat.lt_succ_self _)).trans ?_
    rw [List.range_succ, List.map_append, List.map_singleton]
    refine (List.perm_append_singleton _ _).trans (List.Perm.of_eq ?_)
    congr 1
    · show heapAt (setHeap s _ n) _ = n
      simp
    · refine List.map_congr_left fun k hk => ?_
      show heapAt (setHeap s _ n) k = heapAt s k
      rw [heapAt_setHeap, if_neg]; simp at hk; omega
  · rw [heapAt_siftUp_above _ _ _ hj]
    show heapAt (setHeap s _ n) j = _
    rw [heapAt_setHeap, if_neg (by omega)]
  · intro j hj h0
    rw [siftUp_frame] at hj
    change j < (s.hsize + 1).toNat at hj
    rw [h1] at hj
    refine siftUp_order _ _ _ (Nat.lt_succ_self _) (Nat.le_refl _) ⟨fun k hk hk0 hkn => ?_, fun k hk hk0 hkn hn0 => ?_⟩ j hj h0
    · have e : ∀ i < s.hsize.toNat, hkey { setHeap s s.hsize.toNat n with hsize := s.hsize + 1 } i = hkey s i := by
        intro i hi
        show (nodeAt s (heapAt (setHeap s _ n) i).toNat).weight = _
        rw [heapAt_setHeap, if_neg (by omega)]; rfl
      rw [e k (by omega), e _ (by omega)]; exact ho k (by omega) hk0
    · omega

/-- PqInsert (R112, R285) into a full queue. -/
theorem pqInsert_raise {s : State} (n : NodeIx) (h : s.hsize.toNat = 256) : pqInsert n s = .raise .capacity 5 s :=
  if_pos (BitVec.eq_of_toNat_eq h)

theorem heapAt_dropTop (s : State) (k : Nat) :
    heapAt (dropTop s) k =
      if k = (s.hsize - 1).toNat then 0 else if k = 0 then heapAt s (s.hsize - 1).toNat else heapAt s k := by
  unfold dropTop
  rw [heapAt_setHeap, heapAt_setHeap]; rfl

/-- PqExtract (R113) from a queue with items: HEAP, HSIZE and PQ_OUT change, HEAP[0] leaves the queue, the place behind it becomes 0,
the heap order stays, and in a heap the item taken has a least key. -/
theorem pqExtract_ok {s : State} (h : s.hsize ≠ 0) :
    ∃ t, pqExtract s = .ok t ∧ t = { s with heap := t.heap, hsize := s.hsize - 1, pqOut := heapAt s 0 } ∧
      (heapAt s 0 :: queueOf t).Perm (queueOf s) ∧ heapAt t (s.hsize.toNat - 1) = 0 ∧
      (∀ j, s.hsize.toNat ≤ j → heapAt t j = heapAt s j) ∧
      (∀ j, heapAt t j = heapAt (siftDown (s.hsize - 1).toNat 0 (dropTop s)) j) ∧
      (HeapOrder s → HeapOrder t ∧ ∀ n ∈ queueOf s, keyOf s (heapAt s 0) ≤ keyOf s n) := by
  have hp : 0 < s.hsize.toNat := by
    rcases Nat.eq_zero_or_pos s.hsize.toNat with h0 | h0
    · exact absurd (BitVec.eq_of_toNat_eq h0) h
    · exact h0
  have h1 : (s.hsize - 1).toNat = s.hsize.toNat - 1 := by
    rw [BitVec.toNat_sub]; simp; have := s.hsize.isLt; omega
  have hd : (dropTop s).hsize.toNat = s.hsize.toNat - 1 := by rw [dropTop_hsize, h1]
  have hq : heapAt (siftDown (s.hsize - 1).toNat 0 (dropTop s)) (s.hsize.toNat - 1) = 0 := by
    by_cases h0 : s.hsize.toNat - 1 = 0
    · rw [h1, h0, siftDown, heapAt_dropTop, if_pos (by omega)]
    · rw [heapAt_siftDown_above _ _ _ hd (by omega) (Nat.le_refl _), heapAt_dropTop, if_pos h1.symm]
  refine ⟨{ siftDown (s.hsize - 1).toNat 0 (dropTop s) with pqOut := heapAt s 0 }, if_neg h, ?_, ?_, hq, fun j hj => ?_, fun j => rfl, fun ho => ⟨?_, fun n hn => ?_⟩⟩
  · rw [siftDown_frame]; rfl
  · obtain ⟨m, hm⟩ : ∃ m, s.hsize.toNat = m + 1 := ⟨s.hsize.toNat - 1, by omega⟩
    have hqs : queueOf s = heapAt s 0 :: (List.range m).map (fun k => heapAt s (k + 1)) := by
      rw [queueOf, hm, List.range_succ_eq_map]; simp [Function.comp_def]
    have key : ((List.range m).map (heapAt (siftDown (s.hsize - 1).toNat 0 (dropTop s)))).Perm
        ((List.range m).map (fun k => heapAt s (k + 1))) := by
      rcases Nat.eq_zero_or_pos m with h0 | h0
      · subst h0; exact List.Perm.refl _
      · refine (siftDown_perm _ _ _ (hd.trans (by omega)) h0).trans ?_
        obtain ⟨l, rfl⟩ : ∃ l, m = l + 1 := ⟨m - 1, by omega⟩
        have e1 : (List.range (l + 1)).map (heapAt (dropTop s)) =
            heapAt s (l + 1) :: (List.range l).map (fun k => heapAt s (k + 1)) := by
          rw [List.range_succ_eq_map]
          simp only [List.map_cons, List.map_map]
          congr 1
          · rw [heapAt_dropTop, if_neg (by omega), if_pos rfl, h1, show s.hsize.toNat - 1 = l + 1 by omega]
          · refine List.map_congr_left fun k hk => ?_
            rw [List.mem_range] at hk
            show heapAt (dropTop s) (k + 1) = _
            rw [heapAt_dropTop, if_neg (by omega), if_neg (by omega)]
        rw [e1, List.range_succ, List.map_append, List.map_singleton]
        exact (List.perm_append_singleton _ _).symm
    rw [hqs]
    refine List.Perm.cons _ (List.Perm.trans (List.Perm.of_eq ?_) key)
    rw [queueOf, siftDown_frame]
    show (List.range (s.hsize - 1).toNat).map _ = _
    rw [h1, show s.hsize.toNat - 1 = m by omega]; rfl
  · show heapAt (siftDown _ _ _) j = _
    by_cases h0 : s.hsize.toNat - 1 = 0
    · rw [h1, h0, siftDown, heapAt_dropTop, if_neg (by omega), if_neg (by omega)]
    · rw [heapAt_siftDown_above _ _ _ hd (by omega) (by omega), heapAt_dropTop, if_neg (by omega), if_neg (by omega)]
  · intro j hj h0
    rw [siftDown_frame] at hj
    change j < (s.hsize - 1).toNat at hj
    rw [h1] at hj
    have e : ∀ i < s.hsize.toNat - 1, 0 < i → hkey (dropTop s) i = hkey s i := by
      intro i hi hi0
      show (nodeAt s (heapAt (dropTop s) i).toNat).weight = _
      rw [heapAt_dropTop, if_neg (by omega), if_neg (by omega)]; rfl
    refine siftDown_order _ _ _ hd (by omega) ⟨fun k hk hk0 hkn => ?_, fun k hk hk0 hkn hn0 => by omega⟩ j hj h0
    rw [e k hk hk0, e _ (by omega) (by omega)]; exact ho k (by omega) hk0
  · simp only [queueOf, List.mem_map, List.mem_range] at hn
    obtain ⟨k, hk, rfl⟩ := hn
    exact heap_top_least ho k hk

/-- PqExtract (R113, R284) from an empty queue. -/
theorem pqExtract_raise {s : State} (h : s.hsize = 0) : pqExtract s = .raise .pqEmpty 0 s := if_pos h

/-! ## The last item (R145) -/

/-- Where the last entry allocated is queued, the one item SETROOT finds is that entry. -/
theorem LastQueued.only {s : State} (h : LastQueued s) (h1 : s.hsize = 1) : (heapAt s 0).toNat + 1 = s.nnode.toNat := by
  obtain ⟨n, hn, he⟩ := h (by rw [h1]; decide)
  rw [queueOf, h1] at hn
  obtain rfl : n = heapAt s 0 := by simpa using hn
  exact he

end Sys2Proof.Machine
end

