-- ==== Sys2Proof/Laws/Tree.lean ====
section
/-! SUPPORT. Reading trees out of the NODE table (R51): more depth reads the same tree, a table whose children lie below their parents
always gives one (R47 (b)), and entries written above a tree do not change it (R133). -/

namespace Sys2Proof.Machine

/-- Children lie below their parent, said of every index (R47 (b)). -/
theorem child_lt {t : Table Node} (h : childrenBelow t) {i : Nat} {w : Word} {l r : NodeIx}
    (hn : nodeOf t i = .internal w l r) : l.toNat < i ∧ r.toNat < i := by
  have hm := mem_of_tableGet_ne (Node.leaf 0 0) (m := t) (i := i) (by rw [← nodeOf, hn]; simp)
  have := h _ hm
  change match nodeOf t i with
    | .leaf _ _ => True
    | .internal _ l r => l.toNat < i ∧ r.toNat < i at this
  rw [hn] at this
  exact this

theorem treeOf_leaf {t : Table Node} {f i : Nat} {w : Word} {b : Byte} (hn : nodeOf t i = .leaf w b) :
    treeOf t (f + 1) i = some (.leaf w.toNat b) := by
  rw [treeOf, hn]

theorem treeOf_internal {t : Table Node} {f i : Nat} {w : Word} {l r : NodeIx} {a b : Tree}
    (hn : nodeOf t i = .internal w l r) (ha : treeOf t f l.toNat = some a) (hb : treeOf t f r.toNat = some b) :
    treeOf t (f + 1) i = some (.internal w.toNat a b) := by
  rw [treeOf, hn]; simp only [ha, hb]

/-- The two ways a tree is read. -/
theorem treeOf_cases {t : Table Node} {f i : Nat} {T : Tree} (h : treeOf t (f + 1) i = some T) :
    (∃ w b, nodeOf t i = .leaf w b ∧ T = .leaf w.toNat b) ∨
      ∃ w l r A B, nodeOf t i = .internal w l r ∧ treeOf t f l.toNat = some A ∧ treeOf t f r.toNat = some B ∧
        T = .internal w.toNat A B := by
  rw [treeOf] at h
  cases hn : nodeOf t i with
  | leaf w b => rw [hn] at h; simp at h; exact .inl ⟨w, b, rfl, h.symm⟩
  | internal w l r =>
    rw [hn] at h
    cases ha : treeOf t f l.toNat with
    | none => simp [ha] at h
    | some A =>
      cases hb : treeOf t f r.toNat with
      | none => simp [ha, hb] at h
      | some B => simp [ha, hb] at h; exact .inr ⟨w, l, r, A, B, rfl, ha, hb, h.symm⟩

/-- Reading deeper gives the same tree. -/
theorem treeOf_mono {t : Table Node} {f g i : Nat} {T : Tree} (h : treeOf t f i = some T) (hg : f ≤ g) :
    treeOf t g i = some T := by
  induction f generalizing g i T with
  | zero => simp [treeOf] at h
  | succ f ih =>
    obtain ⟨g, rfl⟩ : ∃ g', g = g' + 1 := ⟨g - 1, by omega⟩
    rcases treeOf_cases h with ⟨w, b, hn, rfl⟩ | ⟨w, l, r, A, B, hn, ha, hb, rfl⟩
    · exact treeOf_leaf hn
    · exact treeOf_internal hn (ih ha (by omega)) (ih hb (by omega))

/-- A table whose children lie below their parents gives a tree at every index, no deeper than the index. -/
theorem treeOf_exists {t : Table Node} (h : childrenBelow t) (i : Nat) : ∃ T, treeOf t (i + 1) i = some T := by
  induction i using Nat.strong_induction_on with
  | _ i ih =>
    cases hn : nodeOf t i with
    | leaf w b => exact ⟨_, treeOf_leaf hn⟩
    | internal w l r =>
      obtain ⟨hl, hr⟩ := child_lt h hn
      obtain ⟨A, ha⟩ := ih _ hl
      obtain ⟨B, hb⟩ := ih _ hr
      exact ⟨_, treeOf_internal hn (treeOf_mono ha (by omega)) (treeOf_mono hb (by omega))⟩

/-- Entries written at and above `n` do not change the trees below it. -/
theorem treeOf_congr {t t' : Table Node} (h : childrenBelow t) {n : Nat} (he : ∀ j < n, nodeOf t' j = nodeOf t j) (f : Nat)
    {i : Nat} (hi : i < n) : treeOf t' f i = treeOf t f i := by
  induction f generalizing i with
  | zero => rfl
  | succ f ih =>
    rw [treeOf, treeOf, he i hi]
    cases hn : nodeOf t i with
    | leaf w b => rfl
    | internal w l r =>
      obtain ⟨hl, hr⟩ := child_lt h hn
      simp only [ih (show l.toNat < n by omega), ih (show r.toNat < n by omega)]

/-- The weight of the tree is the weight of its root's entry. -/
theorem treeOf_weight {t : Table Node} {f i : Nat} {T : Tree} (h : treeOf t f i = some T) :
    T.weight = (nodeOf t i).weight.toNat := by
  cases f with
  | zero => simp [treeOf] at h
  | succ f =>
    rcases treeOf_cases h with ⟨w, b, hn, rfl⟩ | ⟨w, l, r, A, B, hn, -, -, rfl⟩ <;> rw [hn] <;> rfl

/-- A tree read to depth `f` is at most `f − 1` deep. -/
theorem treeOf_depth {t : Table Node} {f i : Nat} {T : Tree} (h : treeOf t f i = some T) : T.depth < f := by
  induction f generalizing i T with
  | zero => simp [treeOf] at h
  | succ f ih =>
    rcases treeOf_cases h with ⟨w, b, hn, rfl⟩ | ⟨w, l, r, A, B, hn, ha, hb, rfl⟩
    · simp [Tree.depth]
    · have := ih ha; have := ih hb
      simp only [Tree.depth]; omega

theorem Tree.size_pos (t : Tree) : 0 < t.size := by cases t <;> simp only [Tree.size] <;> omega

theorem Tree.leaves_ne_nil (t : Tree) : t.leaves ≠ [] := by
  induction t with
  | leaf w s => simp [Tree.leaves]
  | internal w l r hl hr => simp [Tree.leaves, hl]

theorem Tree.leaves_eq_weighted (t : Tree) : t.leaves = t.weighted.map Prod.fst := by
  induction t with
  | leaf w s => rfl
  | internal w l r hl hr => simp [Tree.leaves, Tree.weighted, hl, hr]

/-- A tree has one node fewer than twice its leaves (R151). -/
theorem Tree.size_eq (t : Tree) : t.size + 1 = 2 * t.leaves.length := by
  induction t with
  | leaf w s => rfl
  | internal w l r hl hr => simp only [Tree.size, Tree.leaves, List.length_append]; omega

/-- A path has fewer edges than the tree has leaves (R165). -/
theorem Tree.depth_lt_leaves (t : Tree) : t.depth < t.leaves.length := by
  induction t with
  | leaf w s => simp [Tree.depth, Tree.leaves]
  | internal w l r hl hr =>
    have := List.length_pos_of_ne_nil l.leaves_ne_nil
    have := List.length_pos_of_ne_nil r.leaves_ne_nil
    simp only [Tree.depth, Tree.leaves, List.length_append]; omega

/-- In a summed tree the root's weight is the sum of the leaves' (R151). -/
theorem Tree.weight_eq_sum {t : Tree} (h : t.Summed) : t.weight = (t.weighted.map Prod.snd).sum := by
  induction t with
  | leaf w s => simp [Tree.weight, Tree.weighted]
  | internal w l r hl hr =>
    obtain ⟨hw, h1, h2⟩ := h
    rw [Tree.weight, hw, hl h1, hr h2, Tree.weighted, List.map_append, List.sum_append]

end Sys2Proof.Machine
end

