-- ==== Sys2Proof/Laws/Build.lean ====
section
/-! SUPPORT. COUNT, MKLEAVES, MERGE, SETROOT and BUILD (41_build.md): what each procedure leaves, before the end of the command. -/

namespace Sys2Proof.Machine

/-! ## COUNT -/

theorem countBytes_frame (bs : List Byte) (s : State) : countBytes bs s = { s with freq := (countBytes bs s).freq } := by
  induction bs generalizing s with
  | nil => rfl
  | cons b bs ih => rw [countBytes, ih]; rfl

/-- The loop of COUNT adds the number of occurrences to each entry, where no entry can wrap (R132). -/
theorem freqAt_countBytes (bs : List Byte) (s : State) (i : Nat) (h : (freqAt s i).toNat + bs.length < 2 ^ 32) :
    (freqAt (countBytes bs s) i).toNat = (freqAt s i).toNat + (bs.map BitVec.toNat).count i := by
  induction bs generalizing s with
  | nil => simp [countBytes]
  | cons b bs ih =>
    rw [List.length_cons] at h
    rw [countBytes, ih]
    · rw [freqAt_setFreq, List.map_cons, List.count_cons]
      split_ifs with h1 h2 h2
      · subst h1; rw [BitVec.toNat_add]; simp; omega
      · exact absurd (by simp [h1]) h2
      · exact absurd (by simpa using h2 : b.toNat = i).symm h1
      · omega
    · rw [freqAt_setFreq]; split_ifs with h1
      · subst h1; rw [BitVec.toNat_add]; simp; omega
      · omega

theorem countBytes_wf (bs : List Byte) (s : State) (h : tableWf 0 s.freq) : tableWf 0 (countBytes bs s).freq := by
  induction bs generalizing s with
  | nil => exact h
  | cons b bs ih => exact ih _ (tableWf_set 0 h _ _)

/-! ## MKLEAVES -/

theorem nextIx_toNat {s : State} (h : s.nnode.toNat < 512) : (nextIx s).toNat = s.nnode.toNat := by
  rw [nextIx, BitVec.toNat_setWidth]; omega

theorem nextIx_eq (s : State) : nextIx s = BitVec.ofNat 9 s.nnode.toNat := by
  apply BitVec.eq_of_toNat_eq; simp [nextIx]

theorem hsize_succ {s : State} (h : s.hsize.toNat < 256) : (s.hsize + 1).toNat = s.hsize.toNat + 1 := by
  rw [BitVec.toNat_add]; simp; omega

theorem nnode_succ {s : State} (h : s.nnode.toNat < 512) : (s.nnode + 1).toNat = s.nnode.toNat + 1 := by
  rw [BitVec.toNat_add]; simp; omega

theorem ne_of_toNat_lt {w : Nat} {a b : BitVec w} (h : a.toNat < b.toNat) : a ≠ b := fun e => by subst e; omega

/-- The heap order depends on the queue and on the entries of the queued items only. -/
theorem HeapOrder_congr {s t : State} (hh : t.heap = s.heap) (hs : t.hsize = s.hsize)
    (hn : ∀ n ∈ queueOf s, nodeAt t n.toNat = nodeAt s n.toNat) (h : HeapOrder s) : HeapOrder t := by
  have e : ∀ j < s.hsize.toNat, hkey t j = hkey s j := by
    intro j hj
    have : heapAt t j = heapAt s j := by unfold heapAt; rw [hh]
    rw [hkey, this, hn _ (by simp only [queueOf, List.mem_map, List.mem_range]; exact ⟨j, hj, rfl⟩)]; rfl
  intro j hj h0
  rw [hs] at hj
  rw [e j hj, e _ (by omega)]; exact h j hj h0

theorem queueOf_congr {s t : State} (hh : t.heap = s.heap) (hs : t.hsize = s.hsize) : queueOf t = queueOf s := by
  unfold queueOf heapAt; rw [hh, hs]

/-- Alloc of a node and PqInsert of it (R133, R112): the pair that MKLEAVES and MERGE make. -/
theorem alloc_insert {s : State} (n : Node) (hn : s.nnode.toNat < 511) (hh : s.hsize.toNat < 256) :
    ∃ t, ((alloc n s).andThen fun s' => pqInsert (nextIx s) s') = .ok t ∧
      t = { s with node := t.node, nnode := s.nnode + 1, heap := t.heap, hsize := s.hsize + 1 } ∧
      t.node = tableSet (.leaf 0 0) s.node s.nnode.toNat n ∧
      (queueOf t).Perm (nextIx s :: queueOf s) ∧ (∀ j, s.hsize.toNat < j → heapAt t j = heapAt s j) ∧
      ((∀ m ∈ queueOf s, m.toNat < s.nnode.toNat) → HeapOrder s → HeapOrder t) := by
  let u : State := { s with node := tableSet (.leaf 0 0) s.node s.nnode.toNat n, nnode := s.nnode + 1 }
  have hu : alloc n s = .ok u := alloc_eq_ok.2 ⟨ne_of_toNat_lt (by simpa using hn), rfl⟩
  obtain ⟨t, ht, hf, hq, ha, ho⟩ := pqInsert_ok (s := u) (nextIx s) hh
  refine ⟨t, by rw [hu]; exact ht, ?_, by rw [hf], hq, ha, fun hm h => ho ?_⟩
  · rw [hf]
  · refine HeapOrder_congr (s := s) rfl rfl (fun m hmq => ?_) h
    show nodeOf (tableSet _ _ _ _) _ = _
    rw [nodeOf_set, if_neg (by have := hm m hmq; omega)]; rfl

/-- The loop of MKLEAVES (R134): the present symbols of the list get leaves at the next indices, in order, all of them queued. -/
theorem makeLeaves_ok (l : List Nat) (s : State) {n h k : Nat} (hn : s.nnode.toNat = n) (hh : s.hsize.toNat = h)
    (hk : (l.filter (fun i => decide (freqAt s i ≠ 0))).length = k) (hn' : n + k ≤ 511) (hh' : h + k ≤ 256) :
    ∃ t, makeLeaves l s = .ok t ∧
      t = { s with node := t.node, nnode := BitVec.ofNat 10 (n + k), heap := t.heap, hsize := BitVec.ofNat 9 (h + k) } ∧
      (∀ j i, (l.filter (fun i => decide (freqAt s i ≠ 0)))[j]? = some i →
        nodeAt t (n + j) = .leaf (freqAt s i) (BitVec.ofNat 8 i)) ∧
      (∀ j, (j < n ∨ n + k ≤ j) → nodeAt t j = nodeAt s j) ∧
      (∀ j, h + k ≤ j → heapAt t j = heapAt s j) ∧
      (queueOf t).Perm (queueOf s ++ (List.range k).map (fun j => BitVec.ofNat 9 (n + j))) ∧
      ((∀ m ∈ queueOf s, m.toNat < n) → HeapOrder s → HeapOrder t) := by
  induction l generalizing s n h k with
  | nil =>
    simp only [List.filter_nil, List.length_nil] at hk
    subst hk
    refine ⟨s, rfl, ?_, by simp, fun _ _ => rfl, fun _ _ => rfl, by simp, fun _ h => h⟩
    have e1 : BitVec.ofNat 10 (n + 0) = s.nnode := by rw [← hn]; simp
    have e2 : BitVec.ofNat 9 (h + 0) = s.hsize := by rw [← hh]; simp
    rw [e1, e2]
  | cons i rest ih =>
    by_cases hz : freqAt s i = 0
    · rw [makeLeaves, if_pos hz]
      have hfil : (i :: rest).filter (fun i => decide (freqAt s i ≠ 0)) = rest.filter (fun i => decide (freqAt s i ≠ 0)) := by
        rw [List.filter_cons, if_neg (by simp [hz])]
      rw [hfil] at hk ⊢
      exact ih s hn hh hk hn' hh'
    · have hfil : (i :: rest).filter (fun i => decide (freqAt s i ≠ 0)) =
          i :: rest.filter (fun i => decide (freqAt s i ≠ 0)) := by
        rw [List.filter_cons, if_pos (by simpa using hz)]
      rw [hfil] at hk ⊢
      obtain ⟨k, rfl⟩ : ∃ k', k = k' + 1 := ⟨k - 1, by rw [List.length_cons] at hk; omega⟩
      rw [List.length_cons, Nat.add_right_cancel_iff] at hk
      obtain ⟨u, hu, huf, hun, huq, hua, huo⟩ := alloc_insert (s := s) (.leaf (freqAt s i) (BitVec.ofNat 8 i)) (by omega) (by omega)
      have hfr : ∀ j, freqAt u j = freqAt s j := fun j => by rw [huf]; rfl
      have hnode : ∀ j, nodeAt u j = if j = n then .leaf (freqAt s i) (BitVec.ofNat 8 i) else nodeAt s j := by
        intro j; show nodeOf u.node j = _; rw [hun, nodeOf_set, hn]; rfl
      obtain ⟨t, ht, htf, htl, htn, hth, htq, hto⟩ := ih u (n := n + 1) (h := h + 1) (k := k)
        (by rw [huf]; show (s.nnode + 1).toNat = _; rw [nnode_succ (by omega), hn])
        (by rw [huf]; show (s.hsize + 1).toNat = _; rw [hsize_succ (by omega), hh])
        (by simp only [hfr]; exact hk) (by omega) (by omega)
      simp only [hfr] at htl
      refine ⟨t, ?_, ?_, fun j a hj => ?_, fun j hj => ?_, fun j hj => ?_, ?_, fun hm ho => ?_⟩
      · rw [makeLeaves, if_neg hz, ← ht, ← andThen_assoc, hu, ok_andThen]
      · rw [htf, huf]
        have e1 : n + 1 + k = n + (k + 1) := by omega
        have e2 : h + 1 + k = h + (k + 1) := by omega
        rw [e1, e2]
      · cases j with
        | zero =>
          simp at hj; subst hj
          rw [htn _ (by omega), hnode, if_pos (by omega)]
        | succ j =>
          rw [show n + (j + 1) = n + 1 + j by omega]; exact htl j a (by simpa using hj)
      · rw [htn j (by omega), hnode, if_neg (by omega)]
      · rw [hth j (by omega), hua j (by omega)]
      · refine htq.trans ?_
        rw [List.range_succ_eq_map, List.map_cons, List.map_map]
        have e : (fun j => BitVec.ofNat 9 (n + 1 + j)) = (fun j => BitVec.ofNat 9 (n + j)) ∘ Nat.succ := by
          funext j; simp only [Function.comp]; rw [show n + 1 + j = n + Nat.succ j by omega]
        rw [e]
        refine (huq.append_right _).trans ?_
        rw [nextIx_eq, hn, List.cons_append]
        exact List.perm_middle.symm
      · refine hto (fun m hmq => ?_) (huo (by rw [hn]; exact hm) ho)
        have := huq.subset hmq
        rcases List.mem_cons.1 this with rfl | h'
        · rw [nextIx_toNat (by omega)]; omega
        · have := hm m h'; omega

/-! ## MERGE -/

/-- The sift-down reads HEAP, NODE and HSIZE only. -/
theorem siftDown_congr (f j : Nat) {s t : State} (hh : t.heap = s.heap) (hn : t.node = s.node) (hs : t.hsize = s.hsize) :
    (siftDown f j t).heap = (siftDown f j s).heap := by
  have hk : ∀ {s t : State}, t.heap = s.heap → t.node = s.node → ∀ k, hkey t k = hkey s k := by
    intro s t hh hn k; unfold hkey nodeAt heapAt; rw [hh, hn]
  induction f generalizing j s t with
  | zero => exact hh
  | succ f ih =>
    have e : ∀ m c, smallerOf t m c = smallerOf s m c := by
      intro m c; unfold smallerOf; rw [hs, hk hh hn, hk hh hn]
    rw [siftDown, siftDown]
    simp only [e]
    split_ifs
    · exact hh
    · refine ih _ ?_ hn hs
      rw [swapHeap_heap, swapHeap_heap]; unfold heapAt; rw [hh]

/-- MERGE (R140, R141, R142) with two items or more, room for a node and a sum that fits. -/
theorem opMerge_ok {s : State} (h2 : 2 ≤ s.hsize.toNat) (h256 : s.hsize.toNat ≤ 256) (hn : s.nnode.toNat < 511)
    (hw : keyOf s (heapAt s 0) + keyOf s (secondLeast s) ≤ 0xFFFFFFFF) :
    ∃ t rest, opMerge s = .ok t ∧
      t = { s with
        treev := false, codev := false, degen := false, heap := t.heap, hsize := s.hsize - 1, pqOut := secondLeast s,
        node := t.node, nnode := s.nnode + 1 } ∧
      t.node = tableSet (.leaf 0 0) s.node s.nnode.toNat
        (.internal (word (keyOf s (heapAt s 0) + keyOf s (secondLeast s))) (heapAt s 0) (secondLeast s)) ∧
      (queueOf s).Perm (heapAt s 0 :: secondLeast s :: rest) ∧ (queueOf t).Perm (nextIx s :: rest) ∧
      (∀ j, s.hsize.toNat ≤ j → heapAt t j = heapAt s j) ∧ heapAt t (s.hsize.toNat - 1) = 0 ∧
      (HeapOrder s → (∀ n ∈ queueOf s, keyOf s (heapAt s 0) ≤ keyOf s n) ∧ (∀ n ∈ rest, keyOf s (secondLeast s) ≤ keyOf s n) ∧
        ((∀ n ∈ queueOf s, n.toNat < s.nnode.toNat) → HeapOrder t)) := by
  let s0 : State := { s with treev := false, codev := false, degen := false }
  have hs0 : s0.hsize ≠ 0 := fun e => by
    have : s.hsize.toNat = 0 := by rw [show s.hsize = 0 from e]; rfl
    omega
  obtain ⟨s1, e1, f1, q1, z1, a1, d1, o1⟩ := pqExtract_ok (s := s0) hs0
  have m1 : s1.hsize.toNat = s.hsize.toNat - 1 := by
    rw [f1]; show (s.hsize - 1).toNat = _
    rw [BitVec.toNat_sub]; simp; have := s.hsize.isLt; omega
  have hs1 : s1.hsize ≠ 0 := fun e => by
    have : s1.hsize.toNat = 0 := by rw [e]; rfl
    omega
  obtain ⟨s2, e2, f2, q2, z2, a2, d2, o2⟩ := pqExtract_ok (s := s1) hs1
  have m2 : s2.hsize.toNat = s.hsize.toNat - 2 := by
    rw [f2]; show (s1.hsize - 1).toNat = _
    rw [BitVec.toNat_sub]; simp; have := s1.hsize.isLt; omega
  have hsec : heapAt s1 0 = secondLeast s := by
    rw [d1, secondLeast]; unfold heapAt
    rw [siftDown_congr (s := dropTop s) (t := dropTop s0) _ _ rfl rfl rfl]
  have p1 : s1.pqOut = heapAt s 0 := by rw [f1]; rfl
  have p2 : s2.pqOut = secondLeast s := by rw [f2]; exact hsec
  have n2 : s2.node = s.node := by rw [f2, f1]
  have nn2 : s2.nnode = s.nnode := by rw [f2, f1]
  have k2 : ∀ n, (nodeAt s2 n.toNat).weight.toNat = keyOf s n := by
    intro n; show (nodeOf s2.node _).weight.toNat = _; rw [n2]; rfl
  have hadd : (nodeAt s2 (heapAt s 0).toNat).weight + (nodeAt s2 (secondLeast s).toNat).weight =
      word (keyOf s (heapAt s 0) + keyOf s (secondLeast s)) := by
    apply BitVec.eq_of_toNat_eq
    rw [BitVec.toNat_add, k2, k2, BitVec.toNat_ofNat]
  obtain ⟨t, ht, tf, tn, tq, ta, tho⟩ := alloc_insert (s := s2)
    (.internal (word (keyOf s (heapAt s 0) + keyOf s (secondLeast s))) (heapAt s 0) (secondLeast s)) (by rw [nn2]; omega) (by omega)
  have hnx : nextIx s2 = nextIx s := by unfold nextIx; rw [nn2]
  rw [hsec] at q2 o2
  refine ⟨t, queueOf s2, ?_, ?_, ?_, ?_, by rw [← hnx]; exact tq, fun j hj => ?_, ?_, fun ho => ?_⟩
  · rw [opMerge, if_neg (by omega), if_neg (ne_of_toNat_lt (by simpa using hn))]
    show (pqExtract s0).andThen _ = _
    rw [e1, ok_andThen, e2, ok_andThen, p1, p2, mergeNodes, if_neg (by rw [k2, k2]; omega), hadd]
    exact ht
  · rw [tf, f2, f1]
    have : s.hsize - 1 - 1 + 1 = s.hsize - 1 := by
      apply BitVec.eq_of_toNat_eq
      simp only [BitVec.toNat_add, BitVec.toNat_sub]; simp; omega
    rw [f1] at hsec
    simp only [s0, this]
    rw [← hsec]
  · rw [tn, n2, nn2]
  · refine (q1.symm.trans ?_)
    exact List.Perm.cons _ q2.symm
  · rw [ta j (by omega), a2 j (by omega), a1 j (by exact hj)]; rfl
  · rw [ta _ (by omega), a2 _ (by omega)]; exact z1
  · have h0 : HeapOrder s0 := ho
    obtain ⟨h1, l1⟩ := o1 h0
    obtain ⟨h2', l2⟩ := o2 h1
    have kk : ∀ n, keyOf s1 n = keyOf s n := by intro n; rw [f1]; rfl
    refine ⟨l1, fun n hn' => ?_, fun hall => ?_⟩
    · rw [← kk, ← kk]; exact l2 n (q2.subset (List.mem_cons_of_mem _ hn'))
    · refine tho (fun n hn' => ?_) h2'
      rw [nn2]
      exact hall n (q1.subset (List.mem_cons_of_mem _ (q2.subset (List.mem_cons_of_mem _ hn'))))

/-- MERGE (R140, R285): the sum of the two least items does not fit. -/
theorem opMerge_weight_raise {s : State} (h2 : 2 ≤ s.hsize.toNat) (hn : s.nnode ≠ 511)
    (hw : 0xFFFFFFFF < keyOf s (heapAt s 0) + keyOf s (secondLeast s)) :
    ∃ t, opMerge s = .raise .capacity 6 t ∧
      t = { s with treev := false, codev := false, degen := false, heap := t.heap, hsize := t.hsize, pqOut := t.pqOut } := by
  let s0 : State := { s with treev := false, codev := false, degen := false }
  have hs0 : s0.hsize ≠ 0 := fun e => by
    have : s.hsize.toNat = 0 := by rw [show s.hsize = 0 from e]; rfl
    omega
  obtain ⟨s1, e1, f1, q1, z1, a1, d1, o1⟩ := pqExtract_ok (s := s0) hs0
  have m1 : s1.hsize.toNat = s.hsize.toNat - 1 := by
    rw [f1]; show (s.hsize - 1).toNat = _
    rw [BitVec.toNat_sub]; simp; have := s.hsize.isLt; omega
  have hs1 : s1.hsize ≠ 0 := fun e => by
    have : s1.hsize.toNat = 0 := by rw [e]; rfl
    omega
  obtain ⟨s2, e2, f2, q2, z2, a2, d2, o2⟩ := pqExtract_ok (s := s1) hs1
  have hsec : heapAt s1 0 = secondLeast s := by
    rw [d1, secondLeast]; unfold heapAt
    rw [siftDown_congr (s := dropTop s) (t := dropTop s0) _ _ rfl rfl rfl]
  have p1 : s1.pqOut = heapAt s 0 := by rw [f1]; rfl
  have p2 : s2.pqOut = secondLeast s := by rw [f2]; exact hsec
  have k2 : ∀ n, (nodeAt s2 n.toNat).weight.toNat = keyOf s n := by
    intro n; show (nodeOf s2.node _).weight.toNat = _; rw [f2, f1]; rfl
  refine ⟨s2, ?_, ?_⟩
  · rw [opMerge, if_neg (by omega), if_neg hn]
    show (pqExtract s0).andThen _ = _
    rw [e1, ok_andThen, e2, ok_andThen, p1, p2, mergeNodes, if_pos (by rw [k2, k2]; omega)]; rfl
  · rw [f2, f1]

/-! ## BUILD -/

/-- The tree that hangs at an allocated item of the queue. -/
def treeAt (s : State) (n : NodeIx) : Tree := (treeOf s.node walkDepth n.toNat).getD (.leaf 0 0)

theorem treeOf_treeAt {s : State} (h : childrenBelow s.node) (n : NodeIx) :
    treeOf s.node walkDepth n.toNat = some (treeAt s n) := by
  obtain ⟨T, hT⟩ := treeOf_exists h n.toNat
  have := treeOf_mono hT (g := walkDepth) (by have := n.isLt; unfold walkDepth; omega)
  rw [treeAt, this]; rfl

/-- What BUILD's loop keeps: a forest of summed trees with the given leaves between them, its newest node among the queued items, nothing
in HEAP beyond them. -/
structure Forest (s : State) (m : Nat) (leaves : List (Byte × Nat)) : Prop where
  nodes : s.nnode.toNat + s.hsize.toNat = m
  below : childrenBelow s.node
  alloc : ∀ n ∈ queueOf s, n.toNat < s.nnode.toNat
  newest : BitVec.ofNat 9 (s.nnode.toNat - 1) ∈ queueOf s
  summed : ∀ n ∈ queueOf s, (treeAt s n).Summed
  weighted : ((queueOf s).flatMap (fun n => (treeAt s n).weighted)).Perm leaves
  beyond : ∀ j, s.hsize.toNat ≤ j → heapAt s j = 0

theorem treeAt_weight {s : State} (h : childrenBelow s.node) (n : NodeIx) : (treeAt s n).weight = keyOf s n :=
  treeOf_weight (treeOf_treeAt h n)

theorem sum_flatMap {α β : Type} (l : List α) (f : α → List β) (g : β → Nat) :
    ((l.flatMap f).map g).sum = (l.map (fun a => ((f a).map g).sum)).sum := by
  induction l with
  | nil => rfl
  | cons a l ih => simp [List.flatMap_cons, ih]

/-- In a forest the keys of the queued items sum to the sum of the leaves. -/
theorem Forest.sum_keys {s : State} {m : Nat} {L : List (Byte × Nat)} (h : Forest s m L) :
    ((queueOf s).map (keyOf s)).sum = (L.map Prod.snd).sum := by
  rw [← (h.weighted.map Prod.snd).sum_eq, sum_flatMap]
  congr 1
  refine List.map_congr_left fun n hn => ?_
  rw [← Tree.weight_eq_sum (h.summed n hn), treeAt_weight h.below]

/-- A written entry at the end of the table keeps children below. -/
theorem childrenBelow_set {t : Table Node} (h : childrenBelow t) {i : Nat} {n : Node}
    (hn : match n with | .leaf _ _ => True | .internal _ l r => l.toNat < i ∧ r.toNat < i) :
    childrenBelow (tableSet (.leaf 0 0) t i n) := by
  intro e he
  rcases mem_tableSet (Node.leaf 0 0) he with rfl | he
  · cases n <;> exact hn
  · exact h e he

/-- MERGE keeps the forest. -/
theorem Forest.merge {s : State} {m : Nat} {L : List (Byte × Nat)} (h : Forest s m L) (h2 : 2 ≤ s.hsize.toNat)
    (hm : m ≤ 512) (h256 : s.hsize.toNat ≤ 256) (hw : (L.map Prod.snd).sum ≤ 0xFFFFFFFF) :
    ∃ t, opMerge s = .ok t ∧ Forest t m L ∧ t.hsize.toNat = s.hsize.toNat - 1 ∧
      (∀ j < s.nnode.toNat, nodeAt t j = nodeAt s j) ∧
      t = { s with
        treev := false, codev := false, degen := false, heap := t.heap, hsize := t.hsize, pqOut := t.pqOut,
        node := t.node, nnode := t.nnode } := by
  have hnn : s.nnode.toNat < 511 := by have := h.nodes; omega
  -- the two least items are two of the queue, so their keys sum to no more than all of them
  have hle : keyOf s (heapAt s 0) + keyOf s (secondLeast s) ≤ 0xFFFFFFFF := by
    let s0 := s
    have hs0 : s.hsize ≠ 0 := fun e => by
      have : s.hsize.toNat = 0 := by rw [e]; rfl
      omega
    obtain ⟨s1, e1, f1, q1, -, -, d1, -⟩ := pqExtract_ok (s := s) hs0
    have m1 : s1.hsize.toNat = s.hsize.toNat - 1 := by
      rw [f1]; show (s.hsize - 1).toNat = _
      rw [BitVec.toNat_sub]; simp; omega
    have hmem : queueOf s1 = secondLeast s :: (List.range (s1.hsize.toNat - 1)).map (fun k => heapAt s1 (k + 1)) := by
      obtain ⟨k, hk⟩ : ∃ k, s1.hsize.toNat = k + 1 := ⟨s1.hsize.toNat - 1, by omega⟩
      rw [queueOf, hk, List.range_succ_eq_map]
      simp [Function.comp_def, secondLeast, d1]
    have := (q1.map (keyOf s)).sum_eq
    rw [h.sum_keys, hmem] at this
    simp only [List.map_cons, List.sum_cons] at this
    omega
  obtain ⟨t, rest, ht, tf, tn, q, q', hb, hz, -⟩ := opMerge_ok h2 h256 hnn hle
  have ts : t.hsize.toNat = s.hsize.toNat - 1 := by
    rw [tf]; show (s.hsize - 1).toNat = _
    rw [BitVec.toNat_sub]; simp; omega
  have tnn : t.nnode.toNat = s.nnode.toNat + 1 := by rw [tf]; exact nnode_succ (by omega)
  have ha : heapAt s 0 ∈ queueOf s := q.symm.subset (by simp)
  have hb' : secondLeast s ∈ queueOf s := q.symm.subset (by simp)
  have hrest : ∀ n ∈ rest, n ∈ queueOf s := fun n hn => q.symm.subset (by simp [hn])
  have hcb : childrenBelow t.node := by
    rw [tn]; exact childrenBelow_set h.below ⟨h.alloc _ ha, h.alloc _ hb'⟩
  have hold : ∀ j < s.nnode.toNat, nodeOf t.node j = nodeOf s.node j := by
    intro j hj; rw [tn, nodeOf_set, if_neg (by omega)]
  have htree : ∀ n ∈ queueOf s, treeAt t n = treeAt s n := by
    intro n hn; unfold treeAt; rw [treeOf_congr h.below hold _ (h.alloc n hn)]
  have hix : (nextIx s).toNat = s.nnode.toNat := nextIx_toNat (by omega)
  have hnew : treeAt t (nextIx s) =
      .internal (keyOf s (heapAt s 0) + keyOf s (secondLeast s)) (treeAt s (heapAt s 0)) (treeAt s (secondLeast s)) := by
    have e1 := treeOf_treeAt h.below (heapAt s 0)
    have e2 := treeOf_treeAt h.below (secondLeast s)
    obtain ⟨A, hA⟩ := treeOf_exists h.below (heapAt s 0).toNat
    obtain ⟨B, hB⟩ := treeOf_exists h.below (secondLeast s).toNat
    have hA' := treeOf_mono hA (g := 511) (by have := h.alloc _ ha; omega)
    have hB' := treeOf_mono hB (g := 511) (by have := h.alloc _ hb'; omega)
    have eA : treeAt s (heapAt s 0) = A := by
      have := treeOf_mono hA' (g := walkDepth) (by decide)
      rw [treeAt, this]; rfl
    have eB : treeAt s (secondLeast s) = B := by
      have := treeOf_mono hB' (g := walkDepth) (by decide)
      rw [treeAt, this]; rfl
    have hnode : nodeOf t.node (nextIx s).toNat =
        .internal (word (keyOf s (heapAt s 0) + keyOf s (secondLeast s))) (heapAt s 0) (secondLeast s) := by
      rw [tn, hix, nodeOf_set, if_pos rfl]
    have := treeOf_internal (f := 511) hnode
      ((treeOf_congr h.below hold 511 (h.alloc _ ha)).trans hA') ((treeOf_congr h.below hold 511 (h.alloc _ hb')).trans hB')
    rw [treeAt, show walkDepth = 511 + 1 from rfl, this, eA, eB]
    simp only [Option.getD_some]
    rw [BitVec.toNat_ofNat, Nat.mod_eq_of_lt (by omega)]
  refine ⟨t, ht, ⟨by have := h.nodes; omega, hcb, fun n hn => ?_, ?_, fun n hn => ?_, ?_, fun j hj => ?_⟩, ts, hold, ?_⟩
  · rcases List.mem_cons.1 (q'.subset hn) with rfl | hn'
    · omega
    · have := h.alloc n (hrest n hn'); omega
  · have : BitVec.ofNat 9 (t.nnode.toNat - 1) = nextIx s := by rw [nextIx_eq, tnn, Nat.add_sub_cancel]
    rw [this]; exact q'.symm.subset (by simp)
  · rcases List.mem_cons.1 (q'.subset hn) with rfl | hn'
    · rw [hnew]
      exact ⟨by rw [treeAt_weight h.below, treeAt_weight h.below], h.summed _ ha, h.summed _ hb'⟩
    · rw [htree n (hrest n hn')]; exact h.summed n (hrest n hn')
  · refine (q'.flatMap_right _).trans ?_
    refine List.Perm.trans ?_ ((q.flatMap_right (fun n => (treeAt s n).weighted)).symm.trans h.weighted)
    simp only [List.flatMap_cons, hnew, Tree.weighted, List.append_assoc]
    refine List.Perm.of_eq ?_
    congr 2
    refine List.flatMap_congr fun n hn => ?_
    rw [htree n (hrest n hn)]
  · by_cases hj' : j = s.hsize.toNat - 1
    · rw [hj']; exact hz
    · rw [hb j (by omega), h.beyond j (by omega)]
  · rw [tf]

/-- BUILD's loop (R148) brings the forest down to one tree. -/
theorem mergeLoop_ok {s : State} {m : Nat} {L : List (Byte × Nat)} (f : Nat) (h : Forest s m L) (h1 : 1 ≤ s.hsize.toNat)
    (hf : s.hsize.toNat ≤ f + 1) (hm : m ≤ 512) (h256 : s.hsize.toNat ≤ 256) (hw : (L.map Prod.snd).sum ≤ 0xFFFFFFFF) :
    ∃ t, mergeLoop f s = .ok t ∧ Forest t m L ∧ t.hsize.toNat = 1 ∧ (∀ j < s.nnode.toNat, nodeAt t j = nodeAt s j) ∧
      t = { s with
        treev := t.treev, codev := t.codev, degen := t.degen, heap := t.heap, hsize := t.hsize, pqOut := t.pqOut,
        node := t.node, nnode := t.nnode } := by
  induction f generalizing s with
  | zero => exact ⟨s, rfl, h, by omega, fun _ _ => rfl, rfl⟩
  | succ f ih =>
    rw [mergeLoop]
    split_ifs with hlt
    · obtain ⟨u, hu, fu, us, un, uf⟩ := h.merge hlt hm h256 hw
      obtain ⟨t, ht, ft, ts, tn, tf⟩ := ih fu (by omega) (by omega) (by omega)
      refine ⟨t, by rw [hu, ok_andThen, ht], ft, ts, fun j hj => ?_, ?_⟩
      · rw [tn j (by have := fu.nodes; have := h.nodes; omega), un j hj]
      · rw [tf, uf]
    · exact ⟨s, rfl, h, by omega, fun _ _ => rfl, rfl⟩

end Sys2Proof.Machine
end

