-- ==== Sys2Proof/Laws/CodeGen.lean ====
section
/-! SUPPORT. GENCODE (42_codegen.md): the walk writes the pairs of `codes` (R161) in their order, if the tree is at most 255 deep, and faults otherwise. -/

namespace Sys2Proof.Machine

/-- Write each pair of a list into the code table, in order. -/
def setCodes (l : List (Byte × List Bool)) (s : State) : State := l.foldl (fun s p => setCode s p.1.toNat p.2) s

theorem setCodes_frame (l : List (Byte × List Bool)) (s : State) :
    setCodes l s = { s with codeLen := (setCodes l s).codeLen, codeBits := (setCodes l s).codeBits } := by
  induction l generalizing s with
  | nil => rfl
  | cons p l ih => exact ih (setCode s p.1.toNat p.2)

@[simp] theorem setCodes_node (l : List (Byte × List Bool)) (s : State) : (setCodes l s).node = s.node := by
  rw [setCodes_frame]

/-- The walk of R160 writes the pairs of `codes` (R161), where no path is longer than CODE_MAX. -/
theorem walkCodes_eq {f i : Nat} {s : State} {T : Tree} (path : List Bool) (h : treeOf s.node f i = some T)
    (hd : path.length + T.depth ≤ 255) : walkCodes f i path s = .ok (setCodes (T.codes path) s) := by
  induction f generalizing i s T path with
  | zero => simp [treeOf] at h
  | succ f ih =>
    rcases treeOf_cases h with ⟨w, b, hn, rfl⟩ | ⟨w, l, r, A, B, hn, ha, hb, rfl⟩
    · rw [walkCodes, nodeAt, hn]; exact recordCode_ok (by omega)
    · rw [walkCodes, nodeAt, hn]
      simp only [Tree.depth] at hd ⊢
      rw [ih _ ha (by simp; omega), ok_andThen, ih _ (by rw [setCodes_node]; exact hb) (by simp; omega), setCodes, setCodes, setCodes,
        ← List.foldl_append]; rfl

/-- The walk of a tree with a path longer than CODE_MAX faults CAPACITY(4), having written codes only (R4, log 6). -/
theorem walkCodes_deep {f i : Nat} {s : State} {T : Tree} (path : List Bool) (h : treeOf s.node f i = some T)
    (hd : 255 < path.length + T.depth) :
    ∃ u, walkCodes f i path s = .raise .capacity 4 u ∧ u = { s with codeLen := u.codeLen, codeBits := u.codeBits } := by
  induction f generalizing i s T path with
  | zero => simp [treeOf] at h
  | succ f ih =>
    rcases treeOf_cases h with ⟨w, b, hn, rfl⟩ | ⟨w, l, r, A, B, hn, ha, hb, rfl⟩
    · rw [walkCodes, nodeAt, hn]; exact ⟨s, recordCode_long (by simpa [Tree.depth] using hd), rfl⟩
    · rw [walkCodes, nodeAt, hn]
      simp only [Tree.depth] at hd ⊢
      by_cases hA : 255 < path.length + 1 + A.depth
      · obtain ⟨u, hu, hs⟩ := ih (path ++ [false]) ha (by simpa using hA)
        exact ⟨u, by rw [hu, raise_andThen], hs⟩
      · rw [walkCodes_eq _ ha (by simp; omega), ok_andThen]
        obtain ⟨u, hu, hs⟩ := ih (s := setCodes (A.codes (path ++ [false])) s) (path ++ [true]) (by rw [setCodes_node]; exact hb)
          (by simp; omega)
        exact ⟨u, hu, by rw [setCodes_frame] at hs; exact hs⟩

/-- A path is as long as the leaf is deep. -/
theorem Tree.codes_length (t : Tree) (path : List Bool) : ∀ p ∈ t.codes path, p.2.length ≤ path.length + t.depth := by
  induction t generalizing path with
  | leaf w s => simp [Tree.codes]
  | internal w l r hl hr =>
    intro p hp
    rcases List.mem_append.1 hp with hp | hp
    · have := hl _ p hp; simp only [List.length_append, List.length_singleton, Tree.depth] at this ⊢; omega
    · have := hr _ p hp; simp only [List.length_append, List.length_singleton, Tree.depth] at this ⊢; omega

/-- Every pair's path begins with the path walked so far (R161). -/
theorem Tree.codes_extend (t : Tree) (path : List Bool) : ∀ p ∈ t.codes path, path <+: p.2 := by
  induction t generalizing path with
  | leaf w s => simp [Tree.codes]
  | internal w l r hl hr =>
    intro p hp
    rcases List.mem_append.1 hp with hp | hp
    · exact (List.prefix_append _ _).trans (hl _ p hp)
    · exact (List.prefix_append _ _).trans (hr _ p hp)

/-- The symbols of the pairs are the leaves in order. -/
theorem Tree.codes_fst (t : Tree) (path : List Bool) : (t.codes path).map Prod.fst = t.leaves := by
  induction t generalizing path with
  | leaf w s => rfl
  | internal w l r hl hr => simp [Tree.codes, Tree.leaves, hl, hr]

/-- The code table after writing pairs that fit: each symbol's last pair, or what stood there (R42, R164). -/
theorem codeAt_setCodes (l : List (Byte × List Bool)) (s : State) (h : ∀ p ∈ l, p.2.length ≤ 255) (b : Byte) :
    codeAt (setCodes l s) b.toNat = l.foldl (fun acc p => if p.1 = b then p.2 else acc) (codeAt s b.toNat) := by
  induction l generalizing s with
  | nil => rfl
  | cons p l ih =>
    show codeAt (setCodes l (setCode s _ _)) _ = _
    rw [ih _ fun q hq => h q (List.mem_cons_of_mem _ hq), List.foldl_cons, codeAt_setCode _ _ _ _ (h p (by simp))]
    congr 1
    by_cases e : p.1 = b
    · rw [if_pos (by rw [e]), if_pos e]
    · rw [if_neg (fun h => e (BitVec.eq_of_toNat_eq h).symm), if_neg e]

/-- The code read back is as long as CODELEN says. -/
theorem codeAt_length (s : State) (i : Nat) : (codeAt s i).length = (codeLenAt s i).toNat := codeString_length _ _

/-- Writing a code that fits keeps the bits beyond every length 0 (R42). -/
theorem CodeBitsMasked_setCode {s : State} (h : CodeBitsMasked s) (i : Nat) {c : List Bool} (hc : c.length ≤ 255) :
    CodeBitsMasked (setCode s i c) := by
  intro b hb j hj hl
  simp only [codeLenAt, codeBitsAt, setCode, tableGet_set] at hl ⊢
  split_ifs at hl ⊢ with hi
  · rw [getMsbD_codeBitsOf c (by omega) j hj, List.getD_eq_default]
    rw [BitVec.toNat_ofNat, Nat.mod_eq_of_lt (by omega)] at hl; exact hl
  · exact h b hb j hj hl

theorem CodeBitsMasked_setCodes {s : State} (h : CodeBitsMasked s) (l : List (Byte × List Bool)) (hl : ∀ p ∈ l, p.2.length ≤ 255) :
    CodeBitsMasked (setCodes l s) := by
  induction l generalizing s with
  | nil => exact h
  | cons p l ih =>
    exact ih (CodeBitsMasked_setCode h _ (hl p List.mem_cons_self)) fun q hq => hl q (List.mem_cons_of_mem _ hq)

/-- Whatever the walk does, the bits beyond every length stay 0 (R42). -/
theorem walkCodes_masked {f i : Nat} {path : List Bool} {s t : State} (h : CodeBitsMasked s) (hw : walkCodes f i path s = .ok t) :
    CodeBitsMasked t := by
  induction f generalizing i path s t with
  | zero => simp [walkCodes] at hw
  | succ f ih =>
    rw [walkCodes] at hw
    split at hw
    · by_cases hc : 255 < path.length
      · rw [recordCode_long hc] at hw; cases hw
      · rw [recordCode_ok (by omega)] at hw; cases hw
        exact CodeBitsMasked_setCode h _ (by omega)
    · obtain ⟨u, hu, hw⟩ := andThen_eq_ok.1 hw
      exact ih (ih h hu) hw

/-- The pairs GENCODE writes (R160, R162): a lone leaf's is the one code "0". -/
def Tree.table (t : Tree) : List (Byte × List Bool) :=
  match t with
  | .leaf _ b => [(b, [false])]
  | .internal _ _ _ => t.codes []

/-- GENCODE's table (R160, R162), for a tree at most CODE_MAX deep. -/
theorem genCodes_eq {s : State} {T : Tree} (h : stateTree s = some T) (hd : T.depth ≤ 255) :
    genCodes s = .ok (setCodes T.table s) := by
  have h' := h
  rw [stateTree, show walkDepth = 511 + 1 from rfl] at h'
  rcases treeOf_cases h' with ⟨w, b, hn, rfl⟩ | ⟨w, l, r, A, B, hn, ha, hb, rfl⟩
  · rw [genCodes, nodeAt, hn]; rfl
  · rw [genCodes, nodeAt, hn]; exact walkCodes_eq [] h (by simpa using hd)

/-- A deeper tree faults CAPACITY(4) (R4, log 6). -/
theorem genCodes_deep {s : State} {T : Tree} (h : stateTree s = some T) (hd : 255 < T.depth) :
    ∃ u, genCodes s = .raise .capacity 4 u ∧ u = { s with codeLen := u.codeLen, codeBits := u.codeBits } := by
  have h' := h
  rw [stateTree, show walkDepth = 511 + 1 from rfl] at h'
  rcases treeOf_cases h' with ⟨w, b, hn, rfl⟩ | ⟨w, l, r, A, B, hn, ha, hb, rfl⟩
  · simp [Tree.depth] at hd
  · rw [genCodes, nodeAt, hn]; exact walkCodes_deep [] h (by simpa using hd)

end Sys2Proof.Machine
end

