-- ==== Sys2Proof/Laws/SymCodec.lean ====
section
/-! SUPPORT. ENCSYM and DECSYM (45_symcodec.md): the loop of R230 writes `enc` (R231), the loop of R240 appends what `walk` emits (R241)
and sets RESID to the residual flag, and neither runs for ever. -/

namespace Sys2Proof.Machine

theorem tableWrite_append {α : Type} [DecidableEq α] (d : α) (m : Table α) (i : Nat) (a b : List α) :
    tableWrite d m i (a ++ b) = tableWrite d (tableWrite d m i a) (i + a.length) b := by
  induction a generalizing m i with
  | nil => rfl
  | cons x a ih =>
    rw [List.cons_append, tableWrite, ih, tableWrite, List.length_cons, show i + 1 + a.length = i + (a.length + 1) by omega]

/-- The loop of ENCSYM (R230) on bytes that all have codes and fit: it writes the concatenation of the codes (R231). -/
theorem encodeFrom_ok (x : List Byte) (i L : Nat) (s : State) (hc : ∀ b ∈ x, codeLenAt s b.toNat ≠ 0)
    (hl : L + (encOf (fun b => codeAt s b.toNat) x).length ≤ s.cfg.bitsCap) :
    encodeFrom x i L s = .ok { writeBits s L (encOf (fun b => codeAt s b.toNat) x) with
      bitLen := word (L + (encOf (fun b => codeAt s b.toNat) x).length), bitsv := true } := by
  induction x generalizing i L s with
  | nil => rfl
  | cons b x ih =>
    have he : encOf (fun b => codeAt s b.toNat) (b :: x) = codeAt s b.toNat ++ encOf (fun b => codeAt s b.toNat) x := rfl
    have hlen := codeAt_length s b.toNat
    rw [he, List.length_append] at hl
    rw [encodeFrom, if_neg (hc b (by simp)), if_neg (by rw [← hlen]; omega)]
    rw [ih (i + 1) _ (writeBits s L (codeAt s b.toNat)) (fun c h => hc c (by simp [h])) (by rw [← hlen]; show _ + (encOf (fun b => codeAt s b.toNat) x).length ≤ s.cfg.bitsCap; omega)]
    show Res.ok { writeBits (writeBits s L (codeAt s b.toNat)) _ (encOf (fun b => codeAt s b.toNat) x) with
      bitLen := word (_ + (encOf (fun b => codeAt s b.toNat) x).length), bitsv := true } = _
    rw [he, List.length_append, ← hlen, Nat.add_assoc]
    simp only [writeBits, tableWrite_append]

/-- The loop of ENCSYM (R230, R232, R233) up to the first byte it faults at. -/
theorem encodeFrom_prefix (x y : List Byte) (i L : Nat) (s : State) (hc : ∀ b ∈ x, codeLenAt s b.toNat ≠ 0)
    (hl : L + (encOf (fun b => codeAt s b.toNat) x).length ≤ s.cfg.bitsCap) :
    encodeFrom (x ++ y) i L s =
      encodeFrom y (i + x.length) (L + (encOf (fun b => codeAt s b.toNat) x).length)
        (writeBits s L (encOf (fun b => codeAt s b.toNat) x)) := by
  induction x generalizing i L s with
  | nil => rfl
  | cons b x ih =>
    have he : encOf (fun b => codeAt s b.toNat) (b :: x) = codeAt s b.toNat ++ encOf (fun b => codeAt s b.toNat) x := rfl
    have hlen := codeAt_length s b.toNat
    rw [he, List.length_append] at hl
    rw [List.cons_append, encodeFrom, if_neg (hc b (by simp)), if_neg (by rw [← hlen]; omega)]
    rw [ih (i + 1) _ (writeBits s L (codeAt s b.toNat)) (fun c h => hc c (by simp [h])) (by rw [← hlen]; show _ + (encOf (fun b => codeAt s b.toNat) x).length ≤ s.cfg.bitsCap; omega)]
    show encodeFrom y _ (_ + (encOf (fun b => codeAt s b.toNat) x).length)
      (writeBits (writeBits s L (codeAt s b.toNat)) _ (encOf (fun b => codeAt s b.toNat) x)) = _
    rw [he, List.length_append, ← hlen, Nat.add_assoc L, List.length_cons, show i + 1 + x.length = i + (x.length + 1) by omega]
    simp only [writeBits, tableWrite_append]

/-- The loop of ENCSYM changes BITS, BITLEN and BITSV only, where it does not raise; it never runs for ever; where it raises, BITS alone. -/
theorem encodeFrom_frame (x : List Byte) (i L : Nat) (s : State) (hL : L ≤ s.cfg.bitsCap) :
    (∀ t, encodeFrom x i L s = .ok t →
      t = { s with bits := t.bits, bitLen := t.bitLen, bitsv := true } ∧ ∃ l ≤ s.cfg.bitsCap, t.bitLen = word l) ∧
    (∀ c w t, encodeFrom x i L s = .raise c w t → t = { s with bits := t.bits }) ∧
    encodeFrom x i L s ≠ .endless ∧
    (tableWf false s.bits → (encodeFrom x i L s).Keeps fun t => tableWf false t.bits) := by
  induction x generalizing i L s with
  | nil =>
    refine ⟨fun t h => ?_, fun c w t h => by simp [encodeFrom] at h, by simp [encodeFrom], fun h => Res.keeps_ok h⟩
    simp only [encodeFrom, Res.ok.injEq] at h
    subst h; exact ⟨rfl, L, hL, rfl⟩
  | cons b x ih =>
    rw [encodeFrom]
    split
    · refine ⟨fun t h => by simp at h, fun c w t h => ?_, by simp, fun h => Res.keeps_raise h⟩
      simp at h; rw [← h.2.2]
    · split
      · refine ⟨fun t h => by simp [raiseCapacity] at h, fun c w t h => ?_, by simp [raiseCapacity], fun h => Res.keeps_raise h⟩
        simp [raiseCapacity] at h; rw [← h.2.2]
      · obtain ⟨h1, h2, h3, h4⟩ := ih (i + 1) (L + (codeLenAt s b.toNat).toNat) (writeBits s L (codeAt s b.toNat))
          (by show _ ≤ s.cfg.bitsCap; omega)
        refine ⟨fun t h => ?_, fun c w t h => ?_, h3, fun h => h4 (tableWf_write false h _ _)⟩
        · obtain ⟨ht, l⟩ := h1 t h
          exact ⟨ht, l⟩
        · exact h2 c w t h

/-- The tree read at an index is one, whatever the depth. -/
theorem treeOf_unique {t : Table Node} {f g i : Nat} {A B : Tree} (ha : treeOf t f i = some A) (hb : treeOf t g i = some B) :
    A = B := by
  have h1 := treeOf_mono ha (Nat.le_max_left f g)
  have h2 := treeOf_mono hb (Nat.le_max_right f g)
  rw [h1] at h2; exact Option.some.inj h2

/-- The loop of DECSYM (R240) at the subtree `u` of an internal root appends what `go` emits (R241) and sets RESID to the residual
flag. A subtree below the root is smaller, so its index is not the root's. -/
theorem decodeBits_internal {T : Tree} (hi : T.isInternal = true) (B : List Bool) {s : State} (hT : stateTree s = some T)
    {p : NodeIx} {U : Tree} {f : Nat} (hU : treeOf s.node f p.toNat = some U) (hui : U.isInternal = true) {moved : Bool}
    (hm : moved = true → U.size < T.size) (hr : moved = false → p = s.root) :
    decodeBits B p s = (appendAll (walkFrom T U moved B).1 s).andThen fun t => .ok { t with resid := (walkFrom T U moved B).2 } := by
  induction B generalizing s p U f moved with
  | nil =>
    have : decide (p ≠ s.root) = moved := by
      cases moved with
      | false => simp [hr rfl]
      | true =>
        rw [decide_eq_true_eq]
        intro e
        rw [e] at hU
        have := hm rfl
        rw [treeOf_unique hU hT] at this; omega
    rw [decodeBits, walkFrom, this]; rfl
  | cons b B ih =>
    have hT' := hT
    rw [stateTree, show walkDepth = 511 + 1 from rfl] at hT'
    rcases treeOf_cases hT' with ⟨w, c, hn, rfl⟩ | ⟨w, l, r, A, A', hn, -, -, hTe⟩
    · simp [Tree.isInternal] at hi
    obtain ⟨f, rfl⟩ : ∃ f', f = f' + 1 := by
      cases f with
      | zero => simp [treeOf] at hU
      | succ f => exact ⟨f, rfl⟩
    have hle : U.size ≤ T.size := by
      cases moved with
      | true => exact Nat.le_of_lt (hm rfl)
      | false => rw [hr rfl] at hU; rw [treeOf_unique hU hT]
    rcases treeOf_cases hU with ⟨wu, c, hnu, rfl⟩ | ⟨wu, lu, ru, UL, UR, hnu, hul, hur, rfl⟩
    · simp [Tree.isInternal] at hui
    rw [decodeBits, show nodeAt s s.root.toNat = _ from hn]
    simp only
    rw [show nodeAt s p.toNat = _ from hnu]
    obtain ⟨V, hV, hVe, hVs⟩ : ∃ V, treeOf s.node f (childOf (.internal wu lu ru) b).toNat = some V ∧
        (if b then UR else UL) = V ∧ V.size < T.size := by
      simp only [Tree.size] at hle
      cases b
      · exact ⟨UL, hul, rfl, by omega⟩
      · exact ⟨UR, hur, rfl, by omega⟩
    obtain ⟨g, rfl⟩ : ∃ g, f = g + 1 := by
      cases f with
      | zero => simp [treeOf] at hV
      | succ g => exact ⟨g, rfl⟩
    rw [walkFrom]
    simp only [hVe]
    rcases treeOf_cases hV with ⟨wv, c, hnv, rfl⟩ | ⟨wv, lv, rv, VL, VR, hnv, hvl, hvr, rfl⟩
    · rw [show nodeAt s (childOf (.internal wu lu ru) b).toNat = _ from hnv]
      simp only
      rw [appendAll, andThen_assoc]
      cases ho : outAppend c s with
      | ok t =>
        have ht := (outAppend_eq_ok.1 ho).2
        have hTt : stateTree t = some T := by rw [ht]; exact hT
        have hrt : s.root = t.root := by rw [ht]
        rw [ok_andThen, ok_andThen, hrt]
        exact ih hTt (f := walkDepth) hTt hi (by simp) (fun _ => rfl)
      | raise c i t => rfl
      | endless => rfl
    · rw [show nodeAt s (childOf (.internal wu lu ru) b).toNat = _ from hnv]
      simp only
      exact ih hT hV rfl (fun _ => hVs) (by simp)

/-- With a leaf at the root the loop of DECSYM emits its symbol for each bit and leaves nothing over (R242, R243). -/
theorem decodeBits_leaf {s : State} {w : Word} {c : Byte} (hn : nodeAt s s.root.toNat = .leaf w c) (B : List Bool) :
    decodeBits B s.root s = (appendAll (B.map fun _ => c) s).andThen fun t => .ok { t with resid := false } := by
  induction B generalizing s with
  | nil => rw [decodeBits]; simp [appendAll]
  | cons b B ih =>
    rw [decodeBits, hn, List.map_cons, appendAll, andThen_assoc]
    simp only
    cases ho : outAppend c s with
    | ok t =>
      have ht := (outAppend_eq_ok.1 ho).2
      have hrt : s.root = t.root := by rw [ht]
      have hnt : nodeAt t t.root.toNat = .leaf w c := by rw [← hrt, ← hn, ht]; rfl
      rw [ok_andThen, ok_andThen, hrt, ih hnt]
    | raise c i t => rfl
    | endless => rfl

/-- DECSYM's loop (R240 to R243): it appends what the walk of the tree emits and sets RESID to the residual flag. -/
theorem decodeBits_eq {s : State} {T : Tree} (hT : stateTree s = some T) (B : List Bool) :
    decodeBits B s.root s = (appendAll (T.walk B).1 s).andThen fun t => .ok { t with resid := (T.walk B).2 } := by
  have hT' := hT
  rw [stateTree, show walkDepth = 511 + 1 from rfl] at hT'
  rcases treeOf_cases hT' with ⟨w, c, hn, rfl⟩ | ⟨w, l, r, A, A', hn, -, -, rfl⟩
  · exact decodeBits_leaf hn B
  · exact decodeBits_internal rfl B hT (f := walkDepth) hT rfl (by simp) (fun _ => rfl)

/-- The loop of DECSYM changes OUT, OUT_LEN and RESID only, whatever the tree, and never runs for ever. -/
theorem decodeBits_frame (B : List Bool) (p : NodeIx) (s : State) :
    (decodeBits B p s).Keeps (fun t => t = { s with outBuf := t.outBuf, outLen := t.outLen, resid := t.resid }) ∧
      decodeBits B p s ≠ .endless := by
  induction B generalizing s p with
  | nil => exact ⟨Res.keeps_ok rfl, by simp [decodeBits]⟩
  | cons b B ih =>
    have step : ∀ (c : Byte) (q : NodeIx),
        ((outAppend c s).andThen (decodeBits B q)).Keeps
          (fun t => t = { s with outBuf := t.outBuf, outLen := t.outLen, resid := t.resid }) ∧
        (outAppend c s).andThen (decodeBits B q) ≠ .endless := by
      intro c q
      unfold outAppend
      split_ifs with h
      · exact ⟨Res.keeps_raise rfl, by simp [raiseCapacity]⟩
      · rw [ok_andThen]
        obtain ⟨h1, h2⟩ := ih q { s with outBuf := tableSet 0 s.outBuf s.outLen.toNat c, outLen := s.outLen + 1 }
        exact ⟨⟨fun t ht => h1.1 t ht, fun c' i t ht => h1.2 c' i t ht⟩, h2⟩
    rw [decodeBits]
    split
    · exact step _ _
    · split
      · exact step _ _
      · exact ih _ _

end Sys2Proof.Machine
end

