-- ==== Sys2Proof/Laws/TreeSer.lean ====
section
/-! SUPPORT. SERIALIZE and DESERIALIZE (43_treeser.md): Ser appends the serialized form (R176), Parse rebuilds the tree (R191), and what
Parse can change at all. -/

namespace Sys2Proof.Machine

/-- Ser (R175) appends `ser(t)` (R176). -/
theorem serNode_eq {f i : Nat} {s : State} {T : Tree} (h : treeOf s.node f i = some T) : serNode f i s = appendAll T.ser s := by
  induction f generalizing i s T with
  | zero => simp [treeOf] at h
  | succ f ih =>
    have keep : ∀ bs (g k : State → Res), (∀ t, t.node = s.node → g t = k t) →
        (appendAll bs s).andThen g = (appendAll bs s).andThen k := by
      intro bs g k hgk
      cases hr : appendAll bs s with
      | ok t => exact hgk t (by rw [(appendAll_frame (bs := bs) (s := s)).1.1 t hr])
      | raise c i t => rfl
      | endless => rfl
    have one : ∀ b (t : State), outAppend b t = appendAll [b] t := by
      intro b t; rw [appendAll]; cases outAppend b t <;> rfl
    rcases treeOf_cases h with ⟨w, b, hn, rfl⟩ | ⟨w, l, r, A, B, hn, ha, hb, rfl⟩
    · rw [serNode, nodeAt, hn]
      simp only [one]
      rw [show (Tree.leaf w.toNat b).ser = [quoteMark] ++ [b] from rfl, appendAll_append]
      congr 1; funext t; exact one b t
    · rw [serNode, nodeAt, hn]
      simp only [one]
      rw [keep [zeroMark] _ (appendAll A.ser) (fun t ht => ih (by rw [ht]; exact ha)), ← appendAll_append]
      rw [show outAppend oneMark = appendAll [oneMark] from funext (one oneMark)]
      rw [← appendAll_append, keep _ _ (appendAll B.ser) (fun t ht => ih (by rw [ht]; exact hb)), ← appendAll_append]
      simp [Tree.ser]

/-- The serialized form has two bytes a node (R178). -/
theorem Tree.ser_length (t : Tree) : t.ser.length = 2 * t.size := by
  induction t with
  | leaf w s => rfl
  | internal w l r hl hr => simp only [Tree.ser, Tree.size, List.length_append, List.length_singleton, hl, hr]; omega

@[simp] theorem Tree.postorder_length (t : Tree) (b : Nat) : (t.postorder b).length = t.size := by
  induction t generalizing b with
  | leaf w s => rfl
  | internal w l r hl hr => simp only [Tree.postorder, Tree.size, List.length_append, List.length_singleton, hl, hr]; omega

/-- IN holds the bytes of a list from an offset on, all below IN_LEN. -/
def InHolds (s : State) (c : Nat) (bs : List Byte) : Prop :=
  c + bs.length ≤ s.inLen.toNat ∧ ∀ k (h : k < bs.length), inByte s (c + k) = bs[k]

theorem InHolds.head {s : State} {c : Nat} {b : Byte} {bs : List Byte} (h : InHolds s c (b :: bs)) :
    c < s.inLen.toNat ∧ inByte s c = b := by
  have := h.1; rw [List.length_cons] at this
  exact ⟨by omega, h.2 0 (by simp)⟩

theorem InHolds.append {s : State} {c : Nat} {a b : List Byte} (h : InHolds s c (a ++ b)) :
    InHolds s c a ∧ InHolds s (c + a.length) b := by
  have hl := h.1; rw [List.length_append] at hl
  refine ⟨⟨by omega, fun k hk => ?_⟩, by omega, fun k hk => ?_⟩
  · rw [h.2 k (by rw [List.length_append]; omega), List.getElem_append_left hk]
  · rw [Nat.add_assoc, h.2 (a.length + k) (by rw [List.length_append]; omega), List.getElem_append_right (by omega)]
    congr 1; omega

theorem InHolds.congr {s t : State} {c : Nat} {bs : List Byte} (h : InHolds s c bs) (h1 : t.inLen = s.inLen)
    (h2 : t.inBuf = s.inBuf) (h3 : t.resets = s.resets) : InHolds t c bs := by
  have e : ∀ i, inByte t i = inByte s i := fun i => by unfold inByte; rw [h2, h3]
  exact ⟨by rw [h1]; exact h.1, fun k hk => by rw [e]; exact h.2 k hk⟩

/-- Alloc at the end of a parse (R181, R133). -/
theorem parseAlloc_ok {n : Node} {c seen : Nat} {s : State} (h : s.nnode.toNat < 511) :
    parseAlloc n c seen s =
      .ok (BitVec.ofNat 9 s.nnode.toNat) c seen
        { s with node := tableSet (.leaf 0 0) s.node s.nnode.toNat n, nnode := s.nnode + 1 } := by
  have hne : s.nnode ≠ 511 := fun e => by rw [e] at h; exact absurd h (by decide)
  rw [parseAlloc, alloc_eq_ok.2 ⟨hne, rfl⟩, ← show nextIx s = BitVec.ofNat 9 s.nnode.toNat from BitVec.eq_of_toNat_eq (by simp [nextIx])]

/-- Parse (R181) of a serialized tree, whatever follows it in IN (R191): the cursor moves behind it, the nodes go in postorder to the next
indices, the tree is rebuilt with weights 0. -/
theorem parse_ser (T : Tree) {f c seen n : Nat} {s : State} (hin : InHolds s c T.ser) (hf : T.size ≤ f)
    (hs : seen + T.size ≤ 511) (hn : s.nnode.toNat = n) (hnn : n + T.size ≤ 511) (hcb : childrenBelow s.node) :
    ∃ t, parse f c seen s = .ok (BitVec.ofNat 9 (n + T.size - 1)) (c + 2 * T.size) (seen + T.size) t ∧
      t = { s with node := t.node, nnode := BitVec.ofNat 10 (n + T.size) } ∧
      (∀ j, (j < n ∨ n + T.size ≤ j) → nodeOf t.node j = nodeOf s.node j) ∧ childrenBelow t.node ∧
      treeOf t.node (n + T.size) (n + T.size - 1) = some T.zeroed ∧
      ∀ j e, (T.postorder n)[j]? = some e → nodeOf t.node (n + j) = e := by
  induction T generalizing f c seen n s with
  | leaf w b =>
    obtain ⟨f, rfl⟩ : ∃ f', f = f' + 1 := ⟨f - 1, by simp [Tree.size] at hf; omega⟩
    simp only [Tree.size] at hs hnn ⊢
    obtain ⟨h1, h2⟩ := hin.head
    have hin' := (InHolds.append (a := [quoteMark]) (b := [b]) hin).2
    obtain ⟨h3, h4⟩ := hin'.head
    simp only [List.length_singleton] at h3 h4
    refine ⟨{ s with node := tableSet (.leaf 0 0) s.node n (.leaf 0 b), nnode := BitVec.ofNat 10 (n + 1) }, ?_, rfl,
      fun j hj => ?_, ?_, ?_, ?_⟩
    · rw [parse, if_neg (by omega), if_pos h2, if_neg (by omega), if_neg (by omega), parseAlloc_ok (by omega), h4, hn]
      have : s.nnode + 1 = BitVec.ofNat 10 (n + 1) := by
        apply BitVec.eq_of_toNat_eq; rw [BitVec.toNat_add, hn]; simp
      rw [this]; rfl
    · exact (nodeOf_set _ _ _ _).trans (if_neg (by omega))
    · intro e he
      rcases mem_tableSet (Node.leaf 0 0) he with rfl | he
      · trivial
      · exact hcb e he
    · exact treeOf_leaf ((nodeOf_set _ _ _ _).trans (if_pos (by omega)))
    · intro j e he
      rcases j with _ | j
      · cases he; exact (nodeOf_set _ _ _ _).trans (if_pos rfl)
      · simp [Tree.postorder] at he
  | internal w l r ihl ihr =>
    have hl0 := l.size_pos
    have hr0 := r.size_pos
    obtain ⟨f, rfl⟩ : ∃ f', f = f' + 1 := ⟨f - 1, by simp [Tree.size] at hf; omega⟩
    simp only [Tree.size] at hf hs hnn ⊢
    have hser : (Tree.internal w l r).ser = [zeroMark] ++ (l.ser ++ ([oneMark] ++ r.ser)) := by simp [Tree.ser]
    rw [hser] at hin
    obtain ⟨hz, hin1⟩ := hin.append
    obtain ⟨hinl, hin2⟩ := hin1.append
    obtain ⟨ho, hinr⟩ := hin2.append
    obtain ⟨h1, h2⟩ := hz.head
    simp only [List.length_singleton, Tree.ser_length] at hinl ho hinr
    obtain ⟨u, hu, uf, un, ucb, ut, up⟩ := ihl (f := f) (seen := seen + 1) hinl (by omega) (by omega) hn (by omega) hcb
    have hinr' : InHolds u (c + 1 + 2 * l.size + 1) r.ser := hinr.congr (by rw [uf]) (by rw [uf]) (by rw [uf])
    have hun : u.nnode.toNat = n + l.size := by rw [uf]; simp; omega
    obtain ⟨v, hv, vf, vn, vcb, vt, vp⟩ := ihr (f := f) (seen := seen + 1 + l.size) hinr' (by omega) (by omega) hun (by omega) ucb
    have hvn : v.nnode.toNat = n + l.size + r.size := by rw [vf]; simp; omega
    have hone : inHas u (c + 1 + 2 * l.size) oneMark = true := by
      obtain ⟨g1, g2⟩ := ho.head
      have e : inByte u (c + 1 + 2 * l.size) = inByte s (c + 1 + 2 * l.size) := by
        unfold inByte; rw [uf]
      simp only [inHas, decide_eq_true_eq]
      exact ⟨by rw [uf]; exact g1, by rw [e]; exact g2⟩
    have hlr : BitVec.toNat (BitVec.ofNat 9 (n + l.size - 1)) = n + l.size - 1 := by simp; omega
    have hrr : BitVec.toNat (BitVec.ofNat 9 (n + l.size + r.size - 1)) = n + l.size + r.size - 1 := by simp; omega
    have hnew : nodeOf (tableSet (.leaf 0 0) v.node (n + l.size + r.size)
        (.internal 0 (BitVec.ofNat 9 (n + l.size - 1)) (BitVec.ofNat 9 (n + l.size + r.size - 1)))) (n + l.size + r.size) =
          .internal 0 (BitVec.ofNat 9 (n + l.size - 1)) (BitVec.ofNat 9 (n + l.size + r.size - 1)) := by
      rw [nodeOf_set, if_pos rfl]
    have hold : ∀ j < n + l.size + r.size, nodeOf (tableSet (.leaf 0 0) v.node (n + l.size + r.size)
        (.internal 0 (BitVec.ofNat 9 (n + l.size - 1)) (BitVec.ofNat 9 (n + l.size + r.size - 1)))) j = nodeOf v.node j := by
      intro j hj; rw [nodeOf_set, if_neg (by omega)]
    have hcb' : childrenBelow (tableSet (.leaf 0 0) v.node (n + l.size + r.size)
        (.internal 0 (BitVec.ofNat 9 (n + l.size - 1)) (BitVec.ofNat 9 (n + l.size + r.size - 1)))) := by
      intro e he
      rcases mem_tableSet (Node.leaf 0 0) he with rfl | he
      · show _ ∧ _
        rw [hlr, hrr]; omega
      · exact vcb e he
    have habove : ∀ j, n + l.size + r.size < j → nodeOf (tableSet (.leaf 0 0) v.node (n + l.size + r.size)
        (.internal 0 (BitVec.ofNat 9 (n + l.size - 1)) (BitVec.ofNat 9 (n + l.size + r.size - 1)))) j = nodeOf v.node j := by
      intro j hj; rw [nodeOf_set, if_neg (by omega)]
    have hparse : parse (f + 1) c seen s =
        .ok (BitVec.ofNat 9 (n + l.size + r.size)) (c + 2 * (1 + l.size + r.size)) (seen + (1 + l.size + r.size))
          { v with
            node := tableSet (.leaf 0 0) v.node (n + l.size + r.size)
              (.internal 0 (BitVec.ofNat 9 (n + l.size - 1)) (BitVec.ofNat 9 (n + l.size + r.size - 1))),
            nnode := v.nnode + 1 } := by
      rw [parse, if_neg (by omega), if_neg (by rw [h2]; decide), if_pos h2, if_neg (by omega), hu]
      simp only [ParseRes.andThen]
      rw [if_pos hone, hv]
      simp only
      rw [parseAlloc_ok (by omega), hvn]
      congr 1 <;> omega
    generalize tableSet (.leaf 0 0) v.node (n + l.size + r.size)
        (.internal 0 (BitVec.ofNat 9 (n + l.size - 1)) (BitVec.ofNat 9 (n + l.size + r.size - 1))) = tb at *
    refine ⟨{ v with node := tb, nnode := v.nnode + 1 }, ?_, ?_, fun j hj => ?_, hcb', ?_, ?_⟩
    · rw [hparse, show n + (1 + l.size + r.size) - 1 = n + l.size + r.size by omega]
    · have e : v.nnode + 1 = BitVec.ofNat 10 (n + (1 + l.size + r.size)) := by
        apply BitVec.eq_of_toNat_eq; rw [BitVec.toNat_add, hvn]; simp; omega
      rw [e, vf, uf]
    · rcases hj with hj | hj
      · exact (hold j (by omega)).trans ((vn j (by omega)).trans (un j (by omega)))
      · exact (habove j (by omega)).trans ((vn j (by omega)).trans (un j (by omega)))
    · rw [show n + (1 + l.size + r.size) = (n + l.size + r.size) + 1 by omega, Nat.add_sub_cancel]
      refine treeOf_internal (a := l.zeroed) (b := r.zeroed) hnew ?_ ?_
      · rw [hlr, treeOf_congr vcb hold _ (by omega), treeOf_congr ucb (fun j hj => vn j (Or.inl hj)) _ (by omega)]
        exact treeOf_mono ut (by omega)
      · rw [hrr, treeOf_congr vcb hold _ (by omega)]
        exact treeOf_mono vt (by omega)
    · intro j e he
      rw [Tree.postorder, List.append_assoc] at he
      by_cases h1 : j < l.size
      · rw [List.getElem?_append_left (by simpa using h1)] at he
        exact (hold _ (by omega)).trans ((vn _ (by omega)).trans (up j e he))
      · rw [List.getElem?_append_right (by simp; omega), Tree.postorder_length] at he
        by_cases h2 : j - l.size < r.size
        · rw [List.getElem?_append_left (by simpa using h2)] at he
          have := vp _ e he
          rw [show n + l.size + (j - l.size) = n + j by omega] at this
          exact (hold _ (by omega)).trans this
        · rw [List.getElem?_append_right (by simp; omega), Tree.postorder_length] at he
          obtain ⟨k, hk⟩ : ∃ k, j - l.size - r.size = k := ⟨_, rfl⟩
          rw [hk] at he
          rcases k with _ | k
          · cases he
            rw [show n + j = n + l.size + r.size by omega]; exact hnew
          · simp at he

/-- What Parse can do at all (R181): it changes NODE and NNODE only, keeps children below their parents and nothing at or above NNODE,
and the node it answers is allocated. -/
def ParseKeeps (s : State) : ParseRes → Prop
  | .ok r _ _ t =>
    t = { s with node := t.node, nnode := t.nnode } ∧ s.nnode.toNat ≤ t.nnode.toNat ∧ t.nnode.toNat ≤ 511 ∧
      childrenBelow t.node ∧ (∀ e ∈ t.node, e.1 < t.nnode.toNat) ∧ (tableWf (Node.leaf 0 0) s.node → tableWf (Node.leaf 0 0) t.node) ∧
      r.toNat < t.nnode.toNat
  | .raise _ _ t => t = { s with node := t.node, nnode := t.nnode }

theorem parseAlloc_keeps {n : Node} {c seen : Nat} {s : State} (hn : s.nnode.toNat ≤ 511) (hcb : childrenBelow s.node)
    (hb : ∀ e ∈ s.node, e.1 < s.nnode.toNat)
    (hnode : match n with | .leaf _ _ => True | .internal _ l r => l.toNat < s.nnode.toNat ∧ r.toNat < s.nnode.toNat) :
    ParseKeeps s (parseAlloc n c seen s) := by
  by_cases hf : s.nnode.toNat = 511
  · have : s.nnode = 511 := BitVec.eq_of_toNat_eq hf
    rw [parseAlloc, alloc_raise this]; rfl
  · rw [parseAlloc_ok (by omega)]
    have hs : (s.nnode + 1).toNat = s.nnode.toNat + 1 := by rw [BitVec.toNat_add]; simp; omega
    refine ⟨rfl, by rw [hs]; omega, by rw [hs]; omega, fun e he => ?_, fun e he => ?_, fun h => tableWf_set _ h _ _, ?_⟩
    · rcases mem_tableSet (Node.leaf 0 0) he with rfl | he
      · cases n <;> exact hnode
      · exact hcb e he
    · rw [hs]
      rcases mem_tableSet (Node.leaf 0 0) he with rfl | he
      · exact Nat.lt_succ_self _
      · have := hb e he; omega
    · rw [hs]; simp; omega

theorem parse_keeps {f c seen : Nat} {s : State} (hn : s.nnode.toNat ≤ 511) (hcb : childrenBelow s.node)
    (hb : ∀ e ∈ s.node, e.1 < s.nnode.toNat) : ParseKeeps s (parse f c seen s) := by
  induction f generalizing c seen s with
  | zero => rfl
  | succ f ih =>
    rw [parse]
    split_ifs
    · rfl
    · rfl
    · rfl
    · exact parseAlloc_keeps hn hcb hb trivial
    · rfl
    · have hl := ih (c := c + 1) (seen := seen + 1) hn hcb hb
      cases h1 : parse f (c + 1) (seen + 1) s with
      | raise k i t => rw [h1] at hl; exact hl
      | ok l c1 seen1 u =>
        rw [h1] at hl
        obtain ⟨uf, un, un', ucb, ub, uw, ur⟩ := hl
        simp only [ParseRes.andThen]
        split_ifs
        · have hr := ih (c := c1 + 1) (seen := seen1) un' ucb ub
          cases h2 : parse f (c1 + 1) seen1 u with
          | raise k i t =>
            rw [h2] at hr
            exact Eq.trans hr (by rw [uf])
          | ok r c2 seen2 v =>
            rw [h2] at hr
            obtain ⟨vf, vn, vn', vcb, vb, vw, vr⟩ := hr
            have ha := parseAlloc_keeps (n := .internal 0 l r) (c := c2) (seen := seen2) vn' vcb vb ⟨by omega, vr⟩
            simp only
            cases h3 : parseAlloc (.internal 0 l r) c2 seen2 v with
            | raise k i t => rw [h3] at ha; exact Eq.trans ha (by rw [vf, uf])
            | ok r' c3 seen3 t =>
              rw [h3] at ha
              obtain ⟨tf, tn, tn', tcb, tb, tw, tr⟩ := ha
              exact ⟨Eq.trans tf (by rw [vf, uf]), by omega, tn', tcb, tb, fun h => tw (vw (uw h)), tr⟩
        · exact uf
    · rfl

/-- The bytes from an offset to the end of the input stand there. -/
theorem inHolds_inBytes {s : State} {c : Nat} {x y : List Byte} (h : inBytes s c (s.inLen.toNat - c) = x ++ y) (hx : x ≠ []) :
    InHolds s c x := by
  have hl := congrArg List.length h
  rw [inBytes, List.length_map, List.length_range, List.length_append] at hl
  have := List.length_pos_of_ne_nil hx
  refine ⟨by omega, fun k hk => ?_⟩
  have hg : (inBytes s c (s.inLen.toNat - c))[k]? = some x[k] := by
    rw [h, List.getElem?_append_left hk, List.getElem?_eq_getElem hk]
  simpa [inBytes, List.getElem?_eq_getElem (show k < ((List.range (s.inLen.toNat - c)).map _).length by simp; omega)] using hg

/-- Two states hold the same input. -/
def SameInput (s t : State) : Prop := t.inLen = s.inLen ∧ t.inBuf = s.inBuf ∧ t.resets = s.resets

theorem SameInput.inByte {s t : State} (h : SameInput s t) (i : Nat) : inByte t i = inByte s i := by
  unfold Machine.inByte; rw [h.2.1, h.2.2]

/-- Parse (R181) goes down the way to a node, and raises what it raises there; `seen` never reaches 512 (R183). -/
theorem parse_way (w : Way) {f c seen : Nat} {s : State} {k : CoreFault} {i : Word} (hin : w ≠ [] → InHolds s c w.text)
    (hs : seen + w.nodes ≤ 511) (hf : 512 ≤ f + seen) (hn : s.nnode.toNat ≤ seen) (hcb : childrenBelow s.node)
    (hend : ∀ g t, 512 ≤ g + (seen + w.nodes) → SameInput s t → t.nnode.toNat ≤ seen + w.nodes → childrenBelow t.node →
      ∃ u, parse g (c + w.text.length) (seen + w.nodes) t = .raise k i u) :
    ∃ u, parse f c seen s = .raise k i u := by
  induction w generalizing f c seen s with
  | nil => exact hend f s hf ⟨rfl, rfl, rfl⟩ hn hcb
  | cons o w ih =>
    have hin := hin (by simp)
    obtain ⟨f, rfl⟩ : ∃ f', f = f' + 1 := ⟨f - 1, by omega⟩
    have hz : InHolds s c [zeroMark] ∧ InHolds s (c + 1) ((Way.text (o :: w)).tail) := by
      have : Way.text (o :: w) = [zeroMark] ++ (Way.text (o :: w)).tail := by cases o <;> rfl
      rw [this] at hin; exact hin.append
    obtain ⟨h1, h2⟩ := hz.1.head
    rw [parse, if_neg (by omega), if_neg (by rw [h2]; decide), if_pos h2]
    cases o with
    | none =>
      rw [show Way.nodes (none :: w) = 1 + Way.nodes w from rfl] at hs hend
      rw [if_neg (by omega)]
      have htext : Way.text (none :: w) = 0x30 :: Way.text w := rfl
      obtain ⟨u, hu⟩ := ih (f := f) (c := c + 1) (seen := seen + 1) (s := s)
        (fun _ => by have := hz.2; rw [htext] at this; exact this) (by omega) (by omega) (by omega) hcb
        (fun g t hg ht htn htc => by
          obtain ⟨u, hu⟩ := hend g t (by omega) ht (by omega) htc
          rw [htext, List.length_cons] at hu
          refine ⟨u, ?_⟩
          rw [show c + 1 + (Way.text w).length = c + ((Way.text w).length + 1) by omega, Nat.add_assoc seen 1]
          exact hu)
      exact ⟨u, by rw [hu]; rfl⟩
    | some l =>
      rw [show Way.nodes (some l :: w) = 1 + l.size + Way.nodes w from rfl] at hs hend
      rw [if_neg (by omega)]
      have htext : Way.text (some l :: w) = 0x30 :: (l.ser ++ ([0x31] ++ Way.text w)) := by
        show (0x30 :: (l.ser ++ [0x31])) ++ Way.text w = _
        simp
      have ht := hz.2; rw [htext] at ht
      obtain ⟨hl, ht⟩ := ht.append
      obtain ⟨ho, ht⟩ := ht.append
      rw [Tree.ser_length] at ho ht
      obtain ⟨g1, g2⟩ := ho.head
      have hl0 := l.size_pos
      obtain ⟨u, hu, uf, un, ucb, -⟩ := parse_ser l (f := f) (seen := seen + 1) hl (by omega) (by omega) rfl (by omega) hcb
      have hsu : SameInput s u := ⟨by rw [uf], by rw [uf], by rw [uf]⟩
      rw [hu]
      simp only [ParseRes.andThen]
      rw [if_pos (by simp only [inHas, decide_eq_true_eq]; exact ⟨by rw [hsu.1]; exact g1, by rw [hsu.inByte]; exact g2⟩)]
      obtain ⟨v, hv⟩ := ih (f := f) (c := c + 1 + 2 * l.size + 1) (seen := seen + 1 + l.size) (s := u)
        (fun _ => by have := ht.congr hsu.1 hsu.2.1 hsu.2.2; simpa using this) (by omega) (by omega)
        (by rw [uf]; simp; omega) ucb
        (fun g t hg hut htn htc => by
          obtain ⟨v, hv⟩ := hend g t (by omega) ⟨hut.1.trans hsu.1, hut.2.1.trans hsu.2.1, hut.2.2.trans hsu.2.2⟩ (by omega) htc
          refine ⟨v, ?_⟩
          rw [htext] at hv
          simp only [List.length_cons, List.length_append, Tree.ser_length, List.length_nil] at hv
          rw [show c + 1 + 2 * l.size + 1 + (Way.text w).length = c + (2 * l.size + (0 + 1 + (Way.text w).length) + 1) by omega,
            show seen + 1 + l.size + Way.nodes w = seen + (1 + l.size + Way.nodes w) by omega]
          exact hv)
      exact ⟨v, by rw [hv]⟩

/-- Where the input from the cursor on does not begin with a tree, Parse raises what R181, R183 and R184 say. -/
theorem parse_treeError {c : Nat} {s : State} {x : List Byte} {k : CoreFault} {i : Word} (hx : inBytes s c (s.inLen.toNat - c) = x)
    (h : TreeError c x k i) (hn : s.nnode = 0) (hcb : childrenBelow s.node) : ∃ u, parse 512 c 0 s = .raise k i u := by
  have hlen : x.length = s.inLen.toNat - c := by rw [← hx]; simp [inBytes]
  have base : ∀ (w : Way) (y : List Byte), x = w.text ++ y → w.nodes ≤ 511 →
      (∀ g t, 512 ≤ g + w.nodes → t.nnode.toNat ≤ w.nodes → childrenBelow t.node → (y ≠ [] → InHolds t (c + w.text.length) y) →
        (t.inLen.toNat ≤ c + w.text.length + y.length) →
        ∃ u, parse g (c + w.text.length) w.nodes t = .raise k i u) → ∃ u, parse 512 c 0 s = .raise k i u := by
    intro w y hy hw hend
    refine parse_way w (fun hne => inHolds_inBytes (hx.trans hy) ?_) (by omega) (by omega) (by rw [hn]; simp) hcb ?_
    · cases w with
      | nil => exact absurd rfl hne
      | cons o w => cases o <;> simp [Way.text]
    · intro g t hg ht htn htc
      rw [Nat.zero_add] at hg htn ⊢
      refine hend g t hg htn htc (fun hne => ?_) (by rw [ht.1]; have := congrArg List.length hy; rw [List.length_append] at this; omega)
      have := inHolds_inBytes (s := s) (c := c) (x := x) (y := []) (by rw [hx, List.append_nil]) (by rw [hy]; simp [hne])
      rw [hy] at this
      exact this.append.2.congr ht.1 ht.2.1 ht.2.2
  cases h with
  | marker w b y hxw hw h27 h30 =>
    refine base w (b :: y) hxw hw fun g t hg htn htc hin _ => ?_
    obtain ⟨g, rfl⟩ : ∃ g', g = g' + 1 := ⟨g - 1, by omega⟩
    obtain ⟨h1, h2⟩ := (hin (by simp)).head
    exact ⟨t, by rw [parse, if_neg (by omega), if_neg (by rw [h2]; exact h27), if_neg (by rw [h2]; exact h30)]⟩
  | ended w hxw hw =>
    refine base w [] (by rw [hxw, List.append_nil]) hw fun g t hg htn htc _ hl => ?_
    obtain ⟨g, rfl⟩ : ∃ g', g = g' + 1 := ⟨g - 1, by omega⟩
    exact ⟨t, by rw [parse, if_pos (by simpa using hl)]⟩
  | symbol w hxw hw =>
    refine base w [0x27] hxw (by omega) fun g t hg htn htc hin hl => ?_
    obtain ⟨g, rfl⟩ : ∃ g', g = g' + 1 := ⟨g - 1, by omega⟩
    obtain ⟨h1, h2⟩ := (hin (by simp)).head
    have h2 : inByte t (c + w.text.length) = quoteMark := h2
    exact ⟨t, by rw [parse, if_neg (by omega), if_pos h2, if_neg (by omega), if_pos (by simpa using hl)]⟩
  | separator w l y hxw hw hy =>
    refine base w (0x30 :: (l.ser ++ y)) hxw (by omega) fun g t hg htn htc hin hl => ?_
    obtain ⟨g, rfl⟩ : ∃ g', g = g' + 1 := ⟨g - 1, by omega⟩
    have hz := InHolds.append (a := [zeroMark]) (b := l.ser ++ y) (hin (by simp))
    obtain ⟨h1, h2⟩ := hz.1.head
    obtain ⟨hl1, hl2⟩ := hz.2.append
    simp only [List.length_singleton, Tree.ser_length] at hl1 hl2
    simp only [List.length_cons, List.length_append, Tree.ser_length] at hl
    obtain ⟨u, hu, uf, -⟩ := parse_ser l (f := g) (seen := w.nodes + 1) hl1 (by omega) (by omega) rfl (by omega) htc
    have hone : inHas u (c + w.text.length + 1 + 2 * l.size) oneMark = false := by
      simp only [inHas, decide_eq_false_iff_not, not_and]
      intro hlt
      have e : inByte u (c + w.text.length + 1 + 2 * l.size) = inByte t (c + w.text.length + 1 + 2 * l.size) := by
        unfold inByte; rw [uf]
      rw [uf] at hlt
      cases y with
      | nil => simp at hl; exact absurd hlt (by simp; omega)
      | cons b y =>
        rw [e, hl2.head.2]
        exact fun h => hy (by rw [h]; rfl)
    refine ⟨u, ?_⟩
    rw [parse, if_neg (by omega), if_neg (by rw [h2]; decide), if_pos h2, if_neg (by omega), hu]
    simp only [ParseRes.andThen]
    rw [if_neg (by simp [hone]), Tree.ser_length]
  | capacity w b y hxw hw hb =>
    refine base w (b :: y) hxw (by omega) fun g t hg htn htc hin _ => ?_
    obtain ⟨g, rfl⟩ : ∃ g', g = g' + 1 := ⟨g - 1, by omega⟩
    obtain ⟨h1, h2⟩ := (hin (by simp)).head
    rcases hb with rfl | rfl
    · have h2 : inByte t (c + w.text.length) = quoteMark := h2
      exact ⟨t, by rw [parse, if_neg (by omega), if_pos h2, if_pos hw]; rfl⟩
    · have h2 : inByte t (c + w.text.length) = zeroMark := h2
      exact ⟨t, by rw [parse, if_neg (by omega), if_neg (by rw [h2]; decide), if_pos h2, if_pos hw]; rfl⟩

/-- DESERIALIZE of an input that does not begin with a tree at the cursor (R181, R183, R184). -/
theorem opDeserialize_treeError {s : State} {k : CoreFault} {i : Word} (hc : s.inLen.toNat ≤ s.cfg.inCap)
    (h : TreeError s.cur.toNat (inBytes s s.cur.toNat (s.inLen.toNat - s.cur.toNat)) k i) :
    finish (opDeserialize s) = .next (faulted k i s) := by
  obtain ⟨u, hu⟩ := parse_treeError (s := clrt s) (c := s.cur.toNat) rfl h rfl (fun e he => by simp at he)
  have hk := parse_keeps (f := 512) (c := s.cur.toNat) (seen := 0) (s := clrt s) (by simp)
    (fun e he => by simp at he) (fun e he => by simp at he)
  rw [hu] at hk
  rw [opDeserialize, checkIn_ok hc, ok_andThen, hu]
  exact congrArg _ (clrw_congr (by rw [show u = _ from hk]; rfl) k i)

end Sys2Proof.Machine
end

