-- ==== Sys2Proof/Laws/Frames.lean ====
section
/-! SUPPORT. The frame of every command, said once: which fields it can change at all, whether it raises or not. A frame reads
`t = { s with … }`: what is not named is unchanged. -/

namespace Sys2Proof.Machine

/-- A sequence keeps a frame that its first part keeps and its second part keeps from every state in it. -/
theorem Res.keeps_seq {P : State → Prop} {r : Res} {f : State → Res} (hr : r.Keeps P) (hf : ∀ s, P s → (f s).Keeps P) :
    (r.andThen f).Keeps P := Res.keeps_andThen hr hf fun _ h => h

/-- A property that follows from one that is kept is kept. -/
theorem Res.Keeps.imp {P Q : State → Prop} {r : Res} (h : r.Keeps P) (hpq : ∀ s, P s → Q s) : r.Keeps Q :=
  ⟨fun t ht => hpq t (h.1 t ht), fun c i t ht => hpq t (h.2 c i t ht)⟩

theorem checkIn_frame (s : State) : (checkIn s).Keeps fun t => t = s := by
  unfold checkIn; split
  · exact Res.keeps_raise rfl
  · exact Res.keeps_ok rfl

theorem alloc_frame (n : Node) (s : State) : (alloc n s).Keeps fun t => t = { s with node := t.node, nnode := t.nnode } := by
  unfold alloc; split
  · exact Res.keeps_raise rfl
  · exact Res.keeps_ok rfl

theorem acceptRoot_frame (r : NodeIx) (s : State) :
    (acceptRoot r s).Keeps fun t => t = { s with root := t.root, degen := t.degen, treev := t.treev } := by
  unfold acceptRoot
  split
  · split
    · exact Res.keeps_ok rfl
    · exact Res.keeps_raise rfl
  · exact Res.keeps_ok rfl

theorem pqInsert_frame (n : NodeIx) (s : State) : (pqInsert n s).Keeps fun t => t = { s with heap := t.heap, hsize := t.hsize } := by
  unfold pqInsert; split
  · exact Res.keeps_raise rfl
  · rw [siftUp_frame]; exact Res.keeps_ok rfl

theorem pqExtract_frame (s : State) :
    (pqExtract s).Keeps fun t => t = { s with heap := t.heap, hsize := t.hsize, pqOut := t.pqOut } := by
  unfold pqExtract; split
  · exact Res.keeps_raise rfl
  · rw [siftDown_frame]; exact Res.keeps_ok rfl

theorem opPqInsert_frame (n : Nat) (s : State) :
    (opPqInsert n s).Keeps fun t => t = { s with heap := t.heap, hsize := t.hsize } := by
  unfold opPqInsert; split
  · exact Res.keeps_raise rfl
  · exact pqInsert_frame _ s

theorem opCount_frame (s : State) : (opCount s).Keeps fun t => t = { s with freq := t.freq } := by
  refine Res.keeps_seq ((checkIn_frame s).imp fun t h => by rw [h]) fun t h => ?_
  rw [countBytes_frame]
  exact Res.keeps_ok (by rw [h])

theorem makeLeaves_frame (l : List Nat) (s : State) :
    (makeLeaves l s).Keeps fun t => t = { s with node := t.node, nnode := t.nnode, heap := t.heap, hsize := t.hsize } := by
  induction l generalizing s with
  | nil => exact Res.keeps_ok rfl
  | cons i l ih =>
    unfold makeLeaves; split
    · exact ih s
    · refine Res.keeps_seq ((alloc_frame _ s).imp fun t h => by rw [h]) fun t h => ?_
      refine Res.keeps_seq ((pqInsert_frame _ t).imp fun u hu => by rw [hu, h]) fun u hu => ?_
      exact (ih u).imp fun v hv => by rw [hv, hu]

theorem opMkleaves_frame (s : State) :
    (opMkleaves s).Keeps fun t => t = { s with
      treev := t.treev, codev := t.codev, degen := t.degen, nnode := t.nnode, root := t.root, hsize := t.hsize, pqOut := t.pqOut,
      node := t.node, heap := t.heap } := by
  unfold opMkleaves; split
  · exact Res.keeps_raise rfl
  · exact (makeLeaves_frame _ _).imp fun t h => by rw [h]; rfl

theorem mergeNodes_frame (a b : NodeIx) (s : State) :
    (mergeNodes a b s).Keeps fun t => t = { s with node := t.node, nnode := t.nnode, heap := t.heap, hsize := t.hsize } := by
  unfold mergeNodes; split
  · exact Res.keeps_raise rfl
  · refine Res.keeps_seq ((alloc_frame _ s).imp fun t h => by rw [h]) fun t h => ?_
    exact (pqInsert_frame _ t).imp fun u hu => by rw [hu, h]

theorem opMerge_frame (s : State) :
    (opMerge s).Keeps fun t => t = { s with
      treev := t.treev, codev := t.codev, degen := t.degen, heap := t.heap, hsize := t.hsize, pqOut := t.pqOut,
      node := t.node, nnode := t.nnode } := by
  unfold opMerge; split
  · exact Res.keeps_raise rfl
  · split
    · exact Res.keeps_raise rfl
    · refine Res.keeps_seq ((pqExtract_frame _).imp fun t h => by rw [h]) fun t h => ?_
      refine Res.keeps_seq ((pqExtract_frame t).imp fun u hu => by rw [hu, h]) fun u hu => ?_
      exact (mergeNodes_frame _ _ u).imp fun v hv => by rw [hv, hu]

theorem opSetroot_frame (s : State) :
    (opSetroot s).Keeps fun t => t = { s with
      codev := t.codev, heap := t.heap, hsize := t.hsize, pqOut := t.pqOut, root := t.root, degen := t.degen, treev := t.treev } := by
  unfold opSetroot; split
  · exact Res.keeps_raise rfl
  · refine Res.keeps_seq ((pqExtract_frame _).imp fun t h => by rw [h]) fun t h => ?_
    exact (acceptRoot_frame _ t).imp fun u hu => by rw [hu, h]

theorem mergeLoop_frame (f : Nat) (s : State) :
    (mergeLoop f s).Keeps fun t => t = { s with
      treev := t.treev, codev := t.codev, degen := t.degen, heap := t.heap, hsize := t.hsize, pqOut := t.pqOut,
      node := t.node, nnode := t.nnode } := by
  induction f generalizing s with
  | zero => exact Res.keeps_ok rfl
  | succ f ih =>
    unfold mergeLoop; split
    · refine Res.keeps_seq (opMerge_frame s) fun t h => ?_
      exact (ih t).imp fun u hu => by rw [hu, h]
    · exact Res.keeps_ok rfl

theorem opBuild_frame (s : State) :
    (opBuild s).Keeps fun t => t = { s with
      treev := t.treev, codev := t.codev, degen := t.degen, nnode := t.nnode, root := t.root, hsize := t.hsize, pqOut := t.pqOut,
      node := t.node, heap := t.heap } := by
  refine Res.keeps_seq (opMkleaves_frame s) fun t h => ?_
  refine Res.keeps_seq ((mergeLoop_frame _ t).imp fun u hu => by rw [hu, h]) fun u hu => ?_
  exact (opSetroot_frame u).imp fun v hv => by rw [hv, hu]

theorem recordCode_frame (i : Nat) (c : List Bool) (s : State) :
    (recordCode i c s).Keeps fun t => t = { s with codeLen := t.codeLen, codeBits := t.codeBits } := by
  unfold recordCode; split
  · exact Res.keeps_raise rfl
  · exact Res.keeps_ok rfl

theorem walkCodes_frame (f i : Nat) (path : List Bool) (s : State) :
    (walkCodes f i path s).Keeps fun t => t = { s with codeLen := t.codeLen, codeBits := t.codeBits } := by
  induction f generalizing i path s with
  | zero => exact Res.keeps_endless
  | succ f ih =>
    unfold walkCodes; split
    · exact recordCode_frame _ _ _
    · refine Res.keeps_seq (ih _ _ s) fun t h => ?_
      exact (ih _ _ t).imp fun u hu => by rw [hu, h]

theorem opGencode_frame (s : State) :
    (opGencode s).Keeps fun t => t = { s with codeLen := t.codeLen, codeBits := t.codeBits, codev := t.codev } := by
  unfold opGencode; split
  · exact Res.keeps_raise rfl
  · refine Res.keeps_seq ?_ fun t h => Res.keeps_ok (by rw [h])
    unfold genCodes; split
    · exact Res.keeps_ok rfl
    · exact (walkCodes_frame _ _ _ _).imp fun t h => by rw [h]

theorem outAppend_frame (b : Byte) (s : State) :
    (outAppend b s).Keeps fun t => t = { s with outBuf := t.outBuf, outLen := t.outLen } := by
  unfold outAppend; split
  · exact Res.keeps_raise rfl
  · exact Res.keeps_ok rfl

theorem serNode_frame (f i : Nat) (s : State) :
    (serNode f i s).Keeps fun t => t = { s with outBuf := t.outBuf, outLen := t.outLen } := by
  induction f generalizing i s with
  | zero => exact Res.keeps_endless
  | succ f ih =>
    unfold serNode; split
    · refine Res.keeps_seq (outAppend_frame _ s) fun t h => ?_
      exact (outAppend_frame _ t).imp fun u hu => by rw [hu, h]
    · refine Res.keeps_seq (Res.keeps_seq (Res.keeps_seq (outAppend_frame _ s) fun t h => ?_) fun t h => ?_) fun t h => ?_
      · exact (ih _ t).imp fun u hu => by rw [hu, h]
      · exact (outAppend_frame _ t).imp fun u hu => by rw [hu, h]
      · exact (ih _ t).imp fun u hu => by rw [hu, h]

theorem opSerialize_frame (s : State) :
    (opSerialize s).Keeps fun t => t = { s with outBuf := t.outBuf, outLen := t.outLen } := by
  unfold opSerialize; split
  · exact Res.keeps_raise rfl
  · exact serNode_frame _ _ s

theorem opDeserialize_frame (s : State) :
    (opDeserialize s).Keeps fun t => t = { s with
      treev := t.treev, codev := t.codev, degen := t.degen, nnode := t.nnode, root := t.root, hsize := t.hsize, pqOut := t.pqOut,
      node := t.node, heap := t.heap, cur := t.cur } := by
  refine Res.keeps_andThen (checkIn_frame s) (fun t h => ?_) fun t h => by rw [h]
  subst h
  have hp := parse_keeps (f := 512) (c := t.cur.toNat) (seen := 0) (s := clrt t) (by simp)
    (fun e he => by simp at he) (fun e he => by simp at he)
  cases hr : parse 512 t.cur.toNat 0 (clrt t) with
  | ok r c seen u =>
    rw [hr] at hp
    refine (acceptRoot_frame r { u with cur := word c }).imp fun v hv => ?_
    rw [hv, hp.1]; rfl
  | raise k i u =>
    rw [hr] at hp
    exact Res.keeps_raise (by rw [hp]; rfl)

theorem opWrhdr_frame (s : State) :
    (opWrhdr s).Keeps fun t => t = { s with rem := t.rem, outBuf := t.outBuf, outLen := t.outLen } := by
  unfold opWrhdr; split
  · exact Res.keeps_raise rfl
  · exact appendAll_frame.1.imp fun t h => by rw [h]; rfl

theorem opPack_frame (s : State) :
    (opPack s).Keeps fun t => t = { s with rem := t.rem, outBuf := t.outBuf, outLen := t.outLen, payLen := t.payLen } := by
  unfold opPack; split
  · exact Res.keeps_raise rfl
  · refine Res.keeps_seq (appendAll_frame.1.imp fun t h => by rw [h]; rfl) fun t h => Res.keeps_ok (by rw [h])

theorem opRdhdr_frame (s : State) : (opRdhdr s).Keeps fun t => t = { s with rem := t.rem, cur := t.cur, hdrv := t.hdrv } := by
  refine Res.keeps_seq ((checkIn_frame s).imp fun t h => by rw [h]) fun t h => ?_
  split
  · exact Res.keeps_raise h
  · split
    · exact Res.keeps_raise h
    · split
      · exact Res.keeps_raise h
      · exact Res.keeps_ok (by rw [h])

theorem opUnpack_frame (s : State) :
    (opUnpack s).Keeps fun t => t = { s with
      bits := t.bits, bitLen := t.bitLen, payLen := t.payLen, cur := t.cur, bitsv := t.bitsv } := by
  unfold opUnpack; split
  · exact Res.keeps_raise rfl
  · refine Res.keeps_seq ((checkIn_frame s).imp fun t h => by rw [h]) fun t h => ?_
    split
    · exact Res.keeps_raise h
    · split
      · exact Res.keeps_raise h
      · split
        · exact Res.keeps_raise h
        · exact Res.keeps_ok (by rw [h]; rfl)

theorem opEncsym_frame (s : State) :
    (opEncsym s).Keeps fun t => t = { s with bits := t.bits, bitLen := t.bitLen, bitsv := t.bitsv } := by
  unfold opEncsym; split
  · exact Res.keeps_raise rfl
  · refine Res.keeps_seq ((checkIn_frame s).imp fun t h => by rw [h]) fun t h => ?_
    obtain ⟨h1, h2, -⟩ := encodeFrom_frame (inputBytes t) 0 0 t (Nat.zero_le _)
    exact ⟨fun u hu => by rw [(h1 u hu).1, h], fun c i u hu => by rw [h2 c i u hu, h]⟩

theorem opDecsym_frame (s : State) :
    (opDecsym s).Keeps fun t => t = { s with outBuf := t.outBuf, outLen := t.outLen, resid := t.resid } := by
  unfold opDecsym; split
  · exact Res.keeps_raise rfl
  · exact (decodeBits_frame _ _ s).1

end Sys2Proof.Machine
end

