-- ==== Sys2Proof/Laws/Memory.lean ====
section
/-! SUPPORT. Every operation that writes a table or a buffer keeps the canonical form (Memory.wf, log 15), and the state after reset has it. -/

namespace Sys2Proof.Machine

theorem memory_wf_reset : Memory.wf State.reset := by decide

theorem memory_wf_setFreq {s : State} (h : Memory.wf s) (i : Nat) (v : Word) : Memory.wf (setFreq s i v) :=
  ⟨tableWf_set 0 h.1 i v, h.2⟩

theorem memory_wf_setHeap {s : State} (h : Memory.wf s) (i : Nat) (v : NodeIx) : Memory.wf (setHeap s i v) :=
  ⟨h.1, tableWf_set 0 h.2.1 i v, h.2.2⟩

theorem memory_wf_swapHeap {s : State} (h : Memory.wf s) (i j : Nat) : Memory.wf (swapHeap s i j) :=
  memory_wf_setHeap (memory_wf_setHeap h _ _) _ _

theorem memory_wf_dropTop {s : State} (h : Memory.wf s) : Memory.wf (dropTop s) :=
  memory_wf_setHeap (memory_wf_setHeap (s := { s with hsize := s.hsize - 1 }) h _ _) _ _

theorem memory_wf_setCode {s : State} (h : Memory.wf s) (i : Nat) (c : List Bool) : Memory.wf (setCode s i c) := by
  obtain ⟨h1, h2, h3, h4, h5, h6⟩ := h
  exact ⟨h1, h2, h3, tableWf_set 0 h4 _ _, tableWf_set 0 h5 _ _, h6⟩

theorem memory_wf_writeBits {s : State} (h : Memory.wf s) (p : Nat) (b : List Bool) : Memory.wf (writeBits s p b) := by
  obtain ⟨h1, h2, h3, h4, h5, h6, h7⟩ := h
  exact ⟨h1, h2, h3, h4, h5, tableWf_write false h6 p b, h7⟩

theorem memory_wf_setIn {s : State} (h : Memory.wf s) (i : Nat) (v : Byte) : Memory.wf (setIn s i v) := by
  obtain ⟨h1, h2, h3, h4, h5, h6, h7, h8⟩ := h
  exact ⟨h1, h2, h3, h4, h5, h6, h7, tableSorted_put h8 i v⟩

theorem memory_wf_clrw {s : State} (h : Memory.wf s) : Memory.wf (clrw s) := by
  obtain ⟨h1, h2, h3, h4, h5, h6, h7⟩ := h
  exact ⟨h1, tableWf_nil 0, tableWf_nil _, tableWf_nil 0, tableWf_nil 0, tableWf_nil false, h7⟩

theorem memory_wf_clrt {s : State} (h : Memory.wf s) : Memory.wf (clrt s) := by
  obtain ⟨h1, h2, h3, h4⟩ := h
  exact ⟨h1, tableWf_nil 0, tableWf_nil _, h4⟩

/-- The end of a command keeps the canonical form. -/
theorem memory_wf_finish {r : Res} (h : r.Keeps Memory.wf) {t : State} (ht : finish r = .next t) : Memory.wf t := by
  rcases finish_eq_next.1 ht with ⟨s, hs, rfl⟩ | ⟨c, i, s, hs, rfl⟩
  · exact h.1 s hs
  · have hc : Memory.wf (clrw s) := memory_wf_clrw (h.2 c i s hs)
    exact hc

theorem memory_wf_checkIn {s : State} (h : Memory.wf s) : (checkIn s).Keeps Memory.wf := by
  unfold checkIn; split
  · exact Res.keeps_raise h
  · exact Res.keeps_ok h

theorem memory_wf_outAppend {s : State} (h : Memory.wf s) (b : Byte) : (outAppend b s).Keeps Memory.wf := by
  unfold outAppend; split
  · exact Res.keeps_raise h
  · obtain ⟨h1, h2, h3, h4, h5, h6, h7, h8⟩ := h
    exact Res.keeps_ok ⟨h1, h2, h3, h4, h5, h6, tableWf_set 0 h7 _ _, h8⟩

theorem memory_wf_appendAll {s : State} (h : Memory.wf s) (bs : List Byte) : (appendAll bs s).Keeps Memory.wf := by
  induction bs generalizing s with
  | nil => exact Res.keeps_ok h
  | cons b bs ih => exact Res.keeps_andThen (memory_wf_outAppend h b) (fun s hs => ih hs) (fun _ h => h)

theorem memory_wf_alloc {s : State} (h : Memory.wf s) (n : Node) : (alloc n s).Keeps Memory.wf := by
  unfold alloc; split
  · exact Res.keeps_raise h
  · obtain ⟨h1, h2, h3, h4⟩ := h
    exact Res.keeps_ok ⟨h1, h2, tableWf_set _ h3 _ _, h4⟩

theorem memory_wf_acceptRoot {s : State} (h : Memory.wf s) (r : NodeIx) : (acceptRoot r s).Keeps Memory.wf := by
  unfold acceptRoot
  split
  · split
    · exact Res.keeps_ok h
    · exact Res.keeps_raise h
  · exact Res.keeps_ok h

theorem memory_wf_siftUp {s : State} (h : Memory.wf s) (f j : Nat) : Memory.wf (siftUp f j s) := by
  induction f generalizing j s with
  | zero => exact h
  | succ f ih =>
    rw [siftUp]; split_ifs
    · exact ih (memory_wf_swapHeap h _ _) _
    · exact h
    · exact h

theorem memory_wf_siftDown {s : State} (h : Memory.wf s) (f j : Nat) : Memory.wf (siftDown f j s) := by
  induction f generalizing j s with
  | zero => exact h
  | succ f ih =>
    rw [siftDown]; split_ifs
    · exact h
    · exact ih (memory_wf_swapHeap h _ _) _

theorem memory_wf_pqInsert {s : State} (h : Memory.wf s) (n : NodeIx) : (pqInsert n s).Keeps Memory.wf := by
  unfold pqInsert; split
  · exact Res.keeps_raise h
  · exact Res.keeps_ok (memory_wf_siftUp (s := { setHeap s s.hsize.toNat n with hsize := s.hsize + 1 }) (memory_wf_setHeap h _ _) _ _)

theorem memory_wf_pqExtract {s : State} (h : Memory.wf s) : (pqExtract s).Keeps Memory.wf := by
  unfold pqExtract; split
  · exact Res.keeps_raise h
  · exact Res.keeps_ok (memory_wf_siftDown (memory_wf_dropTop h) (s.hsize - 1).toNat 0)

end Sys2Proof.Machine
end

