-- ==== Sys2Proof/Laws/PerInstr.lean ====
section
/-! SUPPORT. Facts about every command as syntax, one lemma per constructor: what its encoding looks like (30_encoding.md R91 to R95). -/

namespace Sys2Proof.Laws.EncodedWord

/-- The word of a well-formed command has bits 31:17 zero, matches exactly one row of the opcode map, and decodes. -/
def Statement (i : Instr) : Prop :=
  WellFormed i = true →
    encode i &&& 0xFFFE0000 = 0 ∧ (opcodeMap.filter (rowMatches (encode i))).length = 1 ∧ ∃ j, decode (encode i) = .ok j

theorem nop : Statement .nop := fun _ => ⟨by decide, by decide, .nop, by decide⟩
theorem clr : Statement .clr := fun _ => ⟨by decide, by decide, .clr, by decide⟩
theorem pqExtract : Statement .pqExtract := fun _ => ⟨by decide, by decide, .pqExtract, by decide⟩
theorem count : Statement .count := fun _ => ⟨by decide, by decide, .count, by decide⟩
theorem mkleaves : Statement .mkleaves := fun _ => ⟨by decide, by decide, .mkleaves, by decide⟩
theorem merge : Statement .merge := fun _ => ⟨by decide, by decide, .merge, by decide⟩
theorem setroot : Statement .setroot := fun _ => ⟨by decide, by decide, .setroot, by decide⟩
theorem build : Statement .build := fun _ => ⟨by decide, by decide, .build, by decide⟩
theorem gencode : Statement .gencode := fun _ => ⟨by decide, by decide, .gencode, by decide⟩
theorem serialize : Statement .serialize := fun _ => ⟨by decide, by decide, .serialize, by decide⟩
theorem deserialize : Statement .deserialize := fun _ => ⟨by decide, by decide, .deserialize, by decide⟩
theorem wrhdr : Statement .wrhdr := fun _ => ⟨by decide, by decide, .wrhdr, by decide⟩
theorem pack : Statement .pack := fun _ => ⟨by decide, by decide, .pack, by decide⟩
theorem rdhdr : Statement .rdhdr := fun _ => ⟨by decide, by decide, .rdhdr, by decide⟩
theorem unpack : Statement .unpack := fun _ => ⟨by decide, by decide, .unpack, by decide⟩
theorem encsym : Statement .encsym := fun _ => ⟨by decide, by decide, .encsym, by decide⟩
theorem decsym : Statement .decsym := fun _ => ⟨by decide, by decide, .decsym, by decide⟩
theorem encode : Statement .encode := fun _ => ⟨by decide, by decide, .encode, by decide⟩
theorem decode : Statement .decode := fun _ => ⟨by decide, by decide, .decode, by decide⟩

/-- PQ_INSERT with every operand: the word's low bits are the opcode, so no other row matches, and bits 31:17 stay zero. -/
theorem pqInsert (n : Nat) : Statement (.pqInsert n) := by
  intro h
  have hn : n < 512 := by simpa [WellFormed] using h
  have key : ∀ m : Fin 512,
      Sys2Proof.encode (.pqInsert m) &&& 0xFFFE0000 = 0 ∧
        (opcodeMap.filter (rowMatches (Sys2Proof.encode (.pqInsert m)))).length = 1 ∧
        (firstMatch (Sys2Proof.encode (.pqInsert m)) opcodeMap).isSome = true := by decide +kernel
  obtain ⟨h1, h2, h3⟩ := key ⟨n, hn⟩
  obtain ⟨j, hj⟩ := Option.isSome_iff_exists.1 h3
  exact ⟨h1, h2, j, by unfold Sys2Proof.decode; rw [hj]⟩

end Sys2Proof.Laws.EncodedWord
end

