-- ==== Sys2Proof/Laws/Sequence.lean ====
section
/-! SUPPORT. Running commands one after the other (30_encoding.md R103): `thenRun`, `atStep` and `mergeWhile` continue the end of a command
as the sequencing of procedures continues the procedure. -/

namespace Sys2Proof.Machine

open Sys2Proof.Claims

/-- The core runs a command that has not faulted (R94). -/
def Running (s : State) : Prop := s.busy = true ∧ s.done = false ∧ s.err = 0

theorem CoreFault.code_ne_zero (c : CoreFault) : c.code ≠ 0 := by cases c <;> decide

theorem faulted_err_ne (c : CoreFault) (i : Word) (s : State) : (faulted c i s).err ≠ 0 := c.code_ne_zero

/-- A procedure that changes neither BUSY nor DONE nor ERR keeps the core running. -/
theorem running_of_frame {r : Res} {P : State → Prop} {s : State} (h : r.Keeps P)
    (hp : ∀ t, P t → t.busy = s.busy ∧ t.done = s.done ∧ t.err = s.err) (hs : Running s) : r.Keeps Running :=
  h.imp fun t ht => ⟨(hp t ht).1.trans hs.1, (hp t ht).2.1.trans hs.2.1, (hp t ht).2.2.trans hs.2.2⟩

/-- Running the next command continues the procedure with that command's. -/
theorem thenRun_finish {i : Instr} {op : State → Res} (hi : ∀ s, exec i s = finish (op s)) {r : Res} (h : r.Keeps Running) :
    thenRun i (finish r) = finish (r.andThen op) := by
  cases r with
  | ok s =>
    obtain ⟨h1, h2, h3⟩ := h.1 s rfl
    have : ({ complete s with busy := true, done := false } : State) = s := by
      cases s; simp_all [complete]
    rw [finish_ok, thenRun, if_pos (by simpa using h3), hi, this, ok_andThen]
  | raise c i s => rw [finish_raise, thenRun, if_neg (faulted_err_ne c _ s)]; rfl
  | endless => rfl

/-- Naming the next step continues the procedure with SEQ. -/
theorem atStep_finish {n : Nat} {r : Res} (h : r.Keeps Running) :
    atStep n (finish r) = finish (r.andThen fun s => .ok (setSeq n s)) := by
  cases r with
  | ok s => rw [finish_ok, atStep, if_pos (by simpa using (h.1 s rfl).2.2)]; rfl
  | raise c i s => rw [finish_raise, atStep, if_neg (faulted_err_ne c _ s)]; rfl
  | endless => rfl

/-- MERGE while HSIZE > 1 continues the procedure with BUILD's loop (R148). -/
theorem mergeWhile_finish (k : Nat) {r : Res} (h : r.Keeps Running) :
    mergeWhile k (finish r) = finish (r.andThen (mergeLoop k)) := by
  induction k generalizing r with
  | zero => cases r <;> rfl
  | succ k ih =>
    cases r with
    | ok s =>
      have hs := h.1 s rfl
      rw [finish_ok, mergeWhile, ok_andThen, mergeLoop]
      by_cases hh : 1 < s.hsize.toNat
      · rw [if_pos ⟨by simpa using hs.2.2, by simpa using hh⟩, if_pos hh, ← finish_ok,
          thenRun_finish (i := .merge) (op := opMerge) (fun _ => rfl) (Res.keeps_ok hs), ok_andThen,
          ih (running_of_frame (opMerge_frame s) (fun t ht => by rw [ht]; exact ⟨rfl, rfl, rfl⟩) hs)]
      · rw [if_neg (by simp; intro _; omega), if_neg hh, finish_ok]
    | raise c i s => rw [finish_raise, mergeWhile, if_neg fun h => faulted_err_ne c i s h.1]; rfl
    | endless => rfl

end Sys2Proof.Machine
end

