-- ==== Sys2Proof/Tests/Slice0.lean ====
section
/-! SUPPORT. Small tests: what WellFormed refuses, command words written out from 30_encoding.md, single steps with results from
95_test_vectors.md, and, for every statement with hypotheses, a witness that meets them (`witness_…`), one per clause, at boundary values. -/

namespace Sys2Proof.Tests

open Sys2Proof Sys2Proof.Machine Sys2Proof.Claims

/-! ## Ill-formed and well-formed commands, words from the opcode map (R91 to R95) -/

theorem test_wf_refuses_node_512 : WellFormed (.pqInsert 512) = false := by decide
theorem test_wf_takes_node_511 : WellFormed (.pqInsert 511) = true := by decide
theorem test_word_nop : decode 0x00000000 = .ok .nop := by decide
theorem test_word_clr : decode 0x00000001 = .ok .clr := by decide
theorem test_word_pq_insert : decode 0x00000310 = .ok (.pqInsert 3) ∧ decode 0x0001FF10 = .ok (.pqInsert 511) := by decide
theorem test_word_pq_extract : decode 0x00000011 = .ok .pqExtract := by decide
theorem test_word_count : decode 0x00000020 = .ok .count := by decide
theorem test_word_mkleaves : decode 0x00000021 = .ok .mkleaves := by decide
theorem test_word_merge : decode 0x00000022 = .ok .merge := by decide
theorem test_word_setroot : decode 0x00000023 = .ok .setroot := by decide
theorem test_word_build : decode 0x00000024 = .ok .build := by decide
theorem test_word_gencode : decode 0x00000030 = .ok .gencode := by decide
theorem test_word_serialize : decode 0x00000040 = .ok .serialize := by decide
theorem test_word_deserialize : decode 0x00000041 = .ok .deserialize := by decide
theorem test_word_wrhdr : decode 0x00000050 = .ok .wrhdr := by decide
theorem test_word_pack : decode 0x00000051 = .ok .pack := by decide
theorem test_word_rdhdr : decode 0x00000052 = .ok .rdhdr := by decide
theorem test_word_unpack : decode 0x00000053 = .ok .unpack := by decide
theorem test_word_encsym : decode 0x00000060 = .ok .encsym := by decide
theorem test_word_decsym : decode 0x00000061 = .ok .decsym := by decide
theorem test_word_encode : decode 0x00000070 = .ok .encode := by decide
theorem test_word_decode : decode 0x00000071 = .ok .decode := by decide
theorem test_word_unknown : decode 0x00000002 = .error (.noSuchOpcode 0x02) := by decide
theorem test_word_high_bits : decode 0x00000120 = .error (.reservedBits 0x20) ∧ decode 0x00020010 = .error (.reservedBits 0x10) := by decide
theorem test_table_word : decodeTableWord 32 0x10 = some (.pqInsert 0) ∧ decodeTableWord 32 0x71 = some .decode := by decide

/-! ## Small states -/

/-- The outcome is a next state of which `p` holds. -/
def ends (o : Host.Outcome State Fault Refusal) (p : State → Bool) : Bool :=
  match o with
  | .next t => p t
  | .fault _ => false
  | .refused _ => false

theorem exists_of_ends {o : Host.Outcome State Fault Refusal} {p : State → Bool} (h : ends o p = true) :
    ∃ t, o = .next t ∧ p t = true := by
  cases o with
  | next t => exact ⟨t, rfl, h⟩
  | fault r => cases h
  | refused r => cases h

/-- The reset state with a text loaded (LOAD of R103). -/
def loaded (bs : List Byte) : State :=
  { State.reset with inLen := word bs.length, inBuf := (List.range bs.length).zip bs }

/-- The reset state with a command accepted. -/
def running (w : Word) (s : State) : State := { s with cmd := w, busy := true }

/-- The tree of 95_test_vectors.md S1: `a` three times, `b` once. -/
def treeSt : State :=
  { State.reset with
    node := [(0, .leaf 3 0x61), (1, .leaf 1 0x62), (2, .internal 4 1 0)], nnode := 3, root := 2, treev := true }

/-- That tree as an abstract one. -/
def tree : Tree := .internal 4 (.leaf 1 0x62) (.leaf 3 0x61)

/-- The queue of S1 after MKLEAVES: HEAP = [1, 0]. -/
def queueSt : State :=
  { State.reset with node := [(0, .leaf 3 0x61), (1, .leaf 1 0x62)], nnode := 2, heap := [(0, 1)], hsize := 2 }

/-- One queued leaf. -/
def oneSt : State := { State.reset with node := [(0, .leaf 3 0x61)], nnode := 1, hsize := 1 }

/-- The codes of S1 generated. -/
def codeSt : State :=
  { treeSt with codev := true, codeLen := [(0x61, 1), (0x62, 1)], codeBits := [(0x61, 1 <<< 255)], inLen := 4,
                inBuf := [(0, 0x61), (1, 0x61), (2, 0x61), (3, 0x62)] }

/-- The bit-string of S1, "1110". -/
def bitSt : State := { treeSt with bitsv := true, bitLen := 4, bits := [(0, true), (1, true), (2, true)] }

/-- The wire format of S1. -/
def wire : List Byte := [0x30, 0x27, 0x62, 0x31, 0x27, 0x61, 0x0A, 0x34, 0x0A, 0xE0]

/-- The two-letter text "ab", and parameters large enough to encode it whatever its codes. -/
def abSt : State := loaded [0x61, 0x62]

/-! ## Single steps, results from 95_test_vectors.md -/

/-- S1: the registers after ENCODE of "aaab". -/
theorem test_encode_aaab :
    ends (step (running 0x70 (loaded [0x61, 0x61, 0x61, 0x62])))
      (fun t => decide (statusWord t = 0x03A ∧ outputBytes t = wire ∧ t.payLen = 1 ∧ t.seq = 8 ∧ t.pqOut = 2 ∧ t.root = 2)) = true := by
  decide +kernel

/-- S1: the registers after DECODE of its wire format. -/
theorem test_decode_aaab :
    ends (step (running 0x71 (loaded wire)))
      (fun t => decide (statusWord t = 0x06A ∧ outputBytes t = [0x61, 0x61, 0x61, 0x62] ∧ t.cur = 10 ∧ t.seq = 5 ∧ t.rem = 4)) = true := by
  decide +kernel

/-- S2: EMPTY_INPUT. -/
theorem test_encode_empty :
    ends (step (running 0x70 State.reset)) (fun t => decide (t.err = 1 ∧ t.einfo = 0 ∧ t.seq = 0 ∧ statusWord t = 0x006)) = true := by
  decide +kernel

/-- S3: DEGENERATE with DGM = 0, raised in BUILD. -/
theorem test_encode_degenerate :
    ends (step (running 0x70 (loaded [0x61, 0x61, 0x61, 0x61])))
      (fun t => decide (t.err = 3 ∧ t.einfo = 0x61 ∧ t.seq = 2 ∧ t.nnode = 0 ∧ freqAt t 0x61 = 4)) = true := by
  decide +kernel

/-- S4: the second newline is missing. -/
theorem test_decode_corrupt :
    ends (step (running 0x71 (loaded [0x30, 0x27, 0x62, 0x31, 0x27, 0x61, 0x0A, 0x34, 0xE0])))
      (fun t => decide (t.err = 2 ∧ t.einfo = 8 ∧ t.seq = 2 ∧ t.outLen = 0)) = true := by
  decide +kernel

/-- S1, HEAP after MKLEAVES and NODE[2] after MERGE. -/
theorem test_merge_aaab :
    ends (exec .merge queueSt) (fun t => decide (nodeAt t 2 = .internal 4 1 0 ∧ t.hsize = 1 ∧ heapAt t 0 = 2 ∧ t.pqOut = 0)) = true := by
  decide +kernel

/-- R21, R65: ID is read while idle, and refused while BUSY. -/
theorem test_bus_id :
    (transact (.read4 0x000) State.reset).log = [.okWord 0x00070001] ∧
      (transact (.read4 0x000) (running 0 State.reset)).log = [.error] := by decide

/-- R41: NODE[2] word 1 of S1 reads 0x80000001. -/
theorem test_bus_node : (transact (.read4 0x1014) treeSt).log = [.okWord 0x80000001] := by decide

/-- What the host asks of a table row: the first step after `withFetchWord` runs the command (R94). -/
theorem test_first_step : ends (step (State.reset.withFetchWord 32 0x01)) (fun t => decide (t.done = true ∧ t.busy = false ∧ t.cmd = 1)) = true := by
  decide

/-- A queue driven by hand (R114, R140): node `n` joins node `n - 1` and node 0, which PQ_INSERT queued again each time. -/
def chainSt (n : Nat) : State :=
  { State.reset with
    node := (List.range (n + 1)).map (fun i => if i = 0 then (0, .leaf 1 0x61) else (i, .internal (word (i + 1)) (BitVec.ofNat 9 (i - 1)) 0)),
    nnode := BitVec.ofNat 10 (n + 1), root := BitVec.ofNat 9 n, treev := true }

/-- Its tree. -/
def chain : Nat → Tree
  | 0 => .leaf 1 0x61
  | n + 1 => .internal (n + 2) (chain n) (.leaf 1 0x61)

/-- R115 and R145, by their pseudocode: MKLEAVES of two leaves, PQ_EXTRACT by hand, SETROOT. The extracted node 1 stays allocated, and
"ROOT is whatever was extracted", node 0, which is not NNODE - 1. -/
theorem test_setroot_by_hand :
    ends (exec .pqExtract queueSt) (fun t => decide (t.pqOut = 1 ∧ heapAt t 0 = 0 ∧ t.hsize = 1 ∧ t.nnode = 2)) = true ∧
      ends (exec .setroot { queueSt with heap := [], hsize := 1, dgm := true })
        (fun t => decide (t.root = 0 ∧ t.nnode = 2 ∧ t.treev = true ∧ t.hsize = 0)) = true := by decide +kernel

/-- R4, ruling D4: a code of more than CODE_MAX = 255 bits exceeds a capacity. -/
theorem test_gencode_code_max :
    ends (exec .gencode (chainSt 256)) (fun t => decide (t.err = 5 ∧ t.codeLen = [] ∧ t.nnode = 0)) = true ∧
      ends (exec .gencode (chainSt 255)) (fun t => decide (t.err = 0 ∧ t.codev = true ∧ codeLenAt t 0x61 = 1)) = true := by decide +kernel

/-- R184: the examples with an error below the root. -/
theorem test_deserialize_errors :
    ends (exec .deserialize (loaded [0x30, 0x27, 0x62, 0x32, 0x27, 0x61])) (fun t => decide (t.err = 2 ∧ t.einfo = 3)) = true ∧
      ends (exec .deserialize (loaded [0x30, 0x27, 0x62, 0x31, 0x27])) (fun t => decide (t.err = 2 ∧ t.einfo = 5)) = true := by decide +kernel

/-! ## Witnesses -/

theorem witness_DecodeOfEncodeIsIdentity : WellFormed (.pqInsert 0) = true ∧ WellFormed (.pqInsert 511) = true := by decide

theorem witness_StepRunsTheDecodedCommand :
    (running 0x22 queueSt).busy = true ∧ decode (running 0x22 queueSt).cmd = .ok .merge ∧ (running 0x22 queueSt).host = [] ∧
      ({ running 0x22 queueSt with host := [.wait] }).host = .wait :: [] ∧ decode 0x0001FF10 = .ok (.pqInsert 511) := by decide

theorem witness_IllegalWordFaults :
    (running 0x02 treeSt).busy = true ∧ decode (running 0x02 treeSt).cmd = .error (.noSuchOpcode 0x02) ∧
      decode (running 0xFFFFFF10 treeSt).cmd = .error (.reservedBits 0x10) ∧ (running 0x02 treeSt).host = [] := by decide

/-- An idle core that holds a fault and one that runs, with a write to CMD to come. -/
def offered (w : Word) : State := { State.reset with host := [.txn (.write4 0x008 w)] }

theorem witness_CommandAcceptance :
    (offered 0x22).host = .txn (.write4 0x008 0x22) :: [] ∧ ({ offered 0x22 with busy := true }).busy = true ∧
      ({ offered 0x22 with err := 2 }).err ≠ 0 ∧ (0x22 : Word) ≠ 0x00000001 ∧ (offered 0x22).busy = false ∧ (offered 0x22).err = 0 := by
  decide

theorem witness_BusyBusAnswersOnlyStatus :
    (running 0x22 (offered 0x22)).busy = true ∧ (running 0x22 (offered 0x22)).done = false ∧
      (running 0x22 (offered 0x22)).host = .txn (.write4 0x008 0x22) :: [] := by decide

theorem witness_BusSideEffects : State.reset.busy = false ∧ treeSt.busy = false := by decide

theorem witness_BusReadValues : treeSt.busy = false ∧ treeSt.cfg.Allowed ∧ 65535 < treeSt.cfg.inCap := by decide

theorem witness_OutReadsZeroBeyondItsLength :
    (treeSt.busy = false ∧ treeSt.cfg.Allowed ∧ 65535 < treeSt.cfg.outCap) ∧ (∃ t, exec .clr treeSt = .next t) ∧
      (∃ t, finish (.raise .parse 3 treeSt) = .next t) ∧ ∃ t, exec .pqExtract State.reset = .next t ∧ State.reset.err = 0 ∧ t.err ≠ 0 :=
  ⟨by decide, ⟨_, rfl⟩, ⟨_, rfl⟩, _, rfl, by decide, by decide⟩

theorem witness_InterruptFollowsDone :
    (∃ t, exec .nop { State.reset with ie := true } = .next t ∧ irq t = true) ∧ State.reset.busy = false ∧
      (2 : Word).getLsbD 1 = true ∧ (0 : Word).getLsbD 1 = false ∧ State.reset.err = 0 ∧ (1 : Word) = 0x00000001 :=
  ⟨⟨_, rfl, by decide⟩, by decide⟩

theorem witness_AssertedResetGivesTheResetState : ({ running 0x22 treeSt with host := [.rst] }).host = .rst :: [] := by decide

theorem witness_CommandsKeepTheHostSide : ∃ t, exec .count (loaded [0x61]) = .next t := ⟨_, rfl⟩

theorem witness_CommandSucceedsOrLeavesNothing :
    State.reset.err = 0 ∧ (∃ t, exec .nop State.reset = .next t ∧ t.err = 0) ∧ ∃ t, exec .pqExtract State.reset = .next t ∧ t.err ≠ 0 :=
  ⟨by decide, ⟨_, rfl, by decide⟩, _, rfl, by decide⟩

theorem witness_OnlyClrAndResetClearErr :
    (∃ t, step { running 1 State.reset with err := 2 } = .next t ∧ t.err = 0) ∧
      ∃ t, step { State.reset with err := 2, host := [.rst] } = .next t ∧ t.err = 0 :=
  ⟨⟨_, rfl, by decide⟩, _, rfl, by decide⟩

theorem structure_treeSt : TreeStructure treeSt := by
  refine ⟨by decide, by decide, by decide, by decide, fun e he => ?_, by decide, by decide⟩
  have h : e = (0, .leaf 3 0x61) ∨ e = (1, .leaf 1 0x62) ∨ e = (2, .internal 4 1 0) := by simpa [treeSt] using he
  rcases h with rfl | rfl | rfl <;> decide

theorem structure_queued : TreeStructure queueSt := by
  refine ⟨by decide, by decide, by decide, by decide, fun e he => ?_, by decide, fun h => by cases h⟩
  have h : e = (0, .leaf 3 0x61) ∨ e = (1, .leaf 1 0x62) := by simpa [queueSt] using he
  rcases h with rfl | rfl <;> trivial

theorem structure_queueSt (w : Word) : TreeStructure (running w queueSt) := structure_queued

theorem witness_EveryCommandCompletes : TreeStructure treeSt ∧ TreeStructure (running 0x22 queueSt) :=
  ⟨structure_treeSt, structure_queueSt _⟩

theorem witness_StepKeepsTablesCanonical : Memory.wf queueSt ∧ ends (step (running 0x22 queueSt)) (fun _ => true) = true := by
  decide +kernel

theorem witness_StepKeepsTreeStructure :
    (TreeStructure (running 0x22 queueSt) ∧ ends (step (running 0x22 queueSt)) (fun t => decide (t.nnode = 3)) = true) ∧
      DegenMeansLeaf (running 0x22 queueSt) ∧ (RootIsLast treeSt ∧ RootAlone treeSt ∧ treeSt.treev = true) ∧
      LastQueued (running 0x22 queueSt) ∧ ¬ RootByHand (running 0x22 queueSt) ∧ ¬ InsertAfterTree (running 0x22 queueSt) ∧
      ¬ QueueByHand (running 0x22 queueSt) :=
  ⟨⟨structure_queueSt _, by decide +kernel⟩, fun h => (by cases h), by decide, fun _ => ⟨1, by decide +kernel, by decide⟩,
    fun h => (by cases h.1.2.2), fun h => (by cases h.1), fun h => h.elim (fun h => (by cases h.2.2)) fun ⟨_, h⟩ => (by cases h.2.2)⟩

theorem witness_StepKeepsHeapOrder :
    TreeStructure (running 0x11 queueSt) ∧ HeapOrder (running 0x11 queueSt) ∧
      ends (step (running 0x11 queueSt)) (fun t => decide (t.hsize = 1)) = true :=
  ⟨structure_queueSt _, by decide +kernel, by decide +kernel⟩

theorem witness_StepKeepsRegisterRanges :
    RegisterRanges (running 0x50 bitSt) ∧ LengthsFit (running 0x50 bitSt) ∧
      ends (step (running 0x50 bitSt)) (fun t => decide (t.outLen = 3)) = true := by decide +kernel

/-- With an empty code table the bits beyond every length are 0. -/
theorem witness_StepKeepsCodeBitsMasked :
    CodeBitsMasked (running 0x30 treeSt) ∧ ends (step (running 0x30 treeSt)) (fun t => decide (codeLenAt t 0x61 = 1)) = true := by
  refine ⟨fun b _ j hj _ => ?_, by decide +kernel⟩
  show (0 : BitVec 256).getMsbD j = false
  simp

theorem witness_PqInsertQueuesItsNode :
    1 < 512 ∧ 1 < queueSt.nnode.toNat ∧ queueSt.hsize.toNat < 256 ∧ HeapOrder queueSt ∧
      510 < ({ State.reset with nnode := 511, hsize := 255 } : State).nnode.toNat := by decide +kernel

theorem witness_QueueTraps :
    queueSt.nnode.toNat ≤ 2 ∧ (0 < oneSt.nnode.toNat ∧ ({ oneSt with hsize := 256 }).hsize.toNat = 256) ∧ State.reset.hsize = 0 := by decide

theorem witness_PqExtractTakesALeastItem : queueSt.hsize ≠ 0 ∧ HeapOrder queueSt ∧ oneSt.hsize ≠ 0 := by decide +kernel

theorem witness_CountCountsTheInput :
    abSt.cfg.Allowed ∧ abSt.inLen.toNat ≤ abSt.cfg.inCap ∧ ({ abSt with inLen := 65536 }).inLen.toNat ≤ abSt.cfg.inCap := by decide

theorem witness_InputTooLongTraps :
    ∃ s : State, s.cfg.inCap < s.inLen.toNat ∧ s.hdrv = true ∧ s.codev = true :=
  ⟨{ State.reset with inLen := 65537, hdrv := true, codev := true }, by decide⟩

/-- Two symbols with frequencies. -/
def freqSt : State := { State.reset with freq := [(0x61, 3), (0x62, 1)] }

/-- One symbol with a frequency. -/
def soleSt : State := { State.reset with freq := [(0x61, 4)] }

theorem witness_MkleavesMakesTheLeaves : presentSymbols freqSt ≠ [] := by decide +kernel

/-- Two symbols whose frequencies sum to 2^32, R141's example. -/
def heavyFreqSt : State := { State.reset with freq := [(1, 0xFFFFFFFF), (2, 1)] }

theorem witness_BuildTraps :
    presentSymbols State.reset = [] ∧ presentSymbols soleSt = [0x61] ∧ soleSt.dgm = false ∧ freqTotal heavyFreqSt = 0x100000000 := by
  decide +kernel

/-- Two leaves whose weights sum to the largest count, and one more. -/
def heavySt (w : Word) : State := { queueSt with node := [(0, .leaf 0xFFFFFFFE 0x61), (1, .leaf w 0x62)] }

theorem witness_MergeJoinsTheTwoLeast :
    2 ≤ queueSt.hsize.toNat ∧ queueSt.hsize.toNat ≤ 256 ∧ queueSt.nnode.toNat < 511 ∧ HeapOrder queueSt ∧
      keyOf (heavySt 1) (heapAt (heavySt 1) 0) + keyOf (heavySt 1) (secondLeast (heavySt 1)) = 0xFFFFFFFF ∧
      2 ≤ (heavySt 1).hsize.toNat ∧ (heavySt 1).nnode.toNat < 511 := by decide +kernel

theorem witness_MergeTraps :
    oneSt.hsize.toNat < 2 ∧ (2 ≤ ({ queueSt with nnode := 511 }).hsize.toNat ∧ ({ queueSt with nnode := 511 }).nnode = 511) ∧
      (2 ≤ (heavySt 2).hsize.toNat ∧ (heavySt 2).nnode ≠ 511 ∧
        0xFFFFFFFF < keyOf (heavySt 2) (heapAt (heavySt 2) 0) + keyOf (heavySt 2) (secondLeast (heavySt 2))) := by decide +kernel

theorem witness_SetrootAcceptsTheLastItem :
    (oneSt.hsize = 1 ∧ ({ oneSt with dgm := true }).dgm = true) ∧
      ({ treeSt with hsize := 1, heap := [(0, 2)] }).hsize = 1 ∧
      (nodeAt { treeSt with hsize := 1, heap := [(0, 2)] } (heapAt { treeSt with hsize := 1, heap := [(0, 2)] } 0).toNat).isLeaf = false := by
  decide

theorem witness_SetrootTraps :
    State.reset.hsize ≠ 1 ∧ queueSt.hsize ≠ 1 ∧ oneSt.hsize = 1 ∧ oneSt.dgm = false ∧
      nodeAt oneSt (heapAt oneSt 0).toNat = .leaf 3 0x61 := by decide

theorem witness_BuildMakesTheTree :
    ((running 0x24 freqSt).busy = true ∧ (running 0x24 freqSt).done = false ∧ (running 0x24 freqSt).err = 0) ∧
      (presentSymbols freqSt ≠ [] ∧ freqTotal freqSt ≤ 0xFFFFFFFF ∧ (presentSymbols freqSt).length ≠ 1) ∧
      presentSymbols { soleSt with dgm := true } ≠ [] ∧ freqTotal { soleSt with dgm := true } ≤ 0xFFFFFFFF ∧
      ({ soleSt with dgm := true }).dgm = true := by decide +kernel

theorem witness_GencodeFillsTheCodeTable :
    (treeSt.treev = true ∧ stateTree treeSt = some tree ∧ tree.depth ≤ 255) ∧
      (({ oneSt with treev := true }).treev = true ∧ stateTree { oneSt with treev := true } = some (.leaf 3 0x61)) ∧
      (stateTree (chainSt 255) = some (chain 255) ∧ (chain 255).depth = 255) ∧
      (chainSt 256).treev = true ∧ stateTree (chainSt 256) = some (chain 256) ∧ (chain 256).depth = 256 := by decide +kernel

theorem witness_CodesArePrefixFree :
    treeSt.treev = true ∧ stateTree treeSt = some tree ∧ tree.depth ≤ 255 ∧ tree.isInternal = true := by
  decide +kernel

theorem witness_MissingStateTraps :
    (Lacks .gencode State.reset ∧ Lacks .serialize State.reset ∧ Lacks .decsym treeSt ∧ Lacks .decsym { bitSt with treev := false } ∧
      Lacks .encsym treeSt ∧ Lacks .wrhdr treeSt ∧ Lacks .pack treeSt ∧ Lacks .unpack treeSt ∧
      Lacks .unpack { State.reset with hdrv := true, cur := 1 } ∧ Lacks .setroot State.reset ∧ Lacks .setroot queueSt) ∧
      State.reset.err = 0 ∧ ∃ t, exec .setroot queueSt = .next t ∧ t.err = 6 :=
  ⟨⟨rfl, rfl, .inr rfl, .inl rfl, rfl, rfl, rfl, .inl rfl, .inr (by decide), show State.reset.hsize ≠ 1 by decide,
    show queueSt.hsize ≠ 1 by decide⟩, rfl, _, rfl, rfl⟩

/-- Parameters with an OUT of `n` bytes. -/
def outOf (n : Nat) (s : State) : State := { s with cfg := { s.cfg with outCap := n } }

theorem witness_SerializeAppendsTheTree :
    (outOf 6 treeSt).treev = true ∧ stateTree (outOf 6 treeSt) = some tree ∧ (outOf 6 treeSt).cfg.Allowed ∧
      (outOf 6 treeSt).outLen.toNat + 2 * tree.size = (outOf 6 treeSt).cfg.outCap := by decide +kernel

theorem witness_DeserializeRebuildsTheTree :
    ((loaded wire).inLen.toNat ≤ (loaded wire).cfg.inCap ∧
      inBytes (loaded wire) (loaded wire).cur.toNat ((loaded wire).inLen.toNat - (loaded wire).cur.toNat) =
        tree.ser ++ [0x0A, 0x34, 0x0A, 0xE0] ∧ tree.size ≤ 511 ∧ tree.isInternal = true) ∧
      inBytes (loaded [0x27, 0x61]) 0 (loaded [0x27, 0x61]).inLen.toNat = (Tree.leaf 0 0x61).ser ++ [] ∧
      ({ loaded [0x27, 0x61] with dgm := true }).dgm = true := by decide +kernel

/-- The way down a left spine of 511 internal nodes. -/
def spine : Way := List.replicate 511 none

theorem witness_DeserializeTraps :
    (State.reset.inLen.toNat ≤ State.reset.cfg.inCap ∧
      inBytes (loaded [0x30, 0x27, 0x62, 0x31, 0x27]) 0 5 = [0x30, 0x27, 0x62, 0x31, 0x27] ∧
      inBytes (loaded [0x27, 0x61]) 0 2 = 0x27 :: 0x61 :: [] ∧ (loaded [0x27, 0x61]).dgm = false) ∧
      TreeError 0 [] .parse 0 ∧ TreeError 0 [0x41] .parse 0 ∧ TreeError 0 [0x27] .parse 1 ∧
      TreeError 0 [0x30, 0x27, 0x62, 0x32, 0x27, 0x61] .parse 3 ∧ TreeError 0 [0x30, 0x27, 0x62, 0x31, 0x27] .parse 5 ∧
      TreeError 0 [0x30, 0x27, 0x62] .parse 3 ∧ TreeError 0 (spine.text ++ [0x30]) .capacity 4 :=
  ⟨by decide, .ended [] rfl (by decide), .marker [] 0x41 [] rfl (by decide) (by decide) (by decide), .symbol [] rfl (by decide),
    .separator [] (.leaf 0 0x62) [0x32, 0x27, 0x61] rfl (by decide) (by decide),
    .symbol [some (.leaf 0 0x62)] rfl (by decide), .separator [] (.leaf 0 0x62) [] rfl (by decide) (by decide),
    .capacity spine 0x30 [] rfl (by decide +kernel) (.inr rfl)⟩

theorem witness_WrhdrAppendsTheHeader :
    (outOf 3 bitSt).bitsv = true ∧ (outOf 3 bitSt).cfg.Allowed ∧ (outOf 3 bitSt).outLen.toNat + 3 ≤ (outOf 3 bitSt).cfg.outCap := by decide

theorem witness_PackAppendsThePayload :
    (outOf 1 bitSt).bitsv = true ∧ (outOf 1 bitSt).cfg.Allowed ∧
      (outOf 1 bitSt).outLen.toNat + ((outOf 1 bitSt).bitLen.toNat + 7) / 8 ≤ (outOf 1 bitSt).cfg.outCap := by decide

theorem witness_OutputFullTraps :
    (LengthsFit (outOf 5 treeSt) ∧ (outOf 5 treeSt).treev = true ∧ stateTree (outOf 5 treeSt) = some tree ∧
        (outOf 5 treeSt).cfg.outCap < (outOf 5 treeSt).outLen.toNat + 2 * tree.size) ∧
      (LengthsFit (outOf 2 bitSt) ∧ (outOf 2 bitSt).bitsv = true ∧ (outOf 2 bitSt).cfg.outCap < (outOf 2 bitSt).outLen.toNat + 3) ∧
      (LengthsFit { outOf 1 bitSt with outLen := 1 } ∧ ({ outOf 1 bitSt with outLen := 1 }).cfg.outCap <
        ({ outOf 1 bitSt with outLen := 1 }).outLen.toNat + (({ outOf 1 bitSt with outLen := 1 }).bitLen.toNat + 7) / 8) ∧
      ((outOf 2 bitSt).treev = true ∧ stateTree (outOf 2 bitSt) = some tree ∧
        (outOf 2 bitSt).cfg.outCap < (outOf 2 bitSt).outLen.toNat + (tree.walk (bitString (outOf 2 bitSt))).1.length) := by decide +kernel

theorem witness_RdhdrReadsTheHeader :
    (loaded [0x0A, 0x37, 0x0A]).inLen.toNat ≤ (loaded [0x0A, 0x37, 0x0A]).cfg.inCap ∧
      (loaded [0x0A, 0x37, 0x0A]).cur.toNat + 3 ≤ (loaded [0x0A, 0x37, 0x0A]).inLen.toNat ∧
      inByte (loaded [0x0A, 0x37, 0x0A]) 0 = 0x0A ∧ inByte (loaded [0x0A, 0x37, 0x0A]) 1 = BitVec.ofNat 8 (0x30 + 7) ∧
      inByte (loaded [0x0A, 0x37, 0x0A]) 2 = 0x0A ∧ inByte (loaded [0x0A, 0x30, 0x0A]) 1 = BitVec.ofNat 8 (0x30 + 0) := by decide

/-- One payload byte, with the header read. -/
def payloadSt : State := { loaded [0xE0] with hdrv := true, rem := 4 }

theorem witness_HeaderAndPayloadTraps :
    (State.reset.inLen.toNat ≤ State.reset.cur.toNat ∧ inByte (loaded [0x61]) 0 ≠ 0x0A) ∧
      (inByte (loaded [0x0A, 0x2F]) 0 = 0x0A ∧ (loaded [0x0A]).inLen.toNat ≤ 1 ∧ inByte (loaded [0x0A, 0x2F]) 1 < 0x30 ∧
        0x37 < inByte (loaded [0x0A, 0x38]) 1) ∧
      (0x30 ≤ inByte (loaded [0x0A, 0x30]) 1 ∧ inByte (loaded [0x0A, 0x37, 0x61]) 1 ≤ 0x37 ∧ (loaded [0x0A, 0x30]).inLen.toNat ≤ 2 ∧
        inByte (loaded [0x0A, 0x37, 0x61]) 2 ≠ 0x0A) ∧
      (({ payloadSt with cur := 1 }).hdrv = true ∧ ({ payloadSt with cur := 1 }).cur.toNat ≤ payloadSt.inLen.toNat ∧
        8 * (payloadSt.inLen.toNat - ({ payloadSt with cur := 1 }).cur.toNat) < payloadSt.rem.toNat) ∧
      ∃ s : State, s.hdrv = true ∧ s.inLen.toNat ≤ s.cfg.inCap ∧ s.cur.toNat ≤ s.inLen.toNat ∧
        s.rem.toNat ≤ 8 * (s.inLen.toNat - s.cur.toNat) ∧ s.cfg.bitsCap < 8 * (s.inLen.toNat - s.cur.toNat) :=
  ⟨by decide, by decide, by decide, by decide,
    { State.reset with hdrv := true, inLen := 2, cfg := { inCap := 2, outCap := 1, bitsCap := 8 } }, by decide⟩

theorem witness_UnpackExpandsThePayload :
    payloadSt.hdrv = true ∧ payloadSt.cfg.Allowed ∧ payloadSt.inLen.toNat ≤ payloadSt.cfg.inCap ∧
      payloadSt.cur.toNat ≤ payloadSt.inLen.toNat ∧ payloadSt.rem.toNat ≤ 8 * (payloadSt.inLen.toNat - payloadSt.cur.toNat) ∧
      8 * (payloadSt.inLen.toNat - payloadSt.cur.toNat) ≤ payloadSt.cfg.bitsCap := by decide

/-- One payload byte, padded by 7 bits and by none, and no payload at all. -/
theorem witness_UnpackOfPackIsIdentity :
    7 ≤ 8 * ([0xE0] : List Byte).length ∧ 0 ≤ 8 * ([] : List Byte).length ∧ (packOf (unpackOf [0xFF] 7)) = [0x80] := by decide +kernel

theorem witness_WordSelectsTheCommandOfItsRow :
    (running 0x00000120 treeSt).busy = true ∧ (running 0x00000120 treeSt).host = [] ∧ (running 0x00000120 treeSt).cmd = 0x00000120 ∧
      decode 0x00000120 = .error (.reservedBits 0x20) := by decide

theorem witness_EncsymConcatenatesTheCodes :
    codeSt.codev = true ∧ codeSt.cfg.Allowed ∧ codeSt.inLen.toNat ≤ codeSt.cfg.inCap ∧
      (∀ b ∈ inputBytes codeSt, codeLenAt codeSt b.toNat ≠ 0) ∧
      (encOf (fun b => codeAt codeSt b.toNat) (inputBytes codeSt)) = [true, true, true, false] := by decide +kernel

/-- The codes of S1 with a text that has a letter without a code, and with room for fewer bits than the text needs. -/
def noCodeSt : State := { codeSt with inBuf := [(0, 0x61), (1, 0x61), (2, 0x63), (3, 0x62)] }

theorem witness_EncsymTraps :
    (noCodeSt.codev = true ∧ noCodeSt.inLen.toNat ≤ noCodeSt.cfg.inCap ∧
        inputBytes noCodeSt = [0x61, 0x61] ++ 0x63 :: [0x62] ∧ (∀ c ∈ ([0x61, 0x61] : List Byte), codeLenAt noCodeSt c.toNat ≠ 0) ∧
        codeLenAt noCodeSt 0x63 = 0) ∧
      ∃ (s : State) (x y : List Byte) (b : Byte), s.codev = true ∧ s.inLen.toNat ≤ s.cfg.inCap ∧ inputBytes s = x ++ b :: y ∧
        (∀ c ∈ x, codeLenAt s c.toNat ≠ 0) ∧ (encOf (fun c => codeAt s c.toNat) x).length ≤ s.cfg.bitsCap ∧
        codeLenAt s b.toNat ≠ 0 ∧
        s.cfg.bitsCap < (encOf (fun c => codeAt s c.toNat) x).length + (codeLenAt s b.toNat).toNat :=
  ⟨by decide +kernel,
    { codeSt with codeLen := [(0x61, 3), (0x62, 1)], cfg := { inCap := 4, outCap := 1, bitsCap := 8 } }, [0x61, 0x61], [0x62], 0x61,
    by decide +kernel⟩

theorem witness_DecsymWalksTheTree :
    (outOf 4 bitSt).treev = true ∧ (outOf 4 bitSt).bitsv = true ∧ stateTree (outOf 4 bitSt) = some tree ∧ (outOf 4 bitSt).cfg.Allowed ∧
      (outOf 4 bitSt).outLen.toNat + (tree.walk (bitString (outOf 4 bitSt))).1.length = (outOf 4 bitSt).cfg.outCap := by decide +kernel

theorem witness_WalkOfEncodingIsTheText :
    tree.leaves.Nodup ∧ (∀ b ∈ ([0x61, 0x61, 0x62] : List Byte), b ∈ tree.leaves) ∧ (Tree.leaf 4 0x61).leaves.Nodup := by decide

theorem witness_EncodeWritesTheWireFormat :
    abSt.cfg.Allowed ∧ abSt.inLen ≠ 0 ∧ abSt.inLen.toNat ≤ abSt.cfg.inCap ∧
      (∃ b ∈ inputBytes abSt, ∃ c ∈ inputBytes abSt, b ≠ c) ∧ 1025 + 32 * abSt.inLen.toNat ≤ abSt.cfg.outCap ∧
      255 * abSt.inLen.toNat ≤ abSt.cfg.bitsCap ∧ ({ abSt with dgm := true }).dgm = true := by decide +kernel

/-- A core that runs ENCODE of "ab" with `n` bytes of OUT and `m` bits of BITS, and one that runs DECODE of some bytes. -/
def encodeSt (n m : Nat) : State := { running 0x70 abSt with cfg := { inCap := 65536, outCap := n, bitsCap := m } }

def decodeSt (bs : List Byte) : State := running 0x71 (loaded bs)

/-- The tree BUILD makes of "ab". -/
def abTree : Tree := .internal 2 (.leaf 1 0x61) (.leaf 1 0x62)

theorem witness_CompositeTraps :
    (((encodeSt 9 8).busy = true ∧ (encodeSt 9 8).done = false ∧ (encodeSt 9 8).err = 0 ∧ (encodeSt 9 8).einfo = 0 ∧
        (encodeSt 9 8).inLen.toNat ≤ (encodeSt 9 8).cfg.inCap ∧ (encodeSt 9 8).inLen ≠ 0) ∧
      State.reset.inLen = 0 ∧
      ((loaded [0x61]).cfg.Allowed ∧ (loaded [0x61]).inLen ≠ 0 ∧ (loaded [0x61]).inLen.toNat ≤ (loaded [0x61]).cfg.inCap ∧
        (loaded [0x61]).dgm = false ∧ ∀ c ∈ inputBytes (loaded [0x61]), c = 0x61) ∧
      ((encodeSt 9 8).cfg.Allowed ∧ (encodeSt 5 8).cfg.outCap < 2 * abTree.size ∧ 2 * abTree.size ≤ (encodeSt 8 8).cfg.outCap ∧
        (encodeSt 8 8).cfg.outCap < 2 * abTree.size + 3 ∧ (encOf abTree.codeOf (inputBytes (encodeSt 9 8))).length = 2 ∧
        (encodeSt 9 8).cfg.outCap < 2 * abTree.size + 3 + (2 + 7) / 8)) ∧
      ends (exec .clr (encodeSt 9 8) |> atStep 1 |> thenRun .count |> atStep 2 |> thenRun .build)
        (fun u => decide (u.err = 0 ∧ stateTree u = some abTree)) = true ∧
      ((decodeSt [0x27, 0x61]).dgm = false ∧ inputBytes (decodeSt [0x27, 0x61]) = 0x27 :: 0x61 :: []) ∧
      (inputBytes (decodeSt (tree.ser ++ [0x0A, 0x34, 0xE0])) = tree.ser ++ [0x0A, 0x34, 0xE0] ∧ tree.isInternal = true) ∧
      inputBytes (decodeSt (tree.ser ++ [0x0A, 0x31, 0x0A])) = tree.ser ++ [0x0A, BitVec.ofNat 8 (0x30 + 1), 0x0A] ++ [] ∧
      (({ decodeSt (tree.ser ++ [0x0A, 0x37, 0x0A, 1, 2]) with cfg := { inCap := 11, outCap := 1, bitsCap := 8 } }).cfg.bitsCap <
        8 * ([1, 2] : List Byte).length) ∧
      1 < (tree.walk (unpackOf [0xE0] 4)).1.length := by decide +kernel

/-- A header error at each of its three bytes. -/
theorem witness_CompositeTraps_header :
    HeaderError 6 [] 6 ∧ HeaderError 6 [0x0A, 0x38] 7 ∧ HeaderError 6 [0x0A, 0x34, 0xE0] 8 :=
  ⟨.first (by decide), .digit [0x38] rfl (by decide), .second 4 [0xE0] (by decide) rfl (by decide)⟩

/-- ENCODE needs bits beyond BITS: sixteen letters, eight bits of BITS. -/
theorem witness_CompositeTraps_bits :
    ∃ s u : State, s.busy = true ∧ s.done = false ∧ s.err = 0 ∧ s.einfo = 0 ∧ s.cfg.Allowed ∧ s.inLen ≠ 0 ∧ s.inLen.toNat ≤ s.cfg.inCap ∧
      (exec .clr s |> atStep 1 |> thenRun .count |> atStep 2 |> thenRun .build) = .next u ∧ u.err = 0 ∧
      ∃ T, stateTree u = some T ∧ 2 * T.size ≤ s.cfg.outCap ∧ s.cfg.bitsCap < (encOf T.codeOf (inputBytes s)).length := by
  have h : ends (exec .clr ({ decodeSt (List.replicate 8 0x61 ++ List.replicate 8 0x62) with cfg := { inCap := 16, outCap := 9, bitsCap := 8 } }) |>
      atStep 1 |> thenRun .count |> atStep 2 |> thenRun .build)
      (fun u => decide (u.err = 0 ∧ stateTree u = some (.internal 16 (.leaf 8 0x61) (.leaf 8 0x62)))) = true := by decide +kernel
  obtain ⟨u, hu, hp⟩ := exists_of_ends h
  obtain ⟨h1, h2⟩ := of_decide_eq_true hp
  exact ⟨_, u, rfl, rfl, rfl, rfl, by decide, by decide, by decide, hu, h1, _, h2, by decide, by decide +kernel⟩

theorem witness_DecodeExpandsTheWireFormat :
    ((loaded wire).cfg.Allowed ∧ (loaded wire).inLen.toNat ≤ (loaded wire).cfg.inCap ∧
      inputBytes (loaded wire) = tree.ser ++ [0x0A, BitVec.ofNat 8 (0x30 + 4), 0x0A] ++ [0xE0] ∧ tree.size ≤ 511 ∧
      tree.isInternal = true ∧ 4 ≤ 8 * ([0xE0] : List Byte).length ∧ 8 * ([0xE0] : List Byte).length ≤ (loaded wire).cfg.bitsCap ∧
      (tree.walk (unpackOf [0xE0] 4)).1.length ≤ (loaded wire).cfg.outCap) ∧
      ({ loaded [0x27, 0x61, 0x0A, 0x30, 0x0A, 0xFF] with dgm := true }).dgm = true ∧
      inputBytes { loaded [0x27, 0x61, 0x0A, 0x30, 0x0A, 0xFF] with dgm := true } =
        (Tree.leaf 0 0x61).ser ++ [0x0A, BitVec.ofNat 8 (0x30 + 0), 0x0A] ++ [0xFF] ∧
      ((Tree.leaf 0 0x61).walk (unpackOf [0xFF] 0)).1.length ≤ 65536 := by decide +kernel

/-- The core that decodes what a core in state `t` has written. -/
def decoderOf (t : State) : State := loaded (outputBytes t)

theorem witness_RoundTrip :
    ∃ t, exec .encode abSt = .next t ∧ abSt.cfg.Allowed ∧ abSt.err = 0 ∧ t.err = 0 ∧ (decoderOf t).cfg.Allowed ∧
      (decoderOf t).dgm = abSt.dgm ∧ (decoderOf t).inLen = t.outLen ∧ inputBytes (decoderOf t) = outputBytes t ∧
      (decoderOf t).inLen.toNat ≤ (decoderOf t).cfg.inCap ∧ 8 * t.payLen.toNat ≤ (decoderOf t).cfg.bitsCap ∧
      abSt.inLen.toNat ≤ (decoderOf t).cfg.outCap := by
  have h : ends (exec .encode abSt) (fun t => decide (abSt.cfg.Allowed ∧ abSt.err = 0 ∧ t.err = 0 ∧ (decoderOf t).cfg.Allowed ∧
      (decoderOf t).dgm = abSt.dgm ∧ (decoderOf t).inLen = t.outLen ∧ inputBytes (decoderOf t) = outputBytes t ∧
      (decoderOf t).inLen.toNat ≤ (decoderOf t).cfg.inCap ∧ 8 * t.payLen.toNat ≤ (decoderOf t).cfg.bitsCap ∧
      abSt.inLen.toNat ≤ (decoderOf t).cfg.outCap)) = true := by decide +kernel
  obtain ⟨t, ht, hp⟩ := exists_of_ends h
  exact ⟨t, ht, of_decide_eq_true hp⟩

end Sys2Proof.Tests
end

section
/-! PROOFS, the state (10_state.md): the layer that the invariants share. What a step can be, what the host can write, the procedure of
every command with its frame, and how an invariant of the other commands becomes one of the composite commands and of the step. -/

namespace Sys2Proof.Machine

/-! ## Ends of procedures -/

/-- A procedure ends in a state with `P`, or raises in one with `Q`; `Res.Keeps P` is the case `Q = P`. -/
def Res.Ends (P Q : State → Prop) (r : Res) : Prop :=
  (∀ t, r = .ok t → P t) ∧ ∀ c i t, r = .raise c i t → Q t

theorem Res.ends_ok {P Q : State → Prop} {s : State} (h : P s) : (Res.ok s).Ends P Q :=
  ⟨fun _ e => (by cases e; exact h), fun _ _ _ e => (by cases e)⟩

theorem Res.ends_raise {P Q : State → Prop} {c : CoreFault} {i : Word} {s : State} (h : Q s) : (Res.raise c i s).Ends P Q :=
  ⟨fun _ e => (by cases e), fun _ _ _ e => (by cases e; exact h)⟩

theorem Res.ends_endless {P Q : State → Prop} : Res.endless.Ends P Q :=
  ⟨fun _ e => (by cases e), fun _ _ _ e => (by cases e)⟩

theorem Res.Ends.andThen {P P' Q : State → Prop} {r : Res} {f : State → Res} (hr : r.Ends P Q)
    (hf : ∀ s, P s → (f s).Ends P' Q) : (r.andThen f).Ends P' Q := by
  cases r with
  | ok s => exact hf s (hr.1 s rfl)
  | raise c i s => exact Res.ends_raise (hr.2 c i s rfl)
  | endless => exact Res.ends_endless

/-- What a frame entails at the end of a procedure. -/
theorem Res.Keeps.ends {F P Q : State → Prop} {r : Res} (h : r.Keeps F) (hP : ∀ t, F t → P t) (hQ : ∀ t, P t → Q t) : r.Ends P Q :=
  ⟨fun t ht => hP t (h.1 t ht), fun c i t ht => hQ t (hP t (h.2 c i t ht))⟩

/-- The end of a command (R94, R290), for a property that completion keeps and fault entry establishes. -/
theorem Res.Ends.finish {P Q : State → Prop} {r : Res} (hr : r.Ends P Q) (hok : ∀ s, P s → P (complete s))
    (hfault : ∀ c i s, Q s → P (faulted c i s)) {t : State} (h : finish r = .next t) : P t := by
  rcases finish_eq_next.1 h with ⟨s, hs, rfl⟩ | ⟨c, i, s, hs, rfl⟩
  · exact hok s (hr.1 s hs)
  · exact hfault c i s (hr.2 c i s hs)

/-! ## The commands' procedures -/

/-- The procedure that a command runs between its acceptance and its completion. -/
def opOf : Instr → State → Res
  | .nop => opNop
  | .clr => opClr
  | .pqInsert n => opPqInsert n
  | .pqExtract => opPqExtract
  | .count => opCount
  | .mkleaves => opMkleaves
  | .merge => opMerge
  | .setroot => opSetroot
  | .build => opBuild
  | .gencode => opGencode
  | .serialize => opSerialize
  | .deserialize => opDeserialize
  | .wrhdr => opWrhdr
  | .pack => opPack
  | .rdhdr => opRdhdr
  | .unpack => opUnpack
  | .encsym => opEncsym
  | .decsym => opDecsym
  | .encode => opEncode
  | .decode => opDecode

theorem exec_eq_finish (i : Instr) (s : State) : exec i s = finish (opOf i s) := by cases i <;> rfl

/-- ENCODE and DECODE run other commands' procedures one after the other (R255, R260). -/
def isComposite : Instr → Bool
  | .encode | .decode => true
  | _ => false

/-- What a command that is not composite can change at all; nothing is said of the composite ones. -/
def Frame : Instr → State → State → Prop
  | .nop, s, t => t = s
  | .clr, s, t => t = faultReturn s
  | .pqInsert _, s, t => t = { s with heap := t.heap, hsize := t.hsize }
  | .pqExtract, s, t => t = { s with heap := t.heap, hsize := t.hsize, pqOut := t.pqOut }
  | .count, s, t => t = { s with freq := t.freq }
  | .merge, s, t => t = { s with
      treev := t.treev, codev := t.codev, degen := t.degen, heap := t.heap, hsize := t.hsize, pqOut := t.pqOut,
      node := t.node, nnode := t.nnode }
  | .setroot, s, t => t = { s with
      codev := t.codev, heap := t.heap, hsize := t.hsize, pqOut := t.pqOut, root := t.root, degen := t.degen, treev := t.treev }
  | .mkleaves, s, t | .build, s, t => t = { s with
      treev := t.treev, codev := t.codev, degen := t.degen, nnode := t.nnode, root := t.root, hsize := t.hsize, pqOut := t.pqOut,
      node := t.node, heap := t.heap }
  | .gencode, s, t => t = { s with codeLen := t.codeLen, codeBits := t.codeBits, codev := t.codev }
  | .serialize, s, t => t = { s with outBuf := t.outBuf, outLen := t.outLen }
  | .deserialize, s, t => t = { s with
      treev := t.treev, codev := t.codev, degen := t.degen, nnode := t.nnode, root := t.root, hsize := t.hsize, pqOut := t.pqOut,
      node := t.node, heap := t.heap, cur := t.cur }
  | .wrhdr, s, t => t = { s with rem := t.rem, outBuf := t.outBuf, outLen := t.outLen }
  | .pack, s, t => t = { s with rem := t.rem, outBuf := t.outBuf, outLen := t.outLen, payLen := t.payLen }
  | .rdhdr, s, t => t = { s with rem := t.rem, cur := t.cur, hdrv := t.hdrv }
  | .unpack, s, t => t = { s with bits := t.bits, bitLen := t.bitLen, payLen := t.payLen, cur := t.cur, bitsv := t.bitsv }
  | .encsym, s, t => t = { s with bits := t.bits, bitLen := t.bitLen, bitsv := t.bitsv }
  | .decsym, s, t => t = { s with outBuf := t.outBuf, outLen := t.outLen, resid := t.resid }
  | .encode, _, _ | .decode, _, _ => True

theorem opOf_frame (i : Instr) (s : State) : (opOf i s).Keeps (Frame i s) := by
  cases i with
  | nop => exact Res.keeps_ok rfl
  | clr => exact Res.keeps_ok rfl
  | pqInsert n => exact opPqInsert_frame n s
  | pqExtract => exact pqExtract_frame s
  | count => exact opCount_frame s
  | mkleaves => exact opMkleaves_frame s
  | merge => exact opMerge_frame s
  | setroot => exact opSetroot_frame s
  | build => exact opBuild_frame s
  | gencode => exact opGencode_frame s
  | serialize => exact opSerialize_frame s
  | deserialize => exact opDeserialize_frame s
  | wrhdr => exact opWrhdr_frame s
  | pack => exact opPack_frame s
  | rdhdr => exact opRdhdr_frame s
  | unpack => exact opUnpack_frame s
  | encsym => exact opEncsym_frame s
  | decsym => exact opDecsym_frame s
  | encode => exact ⟨fun _ _ => trivial, fun _ _ _ _ => trivial⟩
  | decode => exact ⟨fun _ _ => trivial, fun _ _ _ _ => trivial⟩

/-! ## The composite commands -/

section Composite

variable {P Q : State → Prop}

theorem checkIn_ends {s : State} (hP : P s) (hQ : Q s) : (checkIn s).Ends P Q :=
  ⟨fun t h => by rw [(checkIn_frame s).1 t h]; exact hP, fun c i t h => by rw [(checkIn_frame s).2 c i t h]; exact hQ⟩

theorem decodeStart_ends {s : State} (hQ : Q s) (hP : P (clrw s)) : (decodeStart s).Ends P Q :=
  (checkIn_ends (P := fun t => P (clrw t)) hP hQ).andThen fun _ h => Res.ends_ok h

theorem encodeStart_ends {s : State} (hQ : Q s) (hP : P (clrw s)) : (encodeStart s).Ends P Q := by
  unfold encodeStart; split
  · exact Res.ends_raise hQ
  · exact decodeStart_ends hQ hP

/-- ENCODE (R255): what its first step establishes and every later one keeps, it ends with. -/
theorem opEncode_ends {s : State} (hstart : (encodeStart (setSeq 0 s)).Ends P Q)
    (hseq : ∀ n ≤ 8, ∀ s, P s → P (setSeq n s))
    (hop : ∀ i ∈ [Instr.count, .build, .gencode, .serialize, .encsym, .wrhdr, .pack], ∀ s, P s → (opOf i s).Ends P Q) :
    (opEncode s).Ends P Q := by
  have hstep : ∀ n ≤ 8, ∀ i ∈ [Instr.count, .build, .gencode, .serialize, .encsym, .wrhdr, .pack],
      ∀ s, P s → (stepOf n (opOf i) s).Ends P Q := fun n hn i hi s h => hop i hi _ (hseq n hn s h)
  have h1 := hstart.andThen (hstep 1 (by decide) .count (by decide))
  have h2 := h1.andThen (hstep 2 (by decide) .build (by decide))
  have h3 := h2.andThen (hstep 3 (by decide) .gencode (by decide))
  have h4 := h3.andThen (hstep 4 (by decide) .serialize (by decide))
  have h5 := h4.andThen (hstep 5 (by decide) .encsym (by decide))
  have h6 := h5.andThen (hstep 6 (by decide) .wrhdr (by decide))
  have h7 := h6.andThen (hstep 7 (by decide) .pack (by decide))
  exact h7.andThen fun s h => Res.ends_ok (hseq 8 (by decide) s h)

/-- DECODE (R260), likewise. -/
theorem opDecode_ends {s : State} (hstart : (decodeStart (setSeq 0 s)).Ends P Q)
    (hseq : ∀ n ≤ 8, ∀ s, P s → P (setSeq n s))
    (hop : ∀ i ∈ [Instr.deserialize, .rdhdr, .unpack, .decsym], ∀ s, P s → (opOf i s).Ends P Q) : (opDecode s).Ends P Q := by
  have hstep : ∀ n ≤ 8, ∀ i ∈ [Instr.deserialize, .rdhdr, .unpack, .decsym], ∀ s, P s → (stepOf n (opOf i) s).Ends P Q :=
    fun n hn i hi s h => hop i hi _ (hseq n hn s h)
  have h1 := hstart.andThen (hstep 1 (by decide) .deserialize (by decide))
  have h2 := h1.andThen (hstep 2 (by decide) .rdhdr (by decide))
  have h3 := h2.andThen (hstep 3 (by decide) .unpack (by decide))
  have h4 := h3.andThen (hstep 4 (by decide) .decsym (by decide))
  exact h4.andThen fun s h => Res.ends_ok (hseq 5 (by decide) s h)

end Composite

/-- What makes `P` an invariant of the commands: every command that is not composite keeps it, raising at worst in a state with `Q`, and
what composite commands, completion and fault entry do besides keeps it too. -/
structure KeptByCommands (P Q : State → Prop) : Prop where
  weaken : ∀ s, P s → Q s
  command : ∀ i, isComposite i = false → ∀ s, P s → (opOf i s).Ends P Q
  setSeq : ∀ n ≤ 8, ∀ s, P s → P (setSeq n s)
  clrw : ∀ s, P s → P (clrw s)
  complete : ∀ s, P s → P (complete s)
  fault : ∀ c i s, Q s → P (faulted c i s)

theorem KeptByCommands.opOf {P Q : State → Prop} (h : KeptByCommands P Q) (i : Instr) {s : State} (hs : P s) :
    (opOf i s).Ends P Q := by
  have h0 := h.setSeq 0 (by decide) s hs
  have hop : ∀ l : List Instr, (∀ j ∈ l, isComposite j = false) → ∀ j ∈ l, ∀ s, P s → (Machine.opOf j s).Ends P Q :=
    fun l hl j hj s hs => h.command j (hl j hj) s hs
  cases i with
  | encode => exact opEncode_ends (encodeStart_ends (h.weaken _ h0) (h.clrw _ h0)) h.setSeq (hop _ (by decide))
  | decode => exact opDecode_ends (decodeStart_ends (h.weaken _ h0) (h.clrw _ h0)) h.setSeq (hop _ (by decide))
  | _ => exact h.command _ rfl s hs

theorem KeptByCommands.exec {P Q : State → Prop} (h : KeptByCommands P Q) {i : Instr} {s t : State} (hs : P s)
    (ht : exec i s = .next t) : P t :=
  (h.opOf i hs).finish h.complete h.fault (by rwa [exec_eq_finish] at ht)

/-! ## Steps -/

/-- What a transaction of the host can change while the core is idle (R61, R75). -/
inductive HostWrite (s : State) : State → Prop where
  | nothing : HostWrite s s
  | ctrl (v : Word) : HostWrite s (writeCtrl v s)
  | accepted (v : Word) : HostWrite s { s with cmd := v, done := false, busy := true, seq := 0 }
  | status (v : Word) : HostWrite s (writeStatus v s)
  | inLen (v : Word) : HostWrite s { s with inLen := v }
  | freq (i : Nat) (v : Word) : HostWrite s (setFreq s i v)
  | input (i : Nat) (v : Byte) : HostWrite s (setIn s i v)

theorem writeWord_hostWrite (s : State) (v : Word) (i : WordItem) : HostWrite s (writeWord s v i) := by
  cases i with
  | ctrl => exact .ctrl v
  | cmd =>
    show HostWrite s (offerCommand v s)
    unfold offerCommand; split
    · exact .nothing
    · exact .accepted v
  | status => exact .status v
  | inLen => exact .inLen v
  | freq i => exact .freq i v
  | _ => exact .nothing

theorem writeByte_hostWrite (s : State) (v : Byte) (i : ByteItem) : HostWrite s (writeByte s v i) := by
  cases i with
  | inp i => exact .input i v
  | out _ => exact .nothing

/-- A transaction (R60): the host writes something, or nothing, and gets its answer. -/
theorem transact_cases (x : Txn) (s : State) : ∃ r u, HostWrite s u ∧ transact x s = respond r u := by
  have hno : ∀ r, ∃ r' u, HostWrite s u ∧ respond r s = respond r' u := fun r => ⟨r, s, .nothing, rfl⟩
  unfold transact
  split
  · unfold busyTransact; split
    · exact hno _
    · exact hno _
  · unfold idleTransact
    cases x with
    | read4 a => dsimp only; split <;> exact hno _
    | read1 a => dsimp only; split <;> exact hno _
    | write4 a v =>
      dsimp only; split
      · exact ⟨_, _, writeWord_hostWrite s v _, rfl⟩
      · exact hno _
    | write1 a v =>
      dsimp only; split
      · exact ⟨_, _, writeByte_hostWrite s v _, rfl⟩
      · exact hno _

/-- What a step can be, the host having `rest` to do after it. -/
inductive StepCase (s t : State) (rest : List HostMove) : Prop where
  | idle (h : t = { s with host := rest })
  | runs (i : Instr) (hi : Runs i s) (h : exec i { s with host := rest } = .next t)
  | illegal (h : t = faulted .illegal s.cmd { s with host := rest })
  | bus (r : Response) (u : State) (hu : HostWrite { s with host := rest } u) (h : t = respond r u)
  | reset (h : t = assertReset { s with host := rest })

theorem coreTurn_cases {s t : State} {rest : List HostMove} (hh : s.host = [] ∨ ∃ rest, s.host = .wait :: rest)
    (h : coreTurn { s with host := rest } = .next t) : StepCase s t rest := by
  unfold coreTurn at h
  split at h
  · next hb =>
    unfold runCommand at h
    split at h
    · next i hi => exact .runs i ⟨hb, hh, hi⟩ h
    · exact .illegal (by rw [execIllegal, finish_raise] at h; cases h; rfl)
  · exact .idle (by cases h; rfl)

theorem step_cases {s t : State} (h : step s = .next t) : ∃ rest, StepCase s t rest := by
  unfold step turn at h
  split at h
  · next hh => exact ⟨s.host, coreTurn_cases (.inl hh) h⟩
  · next m rest hh =>
    refine ⟨rest, ?_⟩
    cases m with
    | txn x =>
      obtain ⟨r, u, hu, he⟩ := transact_cases x { s with host := rest }
      exact .bus r u hu (by rw [← he]; cases h; rfl)
    | wait => exact coreTurn_cases (.inr ⟨rest, hh⟩) h
    | rst => exact .reset (by cases h; rfl)

/-- What makes `P` an invariant of the steps, the commands apart. -/
structure KeptByHost (P : State → Prop) : Prop where
  host : ∀ s m, P s → P { s with host := m }
  answer : ∀ s r, P s → P (respond r s)
  write : ∀ s t, HostWrite s t → P s → P t
  reset : ∀ s, P s → P (assertReset s)

/-- An invariant of the commands and of the host is one of the steps. -/
theorem step_keeps {P Q : State → Prop} (hc : KeptByCommands P Q) (hh : KeptByHost P) {s t : State} (h : step s = .next t)
    (hs : P s) : P t := by
  obtain ⟨rest, h⟩ := step_cases h
  have h0 := hh.host s rest hs
  cases h with
  | idle h => rw [h]; exact h0
  | runs i hi h => exact hc.exec h0 h
  | illegal h => rw [h]; exact hc.fault _ _ _ (hc.weaken _ h0)
  | bus r u hu h => rw [h]; exact hh.answer u r (hh.write _ u hu h0)
  | reset h => rw [h]; exact hh.reset _ h0

/-! ## The host's side (R48, R94, R290) -/

/-- The part of the state that the host owns, with the model's own fields. -/
def hostSide (s : State) : (Bool × Bool × Word × Word) × List Host.Cell × Config.Params × List HostMove × List Response × Nat :=
  ((s.dgm, s.ie, s.cmd, s.inLen), s.inBuf, s.cfg, s.host, s.log, s.resets)

theorem frame_hostSide {i : Instr} (hi : isComposite i = false) {s t : State} (h : Frame i s t) : hostSide t = hostSide s := by
  cases i
  case encode | decode => cases hi
  all_goals exact (congrArg hostSide h :)

theorem hostSide_kept (s : State) : KeptByCommands (fun t => hostSide t = hostSide s) fun t => hostSide t = hostSide s where
  weaken _ h := h
  command i hi u hu := (opOf_frame i u).ends (fun _ ht => (frame_hostSide hi ht).trans hu) fun _ h => h
  setSeq _ _ _ h := h
  clrw _ h := h
  complete _ h := h
  fault _ _ _ h := h

theorem frame_freq {i : Instr} (hi : isComposite i = false) (hc : i ≠ .count) {s t : State} (h : Frame i s t) : t.freq = s.freq := by
  cases i
  case count => exact absurd rfl hc
  case encode | decode => cases hi
  all_goals exact (congrArg State.freq h :)

/-- Only COUNT writes FREQ, and ENCODE through it (R132). -/
theorem opOf_freq {i : Instr} (hc : i ≠ .count) (he : i ≠ .encode) (s : State) :
    (opOf i s).Ends (fun t => t.freq = s.freq) fun t => t.freq = s.freq := by
  have hframe : ∀ i, i ≠ .count → isComposite i = false → ∀ u : State, u.freq = s.freq →
      (opOf i u).Ends (fun t => t.freq = s.freq) fun t => t.freq = s.freq := fun i hc hi u hu =>
    (opOf_frame i u).ends (fun _ ht => (frame_freq hi hc ht).trans hu) fun _ h => h
  cases i with
  | encode => exact absurd rfl he
  | decode =>
    refine opDecode_ends (decodeStart_ends rfl rfl) (fun _ _ _ h => h) fun j hj => hframe j ?_ ?_
    · rintro rfl; simp at hj
    · revert hj; revert j; decide
  | _ => exact hframe _ hc rfl s rfl

/-- Settles O17: the frames of the commands on the host's side, the composite ones step by step. -/
theorem commandsKeepTheHostSide : Obligations.CommandsKeepTheHostSide := by
  intro i s t h
  have hside := (hostSide_kept s).exec (i := i) rfl h
  simp only [hostSide, Prod.mk.injEq] at hside
  obtain ⟨⟨hdgm, hie, hcmd, hlen⟩, hin, hcfg, hhost, hlog, hres⟩ := hside
  have hend : t.busy = false ∧ t.done = true := by
    rw [exec_eq_finish] at h
    rcases finish_eq_next.1 h with ⟨u, -, rfl⟩ | ⟨c, w, u, -, rfl⟩
    · exact ⟨rfl, rfl⟩
    · exact ⟨rfl, rfl⟩
  refine ⟨hend.1, hend.2, hdgm, hie, hcmd, hlen, hin, hcfg, hhost, hlog, hres, fun a => ?_, fun hc he => ?_⟩
  · rw [inByte, hin, hres]; rfl
  · exact (opOf_freq hc he s).finish (fun _ h => h) (fun _ _ _ h => h) (by rwa [exec_eq_finish] at h)

end Sys2Proof.Machine
end

section
/-! PROOFS, the state (10_state.md): the bits of STATUS, the ranges of the registers, and CODEBITS beyond the code. -/

namespace Sys2Proof.Machine

/-! ## STATUS (R24) -/

theorem getLsbD_flagBit (b : Bool) {k : Nat} (hk : k < 32) (i : Nat) : (flagBit b k).getLsbD i = (b && decide (i = k)) := by
  cases b
  · simp [flagBit]
  · by_cases h : i = k
    · subst h; simp [flagBit, hk]
    · simp [flagBit, h]; omega

/-- Settles O12: each flag has its own bit of the word. -/
theorem statusWordBits : Obligations.StatusWordBits := by
  intro s i
  simp only [statusWord, BitVec.getLsbD_or, getLsbD_flagBit _ (show 0 < 32 by decide), getLsbD_flagBit _ (show 1 < 32 by decide),
    getLsbD_flagBit _ (show 2 < 32 by decide), getLsbD_flagBit _ (show 3 < 32 by decide), getLsbD_flagBit _ (show 4 < 32 by decide),
    getLsbD_flagBit _ (show 5 < 32 by decide), getLsbD_flagBit _ (show 6 < 32 by decide), getLsbD_flagBit _ (show 7 < 32 by decide),
    getLsbD_flagBit _ (show 8 < 32 by decide), errf]
  match i with
  | 0 | 1 | 2 | 3 | 4 | 5 | 6 | 7 | 8 => simp
  | n + 9 => simp

/-! ## The ranges of ERR, EINFO, SEQ and DONE (R25, R26, R27, R94, R280) -/

theorem CoreFault.code_le (c : CoreFault) : c.code.toNat ≤ 9 := by cases c <;> decide

theorem registerRanges_clear {s : State} (he : s.err = 0) (hi : s.einfo = 0) (hs : s.seq = 0) (hd : s.busy = true → s.done = false) :
    RegisterRanges s := ⟨by rw [he]; decide, fun _ => hi, by rw [hs]; decide, hd⟩

/-- The registers that only faults, CLR, acceptance, completion and composite commands write. -/
def faultRegisters (s : State) : BitVec 8 × Word × BitVec 4 × Bool × Bool := (s.err, s.einfo, s.seq, s.busy, s.done)

theorem registerRanges_congr {s t : State} (h : faultRegisters t = faultRegisters s) (hs : RegisterRanges s) : RegisterRanges t := by
  simp only [faultRegisters, Prod.mk.injEq] at h
  obtain ⟨he, hi, hq, hb, hd⟩ := h
  simp only [RegisterRanges, he, hi, hq, hb, hd]; exact hs

theorem frame_registerRanges {i : Instr} (hi : isComposite i = false) {s t : State} (h : Frame i s t) (hs : RegisterRanges s) :
    RegisterRanges t := by
  cases i
  case clr => rw [show t = faultReturn s from h]; exact registerRanges_clear rfl rfl rfl hs.2.2.2
  case encode | decode => cases hi
  all_goals exact registerRanges_congr (congrArg faultRegisters h :) hs

theorem registerRanges_commands : KeptByCommands RegisterRanges fun s => s.seq.toNat ≤ 8 where
  weaken _ h := h.2.2.1
  command i hi s hs := (opOf_frame i s).ends (fun _ ht => frame_registerRanges hi ht hs) fun _ h => h.2.2.1
  setSeq n hn s h := by
    obtain ⟨h1, h2, -, h4⟩ := h
    exact ⟨h1, h2, by simp only [setSeq_seq, BitVec.toNat_ofNat]; omega, h4⟩
  clrw _ h := h
  complete s h := by
    obtain ⟨h1, h2, h3, -⟩ := h
    exact ⟨h1, h2, h3, fun hb => by cases hb⟩
  fault c i s h := ⟨c.code_le, fun hc => absurd hc (faulted_err_ne c i s), h, fun hb => by cases hb⟩

theorem registerRanges_host : KeptByHost RegisterRanges where
  host _ _ h := h
  answer _ _ h := h
  reset _ _ := registerRanges_clear rfl rfl rfl fun hb => by cases hb
  write s t ht h := by
    obtain ⟨h1, h2, h3, h4⟩ := h
    cases ht with
    | accepted v => exact ⟨h1, h2, Nat.zero_le 8, fun _ => rfl⟩
    | status v => exact ⟨h1, h2, h3, fun hb => by rw [writeStatus_done, h4 hb]; rfl⟩
    | nothing | ctrl | inLen | freq | input => exact ⟨h1, h2, h3, h4⟩

/-! ## OUT_LEN and BITLEN within the parameters (R29, R33, R47 (f)) -/

section OutAppend

variable {P Q : State → Prop} (hout : ∀ b s, P s → (outAppend b s).Ends P Q)

include hout

/-- What OutAppend keeps, appending a list keeps. -/
theorem appendAll_ends (bs : List Byte) {s : State} (hs : P s) : (appendAll bs s).Ends P Q := by
  induction bs generalizing s with
  | nil => exact Res.ends_ok hs
  | cons b bs ih => exact (hout b s hs).andThen fun _ h => ih h

/-- What OutAppend keeps, SERIALIZE's walk keeps (R175). -/
theorem serNode_ends (f i : Nat) {s : State} (hs : P s) : (serNode f i s).Ends P Q := by
  induction f generalizing i s with
  | zero => exact Res.ends_endless
  | succ f ih =>
    unfold serNode; split
    · exact (hout _ s hs).andThen (hout _)
    · exact (((hout _ s hs).andThen fun _ h => ih _ h).andThen (hout _)).andThen fun _ h => ih _ h

variable (hregs : ∀ s r n b, P s → P { s with rem := r, payLen := n, resid := b })

include hregs

/-- What OutAppend and a write of RESID keep, DECSYM's loop keeps (R240). -/
theorem decodeBits_ends (B : List Bool) (p : NodeIx) {s : State} (hs : P s) : (decodeBits B p s).Ends P Q := by
  induction B generalizing p s with
  | nil => exact Res.ends_ok (hregs s s.rem s.payLen _ hs)
  | cons b B ih =>
    unfold decodeBits; split
    · exact (hout _ s hs).andThen fun _ h => ih _ h
    · split
      · exact (hout _ s hs).andThen fun _ h => ih _ h
      · exact ih _ hs

/-- What OutAppend and writes of REM, PAY_LEN and RESID keep, the commands that write OUT keep. -/
theorem outCommand_ends (hQ : ∀ s, P s → Q s) {i : Instr} (hi : i ∈ [Instr.serialize, .wrhdr, .pack, .decsym]) {s : State} (hs : P s) :
    (opOf i s).Ends P Q := by
  have hrem : P (setRem s) := hregs s _ s.payLen s.resid hs
  simp only [List.mem_cons, List.not_mem_nil, or_false] at hi
  rcases hi with rfl | rfl | rfl | rfl
  · show (opSerialize s).Ends P Q
    unfold opSerialize; split
    · exact Res.ends_raise (hQ s hs)
    · exact serNode_ends hout _ _ hs
  · show (opWrhdr s).Ends P Q
    unfold opWrhdr; split
    · exact Res.ends_raise (hQ s hs)
    · exact appendAll_ends hout _ hrem
  · show (opPack s).Ends P Q
    unfold opPack; split
    · exact Res.ends_raise (hQ s hs)
    · exact (appendAll_ends hout _ hrem).andThen fun t h => Res.ends_ok (hregs t t.rem _ t.resid h)
  · show (opDecsym s).Ends P Q
    unfold opDecsym; split
    · exact Res.ends_raise (hQ s hs)
    · exact decodeBits_ends hout hregs _ _ hs

end OutAppend

/-- The lengths that R47 (f) bounds, and their bounds. -/
def lengths (s : State) : Word × Word × Config.Params := (s.outLen, s.bitLen, s.cfg)

theorem lengthsFit_congr {s t : State} (h : lengths t = lengths s) (hs : LengthsFit s) : LengthsFit t := by
  simp only [lengths, Prod.mk.injEq] at h
  obtain ⟨ho, hb, hc⟩ := h
  simp only [LengthsFit, ho, hb, hc]; exact hs

theorem lengthsFit_zero {s : State} (hc : s.cfg.Allowed) (ho : s.outLen = 0) (hb : s.bitLen = 0) : LengthsFit s :=
  ⟨hc, by rw [ho]; exact Nat.zero_le _, by rw [hb]; exact Nat.zero_le _⟩

theorem lengthsFit_outAppend (b : Byte) (s : State) (hs : LengthsFit s) : (outAppend b s).Ends LengthsFit fun s => s.cfg.Allowed := by
  obtain ⟨hc, ho, hb⟩ := hs
  unfold outAppend; split
  · exact Res.ends_raise hc
  · refine Res.ends_ok ⟨hc, ?_, hb⟩
    have h1 : (s.outLen + 1).toNat ≤ s.outLen.toNat + 1 := by rw [BitVec.toNat_add]; exact Nat.mod_le _ _
    show (s.outLen + 1).toNat ≤ s.cfg.outCap
    omega

theorem word_toNat_le (n : Nat) : (word n).toNat ≤ n := by rw [BitVec.toNat_ofNat]; exact Nat.mod_le _ _

theorem lengthsFit_opUnpack {s : State} (hs : LengthsFit s) : (opUnpack s).Ends LengthsFit fun s => s.cfg.Allowed := by
  unfold opUnpack; split
  · exact Res.ends_raise hs.1
  · refine (checkIn_ends (P := LengthsFit) hs hs.1).andThen fun s hs => ?_
    split
    · exact Res.ends_raise hs.1
    · split
      · exact Res.ends_raise hs.1
      · split
        · exact Res.ends_raise hs.1
        · refine Res.ends_ok ⟨hs.1, hs.2.1, (word_toNat_le _).trans ?_⟩
          show _ ≤ s.cfg.bitsCap
          omega

theorem lengthsFit_opEncsym {s : State} (hs : LengthsFit s) : (opEncsym s).Ends LengthsFit fun s => s.cfg.Allowed := by
  unfold opEncsym; split
  · exact Res.ends_raise hs.1
  · refine (checkIn_ends (P := LengthsFit) hs hs.1).andThen fun s hs => ?_
    obtain ⟨hok, hraise, -, -⟩ := encodeFrom_frame (inputBytes s) 0 0 s (Nat.zero_le _)
    refine ⟨fun t ht => ?_, fun c w t ht => by rw [hraise c w t ht]; exact hs.1⟩
    obtain ⟨hf, l, hl, hb⟩ := hok t ht
    have hcfg : t.cfg = s.cfg := by rw [hf]
    have hout : t.outLen = s.outLen := by rw [hf]
    exact ⟨hcfg ▸ hs.1, by rw [hout, hcfg]; exact hs.2.1, by rw [hb, hcfg]; exact (word_toNat_le l).trans hl⟩

theorem lengthsFit_command {i : Instr} (hi : isComposite i = false) {s : State} (hs : LengthsFit s) :
    (opOf i s).Ends LengthsFit fun s => s.cfg.Allowed := by
  have hframe : (∀ t, Frame i s t → LengthsFit t) → (opOf i s).Ends LengthsFit fun s => s.cfg.Allowed :=
    fun h => (opOf_frame i s).ends h fun _ h => h.1
  cases i
  case encode | decode => cases hi
  case clr => exact Res.ends_ok (lengthsFit_zero hs.1 rfl rfl)
  case unpack => exact lengthsFit_opUnpack hs
  case encsym => exact lengthsFit_opEncsym hs
  case serialize | wrhdr | pack | decsym =>
    exact outCommand_ends lengthsFit_outAppend (fun _ _ _ _ h => h) (fun _ h => h.1) (by simp) hs
  all_goals exact hframe fun t ht => lengthsFit_congr (congrArg lengths ht :) hs

theorem lengthsFit_commands : KeptByCommands LengthsFit fun s => s.cfg.Allowed where
  weaken _ h := h.1
  command _ hi _ hs := lengthsFit_command hi hs
  setSeq _ _ _ h := h
  clrw _ h := lengthsFit_zero h.1 rfl rfl
  complete _ h := h
  fault _ _ _ h := lengthsFit_zero h rfl rfl

theorem lengthsFit_host : KeptByHost LengthsFit where
  host _ _ h := h
  answer _ _ h := h
  reset _ h := lengthsFit_zero h.1 rfl rfl
  write s t ht h := by
    cases ht with
    | nothing | accepted | ctrl | status | inLen | freq | input => exact h

/-- Settles O24: the commands' frames and the writes of OUT and BITS keep the ranges, and so does every move of the host. -/
theorem stepKeepsRegisterRanges : Obligations.StepKeepsRegisterRanges := fun _ _ h =>
  ⟨step_keeps registerRanges_commands registerRanges_host h, step_keeps lengthsFit_commands lengthsFit_host h⟩

/-! ## CODEBITS beyond the code (R42) -/

theorem codeBitsMasked_empty {s : State} (h : s.codeBits = []) : CodeBitsMasked s := by
  intro b _ j _ _
  rw [codeBitsAt, h, tableGet_nil]; simp

/-- The code table. -/
def codeTables (s : State) : Table (BitVec 8) × Table (BitVec 256) := (s.codeLen, s.codeBits)

theorem codeBitsMasked_congr {s t : State} (h : codeTables t = codeTables s) (hs : CodeBitsMasked s) : CodeBitsMasked t := by
  simp only [codeTables, Prod.mk.injEq] at h
  obtain ⟨hl, hb⟩ := h
  simp only [CodeBitsMasked, codeLenAt, codeBitsAt, hl, hb]; exact hs

theorem codeBitsMasked_opGencode (s : State) : (opGencode s).Ends CodeBitsMasked fun _ => True := by
  refine ⟨fun t ht => ?_, fun _ _ _ _ => trivial⟩
  unfold opGencode at ht
  split at ht
  · cases ht
  · obtain ⟨u, hu, ht⟩ := andThen_eq_ok.1 ht
    have h0 : CodeBitsMasked { s with codeLen := [], codeBits := [] } := codeBitsMasked_empty rfl
    suffices CodeBitsMasked u by cases ht; exact this
    unfold genCodes at hu
    split at hu
    · cases hu; exact CodeBitsMasked_setCode h0 _ (by decide)
    · exact walkCodes_masked h0 hu

theorem codeBitsMasked_command {i : Instr} (hi : isComposite i = false) {s : State} (hs : CodeBitsMasked s) :
    (opOf i s).Ends CodeBitsMasked fun _ => True := by
  have hframe : (∀ t, Frame i s t → CodeBitsMasked t) → (opOf i s).Ends CodeBitsMasked fun _ => True :=
    fun h => (opOf_frame i s).ends h fun _ _ => trivial
  cases i
  case encode | decode => cases hi
  case clr => exact Res.ends_ok (codeBitsMasked_empty rfl)
  case gencode => exact codeBitsMasked_opGencode s
  all_goals exact hframe fun t ht => codeBitsMasked_congr (congrArg codeTables ht :) hs

theorem codeBitsMasked_commands : KeptByCommands CodeBitsMasked fun _ => True where
  weaken _ _ := trivial
  command _ hi _ hs := codeBitsMasked_command hi hs
  setSeq _ _ _ h := h
  clrw _ _ := codeBitsMasked_empty rfl
  complete _ h := h
  fault _ _ _ _ := codeBitsMasked_empty rfl

theorem codeBitsMasked_host : KeptByHost CodeBitsMasked where
  host _ _ h := h
  answer _ _ h := h
  reset _ _ := codeBitsMasked_empty rfl
  write s t ht h := by
    cases ht with
    | nothing | accepted | ctrl | status | inLen | freq | input => exact h

/-- Settles O25: only GENCODE writes the code table, from the empty one, and each code it records fits. -/
theorem stepKeepsCodeBitsMasked : Obligations.StepKeepsCodeBitsMasked := fun _ _ hs h =>
  step_keeps codeBitsMasked_commands codeBitsMasked_host h hs

end Sys2Proof.Machine
end

section
/-! PROOFS, the state (10_state.md): the tables and buffers stay in their canonical form (log 15). -/

namespace Sys2Proof.Machine

/-- The canonical form of the tables that fault entry leaves as they are (R290). -/
def HostTablesWf (s : State) : Prop := tableWf 0 s.freq ∧ tableWf 0 s.outBuf ∧ tableSorted s.inBuf

theorem Memory.wf.hostTables {s : State} (h : Memory.wf s) : HostTablesWf s := by
  obtain ⟨hf, -, -, -, -, -, ho, hi⟩ := h
  exact ⟨hf, ho, hi⟩

theorem memory_wf_faulted {s : State} (h : HostTablesWf s) (c : CoreFault) (i : Word) : Memory.wf (faulted c i s) := by
  obtain ⟨hf, ho, hi⟩ := h
  exact ⟨hf, tableWf_nil 0, tableWf_nil _, tableWf_nil 0, tableWf_nil 0, tableWf_nil false, ho, hi⟩

/-- A procedure that keeps the canonical form wherever it ends. -/
theorem Res.Keeps.ends_wf {r : Res} (h : r.Keeps Memory.wf) : r.Ends Memory.wf HostTablesWf :=
  h.ends (fun _ h => h) fun _ h => h.hostTables

/-! ## The procedures -/

theorem memory_wf_opCount {s : State} (h : Memory.wf s) : (opCount s).Keeps Memory.wf := by
  refine Res.keeps_seq (memory_wf_checkIn h) fun s hs => Res.keeps_ok ?_
  have hf : tableWf 0 (countBytes (inputBytes s) { s with freq := [] }).freq := countBytes_wf _ _ (tableWf_nil 0)
  rw [countBytes_frame]
  exact ⟨hf, hs.2⟩

theorem memory_wf_makeLeaves (l : List Nat) {s : State} (h : Memory.wf s) : (makeLeaves l s).Keeps Memory.wf := by
  induction l generalizing s with
  | nil => exact Res.keeps_ok h
  | cons i l ih =>
    unfold makeLeaves; split
    · exact ih h
    · exact Res.keeps_seq (memory_wf_alloc h _) fun _ hu => Res.keeps_seq (memory_wf_pqInsert hu _) fun _ hv => ih hv

theorem memory_wf_opMkleaves {s : State} (h : Memory.wf s) : (opMkleaves s).Keeps Memory.wf := by
  unfold opMkleaves; split
  · exact Res.keeps_raise h
  · exact memory_wf_makeLeaves _ (memory_wf_clrt h)

theorem memory_wf_mergeNodes {s : State} (h : Memory.wf s) (a b : NodeIx) : (mergeNodes a b s).Keeps Memory.wf := by
  unfold mergeNodes; split
  · exact Res.keeps_raise h
  · exact Res.keeps_seq (memory_wf_alloc h _) fun _ hu => memory_wf_pqInsert hu _

theorem memory_wf_opMerge {s : State} (h : Memory.wf s) : (opMerge s).Keeps Memory.wf := by
  unfold opMerge; split
  · exact Res.keeps_raise h
  · split
    · exact Res.keeps_raise h
    · exact Res.keeps_seq (memory_wf_pqExtract h) fun _ hu => Res.keeps_seq (memory_wf_pqExtract hu) fun _ hv =>
        memory_wf_mergeNodes hv _ _

theorem memory_wf_opSetroot {s : State} (h : Memory.wf s) : (opSetroot s).Keeps Memory.wf := by
  unfold opSetroot; split
  · exact Res.keeps_raise h
  · exact Res.keeps_seq (memory_wf_pqExtract h) fun _ hu => memory_wf_acceptRoot hu _

theorem memory_wf_mergeLoop (f : Nat) {s : State} (h : Memory.wf s) : (mergeLoop f s).Keeps Memory.wf := by
  induction f generalizing s with
  | zero => exact Res.keeps_ok h
  | succ f ih =>
    unfold mergeLoop; split
    · exact Res.keeps_seq (memory_wf_opMerge h) fun _ hu => ih hu
    · exact Res.keeps_ok h

theorem memory_wf_opBuild {s : State} (h : Memory.wf s) : (opBuild s).Keeps Memory.wf :=
  Res.keeps_seq (memory_wf_opMkleaves h) fun _ hu =>
    Res.keeps_seq (memory_wf_mergeLoop _ hu) fun _ hv => memory_wf_opSetroot hv

theorem memory_wf_walkCodes (f i : Nat) (path : List Bool) {s : State} (h : Memory.wf s) :
    (walkCodes f i path s).Keeps Memory.wf := by
  induction f generalizing i path s with
  | zero => exact Res.keeps_endless
  | succ f ih =>
    unfold walkCodes; split
    · unfold recordCode; split
      · exact Res.keeps_raise h
      · exact Res.keeps_ok (memory_wf_setCode h _ _)
    · exact Res.keeps_seq (ih _ _ h) fun _ hu => ih _ _ hu

theorem memory_wf_opGencode {s : State} (h : Memory.wf s) : (opGencode s).Keeps Memory.wf := by
  unfold opGencode; split
  · exact Res.keeps_raise h
  · refine Res.keeps_seq ?_ fun _ hu => Res.keeps_ok hu
    have h0 : Memory.wf { s with codeLen := [], codeBits := [] } := by
      obtain ⟨hf, hh, hn, -, -, hrest⟩ := h
      exact ⟨hf, hh, hn, tableWf_nil 0, tableWf_nil 0, hrest⟩
    unfold genCodes; split
    · exact Res.keeps_ok (memory_wf_setCode h0 _ _)
    · exact memory_wf_walkCodes _ _ _ h0

/-- What Parse can do from the cleared tree state that DESERIALIZE gives it (R180, R181). -/
theorem parse_clrt_keeps (f c seen : Nat) (s : State) : ParseKeeps (clrt s) (parse f c seen (clrt s)) :=
  parse_keeps (Nat.zero_le 511) (fun _ he => absurd he List.not_mem_nil) fun _ he => absurd he List.not_mem_nil

/-- DESERIALIZE: where Parse raises, NODE may hold anything, and fault entry clears it. -/
theorem memory_wf_opDeserialize {s : State} (h : Memory.wf s) : (opDeserialize s).Ends Memory.wf HostTablesWf := by
  refine (memory_wf_checkIn h).ends_wf.andThen fun s h => ?_
  have hk := parse_clrt_keeps 512 s.cur.toNat 0 s
  cases hp : parse 512 s.cur.toNat 0 (clrt s) with
  | raise k i t =>
    rw [hp] at hk
    refine Res.ends_raise ?_
    rw [show t = _ from hk]; exact h.hostTables
  | ok r c seen t =>
    rw [hp] at hk
    obtain ⟨hf, -, -, -, -, hw, -⟩ := hk
    have ht : Memory.wf t := by
      obtain ⟨h1, h2, -, h4⟩ := memory_wf_clrt h
      have hn := hw (tableWf_nil _)
      rw [hf]; exact ⟨h1, h2, hn, h4⟩
    exact (memory_wf_acceptRoot (s := { t with cur := word c }) ht r).ends_wf

theorem memory_wf_opUnpack {s : State} (h : Memory.wf s) : (opUnpack s).Keeps Memory.wf := by
  unfold opUnpack; split
  · exact Res.keeps_raise h
  · refine Res.keeps_seq (memory_wf_checkIn h) fun s h => ?_
    split
    · exact Res.keeps_raise h
    · split
      · exact Res.keeps_raise h
      · split
        · exact Res.keeps_raise h
        · exact Res.keeps_ok (memory_wf_writeBits h 0 _)

theorem memory_wf_opEncsym {s : State} (h : Memory.wf s) : (opEncsym s).Keeps Memory.wf := by
  unfold opEncsym; split
  · exact Res.keeps_raise h
  · refine Res.keeps_seq (memory_wf_checkIn h) fun s h => ?_
    obtain ⟨hok, hraise, -, hbits⟩ := encodeFrom_frame (inputBytes s) 0 0 s (Nat.zero_le _)
    obtain ⟨h1, h2, h3, h4, h5, h6, h7⟩ := h
    refine ⟨fun t ht => ?_, fun c w t ht => ?_⟩
    · have hb := (hbits h6).1 t ht
      rw [(hok t ht).1]; exact ⟨h1, h2, h3, h4, h5, hb, h7⟩
    · have hb := (hbits h6).2 c w t ht
      rw [hraise c w t ht]; exact ⟨h1, h2, h3, h4, h5, hb, h7⟩

/-! ## Every command and every step -/

theorem memory_wf_command {i : Instr} (hi : isComposite i = false) {s : State} (h : Memory.wf s) :
    (opOf i s).Ends Memory.wf HostTablesWf := by
  cases i with
  | encode | decode => cases hi
  | nop => exact Res.ends_ok h
  | clr => exact Res.ends_ok (memory_wf_clrw h :)
  | pqInsert n =>
    show (opPqInsert n s).Ends _ _
    unfold opPqInsert; split
    · exact Res.ends_raise h.hostTables
    · exact (memory_wf_pqInsert h _).ends_wf
  | pqExtract => exact (memory_wf_pqExtract h).ends_wf
  | count => exact (memory_wf_opCount h).ends_wf
  | mkleaves => exact (memory_wf_opMkleaves h).ends_wf
  | merge => exact (memory_wf_opMerge h).ends_wf
  | setroot => exact (memory_wf_opSetroot h).ends_wf
  | build => exact (memory_wf_opBuild h).ends_wf
  | gencode => exact (memory_wf_opGencode h).ends_wf
  | deserialize => exact memory_wf_opDeserialize h
  | rdhdr =>
    exact ((opRdhdr_frame s).imp fun t ht => show Memory.wf t by rw [ht]; exact h).ends_wf
  | unpack => exact (memory_wf_opUnpack h).ends_wf
  | encsym => exact (memory_wf_opEncsym h).ends_wf
  | serialize | wrhdr | pack | decsym =>
    exact outCommand_ends (fun b s h => (memory_wf_outAppend h b).ends_wf) (fun _ _ _ _ h => h) (fun _ h => h.hostTables) (by simp) h

theorem memory_wf_commands : KeptByCommands Memory.wf HostTablesWf where
  weaken _ h := h.hostTables
  command _ hi _ hs := memory_wf_command hi hs
  setSeq _ _ _ h := h
  clrw _ h := memory_wf_clrw h
  complete _ h := h
  fault c i _ h := memory_wf_faulted h c i

theorem memory_wf_host : KeptByHost Memory.wf where
  host _ _ h := h
  answer _ _ h := h
  reset _ _ := memory_wf_reset
  write s t ht h := by
    cases ht with
    | freq i v => exact memory_wf_setFreq h i v
    | input i v => exact memory_wf_setIn h i v
    | nothing | accepted | ctrl | status | inLen => exact h

/-- Settles O21: every write of every command and of the host goes through the tables' own operations, which keep the form. -/
theorem stepKeepsTablesCanonical : Obligations.StepKeepsTablesCanonical := fun _ _ hs h =>
  step_keeps memory_wf_commands memory_wf_host h hs

end Sys2Proof.Machine
end

section
/-! PROOFS, the state (10_state.md): the structure of NODE and HEAP, ROOT and DEGEN (R35, R47, R133, R145), and the state after reset. -/

namespace Sys2Proof.Machine

/-! ## The tree part of the state -/

/-- The state with everything but the tree and the queue blotted out. -/
def treePart (s : State) : State :=
  { State.reset with
    nnode := s.nnode, node := s.node, heap := s.heap, hsize := s.hsize, root := s.root, treev := s.treev, degen := s.degen }

/-- A property that does not see what `treePart` blots out passes to states with the same tree part. -/
theorem of_treePart_eq {P : State → Prop} {s t : State} (h : treePart t = treePart s) (hs : P s)
    (hP : ∀ s, P (treePart s) ↔ P s := by exact fun _ => Iff.rfl) : P t := by rw [← hP t, h, hP s]; exact hs

/-- All invariants of this family that are about the tree and the queue. -/
structure TreeSound (s : State) : Prop where
  shape : TreeStructure s
  degen : DegenMeansLeaf s
  root : RootAlone s
  queued : LastQueued s

theorem TreeSound.congr {s t : State} (hs : TreeSound s) (h : treePart t = treePart s) : TreeSound t where
  shape := of_treePart_eq h hs.shape
  degen := of_treePart_eq h hs.degen
  root := of_treePart_eq h hs.root
  queued := of_treePart_eq h hs.queued

/-- With no tree accepted, the shape and the queue's newest item are all there is to say. -/
theorem TreeSound.of_no_tree {s : State} (h : TreeStructure s) (ht : s.treev = false) (hd : s.degen = false) (hq : LastQueued s) :
    TreeSound s where
  shape := h
  degen hd' := absurd hd' (by simp [hd])
  root := ⟨fun ht' => absurd ht' (by simp [ht]), fun ht' => absurd ht' (by simp [ht])⟩
  queued := hq

/-- With no tree, no node and nothing queued, everything holds. -/
theorem treeSound_of_empty {s : State} (h : treePart s = State.reset) : TreeSound s := by
  have hreset : TreeSound State.reset :=
    .of_no_tree ⟨by decide, by decide, by simp [State.reset], by simp [State.reset], by simp [State.reset],
      by simp [State.reset, queueOf], by simp [State.reset]⟩ rfl rfl fun hc => absurd rfl hc
  exact hreset.congr h

/-! ## HEAP holds nothing beyond the queue (R47 (c)) -/

/-- No entry of HEAP is listed at or above `n`. -/
def HeapWithin (n : Nat) (s : State) : Prop := ∀ e ∈ s.heap, e.1 < n

theorem heapWithin_setHeap {n i : Nat} {s : State} (h : HeapWithin n s) (hi : i < n) (v : NodeIx) : HeapWithin n (setHeap s i v) := by
  intro e he
  rcases mem_tableSet 0 he with rfl | he
  · exact hi
  · exact h e he

theorem heapWithin_swapHeap {n i j : Nat} {s : State} (h : HeapWithin n s) (hi : i < n) (hj : j < n) : HeapWithin n (swapHeap s i j) :=
  heapWithin_setHeap (heapWithin_setHeap h hi _) hj _

theorem heapWithin_siftUp {n j : Nat} (f : Nat) {s : State} (h : HeapWithin n s) (hj : j < n) : HeapWithin n (siftUp f j s) := by
  induction f generalizing j s with
  | zero => exact h
  | succ f ih =>
    rw [siftUp]; split_ifs
    · exact ih (heapWithin_swapHeap h hj (by omega)) (by omega)
    · exact h
    · exact h

theorem heapWithin_siftDown {n j : Nat} (f : Nat) {s : State} (h : HeapWithin n s) (hn : s.hsize.toNat = n) (hj : j < n) :
    HeapWithin n (siftDown f j s) := by
  induction f generalizing j s with
  | zero => exact h
  | succ f ih =>
    rw [siftDown]; split_ifs
    · exact h
    · have hm := smallerOf_lt (c := 2 * j + 2) hn (smallerOf_lt (c := 2 * j + 1) hn hj)
      exact ih (heapWithin_swapHeap h hj hm) hn hm

theorem hsize_pred {s : State} (h : s.hsize ≠ 0) : (s.hsize - 1).toNat + 1 = s.hsize.toNat := by
  have hp : s.hsize.toNat ≠ 0 := fun e => h (BitVec.eq_of_toNat_eq e)
  rw [BitVec.toNat_sub]; simp; have := s.hsize.isLt; omega

theorem heapWithin_dropTop {s : State} (h : HeapWithin s.hsize.toNat s) (h0 : s.hsize ≠ 0) :
    HeapWithin (s.hsize - 1).toNat (dropTop s) := by
  intro e he
  have hp := hsize_pred h0
  obtain ⟨he, hne⟩ := not_mem_tableSet_default 0 he
  rcases mem_tableSet 0 he with rfl | he
  · simp only at hne ⊢; omega
  · have := h e he; omega

/-! ## Alloc, PqInsert, PqExtract, AcceptRoot -/

theorem TreeStructure.alloc {s t : State} {n : Node} (h : TreeStructure s)
    (hn : match n with | .leaf _ _ => True | .internal _ l r => l.toNat < s.nnode.toNat ∧ r.toNat < s.nnode.toNat)
    (ht : alloc n s = .ok t) : TreeStructure t := by
  obtain ⟨hnn, hh, hnode, hheap, hchild, hqueue, hroot⟩ := h
  obtain ⟨hfull, rfl⟩ := alloc_eq_ok.1 ht
  have hlt : s.nnode.toNat ≠ 511 := fun e => hfull (BitVec.eq_of_toNat_eq e)
  have h1 : (s.nnode + 1).toNat = s.nnode.toNat + 1 := nnode_succ (by omega)
  refine ⟨?_, hh, fun e he => ?_, hheap, childrenBelow_set hchild hn, fun m hm => ?_, fun htv => ?_⟩
  · show (s.nnode + 1).toNat ≤ 511; omega
  · show e.1 < (s.nnode + 1).toNat
    rcases mem_tableSet _ he with rfl | he
    · simp only; omega
    · have := hnode e he; omega
  · show m.toNat < (s.nnode + 1).toNat
    have := hqueue m hm; omega
  · show s.root.toNat < (s.nnode + 1).toNat
    have := hroot htv; omega

theorem TreeStructure.pqInsert {s t : State} {n : NodeIx} (h : TreeStructure s) (hn : n.toNat < s.nnode.toNat)
    (ht : pqInsert n s = .ok t) :
    TreeStructure t ∧ t = { s with heap := t.heap, hsize := s.hsize + 1 } ∧ (queueOf t).Perm (n :: queueOf s) := by
  obtain ⟨hnn, hh, hnode, hheap, hchild, hqueue, hroot⟩ := h
  have hfull : s.hsize ≠ 256 := fun e => by rw [Machine.pqInsert, if_pos e] at ht; cases ht
  have hlt : s.hsize.toNat ≠ 256 := fun e => hfull (BitVec.eq_of_toNat_eq e)
  have h1 : (s.hsize + 1).toNat = s.hsize.toNat + 1 := hsize_succ (by omega)
  obtain ⟨u, hu, hf, hq, -⟩ := pqInsert_ok (s := s) n (by omega)
  obtain rfl : u = t := by rw [hu] at ht; cases ht; rfl
  have hwithin : HeapWithin (s.hsize + 1).toNat u := by
    rw [Machine.pqInsert, if_neg hfull] at ht
    cases ht
    refine heapWithin_siftUp _ (heapWithin_setHeap (n := (s.hsize + 1).toNat) (fun e he => ?_) ?_ n) ?_
    · have := hheap e he; omega
    · omega
    · omega
  refine ⟨?_, hf, hq⟩
  rw [hf]
  refine ⟨hnn, ?_, hnode, hwithin, hchild, fun m hm => ?_, hroot⟩
  · show (s.hsize + 1).toNat ≤ 256; omega
  · rw [← hf] at hm
    rcases List.mem_cons.1 (hq.subset hm) with rfl | hm
    · exact hn
    · exact hqueue m hm

theorem TreeStructure.pqExtract {s t : State} (h : TreeStructure s) (ht : pqExtract s = .ok t) :
    TreeStructure t ∧ s.hsize ≠ 0 ∧ t = { s with heap := t.heap, hsize := s.hsize - 1, pqOut := heapAt s 0 } ∧
      (heapAt s 0).toNat < s.nnode.toNat := by
  obtain ⟨hnn, hh, hnode, hheap, hchild, hqueue, hroot⟩ := h
  have hne : s.hsize ≠ 0 := fun e => by rw [pqExtract_raise e] at ht; cases ht
  have hp := hsize_pred hne
  obtain ⟨u, hu, hf, hq, -⟩ := pqExtract_ok hne
  obtain rfl : u = t := by rw [hu] at ht; cases ht; rfl
  have hwithin : HeapWithin (s.hsize - 1).toNat u := by
    rw [Machine.pqExtract, if_neg hne] at ht
    cases ht
    have hd := heapWithin_dropTop hheap hne
    by_cases h0 : (s.hsize - 1).toNat = 0
    · have : HeapWithin (s.hsize - 1).toNat (siftDown (s.hsize - 1).toNat 0 (dropTop s)) := by
        rw [show siftDown (s.hsize - 1).toNat 0 (dropTop s) = dropTop s by rw [h0]; rfl]; exact hd
      exact this
    · exact heapWithin_siftDown (s.hsize - 1).toNat hd rfl (by omega)
  have hmem : ∀ m ∈ heapAt s 0 :: queueOf u, m.toNat < s.nnode.toNat := fun m hm => hqueue m (hq.subset hm)
  refine ⟨?_, hne, hf, hmem _ List.mem_cons_self⟩
  rw [hf]
  refine ⟨hnn, ?_, hnode, hwithin, hchild, fun m hm => ?_, hroot⟩
  · show (s.hsize - 1).toNat ≤ 256; omega
  · rw [← hf] at hm
    exact hmem m (List.mem_cons_of_mem _ hm)

/-- AcceptRoot (R146): what it does when it succeeds. -/
theorem acceptRoot_eq_ok {s t : State} {r : NodeIx} (h : acceptRoot r s = .ok t) :
    t = { s with root := r, degen := (nodeAt s r.toNat).isLeaf, treev := true } := by
  unfold acceptRoot at h
  split at h
  · next hn =>
    split at h
    · cases h; rw [hn]; rfl
    · cases h
  · next hn => cases h; rw [hn]; rfl

theorem TreeStructure.acceptRoot {s t : State} {r : NodeIx} (h : TreeStructure s) (hr : r.toNat < s.nnode.toNat)
    (ht : acceptRoot r s = .ok t) : TreeStructure t ∧ DegenMeansLeaf t := by
  obtain rfl := acceptRoot_eq_ok ht
  obtain ⟨hnn, hh, hnode, hheap, hchild, hqueue, -⟩ := h
  refine ⟨⟨hnn, hh, hnode, hheap, hchild, hqueue, fun _ => hr⟩, fun hd => ⟨rfl, ?_⟩⟩
  show ∃ w b, nodeAt s r.toNat = .leaf w b
  change (nodeAt s r.toNat).isLeaf = true at hd
  cases hn : nodeAt s r.toNat with
  | leaf w b => exact ⟨w, b, rfl⟩
  | internal w l r' => rw [hn] at hd; cases hd

/-- Accepting the last entry allocated, the queue being empty. -/
theorem TreeStructure.acceptLast {s t : State} {r : NodeIx} (h : TreeStructure s) (hr : r.toNat + 1 = s.nnode.toNat)
    (hq : s.hsize = 0) (ht : Machine.acceptRoot r s = .ok t) : TreeSound t := by
  obtain ⟨hshape, hdegen⟩ := h.acceptRoot (by omega) ht
  obtain rfl := acceptRoot_eq_ok ht
  exact ⟨hshape, hdegen, ⟨fun _ => hr, fun _ => hq⟩, fun hc => absurd hq hc⟩

/-- Alloc of a node and PqInsert of it (R133, R112): the new node is the last entry allocated, and queued. -/
theorem TreeStructure.allocInsert {s u t : State} {n : Node} (h : TreeStructure s) (htv : s.treev = false) (hd : s.degen = false)
    (hn : match n with | .leaf _ _ => True | .internal _ l r => l.toNat < s.nnode.toNat ∧ r.toNat < s.nnode.toNat)
    (hu : Machine.alloc n s = .ok u) (ht : Machine.pqInsert (nextIx s) u = .ok t) : TreeSound t ∧ t.treev = false := by
  have hshape := h.alloc hn hu
  obtain ⟨hnn, -⟩ := h
  have hix : (nextIx s).toNat = s.nnode.toNat := nextIx_toNat (by omega)
  obtain ⟨-, rfl⟩ := alloc_eq_ok.1 hu
  have h1 : (s.nnode + 1).toNat = s.nnode.toNat + 1 := nnode_succ (by omega)
  obtain ⟨ht, hf, hq⟩ := hshape.pqInsert (n := nextIx s) (by rw [hix]; show _ < (s.nnode + 1).toNat; omega) ht
  have htv' : t.treev = false := by rw [hf]; exact htv
  have hd' : t.degen = false := by rw [hf]; exact hd
  have hnn' : t.nnode = s.nnode + 1 := by rw [hf]
  exact ⟨.of_no_tree ht htv' hd' fun _ => ⟨nextIx s, hq.symm.subset List.mem_cons_self, by rw [hix, hnn', h1]⟩, htv'⟩

/-! ## MKLEAVES, MERGE, SETROOT, BUILD -/

theorem makeLeaves_sound (l : List Nat) {s t : State} (h : TreeSound s) (htv : s.treev = false) (ht : makeLeaves l s = .ok t) :
    TreeSound t := by
  induction l generalizing s with
  | nil => cases ht; exact h
  | cons i l ih =>
    unfold makeLeaves at ht
    split at ht
    · exact ih h htv ht
    · obtain ⟨u, hu, ht⟩ := andThen_eq_ok.1 ht
      obtain ⟨v, hv, ht⟩ := andThen_eq_ok.1 ht
      have hd : s.degen = false := by
        by_contra hc
        have := (h.degen (by simpa using hc)).1
        simp [htv] at this
      obtain ⟨hv, hvt⟩ := h.shape.allocInsert (n := .leaf _ _) htv hd trivial hu hv
      exact ih hv hvt ht

theorem opMkleaves_sound {s t : State} (ht : opMkleaves s = .ok t) : TreeSound t := by
  unfold opMkleaves at ht
  split at ht
  · cases ht
  · exact makeLeaves_sound _ (treeSound_of_empty rfl) rfl ht

/-- MERGE (R140) withdraws the tree and leaves its new node queued, whatever was queued before. -/
theorem opMerge_sound {s t : State} (h : TreeStructure s) (ht : opMerge s = .ok t) : TreeSound t := by
  unfold opMerge at ht
  split at ht
  · cases ht
  · split at ht
    · cases ht
    · obtain ⟨u, hu, ht⟩ := andThen_eq_ok.1 ht
      obtain ⟨v, hv, ht⟩ := andThen_eq_ok.1 ht
      have h0 : TreeStructure { s with treev := false, codev := false, degen := false } := by
        obtain ⟨hnn, hh, hnode, hheap, hchild, hqueue, -⟩ := h
        exact ⟨hnn, hh, hnode, hheap, hchild, hqueue, fun hc => by cases hc⟩
      obtain ⟨hus, -, huf, ha⟩ := h0.pqExtract hu
      obtain ⟨hvs, -, hvf, hb⟩ := hus.pqExtract hv
      have hun : u.nnode = s.nnode := by rw [huf]
      have hvn : v.nnode = s.nnode := by rw [hvf, hun]
      unfold mergeNodes at ht
      split at ht
      · cases ht
      · obtain ⟨w, hw, ht⟩ := andThen_eq_ok.1 ht
        refine (hvs.allocInsert (n := .internal _ _ _) (by rw [hvf, huf]) (by rw [hvf, huf]) ⟨?_, ?_⟩ hw ht).1
        · rw [hvn, show u.pqOut = _ by rw [huf]]; exact ha
        · rw [hvn, ← hun, show v.pqOut = _ by rw [hvf]]; exact hb

/-- SETROOT (R145) of whatever was queued; where that is the last entry allocated, everything holds. -/
theorem opSetroot_shape {s t : State} (h : TreeStructure s) (ht : opSetroot s = .ok t) :
    s.hsize = 1 ∧ TreeStructure t ∧ DegenMeansLeaf t ∧ ((heapAt s 0).toNat + 1 = s.nnode.toNat → TreeSound t) := by
  unfold opSetroot at ht
  split at ht
  · cases ht
  · next h1 =>
    obtain h1 : s.hsize = 1 := by simpa using h1
    obtain ⟨u, hu, ht⟩ := andThen_eq_ok.1 ht
    obtain ⟨hus, -, huf, ha⟩ := TreeStructure.pqExtract (s := { s with codev := false }) h hu
    have hun : u.nnode = s.nnode := by rw [huf]
    have huo : u.pqOut = heapAt s 0 := by rw [huf]; rfl
    have hu0 : u.hsize = 0 := by rw [huf]; show s.hsize - 1 = 0; rw [h1]; rfl
    rw [huo] at ht
    obtain ⟨hts, htd⟩ := hus.acceptRoot (by rw [hun]; exact ha) ht
    exact ⟨h1, hts, htd, fun hl => hus.acceptLast (by rw [hun]; exact hl) hu0 ht⟩

theorem opSetroot_sound {s t : State} (h : TreeSound s) (ht : opSetroot s = .ok t) : TreeSound t := by
  obtain ⟨h1, -, -, hl⟩ := opSetroot_shape h.shape ht
  exact hl (h.queued.only h1)

theorem mergeLoop_sound (f : Nat) {s t : State} (h : TreeSound s) (ht : mergeLoop f s = .ok t) : TreeSound t := by
  induction f generalizing s with
  | zero => cases ht; exact h
  | succ f ih =>
    unfold mergeLoop at ht
    split at ht
    · obtain ⟨u, hu, ht⟩ := andThen_eq_ok.1 ht
      exact ih (opMerge_sound h.shape hu) ht
    · cases ht; exact h

theorem opBuild_sound {s t : State} (ht : opBuild s = .ok t) : TreeSound t := by
  obtain ⟨u, hu, ht⟩ := andThen_eq_ok.1 ht
  obtain ⟨v, hv, ht⟩ := andThen_eq_ok.1 ht
  exact opSetroot_sound (mergeLoop_sound _ (opMkleaves_sound hu) hv) ht

/-! ## DESERIALIZE -/

theorem parseAlloc_eq_ok {n : Node} {c seen c' seen' : Nat} {s t : State} {r : NodeIx}
    (h : parseAlloc n c seen s = .ok r c' seen' t) : r = nextIx s ∧ t.nnode = s.nnode + 1 := by
  unfold parseAlloc at h
  split at h
  · next u hu =>
    cases h
    exact ⟨rfl, by rw [(alloc_eq_ok.1 hu).2]⟩
  · cases h
  · cases h

/-- Parse (R181) allocates its answer last. -/
theorem parse_answer {f c seen c' seen' : Nat} {s t : State} {r : NodeIx} (h : parse f c seen s = .ok r c' seen' t) :
    ∃ u, r = nextIx u ∧ t.nnode = u.nnode + 1 := by
  cases f with
  | zero => cases h
  | succ f =>
    rw [parse] at h
    split_ifs at h
    · exact ⟨_, parseAlloc_eq_ok h⟩
    · cases h1 : parse f (c + 1) (seen + 1) s with
      | raise k i u => rw [h1] at h; cases h
      | ok l c1 seen1 u =>
        rw [h1] at h
        simp only [ParseRes.andThen] at h
        split_ifs at h
        cases h2 : parse f (c1 + 1) seen1 u with
        | raise k i v => rw [h2] at h; cases h
        | ok r' c2 seen2 v => rw [h2] at h; exact ⟨v, parseAlloc_eq_ok h⟩

theorem opDeserialize_sound {s t : State} (ht : opDeserialize s = .ok t) : TreeSound t := by
  obtain ⟨s, -, ht⟩ := andThen_eq_ok.1 ht
  have hk := parse_clrt_keeps 512 s.cur.toNat 0 s
  cases hp : parse 512 s.cur.toNat 0 (clrt s) with
  | raise k i u => rw [hp] at ht; cases ht
  | ok r c seen u =>
    rw [hp] at hk ht
    obtain ⟨hf, -, hnn, hchild, hnode, -, hr⟩ := hk
    have hh : u.heap = [] := by rw [hf]; rfl
    have hs : u.hsize = 0 := by rw [hf]; rfl
    have htv : u.treev = false := by rw [hf]; rfl
    have hu : TreeStructure { u with cur := word c } :=
      ⟨hnn, by simp [hs], hnode, by simp [hh], hchild, by simp [queueOf, hs], by simp [htv]⟩
    refine hu.acceptLast (r := r) ?_ hs ht
    obtain ⟨v, rfl, hv⟩ := parse_answer hp
    have hlt : (nextIx v).toNat < u.nnode.toNat := hr
    have hix : (nextIx v).toNat = v.nnode.toNat % 512 := BitVec.toNat_setWidth 9 v.nnode
    have hu' : u.nnode.toNat = (v.nnode.toNat + 1) % 1024 := by rw [hv, BitVec.toNat_add]; rfl
    show (nextIx v).toNat + 1 = u.nnode.toNat
    omega

/-! ## Every command -/

/-- What can become of a tree and a queue in good shape where the commands in `runs` run. -/
inductive TreeEffect (runs : Instr → Prop) (s t : State) : Prop where
  /-- They are left alone. -/
  | same (h : treePart t = treePart s)
  /-- They are cleared or made anew. -/
  | sound (h : TreeSound t)
  /-- PQ_INSERT and PQ_EXTRACT: the queue alone changes. -/
  | queue (hi : (∃ n, runs (.pqInsert n)) ∨ runs .pqExtract ∧ s.hsize ≠ 0) (h : TreeStructure t)
      (hf : treePart t = { treePart s with heap := t.heap, hsize := t.hsize })
  /-- SETROOT of another node than the last one allocated (R145). -/
  | root (hi : runs .setroot) (h1 : s.hsize = 1) (hne : (heapAt s 0).toNat + 1 ≠ s.nnode.toNat) (h : TreeStructure t)
      (hd : DegenMeansLeaf t)

/-- The commands that neither make a tree nor touch the queue. -/
def leavesTree : Instr → Bool
  | .nop | .count | .gencode | .serialize | .wrhdr | .pack | .rdhdr | .unpack | .encsym | .decsym => true
  | _ => false

theorem frame_treePart {i : Instr} (hi : leavesTree i = true) {s t : State} (h : Frame i s t) : treePart t = treePart s := by
  cases i with
  | nop | count | gencode | serialize | wrhdr | pack | rdhdr | unpack | encsym | decsym => exact (congrArg treePart h :)
  | _ => cases hi

/-- The steps of ENCODE and DECODE after the first keep everything. -/
theorem step_of_composite_sound {i : Instr} (hi : leavesTree i = true ∨ i = .build ∨ i = .deserialize) (s : State) (h : TreeSound s) :
    (opOf i s).Ends TreeSound fun _ => True := by
  rcases hi with hi | rfl | rfl
  · exact (opOf_frame i s).ends (fun _ ht => h.congr (frame_treePart hi ht)) fun _ _ => trivial
  · exact ⟨fun _ ht => opBuild_sound ht, fun _ _ _ _ => trivial⟩
  · exact ⟨fun _ ht => opDeserialize_sound ht, fun _ _ _ _ => trivial⟩

theorem opEncode_sound {s t : State} (ht : opEncode s = .ok t) : TreeSound t :=
  (opEncode_ends (Q := fun _ => True) (encodeStart_ends trivial (treeSound_of_empty rfl)) (fun _ _ _ h => h.congr rfl)
    fun i hi => step_of_composite_sound (by revert hi; revert i; decide)).1 t ht

theorem opDecode_sound {s t : State} (ht : opDecode s = .ok t) : TreeSound t :=
  (opDecode_ends (Q := fun _ => True) (decodeStart_ends trivial (treeSound_of_empty rfl)) (fun _ _ _ h => h.congr rfl)
    fun i hi => step_of_composite_sound (by revert hi; revert i; decide)).1 t ht

theorem opOf_treeEffect {i : Instr} {s t : State} (h : TreeStructure s) (ht : opOf i s = .ok t) : TreeEffect (· = i) s t := by
  cases i with
  | clr => cases ht; exact .sound (treeSound_of_empty rfl)
  | mkleaves => exact .sound (opMkleaves_sound ht)
  | build => exact .sound (opBuild_sound ht)
  | deserialize => exact .sound (opDeserialize_sound ht)
  | encode => exact .sound (opEncode_sound ht)
  | decode => exact .sound (opDecode_sound ht)
  | merge => exact .sound (opMerge_sound h ht)
  | setroot =>
    obtain ⟨h1, hshape, hdegen, hsound⟩ := opSetroot_shape h ht
    by_cases hl : (heapAt s 0).toNat + 1 = s.nnode.toNat
    · exact .sound (hsound hl)
    · exact .root rfl h1 hl hshape hdegen
  | pqExtract =>
    obtain ⟨hshape, hne, hf, -⟩ := h.pqExtract ht
    exact .queue (.inr ⟨rfl, hne⟩) hshape (by rw [hf]; rfl)
  | pqInsert n =>
    change opPqInsert n s = .ok t at ht
    unfold opPqInsert at ht
    split at ht
    · cases ht
    · next hn =>
      have hn' : (BitVec.ofNat 9 n).toNat < s.nnode.toNat := by
        rw [BitVec.toNat_ofNat]; have := Nat.mod_le n (2 ^ 9); omega
      obtain ⟨hshape, hf, -⟩ := h.pqInsert hn' ht
      exact .queue (.inl ⟨n, rfl⟩) hshape (by rw [hf]; rfl)
  | nop | count | gencode | serialize | wrhdr | pack | rdhdr | unpack | encsym | decsym =>
    exact .same (frame_treePart rfl ((opOf_frame _ s).1 t ht))

theorem exec_treeEffect {i : Instr} {s t : State} (h : TreeStructure s) (ht : exec i s = .next t) : TreeEffect (· = i) s t := by
  rw [exec_eq_finish] at ht
  rcases finish_eq_next.1 ht with ⟨u, hu, rfl⟩ | ⟨c, w, u, -, rfl⟩
  · cases opOf_treeEffect h hu with
    | same hp => exact .same hp
    | sound hs => exact .sound (hs.congr rfl)
    | queue hi hs hf => exact .queue hi hs hf
    | root hi h1 hne hs hd => exact .root hi h1 hne hs hd
  · exact .sound (treeSound_of_empty rfl)

/-! ## Every step -/

theorem hostWrite_treePart {s t : State} (h : HostWrite s t) : treePart t = treePart s := by
  cases h with
  | nothing | accepted | ctrl | status | inLen | freq | input => rfl

theorem step_treeEffect {s t : State} (h : TreeStructure s) (ht : step s = .next t) : TreeEffect (Runs · s) s t := by
  obtain ⟨rest, hc⟩ := step_cases ht
  cases hc with
  | idle he => exact .same (by rw [he]; rfl)
  | illegal he => exact .sound (he ▸ treeSound_of_empty rfl)
  | bus r u hu he => exact .same (by rw [he]; exact (hostWrite_treePart hu :))
  | reset he => exact .sound (he ▸ treeSound_of_empty rfl)
  | runs i hi he =>
    cases exec_treeEffect (s := { s with host := rest }) h he with
    | same hp => exact .same hp
    | sound hs => exact .sound hs
    | root hj h1 hne hs hd => exact .root (hj ▸ hi) h1 hne hs hd
    | queue hj hs hf =>
      refine .queue (hj.imp ?_ ?_) hs hf
      · rintro ⟨n, hn⟩; exact ⟨n, hn ▸ hi⟩
      · rintro ⟨hj, hne⟩; exact ⟨hj ▸ hi, hne⟩

/-- Settles O22: by what a step can do to tree and queue; only a queue driven by hand makes the exceptions. -/
theorem stepKeepsTreeStructure : Obligations.StepKeepsTreeStructure := by
  intro s t h ht
  have hlast : LastQueued s → ¬ RootByHand s := fun hq ⟨_, h1, hne⟩ => hne (hq.only h1)
  cases step_treeEffect h ht with
  | same hp =>
    exact ⟨of_treePart_eq hp h, fun hd => of_treePart_eq hp hd, fun hr _ => of_treePart_eq hp hr, fun hr _ _ => of_treePart_eq hp hr,
      fun hq _ => ⟨of_treePart_eq hp hq, hlast hq⟩⟩
  | sound hs =>
    exact ⟨hs.shape, fun _ => hs.degen, fun _ _ => hs.root.1, fun _ _ _ => hs.root, fun hq _ => ⟨hs.queued, hlast hq⟩⟩
  | root hi h1 hne hs hd =>
    have hhand : RootByHand s := ⟨hi, h1, hne⟩
    exact ⟨hs, fun _ => hd, fun _ hn => absurd hhand hn, fun _ hn => absurd hhand hn, fun hq => absurd hhand (hlast hq)⟩
  | queue hi hs hf =>
    have htv : t.treev = s.treev := (congrArg State.treev hf :)
    have hd : t.degen = s.degen := (congrArg State.degen hf :)
    have hr : t.root = s.root := (congrArg State.root hf :)
    have hn : t.nnode = s.nnode := (congrArg State.nnode hf :)
    have hnode : t.node = s.node := (congrArg State.node hf :)
    have hroot : RootIsLast s → RootIsLast t := fun h => by simpa only [RootIsLast, htv, hr, hn] using h
    refine ⟨hs, fun h => ?_, fun h _ => hroot h, fun ⟨h, h0⟩ _ hins => ⟨hroot h, fun ht1 => ?_⟩, fun hq hhand => ?_⟩
    · simpa only [DegenMeansLeaf, nodeAt, htv, hd, hr, hnode] using h
    · rw [htv] at ht1
      rcases hi with hi | ⟨-, hne⟩
      · exact absurd ⟨ht1, hi⟩ hins
      · exact absurd (h0 ht1) hne
    · exact absurd (hi.symm.imp And.left id) hhand

/-! ## The state after reset (R50) -/

/-- Settles O26: at reset every table is empty and every register 0. -/
theorem resetMeetsTheInvariants : Obligations.ResetMeetsTheInvariants := by
  have htree : TreeSound State.reset := treeSound_of_empty rfl
  have hheap : HeapOrder State.reset := fun j hj => absurd hj (Nat.not_lt_zero j)
  exact ⟨memory_wf_reset, htree.shape, hheap, htree.degen, htree.root, htree.queued, lengthsFit_zero (by decide) rfl rfl,
    registerRanges_clear rfl rfl rfl (fun h => by cases h), codeBitsMasked_empty rfl⟩

end Sys2Proof.Machine
end

section
/-! PROOFS, the memory (20_memory.md): the address map (R61 to R63), said once as a correspondence of items and offsets. -/

namespace Sys2Proof.Machine

/-- The offset of an item of the map (R61). -/
def WordItem.offset : WordItem → Nat
  | .id => 0x000
  | .ctrl => 0x004
  | .cmd => 0x008
  | .status => 0x00C
  | .err => 0x010
  | .einfo => 0x014
  | .seq => 0x018
  | .inLen => 0x020
  | .outLen => 0x024
  | .payLen => 0x028
  | .rem => 0x02C
  | .cur => 0x030
  | .bitLen => 0x034
  | .nnode => 0x038
  | .root => 0x03C
  | .hsize => 0x040
  | .pqOut => 0x044
  | .freq s => 0x400 + 4 * s
  | .heap i => 0x800 + 4 * i
  | .codeLen s => 0xC00 + 4 * s
  | .node i w => 0x1000 + 8 * i + 4 * w
  | .codeBits s w => 0x2000 + 32 * s + 4 * w

/-- The indices of an item are those of the table it lies in (R61). -/
def WordItem.InRange : WordItem → Prop
  | .freq s | .heap s | .codeLen s => s < 256
  | .node i w => i < 512 ∧ w < 2
  | .codeBits s w => s < 256 ∧ w < 8
  | _ => True

theorem WordItem.offset_lt {i : WordItem} (h : i.InRange) : i.offset < 0x4000 := by
  cases i <;> simp only [offset, InRange] at h ⊢ <;> omega

/-- The registers stand in the map at their offsets. -/
theorem registerMap_offset : ∀ e ∈ registerMap, e.1 = e.2.offset ∧ e.2.InRange := by
  simp [registerMap, WordItem.offset, WordItem.InRange]

/-- The map is one to one: an offset addresses the item that has it (R61, R62). -/
theorem wordItem_eq_some {a : Nat} {i : WordItem} : wordItem a = some i ↔ a = i.offset ∧ i.InRange := by
  constructor
  · intro h
    unfold wordItem at h
    split_ifs at h
    · obtain ⟨l, l', hl, -⟩ := List.lookup_eq_some_iff.1 h
      exact registerMap_offset (a, i) (by rw [hl]; simp)
    all_goals
      obtain rfl := Option.some.inj h
      simp only [WordItem.offset, WordItem.InRange]
      omega
  · rintro ⟨ha, h⟩
    cases i
    case freq | heap | codeLen | node | codeBits =>
      simp only [WordItem.offset, WordItem.InRange] at ha h
      rw [wordItem]
      repeat rw [if_neg (by omega)]
      rw [if_pos (by omega)]
      congr <;> omega
    all_goals subst ha; rfl

/-- The mapped offsets (R61, R62): a multiple of 4 in one of the two runs of registers or in the tables. -/
theorem wordItem_isSome {a : Nat} : (wordItem a).isSome = true ↔
    a % 4 = 0 ∧ (a < 0x1C ∨ 0x20 ≤ a ∧ a < 0x48 ∨ 0x400 ≤ a ∧ a < 0x4000) := by
  unfold wordItem
  split_ifs
  case pos => simp; omega
  case pos =>
    rw [List.lookup_isSome_iff]
    simp only [registerMap, List.mem_cons, List.not_mem_nil, or_false, exists_eq_or_imp, exists_eq_left, beq_iff_eq]
    omega
  all_goals simp; omega

/-- The offsets of the two windows (R61, R63). -/
theorem byteItem_isSome {p : Config.Params} {a : Nat} : (byteItem p a).isSome = true ↔
    0x01000000 ≤ a ∧ a < 0x01000000 + p.inCap ∨ 0x02000000 ≤ a ∧ a < 0x02000000 + p.outCap := by
  unfold byteItem
  split_ifs with hin hout
  · simp [hin]
  · simp [hout]
  · simp [hin, hout]

theorem byteItem_inp {p : Config.Params} {a : Nat} (h : 0x01000000 ≤ a ∧ a < 0x01000000 + p.inCap) :
    byteItem p a = some (.inp (a - 0x01000000)) := if_pos h

theorem byteItem_out {p : Config.Params} (hp : p.Allowed) {i : Nat} (hi : i < p.outCap) :
    byteItem p (0x02000000 + i) = some (.out i) := by
  obtain ⟨-, hin, -⟩ := hp
  rw [byteItem, if_neg (by omega), if_pos (by omega), Nat.add_sub_cancel_left]

/-! ## Transactions (R60, R64, R65) -/

/-- While BUSY (R65). -/
theorem transact_busy {s : State} (hb : s.busy = true) (t : Txn) :
    transact t s = respond (if t = .read4 0x00C then .okWord (statusWord s) else .error) s := by
  rw [transact, if_pos hb, busyTransact]
  split <;> rfl

section Idle

variable {s : State} (hb : s.busy = false)

include hb

theorem transact_read4 (a : BitVec 26) :
    transact (.read4 a) s = respond ((wordItem a.toNat).elim .error fun i => .okWord (readWord s i)) s := by
  simp only [transact, hb, idleTransact]
  cases wordItem a.toNat <;> rfl

theorem transact_read1 (a : BitVec 26) :
    transact (.read1 a) s = respond ((byteItem s.cfg a.toNat).elim .error fun i => .okByte (readByte s i)) s := by
  simp only [transact, hb, idleTransact]
  cases byteItem s.cfg a.toNat <;> rfl

theorem transact_write4 (a : BitVec 26) (v : Word) :
    transact (.write4 a v) s =
      respond ((wordItem a.toNat).elim .error fun _ => .okWrite) ((wordItem a.toNat).elim s (writeWord s v)) := by
  simp only [transact, hb, idleTransact]
  cases wordItem a.toNat <;> rfl

theorem transact_write1 (a : BitVec 26) (v : Byte) :
    transact (.write1 a v) s =
      respond ((byteItem s.cfg a.toNat).elim .error fun _ => .okWrite) ((byteItem s.cfg a.toNat).elim s (writeByte s v)) := by
  simp only [transact, hb, idleTransact]
  cases byteItem s.cfg a.toNat <;> rfl

end Idle

end Sys2Proof.Machine
end

section
/-! PROOFS, the memory (20_memory.md): the answers and the side effects of the host's transactions (R64, R65, R70, R75). -/

namespace Sys2Proof.Machine

open Sys2Proof.Claims

/-! ## While BUSY -/

/-- Settles O7: the answer of a BUSY core, and the two bits of STATUS it fixes. -/
theorem busyBusAnswersOnlyStatus : Obligations.BusyBusAnswersOnlyStatus := by
  intro s t rest hb hd hh
  refine ⟨?_, by rw [statusWordBits]; exact hb, by rw [statusWordBits]; exact hd⟩
  rw [step, turn, hh]
  exact congrArg _ (transact_busy (s := { s with host := rest }) hb t)

/-! ## ERROR (R64) -/

theorem HostWrite.log_eq {s t : State} (h : HostWrite s t) : t.log = s.log := by
  cases h with
  | nothing | ctrl | accepted | status | inLen | freq | input => rfl

/-- A write to what an offset addresses, or to nothing. -/
theorem elim_hostWrite {α : Type} {s : State} {f : α → State} (hf : ∀ i, HostWrite s (f i)) (o : Option α) :
    HostWrite s (o.elim s f) := by
  cases o with
  | none => exact .nothing
  | some i => exact hf i

/-- The answer is ERROR just where nothing is addressed. -/
theorem elim_eq_error {α : Type} {o : Option α} {f : α → Response} (hf : ∀ i, f i ≠ .error) :
    o.elim .error f = .error ↔ ¬ o.isSome = true := by
  cases o <;> simp [hf]

/-- What a transaction of an idle core comes to (R64): ERROR without effect where the access is not legal, another answer where it is. -/
theorem transact_idle {s : State} (hb : s.busy = false) (t : Txn) :
    ∃ r u, transact t s = respond r u ∧ u.log = s.log ∧ (r = .error ↔ ¬ LegalAccess s.cfg t) ∧ (r = .error → u = s) := by
  cases t with
  | read4 a =>
    exact ⟨_, _, transact_read4 hb a, rfl, (elim_eq_error (by simp)).trans (not_congr wordItem_isSome), fun _ => rfl⟩
  | read1 a =>
    exact ⟨_, _, transact_read1 hb a, rfl, (elim_eq_error (by simp)).trans (not_congr byteItem_isSome), fun _ => rfl⟩
  | write4 a v =>
    refine ⟨_, _, transact_write4 hb a v, (elim_hostWrite (writeWord_hostWrite s v) _).log_eq,
      (elim_eq_error (by simp)).trans (not_congr wordItem_isSome), ?_⟩
    cases wordItem a.toNat <;> simp
  | write1 a v =>
    refine ⟨_, _, transact_write1 hb a v, (elim_hostWrite (writeByte_hostWrite s v) _).log_eq,
      (elim_eq_error (by simp)).trans (not_congr byteItem_isSome), ?_⟩
    cases byteItem s.cfg a.toNat <;> simp

/-- Settles O8: the answers of a BUSY and of an idle core. -/
theorem busErrorRule : Obligations.BusErrorRule := by
  intro s t
  rcases Bool.eq_false_or_eq_true s.busy with hb | hb
  · rw [transact_busy hb]
    refine ⟨_, rfl, ?_, fun hr => by rw [hr]; rfl⟩
    by_cases ht : t = .read4 0x00C <;> simp [ht, hb]
  · obtain ⟨r, u, h, hlog, herr, hu⟩ := transact_idle hb t
    rw [h]
    exact ⟨r, by rw [respond_log, hlog], by simpa [hb] using herr, fun hr => by rw [hu hr, hr]; rfl⟩

/-! ## Side effects (R75) -/

/-- A write of a word to an offset outside the list of R75 changes nothing. -/
theorem writeWord_nothing {s : State} {v : Word} {a : BitVec 26} (hreg : a ≠ 0x004 ∧ a ≠ 0x008 ∧ a ≠ 0x00C ∧ a ≠ 0x020)
    (hfreq : ¬ (0x400 ≤ a.toNat ∧ a.toNat < 0x800 ∧ a.toNat % 4 = 0)) : (wordItem a.toNat).elim s (writeWord s v) = s := by
  cases hi : wordItem a.toNat with
  | none => rfl
  | some i =>
    obtain ⟨ha, hr⟩ := wordItem_eq_some.1 hi
    obtain ⟨hctrl, hcmd, hstatus, hlen⟩ := hreg
    cases i
    case ctrl => exact absurd (BitVec.eq_of_toNat_eq ha) hctrl
    case cmd => exact absurd (BitVec.eq_of_toNat_eq ha) hcmd
    case status => exact absurd (BitVec.eq_of_toNat_eq ha) hstatus
    case inLen => exact absurd (BitVec.eq_of_toNat_eq ha) hlen
    case freq j =>
      simp only [WordItem.offset, WordItem.InRange] at ha hr
      omega
    all_goals rfl

/-- A write of a word to an offset of FREQ (R39, R61). -/
theorem writeWord_freq {s : State} {v : Word} {a : Nat} (h : 0x400 ≤ a ∧ a < 0x800 ∧ a % 4 = 0) :
    (wordItem a).elim s (writeWord s v) = setFreq s ((a - 0x400) / 4) v := by
  rw [wordItem_eq_some.2 ⟨show a = (WordItem.freq ((a - 0x400) / 4)).offset by simp only [WordItem.offset]; omega,
    show (a - 0x400) / 4 < 256 by omega⟩]
  rfl

theorem respond_eq_of_log {s u : State} (h : u.log = s.log) (r : Response) : respond r u = { u with log := r :: s.log } := by
  rw [respond, h]

/-- Settles O9: reads leave the state as it is, and each write is that of the item its offset addresses. -/
theorem busSideEffects : Obligations.BusSideEffects := by
  intro s hb
  have hword (a v) := (transact_write4 hb a v).trans (respond_eq_of_log (elim_hostWrite (writeWord_hostWrite s v) _).log_eq _)
  have hbyte (a v) := (transact_write1 hb a v).trans (respond_eq_of_log (elim_hostWrite (writeByte_hostWrite s v) _).log_eq _)
  refine ⟨fun a => ⟨_, transact_read4 hb a⟩, fun a => ⟨_, transact_read1 hb a⟩, fun a v => ⟨_, _, hword a v, ?_⟩,
    fun a v => ⟨_, _, hbyte a v, ?_⟩⟩
  · split_ifs with hctrl hcmd hcmd' hstatus hlen hfreq
    · subst hctrl; rfl
    · subst hcmd; exact if_pos hcmd'
    · subst hcmd; exact if_neg hcmd'
    · subst hstatus; rfl
    · subst hlen; rfl
    · rw [writeWord_freq hfreq]
      exact ⟨rfl, (freqAt_setFreq s _ · v)⟩
    · exact writeWord_nothing ⟨hctrl, hcmd, hstatus, hlen⟩ hfreq
  · split_ifs with hin
    · rw [byteItem_inp hin]
      exact ⟨rfl, (inByte_setIn s _ · v)⟩
    · rw [byteItem, if_neg hin]
      split_ifs <;> rfl

/-! ## What reads answer (R61 to R63) -/

/-- The read of an item of the map. -/
theorem transact_readItem {s : State} (hb : s.busy = false) {i : WordItem} (hi : i.InRange) {a : Nat} (ha : a = i.offset) :
    transact (.read4 (BitVec.ofNat 26 a)) s = { s with log := .okWord (readWord s i) :: s.log } := by
  have hlt := i.offset_lt hi
  rw [transact_read4 hb, BitVec.toNat_ofNat, Nat.mod_eq_of_lt (by omega), wordItem_eq_some.2 ⟨ha, hi⟩]
  rfl

/-- CTRL as a number: DGM at bit 0, IE at bit 1 (R22). -/
theorem ctrlWord_eq (s : State) : ctrlWord s = word (s.dgm.toNat + 2 * s.ie.toNat) := by
  unfold ctrlWord
  cases s.dgm <;> cases s.ie <;> rfl

/-- The bits of a word of CODEBITS, most significant first (R42). -/
theorem getLsbD_codeWord (v : BitVec 256) {w j : Nat} (hw : w < 8) (hj : j < 32) :
    (codeWord v w).getLsbD (31 - j) = v.getMsbD (32 * w + j) := by
  rw [codeWord, BitVec.getLsbD_extractLsb', BitVec.getMsbD, decide_eq_true (by omega), decide_eq_true (by omega),
    show 224 - 32 * w + (31 - j) = 256 - 1 - (32 * w + j) by omega]

/-- Word 1 of an internal node as a number (R41). -/
theorem word1_internal_toNat (w : Word) (l r : NodeIx) :
    (Node.internal w l r).word1.toNat = 2 ^ 31 + r.toNat * 2 ^ 16 + l.toNat := by
  have hl := l.isLt
  have hr := r.isLt
  have hbody : (r.setWidth 32 <<< 16).toNat = r.toNat * 2 ^ 16 := by
    rw [BitVec.toNat_shiftLeft, BitVec.toNat_setWidth, Nat.shiftLeft_eq]; omega
  have hkind : 2 ^ 31 ||| r.toNat * 2 ^ 16 = (2 ^ 15 + r.toNat) * 2 ^ 16 := by
    rw [← Nat.mul_one (2 ^ 31), ← Nat.two_pow_add_eq_or_of_lt (by omega)]
    omega
  have hword := Nat.two_pow_add_eq_or_of_lt (show l.toNat < 2 ^ 16 by omega) (2 ^ 15 + r.toNat)
  rw [Node.word1, BitVec.toNat_or, BitVec.toNat_or, hbody, BitVec.toNat_setWidth, Nat.mod_eq_of_lt (by omega)]
  change 2 ^ 31 ||| r.toNat * 2 ^ 16 ||| l.toNat = _
  rw [hkind, Nat.mul_comm, ← hword]
  omega

/-- Settles O10: each offset addresses its item, whose value is the register or the table's entry. -/
theorem busReadValues : Obligations.BusReadValues := by
  intro s hb
  refine ⟨fun e he => ?_, fun i hi => ⟨?_, ?_, ?_, fun w hw => ⟨codeWord (codeBitsAt s i) w, ?_, fun j => getLsbD_codeWord _ hw⟩⟩,
    fun i hi => ⟨?_, (nodeAt s i).word1, ?_, ?_⟩, fun hp i hi => ?_⟩
  · rw [← ctrlWord_eq] at he
    obtain ⟨p, hp, rfl⟩ := List.mem_map.1
      (show e ∈ registerMap.map fun p => (BitVec.ofNat 26 p.1, readWord s p.2) from he)
    obtain ⟨hoff, hr⟩ := registerMap_offset p hp
    exact transact_readItem hb hr hoff
  · exact transact_readItem hb (i := .freq i) hi rfl
  · exact transact_readItem hb (i := .heap i) hi rfl
  · exact transact_readItem hb (i := .codeLen i) hi rfl
  · exact transact_readItem hb (i := .codeBits i w) ⟨hi, hw⟩ rfl
  · exact transact_readItem hb (i := .node i 0) ⟨hi, by decide⟩ rfl
  · exact transact_readItem hb (i := .node i 1) ⟨hi, by decide⟩ (by simp only [WordItem.offset]; omega)
  · cases hn : nodeAt s i with
    | leaf w b => rfl
    | internal w l r => exact word1_internal_toNat w l r
  · obtain ⟨-, hin, -⟩ := hp
    have ha : (BitVec.ofNat 26 (0x01000000 + i)).toNat = 0x01000000 + i := by rw [BitVec.toNat_ofNat]; omega
    rw [transact_read1 hb, ha, byteItem_inp (by omega), Nat.add_sub_cancel_left]
    rfl

/-! ## OUT beyond its length (R70) -/

theorem outByte_of_outLen_zero {s : State} (h : s.outLen = 0) (i : Nat) : outByte s i = 0 := by
  rw [outByte, h]; rfl

theorem frame_err {i : Instr} (hi : isComposite i = false) {s t : State} (h : Frame i s t) (hs : s.err = 0) : t.err = 0 := by
  cases i
  case clr => rw [show t = faultReturn s from h]; rfl
  case encode | decode => cases hi
  all_goals exact (congrArg State.err h).trans hs

/-- A command that ends without raising leaves ERR at 0 (R25). -/
theorem opOf_err (i : Instr) {s : State} (hs : s.err = 0) : (opOf i s).Ends (fun t => t.err = 0) fun _ => True := by
  have hop : ∀ j, isComposite j = false → ∀ u : State, u.err = 0 → (opOf j u).Ends (fun t => t.err = 0) fun _ => True :=
    fun j hj u hu => (opOf_frame j u).ends (fun _ ht => frame_err hj ht hu) fun _ _ => trivial
  cases i with
  | encode =>
    exact opEncode_ends (encodeStart_ends trivial hs) (fun _ _ _ h => h) fun j hj => hop j (by revert hj; revert j; decide)
  | decode =>
    exact opDecode_ends (decodeStart_ends trivial hs) (fun _ _ _ h => h) fun j hj => hop j (by revert hj; revert j; decide)
  | _ => exact hop _ rfl s hs

/-- Settles O11: the read itself, and OUT_LEN 0 after reset, CLR and every fault. -/
theorem outReadsZeroBeyondItsLength : Obligations.OutReadsZeroBeyondItsLength := by
  refine ⟨fun s hb hp i hi => ?_, outByte_of_outLen_zero rfl, fun s t i h => ?_, fun c w s t i h => ?_, fun k s t i hs h hne => ?_⟩
  · have ⟨_, _, _, hcap, _⟩ := hp
    have ha : (BitVec.ofNat 26 (0x02000000 + i)).toNat = 0x02000000 + i := by rw [BitVec.toNat_ofNat]; omega
    rw [transact_read1 hb, ha, byteItem_out hp hi]
    rfl
  · cases h; exact outByte_of_outLen_zero rfl i
  · cases h; exact outByte_of_outLen_zero rfl i
  · rw [exec_eq_finish] at h
    rcases finish_eq_next.1 h with ⟨u, hu, rfl⟩ | ⟨c, w, u, hu, rfl⟩
    · exact absurd ((opOf_err k hs).1 u hu) hne
    · exact outByte_of_outLen_zero rfl i

end Sys2Proof.Machine
end

section
/-! PROOFS, the memory (20_memory.md): the bounds of IN and OUT (R68, R69, R285). -/

namespace Sys2Proof.Machine

open Sys2Proof.Claims

/-! ## IN_LEN above IN_CAP (R68) -/

/-- Settles O32: CheckIn raises wherever a command comes to it; IN_LEN is then not 0, so ENCODE's first check passes. -/
theorem inputTooLongTraps : Obligations.InputTooLongTraps := by
  intro s h
  have hraise := checkIn_raise h
  have hraise0 : checkIn (setSeq 0 s) = .raise .capacity 1 (setSeq 0 s) := checkIn_raise h
  have hne : ¬ (setSeq 0 s).inLen = 0 := fun e => by
    rw [setSeq_inLen] at e
    rw [e] at h
    exact absurd h (Nat.not_lt_zero _)
  refine ⟨?_, ?_, ?_, fun hv => ?_, fun hv => ?_, ?_, ?_⟩
  · rw [exec_eq_finish, opOf, opCount, hraise]; rfl
  · rw [exec_eq_finish, opOf, opDeserialize, hraise]; rfl
  · rw [exec_eq_finish, opOf, opRdhdr, hraise]; rfl
  · rw [exec_eq_finish, opOf, opUnpack, if_neg (by simp [hv]), hraise]; rfl
  · rw [exec_eq_finish, opOf, opEncsym, if_neg (by simp [hv]), hraise]; rfl
  · rw [exec_eq_finish, opOf, opEncode, stepOf, encodeStart, if_neg hne, hraise0]; rfl
  · rw [exec_eq_finish, opOf, opDecode, stepOf, decodeStart, hraise0]; rfl

/-! ## OUT full (R69) -/

/-- Appending more bytes than OUT has room for raises CAPACITY(2), and fault entry clears what the command has set before: at most REM
and OUT. -/
theorem appendAll_full {s u : State} (hs : LengthsFit s) (hu : u = { s with rem := u.rem }) {bs : List Byte}
    (h : s.cfg.outCap < s.outLen.toNat + bs.length) :
    ∃ v, appendAll bs u = .raise .capacity 2 v ∧ WorkStateCleared s (faulted .capacity 2 v) := by
  obtain ⟨⟨-, -, -, hcap, -⟩, hlen, -⟩ := hs
  have hc : u.cfg = s.cfg := by rw [hu]
  have hl : u.outLen = s.outLen := by rw [hu]
  obtain ⟨v, hv, hf⟩ := appendAll_raise bs u (by rw [hc]; omega) (by rw [hc, hl]; exact hlen) (by rw [hc, hl]; exact h)
  refine ⟨v, hv, ?_⟩
  rw [hf, hu]
  rfl

/-- Settles O48: each of the four commands appends a list of known length, and the list does not fit. -/
theorem outputFullTraps : Obligations.OutputFullTraps := by
  intro s hs
  refine ⟨fun T ht hT h => ?_, fun hb h => ?_, fun hb h => ?_, fun T ht hb hT h => ?_⟩
  · obtain ⟨v, hv, hc⟩ := appendAll_full (u := s) hs rfl (bs := T.ser) (by rw [T.ser_length]; exact h)
    exact ⟨_, by rw [exec_eq_finish, opOf, opSerialize, if_neg (by simp [ht]), serNode_eq hT, hv]; rfl, hc, rfl, rfl⟩
  · obtain ⟨v, hv, hc⟩ := appendAll_full (u := setRem s) hs rfl (bs := headerBytes (setRem s).rem.toNat) h
    exact ⟨_, by rw [exec_eq_finish, opOf, opWrhdr, if_neg (by simp [hb]), hv]; rfl, hc, rfl, rfl⟩
  · obtain ⟨v, hv, hc⟩ := appendAll_full (u := setRem s) hs rfl (bs := packOf (bitString s))
      (by rw [packOf_length, bitString_length]; exact h)
    exact ⟨_, by rw [exec_eq_finish, opOf, opPack, if_neg (by simp [hb]), packBytes_eq, hv]; rfl, hc, rfl, rfl⟩
  · obtain ⟨v, hv, hc⟩ := appendAll_full (u := s) hs rfl h
    exact ⟨_, by rw [exec_eq_finish, opOf, opDecsym, if_neg (by simp [ht, hb]), decodeBits_eq hT, hv]; rfl, hc, rfl, rfl⟩

end Sys2Proof.Machine
end

section
/-! PROOFS, the encoding (30_encoding.md R91 to R95): which word is which command's. A row's word has the row's opcode in bits 7:0, so the
rows are disjoint and the decoder's first match is its only one. -/

namespace Sys2Proof.Machine

open Sys2Proof.Claims

/-! ## The rows of the opcode map (R93) -/

/-- The one row with an operand (R92). -/
def pqInsertRow : OpcodeRow := { mask := 0xFFFE00FF, pat := 0x10, build := fun w => .pqInsert (argField w) }

theorem opcodeMap_perm : opcodeMap.Perm (pqInsertRow :: formatNWords.map fun e => rowN e.1 e.2) :=
  List.perm_middle (l₁ := [rowN 0x00 .nop, rowN 0x01 .clr])

theorem mem_opcodeMap {r : OpcodeRow} : r ∈ opcodeMap ↔ r = pqInsertRow ∨ ∃ e ∈ formatNWords, rowN e.1 e.2 = r := by
  rw [opcodeMap_perm.mem_iff, List.mem_cons, List.mem_map]

theorem rowMatches_pqInsertRow {w : Word} : rowMatches w pqInsertRow = true ↔ w &&& 0xFFFE00FF = 0x00000010 := decide_eq_true_iff

theorem rowMatches_rowN {w opc : Word} {i : Instr} : rowMatches w (rowN opc i) = true ↔ w = opc := by
  rw [rowMatches, decide_eq_true_iff]
  exact iff_of_eq (congrArg (· = opc) BitVec.and_allOnes)

/-- Every row's mask covers the opcode. -/
theorem opcField_mask : ∀ r ∈ opcodeMap, opcField r.mask = 0xFF := by decide

theorem opcField_and (v w : Word) : opcField (v &&& w) = opcField v &&& opcField w := BitVec.extractLsb'_and

theorem opcField_of_rowMatches {w : Word} {r : OpcodeRow} (hr : r ∈ opcodeMap) (h : rowMatches w r = true) :
    opcField r.pat = opcField w := by
  rw [← of_decide_eq_true h, opcField_and, opcField_mask r hr]
  exact BitVec.and_allOnes

/-- No two rows have the same opcode (R93). -/
theorem opcodes_nodup : (opcodeMap.map fun r => opcField r.pat).Nodup := by decide

/-- The rows are disjoint (R95). -/
theorem rows_disjoint (w : Word) : opcodeMap.Pairwise fun r r' => ¬ (rowMatches w r = true ∧ rowMatches w r' = true) :=
  (List.pairwise_map.1 opcodes_nodup).imp_of_mem fun hr hr' hne ⟨h, h'⟩ =>
    hne ((opcField_of_rowMatches hr h).trans (opcField_of_rowMatches hr' h').symm)

/-- At most one row matches a word: no opcode stands twice in the map. -/
theorem matchingRows_length_le_one (w : Word) : (opcodeMap.filter (rowMatches w)).length ≤ 1 :=
  calc (opcodeMap.filter (rowMatches w)).length
      = opcodeMap.countP (rowMatches w) := List.countP_eq_length_filter.symm
    _ ≤ opcodeMap.countP fun r => opcField r.pat == opcField w :=
        List.countP_mono_left fun _ hr h => beq_iff_eq.2 (opcField_of_rowMatches hr h)
    _ = (opcodeMap.map fun r => opcField r.pat).count (opcField w) := by rw [List.count_eq_countP, List.countP_map]; rfl
    _ ≤ 1 := List.nodup_iff_count_le_one.1 opcodes_nodup _

/-! ## The decoder (R95) -/

/-- Where the rows are disjoint the first match is the match. -/
theorem firstMatch_eq_some {w : Word} {i : Instr} {l : List OpcodeRow}
    (h : l.Pairwise fun r r' => ¬ (rowMatches w r = true ∧ rowMatches w r' = true)) :
    firstMatch w l = some i ↔ ∃ r ∈ l, rowMatches w r = true ∧ r.build w = i := by
  induction l with
  | nil => simp [firstMatch]
  | cons r l ih =>
    obtain ⟨hr, hl⟩ := List.pairwise_cons.1 h
    rw [firstMatch, List.exists_mem_cons_iff]
    split
    · next hm =>
      have hrest : ¬ ∃ r' ∈ l, rowMatches w r' = true ∧ r'.build w = i := fun ⟨r', hr', hm', _⟩ => hr r' hr' ⟨hm, hm'⟩
      simp [hm, hrest]
    · next hm => rw [ih hl]; simp [hm]

theorem decode_eq_ok_iff_firstMatch {w : Word} {i : Instr} : decode w = .ok i ↔ firstMatch w opcodeMap = some i := by
  unfold decode
  cases firstMatch w opcodeMap <;> simp

/-- What the decoder answers (R95): PQ_INSERT with the word's ARG, or the command of the format-N word. -/
theorem decode_eq_ok {w : Word} {i : Instr} :
    decode w = .ok i ↔
      (w &&& 0xFFFE00FF = 0x00000010 ∧ .pqInsert (argField w) = i) ∨ ∃ e ∈ formatNWords, w = e.1 ∧ e.2 = i := by
  rw [decode_eq_ok_iff_firstMatch, firstMatch_eq_some (rows_disjoint w)]
  constructor
  · rintro ⟨r, hr, hm, hb⟩
    rcases mem_opcodeMap.1 hr with rfl | ⟨e, he, rfl⟩
    · exact .inl ⟨rowMatches_pqInsertRow.1 hm, hb⟩
    · exact .inr ⟨e, he, rowMatches_rowN.1 hm, hb⟩
  · rintro (⟨hm, hb⟩ | ⟨e, he, hw, hb⟩)
    · exact ⟨pqInsertRow, mem_opcodeMap.2 (.inl rfl), rowMatches_pqInsertRow.2 hm, hb⟩
    · exact ⟨_, mem_opcodeMap.2 (.inr ⟨e, he, rfl⟩), rowMatches_rowN.2 hw, hb⟩

theorem decode_eq_error {w : Word} : (∃ r, decode w = .error r) ↔ ∀ i, decode w ≠ .ok i := by
  cases decode w <;> simp

/-! ## The encoder (R91, R92) -/

/-- The word of PQ_INSERT by its fields (R92): zeros, ARG, opcode. -/
theorem encode_pqInsert {n : Nat} (hn : n < 512) : encode (.pqInsert n) = 0#15 ++ BitVec.ofNat 9 n ++ 0x10#8 := by
  refine BitVec.eq_of_toNat_eq ?_
  rw [encode, BitVec.toNat_or, BitVec.toNat_shiftLeft, BitVec.toNat_append, BitVec.toNat_append, Nat.or_comm]
  simp only [BitVec.toNat_ofNat, Nat.shiftLeft_eq, Nat.zero_mod, Nat.zero_mul, Nat.zero_or]
  rw [Nat.mod_eq_of_lt (show n < 2 ^ 32 by omega), Nat.mod_eq_of_lt (show n < 2 ^ 9 from hn),
    Nat.mod_eq_of_lt (show n * 2 ^ 8 < 2 ^ 32 by omega)]
  rfl

/-- The mask of PQ_INSERT's row covers every field but ARG. -/
theorem encode_pqInsert_and {n : Nat} (hn : n < 512) : encode (.pqInsert n) &&& 0xFFFE00FF = 0x00000010 := by
  have hmask : (0xFFFE00FF : Word) = BitVec.allOnes 15 ++ 0#9 ++ BitVec.allOnes 8 := by decide
  rw [encode_pqInsert hn, hmask, BitVec.and_append, BitVec.and_append, BitVec.and_zero]
  rfl

theorem argField_encode {n : Nat} (hn : n < 512) : argField (encode (.pqInsert n)) = n := by
  rw [encode_pqInsert hn, argField, BitVec.extractLsb'_append_eq_of_le (Nat.le_refl 8), Nat.sub_self,
    BitVec.extractLsb'_append_eq_right, BitVec.toNat_ofNat, Nat.mod_eq_of_lt hn]

/-- The word of every other command stands in the opcode map (R93). -/
theorem encode_mem_formatNWords {i : Instr} (hi : ∀ n, i ≠ .pqInsert n) : (encode i, i) ∈ formatNWords := by
  cases i
  case pqInsert n => exact absurd rfl (hi n)
  all_goals decide

/-- Settles O1: PQ_INSERT by the fields of its word, every other command by its row. -/
theorem decodeOfEncodeIsIdentity : Obligations.DecodeOfEncodeIsIdentity := by
  intro i hi
  refine decode_eq_ok.2 ?_
  cases i with
  | pqInsert n =>
    have hn : n < 512 := of_decide_eq_true hi
    exact .inl ⟨encode_pqInsert_and hn, by rw [argField_encode hn]⟩
  | _ => exact .inr ⟨_, encode_mem_formatNWords (by simp), rfl, rfl⟩

end Sys2Proof.Machine
end

section
/-! PROOFS, the encoding (30_encoding.md R74, R94, R95): the step of a BUSY core, the acceptance of a command word, and which word selects
which command. -/

namespace Sys2Proof.Machine

open Sys2Proof.Claims

/-! ## Turns -/

theorem step_of_host_nil {s : State} (hh : s.host = []) : step s = coreTurn s := by rw [step, turn, hh]

theorem step_of_host_wait {s : State} {rest : List HostMove} (hh : s.host = .wait :: rest) :
    step s = coreTurn { s with host := rest } := by rw [step, turn, hh]; rfl

theorem step_of_host_txn {s : State} {x : Txn} {rest : List HostMove} (hh : s.host = .txn x :: rest) :
    step s = .next (transact x { s with host := rest }) := by rw [step, turn, hh]; rfl

/-- The core's turn where CMD holds a command's word (R94). -/
theorem coreTurn_of_decode_ok {s : State} {i : Instr} (hb : s.busy = true) (hd : decode s.cmd = .ok i) : coreTurn s = exec i s := by
  rw [coreTurn, if_pos hb, runCommand, hd]

/-- The core's turn where it does not (R95). -/
theorem coreTurn_of_decode_error {s : State} {r : Reject} (hb : s.busy = true) (hd : decode s.cmd = .error r) :
    coreTurn s = .next (faulted .illegal s.cmd s) := by
  rw [coreTurn, if_pos hb, runCommand, hd]; rfl

/-- A whole word in `withFetchWord` is the word accepted. -/
theorem withFetchWord_toNat (s : State) (w : Word) : s.withFetchWord 32 w.toNat = acceptedWord w s := by
  rw [State.withFetchWord, Nat.mod_eq_of_lt w.isLt, word, BitVec.ofNat_toNat, BitVec.setWidth_eq]

/-- Settles O4: the core's turn, with the host silent, waiting, and waiting after the word's acceptance. -/
theorem stepRunsTheDecodedCommand : Obligations.StepRunsTheDecodedCommand := by
  refine fun s i => ⟨fun hb hd hh => ?_, fun rest hb hd hh => ?_, fun w hd => ?_⟩
  · rw [step_of_host_nil hh, coreTurn_of_decode_ok hb hd]
  · exact (step_of_host_wait hh).trans (coreTurn_of_decode_ok (s := { s with host := rest }) hb hd)
  · rw [withFetchWord_toNat, step_of_host_wait rfl]
    exact coreTurn_of_decode_ok rfl hd

/-! ## Acceptance (R65, R94, R291) -/

/-- A write to CMD while idle offers the command. -/
theorem transact_write_cmd {s : State} (hb : s.busy = false) (w : Word) :
    transact (.write4 0x008 w) s = respond .okWrite (offerCommand w s) := by
  rw [transact_write4 hb]; rfl

/-- Settles O6: the answer of a BUSY core, and the two things an idle core does with an offered command. -/
theorem commandAcceptance : Obligations.CommandAcceptance := by
  refine fun s w rest hh => ⟨fun hb => ?_, fun hb he hw => ?_, fun hb h => ?_⟩
  · rw [step_of_host_txn hh, transact_busy (s := { s with host := rest }) hb, if_neg (by simp)]; rfl
  · rw [step_of_host_txn hh, transact_write_cmd (s := { s with host := rest }) hb, offerCommand, if_pos ⟨he, hw⟩]; rfl
  · rw [step_of_host_txn hh, transact_write_cmd (s := { s with host := rest }) hb, offerCommand, if_neg fun ⟨he, hw⟩ => h.elim he hw]; rfl

/-! ## Which word selects which command (R93, R95) -/

theorem formatNWords_ne_pqInsert : ∀ e ∈ formatNWords, ∀ n, e.2 ≠ .pqInsert n := by simp [formatNWords]

/-- No command has two format-N words. -/
theorem formatNWords_injective : ∀ e ∈ formatNWords, ∀ e' ∈ formatNWords, e'.2 = e.2 → e'.1 = e.1 := by decide

theorem decode_eq_pqInsert {w : Word} {n : Nat} :
    decode w = .ok (.pqInsert n) ↔ w &&& 0xFFFE00FF = 0x00000010 ∧ n = argField w := by
  rw [decode_eq_ok, Instr.pqInsert.injEq, eq_comm (a := argField w), or_iff_left]
  exact fun ⟨e, he, _, hn⟩ => formatNWords_ne_pqInsert e he n hn

theorem decode_eq_formatN {w : Word} {e : Word × Instr} (he : e ∈ formatNWords) : decode w = .ok e.2 ↔ w = e.1 := by
  rw [decode_eq_ok]
  constructor
  · rintro (⟨-, hn⟩ | ⟨e', he', hw, hi⟩)
    · exact absurd hn.symm (formatNWords_ne_pqInsert e he _)
    · exact hw.trans (formatNWords_injective e he e' he' hi)
  · exact fun hw => .inr ⟨e, he, hw, rfl⟩

/-- The illegal words (R95): those of no row. -/
theorem decode_eq_error_iff {w : Word} :
    (∃ r, decode w = .error r) ↔ w &&& 0xFFFE00FF ≠ 0x00000010 ∧ ∀ e ∈ formatNWords, w ≠ e.1 := by
  rw [decode_eq_error]
  constructor
  · exact fun h => ⟨fun hm => h _ (decode_eq_pqInsert.2 ⟨hm, rfl⟩), fun e he hw => h _ ((decode_eq_formatN he).2 hw)⟩
  · rintro ⟨hm, hw⟩ i hi
    rcases decode_eq_ok.1 hi with ⟨hm', -⟩ | ⟨e, he, hw', -⟩
    · exact hm hm'
    · exact hw e he hw'

/-- Settles O2: the rows of the map, their disjointness, and the core's turn on an illegal word. -/
theorem wordSelectsTheCommandOfItsRow : Obligations.WordSelectsTheCommandOfItsRow := by
  refine fun w => ⟨fun n => decode_eq_pqInsert, fun e he => decode_eq_formatN he, decode_eq_error_iff, matchingRows_length_le_one w, ?_⟩
  rintro s hb hh rfl ⟨r, hr⟩
  rw [step_of_host_nil hh, coreTurn_of_decode_error hb hr]

/-- Settles O3: the words that decode, each by its row, and the rejections by name. -/
theorem specWordsDecode : Obligations.SpecWordsDecode := by
  have hrow : ∀ e ∈ formatNWords, decode e.1 = .ok e.2 := fun e he => (decode_eq_formatN he).2 rfl
  exact ⟨hrow (0x00, .nop) (by decide), decode_eq_pqInsert.2 ⟨by decide, by decide⟩, hrow (0x20, .count) (by decide),
    hrow (0x30, .gencode) (by decide), hrow (0x41, .deserialize) (by decide), hrow (0x53, .unpack) (by decide),
    hrow (0x60, .encsym) (by decide), hrow (0x71, .decode) (by decide), by decide, by decide, by decide⟩

end Sys2Proof.Machine
end

section
/-! PROOFS, the encoding (30_encoding.md R94, 60_exceptions.md R290): a command either completes without fault or leaves no work state. -/

namespace Sys2Proof.Machine

open Sys2Proof.Claims

/-- Fault entry (R290) leaves of a state only the host's side, SEQ, FREQ and the array behind OUT. -/
theorem workStateCleared_faulted {s u : State} (h : hostSide u = hostSide s) (c : CoreFault) (w : Word) :
    WorkStateCleared s (faulted c w u) := by
  simp only [hostSide, Prod.mk.injEq] at h
  obtain ⟨⟨hdgm, hie, hcmd, hlen⟩, hin, hcfg, hhost, hlog, hres⟩ := h
  rw [WorkStateCleared, ← hdgm, ← hie, ← hcmd, ← hlen, ← hin, ← hcfg, ← hhost, ← hlog, ← hres]
  rfl

/-! ## EINFO of a command that does not raise (R26) -/

theorem frame_einfo {i : Instr} (hi : isComposite i = false) (hc : i ≠ .clr) {s t : State} (h : Frame i s t) : t.einfo = s.einfo := by
  cases i
  case clr => exact absurd rfl hc
  case encode | decode => cases hi
  all_goals exact (congrArg State.einfo h :)

/-- Only CLR writes EINFO without a fault (R26, R251). -/
theorem opOf_einfo {i : Instr} (hc : i ≠ .clr) (s : State) : (opOf i s).Ends (fun t => t.einfo = s.einfo) fun _ => True := by
  have hop : ∀ j, isComposite j = false ∧ j ≠ .clr → ∀ u : State, u.einfo = s.einfo →
      (opOf j u).Ends (fun t => t.einfo = s.einfo) fun _ => True := fun j ⟨hj, hjc⟩ u hu =>
    (opOf_frame j u).ends (fun _ ht => (frame_einfo hj hjc ht).trans hu) fun _ _ => trivial
  cases i with
  | encode =>
    exact opEncode_ends (encodeStart_ends trivial rfl) (fun _ _ _ h => h) fun j hj => hop j (by revert hj; revert j; decide)
  | decode =>
    exact opDecode_ends (decodeStart_ends trivial rfl) (fun _ _ _ h => h) fun j hj => hop j (by revert hj; revert j; decide)
  | _ => exact hop _ ⟨rfl, hc⟩ s rfl

/-! ## SEQ and FREQ of a command that raises (R290) -/

theorem frame_seq {i : Instr} (hi : isComposite i = false) (hc : i ≠ .clr) {s t : State} (h : Frame i s t) : t.seq = s.seq := by
  cases i
  case clr => exact absurd rfl hc
  case encode | decode => cases hi
  all_goals exact (congrArg State.seq h :)

/-- COUNT raises before it clears FREQ (R132). -/
theorem opCount_raise {s u : State} {c : CoreFault} {w : Word} (h : opCount s = .raise c w u) : u = s := by
  rcases andThen_eq_raise.1 h with h | ⟨v, -, h⟩
  · exact (checkIn_frame s).2 c w u h
  · cases h

/-- A unit command raises in a state with SEQ and FREQ as they were: CLR, which clears SEQ, does not raise. -/
theorem opOf_raise_seq_freq {i : Instr} (hi : isComposite i = false) {s u : State} {c : CoreFault} {w : Word}
    (h : opOf i s = .raise c w u) : u.seq = s.seq ∧ u.freq = s.freq := by
  have hf := (opOf_frame i s).2 c w u h
  cases i
  case clr => cases h
  case count => exact opCount_raise h ▸ ⟨rfl, rfl⟩
  all_goals exact ⟨frame_seq hi (by simp) hf, frame_freq hi (by simp) hf⟩

theorem isComposite_eq_false {i : Instr} (he : i ≠ .encode) (hd : i ≠ .decode) : isComposite i = false := by
  cases i
  case encode => exact absurd rfl he
  case decode => exact absurd rfl hd
  all_goals rfl

/-- Settles O18: the two ends of a command, with ERR and EINFO kept at the one and the host's side, SEQ and FREQ at the other. -/
theorem commandSucceedsOrLeavesNothing : Obligations.CommandSucceedsOrLeavesNothing := by
  intro i s t hs h
  rw [exec_eq_finish] at h
  rcases finish_eq_next.1 h with ⟨u, hu, rfl⟩ | ⟨c, w, u, hu, rfl⟩
  · exact .inl ⟨(opOf_err i hs).1 u hu, fun hc => (opOf_einfo hc s).1 u hu⟩
  · have hside := ((hostSide_kept s).opOf i rfl).2 c w u hu
    refine .inr ⟨faulted_err_ne c w u, workStateCleared_faulted hside c w, outByte_of_outLen_zero rfl, fun he hd => ?_⟩
    exact opOf_raise_seq_freq (u := u) (isComposite_eq_false he hd) hu

end Sys2Proof.Machine
end

section
/-! PROOFS, the priority queue (40_pq.md): PQ_INSERT and PQ_EXTRACT on a queue that takes them, and the heap order at every step. -/

namespace Sys2Proof.Machine

/-! ## PQ_INSERT and PQ_EXTRACT -/

/-- PQ_INSERT of an allocated node is PqInsert of it (R114). -/
theorem opPqInsert_of_allocated {s : State} {n : Nat} (h : n < s.nnode.toNat) : opPqInsert n s = pqInsert (BitVec.ofNat 9 n) s :=
  if_neg (by omega)

/-- PQ_INSERT of a node that is not allocated (R114, R288). -/
theorem opPqInsert_raise {s : State} {n : Nat} (h : s.nnode.toNat ≤ n) : opPqInsert n s = .raise .badArg (word n) s := if_pos h

/-- Settles O28: PQ_INSERT of an allocated node is PqInsert and completion. -/
theorem pqInsertQueuesItsNode : Obligations.PqInsertQueuesItsNode := by
  intro s n _ hn hroom
  obtain ⟨u, hu, hframe, hperm, habove, horder⟩ := pqInsert_ok (BitVec.ofNat 9 n) hroom
  refine ⟨complete u, ?_, ?_, hperm, habove, horder⟩
  · rw [exec_eq_finish, opOf, opPqInsert_of_allocated hn, hu, finish_ok]
  · rw [hframe]; rfl

/-- Settles O30: PQ_EXTRACT is PqExtract and completion. -/
theorem pqExtractTakesALeastItem : Obligations.PqExtractTakesALeastItem := by
  intro s hne
  obtain ⟨u, hu, hframe, hperm, hvacated, habove, -, horder⟩ := pqExtract_ok hne
  refine ⟨complete u, ?_, ?_, hperm, hvacated, habove, horder⟩
  · rw [exec_eq_finish, opOf, opPqExtract, hu, finish_ok]
  · rw [hframe]; rfl

/-! ## The heap order (R116) at the end of a procedure -/

theorem heapOrder_of_empty {s : State} (h : s.hsize = 0) : HeapOrder s := fun j hj => absurd hj (by rw [h]; exact Nat.not_lt_zero j)

theorem pqInsert_heapOrder {s t : State} {n : NodeIx} (h : TreeStructure s) (ho : HeapOrder s) (ht : pqInsert n s = .ok t) :
    HeapOrder t := by
  obtain ⟨-, hle, -⟩ := h
  have hroom : s.hsize.toNat ≠ 256 := fun e => by rw [pqInsert_raise n e] at ht; cases ht
  obtain ⟨u, hu, -, -, -, horder⟩ := pqInsert_ok n (show s.hsize.toNat < 256 by omega)
  obtain rfl : u = t := Res.ok.inj (hu.symm.trans ht)
  exact horder ho

theorem opPqInsert_heapOrder {s t : State} {n : Nat} (h : TreeStructure s) (ho : HeapOrder s) (ht : opPqInsert n s = .ok t) :
    HeapOrder t := by
  rcases Nat.lt_or_ge n s.nnode.toNat with hn | hn
  · exact pqInsert_heapOrder h ho (by rwa [opPqInsert_of_allocated hn] at ht)
  · rw [opPqInsert_raise hn] at ht; cases ht

theorem pqExtract_heapOrder {s t : State} (ho : HeapOrder s) (ht : pqExtract s = .ok t) : HeapOrder t := by
  have hne : s.hsize ≠ 0 := fun e => by rw [pqExtract_raise e] at ht; cases ht
  obtain ⟨u, hu, -, -, -, -, -, horder⟩ := pqExtract_ok hne
  obtain rfl : u = t := Res.ok.inj (hu.symm.trans ht)
  exact (horder ho).1

/-- MKLEAVES (R134) queues its leaves in an empty queue; at most 256 symbols are present, so none of the capacities is met. -/
theorem opMkleaves_heapOrder {s t : State} (ht : opMkleaves s = .ok t) : HeapOrder t := by
  unfold opMkleaves at ht
  split at ht
  · cases ht
  · have hk : ((List.range 256).filter fun i => decide (freqAt (clrt s) i ≠ 0)).length ≤ 256 := by
      simpa using List.length_filter_le (fun i => decide (freqAt (clrt s) i ≠ 0)) (List.range 256)
    obtain ⟨u, hu, -, -, -, -, -, horder⟩ :=
      makeLeaves_ok (List.range 256) (clrt s) (n := 0) (h := 0) rfl rfl rfl (by omega) (by omega)
    obtain rfl : u = t := Res.ok.inj (hu.symm.trans ht)
    exact horder (fun _ hm => absurd hm List.not_mem_nil) (heapOrder_of_empty rfl)

/-- MERGE (R140) that succeeds found two items, room for a node and a sum that fits. -/
theorem opMerge_heapOrder {s t : State} (h : TreeStructure s) (ho : HeapOrder s) (ht : opMerge s = .ok t) : HeapOrder t := by
  obtain ⟨hnn, hle, -, -, -, hqueue, -⟩ := h
  have h2 : 2 ≤ s.hsize.toNat := by
    by_contra hc
    rw [opMerge, if_pos (by omega)] at ht; cases ht
  have hfull : s.nnode ≠ 511 := fun e => by
    rw [opMerge, if_neg (by omega), if_pos e] at ht; cases ht
  have hroom : s.nnode.toNat ≠ 511 := fun e => hfull (BitVec.eq_of_toNat_eq e)
  have hsum : keyOf s (heapAt s 0) + keyOf s (secondLeast s) ≤ 0xFFFFFFFF := by
    by_contra hc
    obtain ⟨u, hu, -⟩ := opMerge_weight_raise h2 hfull (by omega)
    rw [hu] at ht; cases ht
  obtain ⟨u, rest, hu, -, -, -, -, -, -, hleast⟩ := opMerge_ok h2 hle (by omega) hsum
  obtain rfl : u = t := Res.ok.inj (hu.symm.trans ht)
  obtain ⟨-, -, horder⟩ := hleast ho
  exact horder hqueue

/-! ## The commands that leave the queue empty -/

/-- SETROOT (R145) takes the one item there is. -/
theorem opSetroot_hsize {s t : State} (ht : opSetroot s = .ok t) : t.hsize = 0 := by
  unfold opSetroot at ht
  split at ht
  · cases ht
  · next h1 =>
    obtain h1 : s.hsize = 1 := by simpa using h1
    obtain ⟨u, hu, ht⟩ := andThen_eq_ok.1 ht
    obtain ⟨v, hv, hframe, -⟩ := pqExtract_ok (s := { s with codev := false }) (by rw [h1]; decide)
    obtain rfl : v = u := Res.ok.inj (hv.symm.trans hu)
    rw [acceptRoot_eq_ok ht]
    show v.hsize = 0
    rw [hframe]
    show s.hsize - 1 = 0
    rw [h1]; rfl

theorem opBuild_hsize {s t : State} (ht : opBuild s = .ok t) : t.hsize = 0 := by
  obtain ⟨_, -, ht⟩ := andThen_eq_ok.1 ht
  obtain ⟨_, -, ht⟩ := andThen_eq_ok.1 ht
  exact opSetroot_hsize ht

/-- DESERIALIZE (R180) ends by accepting its root, and then R47 (d) holds. -/
theorem opDeserialize_hsize {s t : State} (ht : opDeserialize s = .ok t) : t.hsize = 0 := by
  have hroot := (opDeserialize_sound ht).root
  obtain ⟨u, -, ht⟩ := andThen_eq_ok.1 ht
  split at ht
  · exact hroot.2 (by rw [acceptRoot_eq_ok ht])
  · cases ht

/-! ## Every command and every step -/

/-- The heap order, with the structure that makes keys constant while queued. -/
structure HeapSound (s : State) : Prop where
  shape : TreeStructure s
  order : HeapOrder s

theorem HeapSound.congr {s t : State} (h : HeapSound s) (he : treePart t = treePart s) : HeapSound t where
  shape := of_treePart_eq he h.shape
  order := of_treePart_eq he h.order

theorem heapSound_of_empty {s : State} (h : treePart s = State.reset) : HeapSound s where
  shape := (treeSound_of_empty h).shape
  order := heapOrder_of_empty (congrArg State.hsize h :)

theorem TreeEffect.shape {runs : Instr → Prop} {s t : State} (he : TreeEffect runs s t) (h : TreeStructure s) : TreeStructure t := by
  cases he with
  | same hp => exact of_treePart_eq hp h
  | sound hs => exact hs.shape
  | queue _ hs _ => exact hs
  | root _ _ _ hs _ => exact hs

theorem opOf_heapOrder {i : Instr} (hi : isComposite i = false) {s t : State} (h : HeapSound s) (ht : opOf i s = .ok t) :
    HeapOrder t := by
  cases i with
  | encode | decode => cases hi
  | clr => cases ht; exact heapOrder_of_empty rfl
  | pqInsert n => exact opPqInsert_heapOrder h.shape h.order ht
  | pqExtract => exact pqExtract_heapOrder h.order ht
  | mkleaves => exact opMkleaves_heapOrder ht
  | merge => exact opMerge_heapOrder h.shape h.order ht
  | setroot => exact heapOrder_of_empty (opSetroot_hsize ht)
  | build => exact heapOrder_of_empty (opBuild_hsize ht)
  | deserialize => exact heapOrder_of_empty (opDeserialize_hsize ht)
  | nop | count | gencode | serialize | wrhdr | pack | rdhdr | unpack | encsym | decsym =>
    exact of_treePart_eq (frame_treePart rfl ((opOf_frame _ s).1 t ht)) h.order

theorem heapSound_commands : KeptByCommands HeapSound fun _ => True where
  weaken _ _ := trivial
  command _ hi _ h := ⟨fun _ ht => ⟨(opOf_treeEffect h.shape ht).shape h.shape, opOf_heapOrder hi h ht⟩, fun _ _ _ _ => trivial⟩
  setSeq _ _ _ h := h.congr rfl
  clrw _ _ := heapSound_of_empty rfl
  complete _ h := h.congr rfl
  fault _ _ _ _ := heapSound_of_empty rfl

theorem heapSound_host : KeptByHost HeapSound where
  host _ _ h := h.congr rfl
  answer _ _ h := h.congr rfl
  write _ _ ht h := h.congr (hostWrite_treePart ht)
  reset _ _ := heapSound_of_empty rfl

/-- Settles O23: PqInsert and PqExtract keep the order, Alloc changes no queued item's key, and whatever else touches the queue empties it. -/
theorem stepKeepsHeapOrder : Obligations.StepKeepsHeapOrder := fun _ _ h ho ht =>
  (step_keeps heapSound_commands heapSound_host ht ⟨h, ho⟩).order

end Sys2Proof.Machine
end

section
/-! PROOFS, the frequency analyzer and the tree builder (41_build.md): COUNT, MKLEAVES, MERGE, SETROOT, and BUILD as their sequence. -/

namespace Sys2Proof.Machine

open Sys2Proof.Claims

/-! ## COUNT (R132) -/

theorem inputBytes_length (s : State) : (inputBytes s).length = s.inLen.toNat := by simp [inputBytes, inBytes]

/-- Settles O31: from an empty FREQ the loop counts, and no count of at most IN_LEN occurrences wraps. -/
theorem countCountsTheInput : Obligations.CountCountsTheInput := by
  intro s _ hlen
  have hcount : ∀ i, (freqAt (countBytes (inputBytes s) { s with freq := [] }) i).toNat = ((inputBytes s).map BitVec.toNat).count i := by
    intro i
    have hfit : 0 + (inputBytes s).length < 2 ^ 32 := by rw [inputBytes_length]; omega
    exact (freqAt_countBytes (inputBytes s) { s with freq := [] } i hfit).trans (Nat.zero_add _)
  refine ⟨complete (countBytes (inputBytes s) { s with freq := [] }), ?_, ?_, fun b => ?_, fun i hi => BitVec.eq_of_toNat_eq ?_⟩
  · rw [exec_eq_finish, opOf, opCount, checkIn_ok hlen, ok_andThen, finish_ok]
  · rw [countBytes_frame]; rfl
  · exact (hcount b.toNat).trans (List.count_map_of_injective _ _ (fun _ _ => BitVec.eq_of_toNat_eq) b)
  · refine (hcount i).trans (List.count_eq_zero.2 fun hmem => ?_)
    obtain ⟨b, -, rfl⟩ := List.mem_map.1 hmem
    have := b.isLt
    omega

/-! ## MKLEAVES (R134) -/

theorem presentSymbols_length_le (s : State) : (presentSymbols s).length ≤ 256 :=
  (List.length_filter_le _ _).trans_eq List.length_range

theorem noSymbols_iff {s : State} : noSymbols s = true ↔ presentSymbols s = [] := by
  simp [noSymbols, presentSymbols, List.filter_eq_nil_iff]

theorem opMkleaves_raise {s : State} (h : presentSymbols s = []) : opMkleaves s = .raise .emptyInput 0 s :=
  if_pos (noSymbols_iff.2 h)

/-- MKLEAVES with a symbol present: at most 256 leaves in an empty table, so no capacity is met. -/
theorem opMkleaves_ok {s : State} (h : presentSymbols s ≠ []) :
    ∃ t, opMkleaves s = .ok t ∧
      t = { clrt s with
        node := t.node, nnode := BitVec.ofNat 10 (presentSymbols s).length, heap := t.heap,
        hsize := BitVec.ofNat 9 (presentSymbols s).length } ∧
      (∀ j i, (presentSymbols s)[j]? = some i → nodeAt t j = .leaf (freqAt s i) (BitVec.ofNat 8 i)) ∧
      (∀ j, (presentSymbols s).length ≤ j → nodeAt t j = .leaf 0 0 ∧ heapAt t j = 0) ∧
      (queueOf t).Perm ((List.range (presentSymbols s).length).map (BitVec.ofNat 9)) ∧ HeapOrder t := by
  have hk := presentSymbols_length_le s
  obtain ⟨t, ht, hframe, hleaf, hnode, hheap, hqueue, horder⟩ :=
    makeLeaves_ok (List.range 256) (clrt s) (n := 0) (h := 0) (k := (presentSymbols s).length) rfl rfl rfl (by omega) (by omega)
  simp only [Nat.zero_add] at hframe hleaf hnode hheap hqueue
  refine ⟨t, ?_, hframe, hleaf, fun j hj => ⟨hnode j (.inr hj), hheap j hj⟩, hqueue, ?_⟩
  · rw [opMkleaves, if_neg (fun hn => h (noSymbols_iff.1 hn)), ht]
  · exact horder (fun _ hm => absurd hm List.not_mem_nil) (heapOrder_of_empty rfl)

/-- Settles O33: MKLEAVES, and completion. -/
theorem mkleavesMakesTheLeaves : Obligations.MkleavesMakesTheLeaves := by
  intro s h
  obtain ⟨u, hu, hframe, hleaf, hbeyond, hqueue, horder⟩ := opMkleaves_ok h
  refine ⟨complete u, ?_, ?_, hleaf, hbeyond, hqueue, horder⟩
  · rw [exec_eq_finish, opOf, hu, finish_ok]
  · rw [hframe]; rfl

/-! ## MERGE (R140) -/

/-- Settles O35: MERGE, and completion. -/
theorem mergeJoinsTheTwoLeast : Obligations.MergeJoinsTheTwoLeast := by
  intro s h2 h256 hroom hsum
  obtain ⟨u, rest, hu, hframe, hnode, hout, hin, -, -, hleast⟩ := opMerge_ok h2 h256 hroom hsum
  refine ⟨complete u, rest, ?_, ?_, fun i => ?_, hout, hin, fun ho => ?_⟩
  · rw [exec_eq_finish, opOf, hu, finish_ok]
  · rw [hframe]; rfl
  · show nodeOf u.node i = _
    rw [hnode, nodeOf_set]; rfl
  · obtain ⟨hfirst, hsecond, -⟩ := hleast ho
    exact ⟨hfirst, hsecond⟩

theorem opMerge_raise_empty {s : State} (h : s.hsize.toNat < 2) : opMerge s = .raise .pqEmpty 0 s := if_pos h

theorem opMerge_raise_full {s : State} (h2 : 2 ≤ s.hsize.toNat) (h : s.nnode = 511) : opMerge s = .raise .capacity 4 s :=
  (if_neg (by omega)).trans (if_pos h)

/-- Settles O36: the three checks; what MERGE has changed before the third, fault entry clears. -/
theorem mergeTraps : Obligations.MergeTraps := by
  refine fun s => ⟨fun h => ?_, fun h2 h => ?_, fun h2 hroom hsum => ?_⟩
  · rw [exec_eq_finish, opOf, opMerge_raise_empty h, finish_raise]
  · rw [exec_eq_finish, opOf, opMerge_raise_full h2 h, finish_raise]
  · obtain ⟨u, hu, hframe⟩ := opMerge_weight_raise h2 hroom hsum
    rw [exec_eq_finish, opOf, hu, finish_raise, clrw_congr (t := s) (by rw [hframe]; rfl)]

/-- MERGE that succeeds found two items, room for a node and a sum that fits. -/
theorem opMerge_eq_ok {s t : State} (ht : opMerge s = .ok t) :
    2 ≤ s.hsize.toNat ∧ s.nnode ≠ 511 ∧ keyOf s (heapAt s 0) + keyOf s (secondLeast s) ≤ 0xFFFFFFFF := by
  have h2 : 2 ≤ s.hsize.toNat := by
    by_contra hc
    rw [opMerge_raise_empty (by omega)] at ht; cases ht
  have hroom : s.nnode ≠ 511 := fun hc => by rw [opMerge_raise_full h2 hc] at ht; cases ht
  refine ⟨h2, hroom, ?_⟩
  by_contra hc
  obtain ⟨u, hu, -⟩ := opMerge_weight_raise h2 hroom (by omega)
  rw [hu] at ht; cases ht

/-- MERGE takes two items out of the queue and puts one in (R153). -/
theorem opMerge_hsize {s t : State} (h : TreeStructure s) (ht : opMerge s = .ok t) : t.hsize.toNat + 1 = s.hsize.toNat := by
  obtain ⟨hnn, h256, -⟩ := h
  obtain ⟨h2, hfull, hsum⟩ := opMerge_eq_ok ht
  have hroom : s.nnode.toNat ≠ 511 := fun e => hfull (BitVec.eq_of_toNat_eq e)
  obtain ⟨u, rest, hu, hframe, -⟩ := opMerge_ok h2 h256 (by omega) hsum
  obtain rfl : u = t := Res.ok.inj (hu.symm.trans ht)
  rw [hframe]
  exact hsize_pred fun e => absurd h2 (by rw [e]; decide)

/-! ## SETROOT (R145) -/

/-- SETROOT with one item queued takes it out, and what is left is AcceptRoot of it. -/
theorem opSetroot_one {s : State} (h : s.hsize = 1) :
    ∃ u, opSetroot s = acceptRoot (heapAt s 0) u ∧
      u = { s with codev := false, heap := u.heap, hsize := 0, pqOut := heapAt s 0 } ∧
      ∀ j, heapAt u j = if j = 0 then 0 else heapAt s j := by
  obtain ⟨u, hu, hframe, -, hvacated, habove, -⟩ := pqExtract_ok (s := { s with codev := false }) (by rw [h]; decide)
  have hn : s.hsize.toNat = 1 := by rw [h]; rfl
  have hout : u.pqOut = heapAt s 0 := by rw [hframe]; rfl
  refine ⟨u, ?_, ?_, fun j => ?_⟩
  · rw [opSetroot, if_neg (by simp [h]), hu, ok_andThen, hout]
  · rw [hframe, show s.hsize - 1 = 0 by rw [h]; rfl]; rfl
  · split
    · next h0 => subst h0; simpa only [hn] using hvacated
    · next h0 => exact habove j (by simp only [hn]; omega)

/-- SETROOT with one item queued that AcceptRoot takes. -/
theorem opSetroot_ok {s : State} (h : s.hsize = 1) (hr : s.dgm = true ∨ (nodeAt s (heapAt s 0).toNat).isLeaf = false) :
    ∃ t, opSetroot s = .ok t ∧
      t = { s with
        codev := false, treev := true, degen := (nodeAt s (heapAt s 0).toNat).isLeaf, heap := t.heap, hsize := 0,
        pqOut := heapAt s 0, root := heapAt s 0 } ∧
      ∀ j, heapAt t j = if j = 0 then 0 else heapAt s j := by
  obtain ⟨u, hu, hframe, hheap⟩ := opSetroot_one h
  have hnode : nodeAt u (heapAt s 0).toNat = nodeAt s (heapAt s 0).toNat := by rw [hframe]; rfl
  have hdgm : u.dgm = s.dgm := by rw [hframe]
  refine ⟨{ u with root := heapAt s 0, degen := (nodeAt s (heapAt s 0).toNat).isLeaf, treev := true }, ?_, ?_, hheap⟩
  · cases hleaf : (nodeAt s (heapAt s 0).toNat).isLeaf with
    | false => rw [hu, acceptRoot_internal (by rw [hnode, hleaf])]
    | true => rw [hu, acceptRoot_leaf (by rw [hnode, hleaf]) (by rw [hdgm]; simpa [hleaf] using hr)]
  · rw [hframe]

/-- Settles O37: SETROOT, and completion. -/
theorem setrootAcceptsTheLastItem : Obligations.SetrootAcceptsTheLastItem := by
  intro s h hr
  obtain ⟨u, hu, hframe, hheap⟩ := opSetroot_ok h hr
  refine ⟨complete u, ?_, ?_, hheap⟩
  · rw [exec_eq_finish, opOf, hu, finish_ok]
  · rw [hframe]; rfl

/-- Settles O38: the check of HSIZE, and AcceptRoot's of a leaf; the extraction before it is work state that fault entry clears. -/
theorem setrootTraps : Obligations.SetrootTraps := by
  refine fun s => ⟨fun h => ?_, fun w b h hdgm hleaf => ?_⟩
  · rw [exec_eq_finish, opOf, opSetroot, if_pos h]; rfl
  · obtain ⟨u, hu, hframe, -⟩ := opSetroot_one h
    have hraise := acceptRoot_raise (s := u) (r := heapAt s 0) (w := w) (b := b) (by rw [hframe]; exact hleaf) (by rw [hframe]; exact hdgm)
    rw [exec_eq_finish, opOf, hu, hraise, finish_raise, clrw_congr (t := s) (by rw [hframe]; rfl)]

/-! ## BUILD as its unit commands (R103, R148) -/

theorem mergeLoop_done {s : State} (h : s.hsize.toNat ≤ 1) (f : Nat) : mergeLoop f s = .ok s := by
  cases f with
  | zero => rfl
  | succ f => exact if_neg (by omega)

theorem mergeLoop_turn {s : State} (h : 1 < s.hsize.toNat) (f : Nat) :
    mergeLoop (f + 1) s = (opMerge s).andThen (mergeLoop f) := if_pos h

/-- The bound of BUILD's loop does not matter from HSIZE − 1 up. -/
theorem mergeLoop_bound {s : State} (h : TreeStructure s) {f g : Nat} (hf : s.hsize.toNat ≤ f + 1) (hg : s.hsize.toNat ≤ g + 1) :
    mergeLoop f s = mergeLoop g s := by
  induction f generalizing s g with
  | zero => rw [mergeLoop_done hf, mergeLoop_done hf]
  | succ f ih =>
    rcases Nat.lt_or_ge 1 s.hsize.toNat with h1 | h1
    · obtain ⟨g, rfl⟩ : ∃ g', g = g' + 1 := ⟨g - 1, by omega⟩
      rw [mergeLoop_turn h1, mergeLoop_turn h1]
      cases ht : opMerge s with
      | ok t =>
        have hsize := opMerge_hsize h ht
        exact ih (opMerge_sound h ht).shape (by omega) (by omega)
      | raise c i t => rfl
      | endless => rfl
    · rw [mergeLoop_done h1, mergeLoop_done h1]

/-- What MKLEAVES leaves for the loop of BUILD. -/
theorem opMkleaves_hsize {s t : State} (ht : opMkleaves s = .ok t) : t.hsize.toNat = (presentSymbols s).length ∧ 1 ≤ t.hsize.toNat := by
  have hne : presentSymbols s ≠ [] := fun e => by rw [opMkleaves_raise e] at ht; cases ht
  obtain ⟨u, hu, hframe, -⟩ := opMkleaves_ok hne
  obtain rfl : u = t := Res.ok.inj (hu.symm.trans ht)
  have hk := presentSymbols_length_le s
  have hpos := List.length_pos_of_ne_nil hne
  have hsize : u.hsize.toNat = (presentSymbols s).length := by
    rw [hframe]; exact Nat.mod_eq_of_lt (by omega)
  exact ⟨hsize, by omega⟩

theorem opBuild_eq (s : State) {f : Nat} (hf : (presentSymbols s).length ≤ f + 1) :
    opBuild s = ((opMkleaves s).andThen (mergeLoop f)).andThen opSetroot := by
  rw [andThen_assoc, opBuild]
  cases ht : opMkleaves s with
  | ok t =>
    obtain ⟨hsize, -⟩ := opMkleaves_hsize ht
    rw [ok_andThen, ok_andThen, mergeLoop_bound (opMkleaves_sound ht).shape (Nat.le_succ _) (hsize.trans_le hf)]
  | raise c i t => rfl
  | endless => rfl

theorem opMkleaves_running {s : State} (h : Running s) : (opMkleaves s).Keeps Running :=
  running_of_frame (opMkleaves_frame s) (fun t ht => by rw [ht]; exact ⟨rfl, rfl, rfl⟩) h

theorem opMerge_running {s : State} (h : Running s) : (opMerge s).Keeps Running :=
  running_of_frame (opMerge_frame s) (fun t ht => by rw [ht]; exact ⟨rfl, rfl, rfl⟩) h

theorem mergeLoop_running (f : Nat) {s : State} (h : Running s) : (mergeLoop f s).Keeps Running :=
  running_of_frame (mergeLoop_frame f s) (fun t ht => by rw [ht]; exact ⟨rfl, rfl, rfl⟩) h

/-- With `n + 1` items queued, `n` MERGE commands continue the procedure with BUILD's loop (R153). -/
theorem iterate_merge_finish (n : Nat) {r : Res} (hrun : r.Keeps Running)
    (hok : ∀ s, r = .ok s → TreeStructure s ∧ s.hsize.toNat = n + 1) :
    (thenRun .merge)^[n] (finish r) = finish (r.andThen (mergeLoop n)) := by
  induction n generalizing r with
  | zero => cases r <;> rfl
  | succ n ih =>
    have hturn : r.andThen (mergeLoop (n + 1)) = (r.andThen opMerge).andThen (mergeLoop n) := by
      cases r with
      | ok s =>
        obtain ⟨-, hsize⟩ := hok s rfl
        exact mergeLoop_turn (by omega) n
      | raise c i s => rfl
      | endless => rfl
    rw [Function.iterate_succ_apply, thenRun_finish (op := opMerge) (fun _ => rfl) hrun, hturn]
    refine ih (Res.keeps_seq hrun fun s => opMerge_running) fun t ht => ?_
    obtain ⟨s, hs, ht⟩ := andThen_eq_ok.1 ht
    obtain ⟨hshape, hsize⟩ := hok s hs
    have := opMerge_hsize hshape ht
    exact ⟨(opMerge_sound hshape ht).shape, by omega⟩

/-- BUILD as SETROOT after any run of merges that is the loop of BUILD. -/
theorem exec_build_eq {s : State} (h : Running s) {f : Nat} (hf : (presentSymbols s).length ≤ f + 1) :
    exec .build s = thenRun .setroot (finish ((opMkleaves s).andThen (mergeLoop f))) := by
  have hrun := Res.keeps_seq (opMkleaves_running h) fun _ => mergeLoop_running f
  rw [thenRun_finish (op := opSetroot) (fun _ => rfl) hrun, ← opBuild_eq s hf, exec_eq_finish, opOf]

theorem build_eq_unit_commands {s : State} (h : Running s) :
    exec .build s = thenRun .setroot (mergeWhile 256 (exec .mkleaves s)) ∧
    exec .build s = thenRun .setroot ((thenRun .merge)^[(presentSymbols s).length - 1] (exec .mkleaves s)) := by
  have hk := presentSymbols_length_le s
  rw [exec_eq_finish .mkleaves, opOf, mergeWhile_finish 256 (opMkleaves_running h)]
  refine ⟨exec_build_eq h (by omega), ?_⟩
  rw [exec_build_eq h (f := (presentSymbols s).length - 1) (by omega), iterate_merge_finish _ (opMkleaves_running h)]
  intro t ht
  obtain ⟨hsize, hpos⟩ := opMkleaves_hsize ht
  exact ⟨(opMkleaves_sound ht).shape, by omega⟩

/-! ## The tree BUILD makes (R151 to R153) -/

/-- The present symbols with their frequencies. -/
def presentLeaves (s : State) : List (Byte × Nat) := (presentSymbols s).map fun i => (BitVec.ofNat 8 i, (freqAt s i).toNat)

/-- An absent symbol adds nothing to the total. -/
theorem presentLeaves_sum (s : State) : ((presentLeaves s).map Prod.snd).sum = freqTotal s := by
  rw [presentLeaves, List.map_map, presentSymbols, freqTotal]
  induction List.range 256 with
  | nil => rfl
  | cons i l ih =>
    by_cases h : freqAt s i = 0
    · rw [List.filter_cons_of_neg (by simp [h]), ih, List.map_cons, List.sum_cons, h]; simp
    · rw [List.filter_cons_of_pos (by simpa using h), List.map_cons, List.map_cons, List.sum_cons, List.sum_cons, ih]; rfl

theorem treeAt_leaf {s : State} {n : NodeIx} {w : Word} {b : Byte} (h : nodeAt s n.toNat = .leaf w b) :
    treeAt s n = .leaf w.toNat b := by
  rw [treeAt, show walkDepth = 511 + 1 from rfl, treeOf_leaf h]; rfl

/-- The trees at the entries that MKLEAVES allocates are the leaves of the present symbols. -/
theorem map_treeAt_leaves {s t : State}
    (hleaf : ∀ j i, (presentSymbols s)[j]? = some i → nodeAt t j = .leaf (freqAt s i) (BitVec.ofNat 8 i)) :
    ((List.range (presentSymbols s).length).map (BitVec.ofNat 9)).map (treeAt t) =
      (presentLeaves s).map fun e => .leaf e.2 e.1 := by
  have hk := presentSymbols_length_le s
  refine List.ext_getElem (by simp [presentLeaves]) fun j h1 h2 => ?_
  have hj : j < (presentSymbols s).length := by simpa using h1
  have hix : (BitVec.ofNat 9 j).toNat = j := by rw [BitVec.toNat_ofNat]; omega
  have hnode : nodeAt t (BitVec.ofNat 9 j).toNat = .leaf (freqAt s (presentSymbols s)[j]) (BitVec.ofNat 8 (presentSymbols s)[j]) := by
    rw [hix]; exact hleaf j _ (List.getElem?_eq_getElem hj)
  simp [presentLeaves, treeAt_leaf hnode]

/-- MKLEAVES leaves the forest of the leaves (R134), with which BUILD's loop begins. -/
theorem opMkleaves_forest {s : State} (h : presentSymbols s ≠ []) :
    ∃ t, opMkleaves s = .ok t ∧ Forest t (2 * (presentSymbols s).length) (presentLeaves s) ∧
      t.nnode.toNat = (presentSymbols s).length ∧
      (∀ j i, (presentSymbols s)[j]? = some i → nodeAt t j = .leaf (freqAt s i) (BitVec.ofNat 8 i)) ∧
      t = { clrt s with node := t.node, nnode := t.nnode, heap := t.heap, hsize := t.hsize } := by
  obtain ⟨t, ht, hframe, hleaf, hbeyond, hqueue, -⟩ := opMkleaves_ok h
  have hk := presentSymbols_length_le s
  have hpos := List.length_pos_of_ne_nil h
  obtain ⟨hsize, -⟩ := opMkleaves_hsize ht
  have hnn : t.nnode.toNat = (presentSymbols s).length := by rw [hframe]; exact Nat.mod_eq_of_lt (by omega)
  have htrees := map_treeAt_leaves hleaf
  obtain ⟨-, -, -, -, hbelow, halloc, -⟩ := (opMkleaves_sound ht).shape
  refine ⟨t, ht, ⟨by omega, hbelow, halloc, hqueue.symm.subset ?_, fun n hn => ?_, ?_, fun j hj => ?_⟩, hnn, hleaf, ?_⟩
  · exact List.mem_map_of_mem (List.mem_range.2 (by omega))
  · have hmem := List.mem_map_of_mem (f := treeAt t) (hqueue.subset hn)
    rw [htrees] at hmem
    obtain ⟨e, -, he⟩ := List.mem_map.1 hmem
    rw [← he]; trivial
  · refine (hqueue.flatMap_right _).trans (List.Perm.of_eq ?_)
    rw [← List.flatMap_map (treeAt t) Tree.weighted, htrees, List.flatMap_map]
    exact List.flatMap_singleton' _
  · obtain ⟨-, h0⟩ := hbeyond j (by omega)
    exact h0
  · rw [hframe]

/-- A node is a leaf just where its tree has one leaf. -/
theorem isLeaf_of_treeOf {t : Table Node} {f i : Nat} {T : Tree} (h : treeOf t f i = some T) :
    (nodeOf t i).isLeaf = decide (T.weighted.length = 1) := by
  cases f with
  | zero => cases h
  | succ f =>
    rcases treeOf_cases h with ⟨w, b, hn, rfl⟩ | ⟨w, l, r, A, B, hn, -, -, rfl⟩
    · rw [hn]; rfl
    · have hA := List.length_pos_of_ne_nil A.leaves_ne_nil
      have hB := List.length_pos_of_ne_nil B.leaves_ne_nil
      rw [Tree.leaves_eq_weighted, List.length_map] at hA hB
      rw [hn, Tree.weighted, List.length_append, Node.isLeaf, decide_eq_false (by omega)]

/-- A forest of one tree: its root is the newest node, and it has all the leaves. -/
theorem Forest.one {s : State} {m : Nat} {L : List (Byte × Nat)} (h : Forest s m L) (h1 : s.hsize.toNat = 1) :
    heapAt s 0 = BitVec.ofNat 9 (m - 2) ∧ (treeAt s (heapAt s 0)).Summed ∧ (treeAt s (heapAt s 0)).weighted.Perm L := by
  have hqueue : queueOf s = [heapAt s 0] := by rw [queueOf, h1]; rfl
  have hnn := h.nodes
  refine ⟨?_, h.summed _ (by rw [hqueue]; exact List.mem_singleton_self _), ?_⟩
  · have := h.newest
    rw [hqueue, List.mem_singleton] at this
    rw [← this, show s.nnode.toNat - 1 = m - 2 by omega]
  · have := h.weighted
    rwa [hqueue, List.flatMap_singleton] at this

/-- MKLEAVES and BUILD's loop, where the total fits 32 bits: one tree over the leaves, which keep their entries. -/
theorem opMkleaves_mergeLoop_ok {s : State} (h : presentSymbols s ≠ []) (htotal : freqTotal s ≤ 0xFFFFFFFF) :
    ∃ t, (opMkleaves s).andThen (mergeLoop 255) = .ok t ∧ Forest t (2 * (presentSymbols s).length) (presentLeaves s) ∧
      t.hsize.toNat = 1 ∧
      (∀ j i, (presentSymbols s)[j]? = some i → nodeAt t j = .leaf (freqAt s i) (BitVec.ofNat 8 i)) ∧
      t = { s with
        treev := t.treev, codev := t.codev, degen := t.degen, nnode := t.nnode, root := 0, hsize := t.hsize, pqOut := t.pqOut,
        node := t.node, heap := t.heap } := by
  have hk := presentSymbols_length_le s
  have hpos := List.length_pos_of_ne_nil h
  obtain ⟨u, hu, hforest, hnn, hleaf, huframe⟩ := opMkleaves_forest h
  have hnodes := hforest.nodes
  obtain ⟨t, ht, htforest, hsize, hold, htframe⟩ := mergeLoop_ok 255 hforest (by omega) (by omega) (by omega) (by omega)
    (by rw [presentLeaves_sum]; exact htotal)
  refine ⟨t, by rw [hu, ok_andThen, ht], htforest, hsize, fun j i hj => ?_, by rw [htframe, huframe]; rfl⟩
  obtain ⟨hlt, -⟩ := List.getElem?_eq_some_iff.1 hj
  exact (hold j (by omega)).trans (hleaf j i hj)

/-- Settles O39: BUILD is its unit commands; the loop leaves one tree over the leaves, which SETROOT accepts. -/
theorem buildMakesTheTree : Obligations.BuildMakesTheTree := by
  refine ⟨fun s hb hd he => build_eq_unit_commands ⟨hb, hd, he⟩, fun s hne htotal hroot => ?_⟩
  have hk := presentSymbols_length_le s
  obtain ⟨v, hv, hforest, hsize, hleaf, hvframe⟩ := opMkleaves_mergeLoop_ok hne htotal
  obtain ⟨hlast, hsummed, hweighted⟩ := hforest.one hsize
  have htree := treeOf_treeAt hforest.below (heapAt v 0)
  have hisLeaf : (nodeAt v (heapAt v 0).toNat).isLeaf = decide ((presentSymbols s).length = 1) := by
    rw [nodeAt, isLeaf_of_treeOf htree, hweighted.length_eq, presentLeaves, List.length_map]
  have hnn : v.nnode = BitVec.ofNat 10 (2 * (presentSymbols s).length - 1) := by
    have := hforest.nodes
    rw [show 2 * (presentSymbols s).length - 1 = v.nnode.toNat by omega, BitVec.ofNat_toNat, BitVec.setWidth_eq]
  have haccept : v.dgm = true ∨ (nodeAt v (heapAt v 0).toNat).isLeaf = false := by
    rw [hisLeaf, hvframe]
    exact hroot.imp_right fun h => decide_eq_false h
  obtain ⟨t, ht, htframe, htheap⟩ := opSetroot_ok (BitVec.eq_of_toNat_eq hsize) haccept
  have hnode : t.node = v.node := by rw [htframe]
  refine ⟨complete t, treeAt v (heapAt v 0), ?_, ?_, fun j => ?_, fun j i hj => ?_, ?_, hsummed, ?_, hweighted⟩
  · rw [exec_eq_finish, opOf, opBuild_eq s (f := 255) (by omega), hv, ok_andThen, ht, finish_ok]
  · rw [htframe, hisLeaf, hlast, hvframe, hnn]; rfl
  · show heapAt t j = 0
    rw [htheap]
    split
    · rfl
    · exact hforest.beyond j (by omega)
  · show nodeOf t.node j = _
    rw [hnode]; exact hleaf j i hj
  · show treeOf t.node walkDepth t.root.toNat = _
    rw [hnode, ← htree, htframe]
  · rw [Tree.weight_eq_sum hsummed, (hweighted.map _).sum_eq, presentLeaves_sum]

end Sys2Proof.Machine
end

section
/-! PROOFS, the code table generator (42_codegen.md): GENCODE fills the table from the tree (R160 to R162), or meets a path longer than
CODE_MAX, and the codes of an internal root are prefix-free (R163). -/

namespace Sys2Proof.Machine

/-! ## The pairs GENCODE writes -/

/-- Every code of the table fits CODELEN, where the tree is at most CODE_MAX deep. -/
theorem Tree.table_length {T : Tree} (hd : T.depth ≤ 255) : ∀ p ∈ T.table, p.2.length ≤ 255 := by
  intro p hp
  cases T with
  | leaf w s => rw [List.mem_singleton.1 hp]; simp
  | internal w l r =>
    have := Tree.codes_length (.internal w l r) [] p hp
    rw [List.length_nil, Nat.zero_add] at this
    omega

/-- The code of a symbol is that of its last pair in the table, the lone leaf's code "0" included (R161, R162). -/
theorem Tree.codeOf_eq_lastCode (T : Tree) (b : Byte) : T.codeOf b = lastCode T.table b := by
  cases T <;> rfl

/-! ## GENCODE (R160) -/

/-- The state GENCODE walks in: the code table is empty (R160). -/
def clearCodes (s : State) : State := { s with codeLen := [], codeBits := [] }

theorem codeAt_clearCodes (s : State) (i : Nat) : codeAt (clearCodes s) i = [] := rfl

theorem codeBitsMasked_clearCodes (s : State) : CodeBitsMasked (clearCodes s) := codeBitsMasked_empty rfl

/-- GENCODE of an accepted tree. -/
theorem opGencode_eq {s : State} (hv : s.treev = true) :
    opGencode s = (genCodes (clearCodes s)).andThen fun t => .ok { t with codev := true } :=
  if_neg (by simp [hv])

/-- GENCODE of a tree deeper than CODE_MAX (R4, log 6). -/
theorem exec_gencode_deep {s : State} {T : Tree} (hv : s.treev = true) (hT : stateTree s = some T) (hd : 255 < T.depth) :
    exec .gencode s = .next (faulted .capacity 4 s) := by
  obtain ⟨u, hu, hframe⟩ := genCodes_deep (s := clearCodes s) hT hd
  have hclear : clrw u = clrw s := by rw [hframe]; rfl
  rw [exec_eq_finish, opOf, opGencode_eq hv, hu, raise_andThen, finish_raise, clrw_congr hclear]

/-- GENCODE's end: its frame, and the code of every symbol with zeros beyond it. -/
theorem exec_gencode_ok {s : State} {T : Tree} (hv : s.treev = true) (hT : stateTree s = some T) (hd : T.depth ≤ 255) :
    ∃ t, exec .gencode s = .next t ∧
      t = { s with codeLen := t.codeLen, codeBits := t.codeBits, codev := true, busy := false, done := true } ∧
      (∀ b : Byte, codeAt t b.toNat = T.codeOf b) ∧ CodeBitsMasked t := by
  have hfit := Tree.table_length hd
  refine ⟨complete { setCodes T.table (clearCodes s) with codev := true }, ?_, ?_, fun b => ?_, ?_⟩
  · rw [exec_eq_finish, opOf, opGencode_eq hv, genCodes_eq (s := clearCodes s) hT hd, ok_andThen, finish_ok]
  · rw [setCodes_frame]; rfl
  · rw [Tree.codeOf_eq_lastCode, lastCode, ← codeAt_clearCodes s b.toNat]
    exact codeAt_setCodes T.table (clearCodes s) hfit b
  · exact CodeBitsMasked_setCodes (codeBitsMasked_clearCodes s) T.table hfit

/-- Settles O40: the walk writes the table's pairs in their order, or meets a path longer than CODE_MAX. -/
theorem gencodeFillsTheCodeTable : Obligations.GencodeFillsTheCodeTable := by
  intro s T hv hT
  refine ⟨exec_gencode_deep hv hT, fun hd => ?_⟩
  obtain ⟨t, ht, hframe, hcode, hmask⟩ := exec_gencode_ok hv hT hd
  exact ⟨t, ht, hframe, fun b => ⟨hcode b, by rw [← hcode b, codeAt_length]⟩, hmask⟩

/-! ## Codes are prefix-free (R163) -/

theorem lastCode_concat (c : List (Byte × List Bool)) (p : Byte × List Bool) (b : Byte) :
    lastCode (c ++ [p]) b = if p.1 = b then p.2 else lastCode c b := by
  rw [lastCode, List.foldl_append]; rfl

/-- The code of a symbol that has a pair is one of the pairs. -/
theorem lastCode_mem {c : List (Byte × List Bool)} {b : Byte} (h : b ∈ c.map Prod.fst) : (b, lastCode c b) ∈ c := by
  induction c using List.reverseRecOn with
  | nil => simp at h
  | append_singleton c p ih =>
    rw [lastCode_concat]
    split
    case isTrue hp => simp [← hp]
    case isFalse hp =>
      have hb : b ∈ c.map Prod.fst := by simpa [Ne.symm hp] using h
      exact List.mem_append_left _ (ih hb)

/-- A symbol without a pair has the empty code. -/
theorem lastCode_of_notMem {c : List (Byte × List Bool)} {b : Byte} (h : b ∉ c.map Prod.fst) : lastCode c b = [] := by
  induction c using List.reverseRecOn with
  | nil => rfl
  | append_singleton c p ih =>
    simp only [List.map_append, List.mem_append, List.map_singleton, List.mem_singleton, not_or] at h
    obtain ⟨hc, hp⟩ := h
    rw [lastCode_concat, if_neg (Ne.symm hp), ih hc]

/-- Where one path is a prefix of another and both continue the same path, they take the same next edge. -/
theorem eq_of_prefix_of_concat_prefix {path p q : List Bool} {x y : Bool} (hp : path ++ [x] <+: p) (hq : path ++ [y] <+: q)
    (h : p <+: q) : x = y := by
  have hlen : (path ++ [x]).length = (path ++ [y]).length := by simp
  have heq := (List.prefix_of_prefix_length_le (hp.trans h) hq hlen.le).eq_of_length hlen
  simpa using heq

/-- No leaf's path is a prefix of another leaf's (R163): at the node where they part, one goes left and the other right. -/
theorem Tree.codes_prefixFree (T : Tree) (path : List Bool) :
    ∀ p ∈ T.codes path, ∀ q ∈ T.codes path, p.2 <+: q.2 → p = q := by
  induction T generalizing path with
  | leaf w s =>
    intro p hp q hq _
    rw [List.mem_singleton.1 hp, List.mem_singleton.1 hq]
  | internal w l r hl hr =>
    intro p hp q hq h
    rcases List.mem_append.1 hp with hp | hp <;> rcases List.mem_append.1 hq with hq | hq
    · exact hl _ p hp q hq h
    · exact nomatch eq_of_prefix_of_concat_prefix (l.codes_extend _ p hp) (r.codes_extend _ q hq) h
    · exact nomatch eq_of_prefix_of_concat_prefix (r.codes_extend _ p hp) (l.codes_extend _ q hq) h
    · exact hr _ p hp q hq h

/-- The same of the table's codes: beside a lone leaf's code "0" there is no other. -/
theorem Tree.table_prefixFree (T : Tree) : ∀ p ∈ T.table, ∀ q ∈ T.table, p.2 <+: q.2 → p = q := by
  cases T with
  | leaf w s =>
    intro p hp q hq _
    rw [List.mem_singleton.1 hp, List.mem_singleton.1 hq]
  | internal w l r => exact Tree.codes_prefixFree _ []

/-- Every code of the table has at least one bit (R162, R163). -/
theorem Tree.table_code_pos (T : Tree) : ∀ p ∈ T.table, 1 ≤ p.2.length := by
  intro p hp
  cases T with
  | leaf w s => rw [List.mem_singleton.1 hp]; simp
  | internal w l r =>
    rcases List.mem_append.1 hp with hp | hp
    · exact (l.codes_extend _ p hp).length_le
    · exact (r.codes_extend _ p hp).length_le

theorem Tree.table_fst (T : Tree) : T.table.map Prod.fst = T.leaves := by
  cases T with
  | leaf w s => rfl
  | internal w l r => exact Tree.codes_fst _ []

/-- The code of a leaf's symbol is one of the table's. -/
theorem Tree.codeOf_mem {T : Tree} {b : Byte} (hb : b ∈ T.leaves) : (b, T.codeOf b) ∈ T.table := by
  rw [Tree.codeOf_eq_lastCode]
  exact lastCode_mem (by rwa [Tree.table_fst])

/-- A symbol at no leaf has the empty code (R161). -/
theorem Tree.codeOf_of_notMem {T : Tree} {b : Byte} (hb : b ∉ T.leaves) : T.codeOf b = [] := by
  rw [Tree.codeOf_eq_lastCode]
  exact lastCode_of_notMem (by rwa [Tree.table_fst])

/-- Settles O41: a symbol with a code stands at a leaf, its code is one of the table's, and none of those is a prefix of another. -/
theorem codesArePrefixFree : Obligations.CodesArePrefixFree := by
  intro s T hv hT hd _
  obtain ⟨t, ht, -, hcode, -⟩ := exec_gencode_ok hv hT hd
  have hleaf : ∀ b : Byte, codeLenAt t b.toNat ≠ 0 → b ∈ T.leaves := by
    intro b hb
    by_contra hn
    exact hb (BitVec.eq_of_toNat_eq (by rw [← codeAt_length, hcode, Tree.codeOf_of_notMem hn]; rfl))
  refine ⟨t, ht, fun b c hbc hb hc hprefix => ?_, fun b hb => ?_⟩
  · rw [hcode, hcode] at hprefix
    have hpairs := T.table_prefixFree _ (Tree.codeOf_mem (hleaf b hb)) _ (Tree.codeOf_mem (hleaf c hc)) hprefix
    exact hbc (congrArg Prod.fst hpairs)
  · rw [hcode]
    exact T.table_code_pos _ (Tree.codeOf_mem hb)

end Sys2Proof.Machine
end

section
/-! PROOFS, the tree serializer and deserializer (43_treeser.md): SERIALIZE writes the tree (R175 to R177), DESERIALIZE rebuilds it (R191)
or faults at the first byte that begins no tree (R183, R184). -/

namespace Sys2Proof.Machine

/-! ## SERIALIZE (R175) -/

/-- SERIALIZE of an accepted tree. -/
theorem opSerialize_eq {s : State} {T : Tree} (hv : s.treev = true) (hT : stateTree s = some T) : opSerialize s = appendAll T.ser s :=
  (if_neg (by simp [hv])).trans (serNode_eq hT)

/-- Settles O43: Ser appends the serialized form, which OUT has room for. -/
theorem serializeAppendsTheTree : Obligations.SerializeAppendsTheTree := by
  intro s T hv hT hcfg hroom
  obtain ⟨-, -, -, hcap, -, -, -⟩ := hcfg
  rw [← T.ser_length] at hroom ⊢
  have hrun := exec_eq_finish .serialize s
  rw [opOf, opSerialize_eq hv hT, appendAll_ok T.ser s (by omega) hroom, finish_ok] at hrun
  exact ⟨_, hrun, rfl, outputBytes_append rfl (Nat.mod_eq_of_lt (by omega)), outArray_append rfl⟩

/-! ## DESERIALIZE (R180) -/

/-- AcceptRoot (R146) of a root it takes: an internal node, or a leaf with DGM = 1. -/
theorem acceptRoot_ok {s : State} {r : NodeIx} (h : s.dgm = true ∨ (nodeAt s r.toNat).isLeaf = false) :
    acceptRoot r s = .ok { s with root := r, degen := (nodeAt s r.toNat).isLeaf, treev := true } := by
  cases hleaf : (nodeAt s r.toNat).isLeaf with
  | false => exact acceptRoot_internal hleaf
  | true => exact acceptRoot_leaf hleaf (by simpa [hleaf] using h)

theorem Tree.isInternal_zeroed (T : Tree) : T.zeroed.isInternal = T.isInternal := by cases T <;> rfl

/-- A node is a leaf just where its tree is a single leaf. -/
theorem isLeaf_eq_not_isInternal {t : Table Node} {f i : Nat} {T : Tree} (h : treeOf t f i = some T) :
    (nodeOf t i).isLeaf = !T.isInternal := by
  cases f with
  | zero => cases h
  | succ f =>
    rcases treeOf_cases h with ⟨w, b, hn, rfl⟩ | ⟨w, l, r, A, B, hn, -, -, rfl⟩ <;> rw [hn] <;> rfl

/-- DESERIALIZE of a serialized tree is AcceptRoot of the tree's last node, in the state Parse leaves: the tree's nodes in postorder from
index 0 on, and the cursor behind the tree. -/
theorem opDeserialize_ser {s : State} {T : Tree} {x : List Byte} (hc : s.inLen.toNat ≤ s.cfg.inCap)
    (hx : inBytes s s.cur.toNat (s.inLen.toNat - s.cur.toNat) = T.ser ++ x) (hsize : T.size ≤ 511) :
    ∃ u, opDeserialize s = acceptRoot (BitVec.ofNat 9 (T.size - 1)) u ∧
      u = { clrt s with node := u.node, nnode := BitVec.ofNat 10 T.size, cur := word (s.cur.toNat + T.ser.length) } ∧
      treeOf u.node walkDepth (BitVec.ofNat 9 (T.size - 1)).toNat = some T.zeroed ∧
      (∀ j n, (T.postorder 0)[j]? = some n → nodeAt u j = n) ∧ ∀ j, T.size ≤ j → nodeAt u j = .leaf 0 0 := by
  have hne : T.ser ≠ [] := by cases T <;> simp [Tree.ser]
  have hholds : InHolds (clrt s) s.cur.toNat T.ser := inHolds_inBytes (s := clrt s) hx hne
  obtain ⟨t, ht, hframe, hother, -, htree, hpost⟩ := parse_ser T (f := 512) (seen := 0) (n := 0) hholds (by omega) (by omega) rfl
    (by omega) (by simp)
  rw [Nat.zero_add] at ht hframe hother htree
  refine ⟨{ t with cur := word (s.cur.toNat + T.ser.length) }, ?_, ?_, ?_, fun j n hj => ?_, fun j hj => ?_⟩
  · rw [opDeserialize, checkIn_ok hc, ok_andThen, ht, T.ser_length]
  · rw [hframe]
  · rw [BitVec.toNat_ofNat, Nat.mod_eq_of_lt (by omega)]
    exact treeOf_mono htree (by rw [walkDepth]; omega)
  · rw [← hpost j n hj, Nat.zero_add]; rfl
  · exact hother j (.inr hj)

/-- Settles O44: Parse rebuilds the tree, and AcceptRoot takes its last node. -/
theorem deserializeRebuildsTheTree : Obligations.DeserializeRebuildsTheTree := by
  intro s T x hc hx hsize hroot
  obtain ⟨u, hu, hframe, htree, hpost, hbeyond⟩ := opDeserialize_ser hc hx hsize
  have hleaf : (nodeAt u (BitVec.ofNat 9 (T.size - 1)).toNat).isLeaf = !T.isInternal := by
    rw [nodeAt, isLeaf_eq_not_isInternal htree, Tree.isInternal_zeroed]
  have haccept := acceptRoot_ok (s := u) (r := BitVec.ofNat 9 (T.size - 1))
    (by rw [hleaf, hframe]; exact hroot.imp_right fun h => by rw [h]; rfl)
  have hrun := exec_eq_finish .deserialize s
  rw [opOf, hu, haccept, hleaf, finish_ok] at hrun
  exact ⟨_, hrun, by rw [hframe]; rfl, htree, hpost, hbeyond⟩

/-- DESERIALIZE of a lone leaf with DGM = 0 (R180, R283). -/
theorem opDeserialize_lone_leaf {s : State} {b : Byte} {x : List Byte} (hc : s.inLen.toNat ≤ s.cfg.inCap)
    (hx : inBytes s s.cur.toNat (s.inLen.toNat - s.cur.toNat) = 0x27 :: b :: x) (hdgm : s.dgm = false) :
    finish (opDeserialize s) = .next (faulted .degenerate (b.setWidth 32) s) := by
  obtain ⟨u, hu, hframe, -, hpost, -⟩ := opDeserialize_ser (T := .leaf 0 b) hc hx (by rw [Tree.size]; decide)
  have hraise := acceptRoot_raise (r := BitVec.ofNat 9 ((Tree.leaf 0 b).size - 1)) (hpost 0 (.leaf 0 b) rfl) (by rw [hframe]; exact hdgm)
  rw [hu, hraise, finish_raise, clrw_congr (t := s) (by rw [hframe]; rfl)]

/-- Settles O45: Parse raises at the first error, or AcceptRoot at the lone leaf; fault entry clears what either has changed. -/
theorem deserializeTraps : Obligations.DeserializeTraps := by
  refine fun s hc => ⟨fun e info h => ?_, fun b x hx hdgm => ?_⟩
  · rw [exec_eq_finish, opOf, opDeserialize_treeError hc h]
  · rw [exec_eq_finish, opOf, opDeserialize_lone_leaf hc hx hdgm]

end Sys2Proof.Machine
end

section
/-! PROOFS, the bit packer and unpacker (44_bitpack.md): `pack` and `unpack` are inverse (R211), WRHDR and PACK append the header and the
payload (R200 to R202), RDHDR reads the header or faults at its first wrong byte (R205), UNPACK expands the payload or faults where it is
too short or too long (R206, R207, R212). -/

namespace Sys2Proof.Machine

/-! ## `pack` and `unpack` are inverse (R211) -/

/-- The packed bytes have as many bits as the string and its padding (R210). -/
theorem eight_mul_packed (n : Nat) : 8 * ((n + 7) / 8) = n + remOf n := by unfold remOf; omega

/-- The padding of what is left of whole bytes after at most seven bits are dropped is what was dropped. -/
theorem remOf_sub {n r : Nat} (hr : r ≤ 7) (hn : r ≤ 8 * n) : remOf (8 * n - r) = r := by unfold remOf; omega

theorem unpackOf_length (p : List Byte) (r : Nat) : (unpackOf p r).length = 8 * p.length - r := by
  rw [unpackOf, List.length_take, expandBytes_length, Nat.min_eq_left (Nat.sub_le _ _)]

/-- Unpacking what was packed takes the padding off the padded string (R202, R207). -/
theorem unpackOf_packOf (b : List Bool) : unpackOf (packOf b) (remOf b.length) = b := by
  have hlen : 8 * (packOf b).length - remOf b.length = b.length := by
    rw [packOf_length, eight_mul_packed, Nat.add_sub_cancel]
  rw [unpackOf, hlen, expand_packOf]
  exact List.take_left

theorem packOf_unpackOf_length {p : List Byte} {r : Nat} (hr : r ≤ 7) (hp : r ≤ 8 * p.length) :
    (packOf (unpackOf p r)).length = p.length := by
  rw [packOf_length, unpackOf_length]; omega

/-- The bits of what is packed again: those that were unpacked, then zeros in place of those that were dropped. -/
theorem expandBytes_packOf_unpackOf {p : List Byte} {r : Nat} (hr : r ≤ 7) (hp : r ≤ 8 * p.length) :
    expandBytes (packOf (unpackOf p r)) = (expandBytes p).take (8 * p.length - r) ++ List.replicate r false := by
  rw [expand_packOf, padOf, unpackOf_length, remOf_sub hr hp, unpackOf]

/-- Settles O52: each direction by the padded string between the bytes and the bits. -/
theorem unpackOfPackIsIdentity : Obligations.UnpackOfPackIsIdentity :=
  ⟨unpackOf_packOf, fun _ _ hr hp => ⟨packOf_unpackOf_length hr hp, expandBytes_packOf_unpackOf hr hp⟩⟩

/-! ## WRHDR and PACK (R200, R201) -/

theorem setRem_rem_toNat (s : State) : (setRem s).rem.toNat = remOf s.bitLen.toNat :=
  Nat.mod_eq_of_lt (Nat.lt_succ_of_le (remOf_le _))

/-- WRHDR of a bit-string. -/
theorem opWrhdr_eq {s : State} (hb : s.bitsv = true) :
    opWrhdr s = appendAll (headerBytes (remOf s.bitLen.toNat)) (setRem s) := by
  rw [opWrhdr, if_neg (by simp [hb]), setRem_rem_toNat]

/-- PACK of a bit-string. -/
theorem opPack_eq {s : State} (hb : s.bitsv = true) :
    opPack s = (appendAll (packOf (bitString s)) (setRem s)).andThen fun t =>
      .ok { t with payLen := word ((s.bitLen.toNat + 7) / 8) } := by
  rw [opPack, if_neg (by simp [hb]), packBytes_eq, packCount, add_remOf_div]

/-- Settles O46: WRHDR sets REM and appends the three header bytes, which OUT has room for. -/
theorem wrhdrAppendsTheHeader : Obligations.WrhdrAppendsTheHeader := by
  intro s hb hcfg hroom
  obtain ⟨-, -, -, hcap, -, -, -⟩ := hcfg
  have hcap32 : s.cfg.outCap < 2 ^ 32 := by omega
  have hlen32 : s.outLen.toNat + 3 < 2 ^ 32 := by omega
  have hrun := exec_eq_finish .wrhdr s
  rw [opOf, opWrhdr_eq hb, appendAll_ok (headerBytes _) (setRem s) hcap32 hroom, finish_ok] at hrun
  exact ⟨_, hrun, rfl, outputBytes_append rfl (Nat.mod_eq_of_lt hlen32), outArray_append (bs := headerBytes _) rfl⟩

/-- Settles O47: PACK sets REM, appends `pack` of the bit-string, which OUT has room for, and sets PAY_LEN; the last clauses are R210. -/
theorem packAppendsThePayload : Obligations.PackAppendsThePayload := by
  intro s hb hcfg hroom
  obtain ⟨-, -, -, hcap, -, -, -⟩ := hcfg
  have hcap32 : s.cfg.outCap < 2 ^ 32 := by omega
  have hlen : (packOf (bitString s)).length = (s.bitLen.toNat + 7) / 8 := by rw [packOf_length, bitString_length]
  have hrem := setRem_rem_toNat s
  have hrun := exec_eq_finish .pack s
  rw [← hlen] at hroom ⊢
  have hlen32 : s.outLen.toNat + (packOf (bitString s)).length < 2 ^ 32 := by omega
  rw [opOf, opPack_eq hb, appendAll_ok _ (setRem s) hcap32 hroom, ok_andThen, finish_ok, ← hlen] at hrun
  refine ⟨_, hrun, rfl, outputBytes_append rfl (Nat.mod_eq_of_lt hlen32), outArray_append rfl, ?_, ?_, ?_⟩
  · exact hrem.trans_le (remOf_le _)
  · exact (congrArg (fun r => (s.bitLen.toNat + r) % 8) hrem).trans (add_remOf_mod _)
  · calc (word (packOf (bitString s)).length).toNat = (packOf (bitString s)).length := Nat.mod_eq_of_lt (by omega)
      _ = (s.bitLen.toNat + remOf s.bitLen.toNat) / 8 := hlen.trans (add_remOf_div _).symm
      _ = (s.bitLen.toNat + (setRem s).rem.toNat) / 8 := by rw [hrem]

/-! ## RDHDR (R205) -/

theorem inHas_eq_true {s : State} {c : Nat} {b : Byte} : inHas s c b = true ↔ c < s.inLen.toNat ∧ inByte s c = b := decide_eq_true_iff

theorem inHas_eq_false {s : State} {c : Nat} {b : Byte} : inHas s c b = false ↔ s.inLen.toNat ≤ c ∨ inByte s c ≠ b := by
  rw [← Bool.not_eq_true, inHas_eq_true, not_and_or, Nat.not_lt]

/-- The check of the digit (R205), as RDHDR makes it, where the digit is there. -/
theorem headerDigit_passes {s : State} {c : Nat} (hlen : c < s.inLen.toNat) (hlow : 0x30 ≤ inByte s c) (hhigh : inByte s c ≤ 0x37) :
    ¬ (s.inLen.toNat ≤ c ∨ inByte s c < 0x30 ∨ 0x37 < inByte s c) := by
  rw [not_or, not_or]
  exact ⟨Nat.not_le.2 hlen, BitVec.not_lt.2 hlow, BitVec.not_lt.2 hhigh⟩

section Rdhdr

variable {s : State} (hc : s.inLen.toNat ≤ s.cfg.inCap)

include hc

/-- RDHDR where the cursor is not at a newline. -/
theorem opRdhdr_raise_first (h0 : inHas s s.cur.toNat newline = false) : opRdhdr s = .raise .parse s.cur s := by
  rw [opRdhdr, checkIn_ok hc, ok_andThen, if_pos h0, word, BitVec.ofNat_toNat, BitVec.setWidth_eq]

/-- RDHDR where no digit 0 to 7 follows the newline. -/
theorem opRdhdr_raise_digit (h0 : inHas s s.cur.toNat newline = true)
    (h1 : s.inLen.toNat ≤ s.cur.toNat + 1 ∨ inByte s (s.cur.toNat + 1) < 0x30 ∨ 0x37 < inByte s (s.cur.toNat + 1)) :
    opRdhdr s = .raise .parse (word (s.cur.toNat + 1)) s := by
  rw [opRdhdr, checkIn_ok hc, ok_andThen, if_neg (by simp [h0]), if_pos h1]

/-- RDHDR where no newline follows the digit. -/
theorem opRdhdr_raise_second (h0 : inHas s s.cur.toNat newline = true)
    (hlen : s.cur.toNat + 1 < s.inLen.toNat) (hlow : 0x30 ≤ inByte s (s.cur.toNat + 1)) (hhigh : inByte s (s.cur.toNat + 1) ≤ 0x37)
    (h2 : inHas s (s.cur.toNat + 2) newline = false) : opRdhdr s = .raise .parse (word (s.cur.toNat + 2)) s := by
  rw [opRdhdr, checkIn_ok hc, ok_andThen, if_neg (by simp [h0]), if_neg (headerDigit_passes hlen hlow hhigh), if_pos h2]

/-- RDHDR of a header with the digit `d`. -/
theorem opRdhdr_ok {d : Nat} (hd : d ≤ 7) (h0 : inHas s s.cur.toNat newline = true)
    (h1 : inHas s (s.cur.toNat + 1) (digitOf d) = true) (h2 : inHas s (s.cur.toNat + 2) newline = true) :
    opRdhdr s = .ok { s with rem := BitVec.ofNat 3 d, cur := word (s.cur.toNat + 3), hdrv := true } := by
  obtain ⟨hlen, hdigit⟩ := inHas_eq_true.1 h1
  have hval : (digitOf d).toNat = 0x30 + d := Nat.mod_eq_of_lt (by omega)
  have hlow : 0x30 ≤ digitOf d := by rw [BitVec.le_def, hval]; exact Nat.le_add_right _ _
  have hhigh : digitOf d ≤ 0x37 := by rw [BitVec.le_def, hval]; exact Nat.add_le_add_left hd _
  have hpasses := headerDigit_passes hlen (hdigit ▸ hlow) (hdigit ▸ hhigh)
  rw [opRdhdr, checkIn_ok hc, ok_andThen, if_neg (by simp [h0]), if_neg hpasses, if_neg (by simp [h2]), hdigit, hval,
    Nat.add_sub_cancel_left]

end Rdhdr

/-- Settles O49: the three bytes at the cursor pass RDHDR's three checks. -/
theorem rdhdrReadsTheHeader : Obligations.RdhdrReadsTheHeader := by
  intro s d hc hlen hd h0 h1 h2
  rw [exec_eq_finish, opOf, opRdhdr_ok hc hd (inHas_eq_true.2 ⟨by omega, h0⟩) (inHas_eq_true.2 ⟨by omega, h1⟩)
    (inHas_eq_true.2 ⟨by omega, h2⟩), finish_ok]
  rfl

/-! ## UNPACK (R206) -/

section Unpack

variable {s : State} (hv : s.hdrv = true) (hc : s.inLen.toNat ≤ s.cfg.inCap) (hcur : s.cur.toNat ≤ s.inLen.toNat)

include hv hc hcur

/-- UNPACK of a payload shorter than the padding (R212). -/
theorem opUnpack_raise_short (h : 8 * (s.inLen.toNat - s.cur.toNat) < s.rem.toNat) : opUnpack s = .raise .parse s.cur s := by
  rw [opUnpack, if_neg (by simp [hv]), checkIn_ok hc, ok_andThen, if_neg (by omega), if_pos h]

/-- UNPACK of a payload that BITS has no room for (R285). -/
theorem opUnpack_raise_long (hr : s.rem.toNat ≤ 8 * (s.inLen.toNat - s.cur.toNat))
    (h : s.cfg.bitsCap < 8 * (s.inLen.toNat - s.cur.toNat)) : opUnpack s = .raise .capacity 3 s := by
  rw [opUnpack, if_neg (by simp [hv]), checkIn_ok hc, ok_andThen, if_neg (by omega), if_neg (by omega), if_pos h]
  rfl

/-- UNPACK of a payload that passes its checks. -/
theorem opUnpack_ok (hr : s.rem.toNat ≤ 8 * (s.inLen.toNat - s.cur.toNat))
    (h : 8 * (s.inLen.toNat - s.cur.toNat) ≤ s.cfg.bitsCap) : opUnpack s = .ok (unpackBits (s.inLen.toNat - s.cur.toNat) s) := by
  rw [opUnpack, if_neg (by simp [hv]), checkIn_ok hc, ok_andThen, if_neg (by omega), if_neg (by omega), if_neg (by omega)]

end Unpack

/-- Settles O51: UNPACK passes its checks, and the bits it writes are those of `unpack`. -/
theorem unpackExpandsThePayload : Obligations.UnpackExpandsThePayload := by
  intro s hv hcfg hc hcur hr hroom
  obtain ⟨-, -, -, -, -, hcap, -⟩ := hcfg
  have hrun := exec_eq_finish .unpack s
  rw [opOf, opUnpack_ok hv hc hcur hr hroom, finish_ok] at hrun
  exact ⟨_, hrun, rfl, bitString_unpackBits hr (by omega), fun _ hp => bitAt_unpackBits hp⟩

/-! ## What RDHDR and UNPACK refuse (R205, R206, R212) -/

/-- Settles O50: RDHDR's three checks in their order, then UNPACK's two. -/
theorem headerAndPayloadTraps : Obligations.HeaderAndPayloadTraps := by
  intro s hc
  refine ⟨fun h0 => ?_, fun hlen h0 h1 => ?_, fun hlen h0 hlow hhigh h2 => ?_, fun hv hcur h => ?_, fun hv hcur hr h => ?_⟩
  · rw [exec_eq_finish, opOf, opRdhdr_raise_first hc (inHas_eq_false.2 h0), finish_raise]
  · rw [exec_eq_finish, opOf, opRdhdr_raise_digit hc (inHas_eq_true.2 ⟨hlen, h0⟩) h1, finish_raise]
  · have hnewline := inHas_eq_true.2 ⟨Nat.lt_of_succ_lt hlen, h0⟩
    rw [exec_eq_finish, opOf, opRdhdr_raise_second hc hnewline hlen hlow hhigh (inHas_eq_false.2 h2), finish_raise]
  · rw [exec_eq_finish, opOf, opUnpack_raise_short hv hc hcur h, finish_raise]
  · rw [exec_eq_finish, opOf, opUnpack_raise_long hv hc hcur hr h, finish_raise]

end Sys2Proof.Machine
end

section
/-! PROOFS, the symbol encoder and decoder (45_symcodec.md): ENCSYM writes `enc` (R231), DECSYM appends what `walk` emits (R241, R242), and
the walk of an encoded text is the text (R244). -/

namespace Sys2Proof.Machine

/-! ## ENCSYM (R230, R231) -/

/-- The bit-string of a state whose BITS hold a string of BITLEN bits, written from position 0 on (R43). -/
theorem bitString_of_writeBits {s t : State} {b : List Bool} (hbits : t.bits = (writeBits s 0 b).bits)
    (hlen : t.bitLen.toNat = b.length) : bitString t = b := by
  refine List.ext_getElem (by rw [bitString_length, hlen]) fun i _ hi => ?_
  have hread : bitAt t i = b.getD i false := by
    rw [bitAt, hbits]
    exact (bitAt_writeBits s 0 i b).trans (if_pos ⟨Nat.zero_le i, by omega⟩)
  simp only [bitString, List.getElem_map, List.getElem_range]
  rw [hread, List.getD_eq_getElem _ _ hi]

/-- The bits behind the string that was written from position 0 on. -/
theorem bitAt_of_writeBits {s t : State} {b : List Bool} (hbits : t.bits = (writeBits s 0 b).bits) {p : Nat} (hp : b.length ≤ p) :
    bitAt t p = bitAt s p := by
  rw [bitAt, hbits]
  exact (bitAt_writeBits s 0 p b).trans (if_neg (by omega))

/-- ENCSYM where every byte of the input has a code and BITS has room for the codes. -/
theorem opEncsym_ok {s : State} {bits : List Bool} (hv : s.codev = true) (hc : s.inLen.toNat ≤ s.cfg.inCap)
    (hcode : ∀ b ∈ inputBytes s, codeLenAt s b.toNat ≠ 0) (hbits : encOf (fun b => codeAt s b.toNat) (inputBytes s) = bits)
    (hroom : bits.length ≤ s.cfg.bitsCap) :
    opEncsym s = .ok { writeBits s 0 bits with bitLen := word bits.length, bitsv := true } := by
  subst hbits
  rw [opEncsym, if_neg (by simp [hv]), checkIn_ok hc, ok_andThen, encodeFrom_ok _ 0 0 s hcode (by rwa [Nat.zero_add]), Nat.zero_add]

/-- Settles O53: ENCSYM passes its checks, and what it writes from position 0 on is the encoded input. -/
theorem encsymConcatenatesTheCodes : Obligations.EncsymConcatenatesTheCodes := by
  intro s hv hcfg hc hcode hroom
  obtain ⟨-, -, -, -, -, hcap, -⟩ := hcfg
  have hrun := exec_eq_finish .encsym s
  rw [opOf, opEncsym_ok hv hc hcode rfl hroom, finish_ok] at hrun
  exact ⟨_, hrun, rfl, bitString_of_writeBits rfl (Nat.mod_eq_of_lt (by omega)), fun _ hp => bitAt_of_writeBits rfl hp⟩

/-! ## DECSYM (R240 to R243) -/

/-- DECSYM of a bit-string against the tree. -/
theorem opDecsym_eq {s : State} {T : Tree} (ht : s.treev = true) (hb : s.bitsv = true) (hT : stateTree s = some T) :
    opDecsym s = (appendAll (T.walk (bitString s)).1 s).andThen fun t => .ok { t with resid := (T.walk (bitString s)).2 } :=
  (if_neg (by simp [ht, hb])).trans (decodeBits_eq hT (bitString s))

/-- Settles O55: the loop appends what the walk emits, which OUT has room for. -/
theorem decsymWalksTheTree : Obligations.DecsymWalksTheTree := by
  intro s T ht hb hT hcfg hroom
  obtain ⟨-, -, -, hcap, -, -, -⟩ := hcfg
  have hrun := exec_eq_finish .decsym s
  rw [opOf, opDecsym_eq ht hb hT, appendAll_ok _ s (by omega) hroom, ok_andThen, finish_ok] at hrun
  exact ⟨_, hrun, rfl, outputBytes_append rfl (Nat.mod_eq_of_lt (by omega)), outArray_append rfl⟩

/-! ## The walk of an encoding (R244) -/

/-- `go` of R241 arriving at the subtree `v` by an edge: at a leaf it emits and returns to the root, at an internal node it goes on. -/
def Tree.arrive (t v : Tree) (bs : List Bool) : List Byte × Bool :=
  match v with
  | .leaf _ s => (s :: (walkFrom t t false bs).1, (walkFrom t t false bs).2)
  | .internal w l r => walkFrom t (.internal w l r) true bs

/-- `go` at an internal node: one bit takes it along one edge (R241). -/
theorem walkFrom_internal_cons (t : Tree) (w : Nat) (l r : Tree) (moved : Bool) (x : Bool) (bs : List Bool) :
    walkFrom t (.internal w l r) moved (x :: bs) = t.arrive (if x then r else l) bs := by
  rw [walkFrom]
  cases (if x then r else l) <;> rfl

/-- A path of the subtree at the end of an edge takes that edge first (R161). -/
theorem Tree.codes_edge {v : Tree} {path q : List Bool} {x : Bool} {b : Byte} (h : (b, path ++ q) ∈ v.codes (path ++ [x])) :
    ∃ q', q = x :: q' ∧ (b, path ++ [x] ++ q') ∈ v.codes (path ++ [x]) := by
  obtain ⟨q', hq⟩ := v.codes_extend _ _ h
  refine ⟨q', ?_, hq ▸ h⟩
  rw [List.append_assoc] at hq
  exact (List.append_cancel_left hq).symm

/-- A path through an internal node takes one of its two edges, and is a path of the subtree there (R161). -/
theorem Tree.mem_codes_internal {w : Nat} {l r : Tree} {path q : List Bool} {b : Byte}
    (h : (b, path ++ q) ∈ (Tree.internal w l r).codes path) :
    ∃ x q', q = x :: q' ∧ (b, path ++ [x] ++ q') ∈ (if x then r else l).codes (path ++ [x]) := by
  rcases List.mem_append.1 h with hl | hr
  · exact ⟨false, Tree.codes_edge hl⟩
  · exact ⟨true, Tree.codes_edge hr⟩

/-- The rest of a leaf's path takes `go` from the subtree to the leaf, where it emits the symbol and returns to the root. -/
theorem Tree.arrive_path (t : Tree) {v : Tree} {path q : List Bool} {b : Byte} (h : (b, path ++ q) ∈ v.codes path) (bs : List Bool) :
    t.arrive v (q ++ bs) = (b :: (walkFrom t t false bs).1, (walkFrom t t false bs).2) := by
  induction v generalizing path q with
  | leaf w s =>
    obtain ⟨rfl, hq⟩ := Prod.mk.inj (List.mem_singleton.1 h)
    rw [List.append_right_eq_self.1 hq]
    rfl
  | internal w l r hl hr =>
    obtain ⟨x, q', rfl, hmem⟩ := Tree.mem_codes_internal h
    refine (walkFrom_internal_cons t w l r true x (q' ++ bs)).trans ?_
    cases x with
    | false => exact hl hmem
    | true => exact hr hmem

/-- A code of the table takes the walk to its symbol and back to the root; a lone leaf's code "0" is one bit (R162, R241, R242). -/
theorem Tree.walk_code_append {T : Tree} {b : Byte} {c : List Bool} (h : (b, c) ∈ T.table) (bs : List Bool) :
    T.walk (c ++ bs) = (b :: (T.walk bs).1, (T.walk bs).2) := by
  cases T with
  | leaf w s =>
    obtain ⟨rfl, rfl⟩ := Prod.mk.inj (List.mem_singleton.1 h)
    rfl
  | internal w l r =>
    obtain ⟨x, q, rfl, hmem⟩ := Tree.mem_codes_internal (w := w) (path := []) h
    exact (walkFrom_internal_cons _ w l r false x (q ++ bs)).trans (Tree.arrive_path _ hmem bs)

theorem Tree.walk_nil (T : Tree) : T.walk [] = ([], false) := by cases T <;> rfl

/-- Settles O56, by induction on the text: each symbol's code takes the walk to the symbol's leaf and back to the root. -/
theorem walkOfEncodingIsTheText : Obligations.WalkOfEncodingIsTheText := by
  intro T x _ hx
  induction x with
  | nil => exact T.walk_nil
  | cons b x ih =>
    obtain ⟨hb, hx⟩ := List.forall_mem_cons.1 hx
    rw [encOf, List.flatMap_cons, Tree.walk_code_append (Tree.codeOf_mem hb), ← encOf, ih hx]

end Sys2Proof.Machine
end

section
/-! PROOFS, the control commands (46_control.md): NOP and CLR, and ENCODE and DECODE as their unit commands in sequence (R103). -/

namespace Sys2Proof.Machine

open Sys2Proof.Claims

/-- Settles O27: neither command has a branch. -/
theorem nopAndClr : Obligations.NopAndClr := fun _ => ⟨rfl, rfl⟩

/-! ## One step of a composite command (R27, R103) -/

theorem frame_running {i : Instr} (hi : isComposite i = false) {s t : State} (h : Frame i s t) (hs : Running s) : Running t := by
  obtain ⟨hbusy, hdone, herr⟩ := hs
  have hstatus : (t.busy, t.done) = (s.busy, s.done) := by
    cases i
    case encode | decode => cases hi
    all_goals exact (congrArg (fun u : State => (u.busy, u.done)) h :)
  obtain ⟨hb, hd⟩ := Prod.mk.inj hstatus
  exact ⟨hb.trans hbusy, hd.trans hdone, frame_err hi h herr⟩

theorem stepOf_running {i : Instr} (hi : isComposite i = false) (n : Nat) {s : State} (hs : Running s) :
    (stepOf n (opOf i) s).Keeps Running :=
  (opOf_frame i (setSeq n s)).imp fun _ h => frame_running hi h hs

/-- Naming a step and running its command continues the procedure with that step. -/
theorem thenRun_atStep_finish (i : Instr) (n : Nat) {r : Res} (h : r.Keeps Running) :
    thenRun i (atStep n (finish r)) = finish (r.andThen (stepOf n (opOf i))) := by
  have hnamed : (r.andThen fun s => .ok (setSeq n s)).Keeps Running := Res.keeps_seq h fun _ hs => Res.keeps_ok hs
  rw [atStep_finish h, thenRun_finish (exec_eq_finish i) hnamed, andThen_assoc]
  rfl

/-- The commands of a list, one after the other from step `n` on, SEQ set before each and at the end (R27, R103). -/
def commandsFrom (n : Nat) : List Instr → Host.Outcome State Fault Refusal → Host.Outcome State Fault Refusal
  | [], o => atStep n o
  | i :: l, o => commandsFrom (n + 1) l (thenRun i (atStep n o))

/-- Their procedures as the steps of a composite command (R255, R260). -/
def stepsFrom (n : Nat) : List Instr → Res → Res
  | [], r => r.andThen (endSeq n)
  | i :: l, r => stepsFrom (n + 1) l (r.andThen (stepOf n (opOf i)))

theorem commandsFrom_finish (n : Nat) {l : List Instr} (hl : ∀ i ∈ l, isComposite i = false) {r : Res} (h : r.Keeps Running) :
    commandsFrom n l (finish r) = finish (stepsFrom n l r) := by
  induction l generalizing n r with
  | nil => exact atStep_finish h
  | cons i l ih =>
    obtain ⟨hi, hl⟩ := List.forall_mem_cons.1 hl
    rw [commandsFrom, thenRun_atStep_finish i n h]
    exact ih (n + 1) hl (Res.keeps_seq h fun _ => stepOf_running hi n)

/-- The state in which the first step of a composite command ends: SEQ 0 and the work state cleared (R255, R260). -/
def cleared (s : State) : State := clrw (setSeq 0 s)

/-- CLR of a core that has not faulted clears what the first step of a composite command clears. -/
theorem faultReturn_eq_cleared {s : State} (he : s.err = 0) (hi : s.einfo = 0) : faultReturn s = cleared s := by
  calc faultReturn s = { cleared s with err := 0, einfo := 0 } := rfl
    _ = { cleared s with err := s.err, einfo := s.einfo } := by rw [he, hi]
    _ = cleared s := rfl

theorem decodeStart_ok {s : State} (hc : s.inLen.toNat ≤ s.cfg.inCap) : stepOf 0 decodeStart s = .ok (cleared s) := by
  rw [stepOf, decodeStart, checkIn_ok (s := setSeq 0 s) hc]
  rfl

theorem encodeStart_ok {s : State} (h0 : s.inLen ≠ 0) (hc : s.inLen.toNat ≤ s.cfg.inCap) :
    stepOf 0 encodeStart s = .ok (cleared s) :=
  (if_neg h0).trans (decodeStart_ok hc)

section Sequence

variable {s : State} (hs : Running s) (hi : s.einfo = 0)

include hs hi

theorem exec_clr_eq : exec .clr s = finish (.ok (cleared s)) := by
  rw [exec_eq_finish, opOf, opClr, faultReturn_eq_cleared hs.2.2 hi]

/-- CLR, COUNT and BUILD as unit commands are the steps of ENCODE up to its tree. -/
theorem encode_tree_unit_commands (h0 : s.inLen ≠ 0) (hc : s.inLen.toNat ≤ s.cfg.inCap) :
    (exec .clr s |> atStep 1 |> thenRun .count |> atStep 2 |> thenRun .build) =
      finish (((stepOf 0 encodeStart s).andThen (stepOf 1 opCount)).andThen (stepOf 2 opBuild)) := by
  have hstart : (Res.ok (cleared s)).Keeps Running := Res.keeps_ok hs
  have hcount := Res.keeps_seq hstart fun _ => stepOf_running (i := .count) rfl 1
  rw [exec_clr_eq hs hi, thenRun_atStep_finish .count 1 hstart, thenRun_atStep_finish .build 2 hcount, encodeStart_ok h0 hc]
  rfl

theorem encode_unit_commands (h0 : s.inLen ≠ 0) (hc : s.inLen.toNat ≤ s.cfg.inCap) :
    exec .encode s = (exec .clr s |> atStep 1 |> thenRun .count |> atStep 2 |> thenRun .build |> atStep 3 |> thenRun .gencode |>
      atStep 4 |> thenRun .serialize |> atStep 5 |> thenRun .encsym |> atStep 6 |> thenRun .wrhdr |> atStep 7 |> thenRun .pack |>
      atStep 8) := by
  have hseq := commandsFrom_finish 1 (l := [.count, .build, .gencode, .serialize, .encsym, .wrhdr, .pack]) (by decide)
    (Res.keeps_ok (s := cleared s) hs)
  rw [← exec_clr_eq hs hi] at hseq
  rw [exec_eq_finish, opOf, opEncode, encodeStart_ok h0 hc]
  exact hseq.symm

theorem decode_unit_commands (hc : s.inLen.toNat ≤ s.cfg.inCap) :
    exec .decode s = (exec .clr s |> atStep 1 |> thenRun .deserialize |> atStep 2 |> thenRun .rdhdr |> atStep 3 |> thenRun .unpack |>
      atStep 4 |> thenRun .decsym |> atStep 5) := by
  have hseq := commandsFrom_finish 1 (l := [.deserialize, .rdhdr, .unpack, .decsym]) (by decide)
    (Res.keeps_ok (s := cleared s) hs)
  rw [← exec_clr_eq hs hi] at hseq
  rw [exec_eq_finish, opOf, opDecode, decodeStart_ok hc]
  exact hseq.symm

end Sequence

end Sys2Proof.Machine
end

section
/-! PROOFS, the control commands (46_control.md): the steps of ENCODE up to its tree (R255, SEQ 0 to 2): the input is counted and the tree
of the counts is built, or the sole symbol is refused. -/

namespace Sys2Proof.Machine

open Sys2Proof.Claims

/-! ## COUNT at step 1 -/

theorem sum_count_range {l : List Nat} {n : Nat} (h : ∀ i ∈ l, i < n) : ((List.range n).map fun i => l.count i).sum = l.length := by
  rw [← List.sum_toFinset _ List.nodup_range, List.toFinset_range]
  simpa only [Multiset.coe_count, Multiset.coe_card] using
    Multiset.sum_count_eq_card (s := Finset.range n) (m := l) fun i hi => Finset.mem_range.2 (h i hi)

/-- The state after step 1 of ENCODE: the work state cleared and the input counted. -/
def counted (s : State) : State := countBytes (inputBytes s) { setSeq 1 (cleared s) with freq := [] }

theorem counted_frame (s : State) : counted s = { setSeq 1 (cleared s) with freq := (counted s).freq } := by
  rw [counted, countBytes_frame]

section Counted

variable {s : State} (hcfg : s.cfg.Allowed) (hc : s.inLen.toNat ≤ s.cfg.inCap)

include hc in
theorem count_step : stepOf 1 opCount (cleared s) = .ok (counted s) := by
  rw [stepOf, opCount, checkIn_ok (s := setSeq 1 (cleared s)) hc]
  rfl

include hcfg hc

theorem freqAt_counted (b : Byte) : (freqAt (counted s) b.toNat).toNat = (inputBytes s).count b := by
  obtain ⟨t, ht, -, hfreq, -⟩ := countCountsTheInput (setSeq 1 (cleared s)) hcfg hc
  have hrun := exec_eq_finish .count (setSeq 1 (cleared s))
  rw [opOf, show opCount (setSeq 1 (cleared s)) = .ok (counted s) from count_step hc, finish_ok, ht] at hrun
  cases hrun
  exact hfreq b

/-- The present symbols are those of the input. -/
theorem mem_presentSymbols_counted {i : Nat} : i ∈ presentSymbols (counted s) ↔ ∃ b ∈ inputBytes s, b.toNat = i := by
  have hpresent : ∀ b : Byte, freqAt (counted s) b.toNat ≠ 0 ↔ b ∈ inputBytes s := fun b => by
    rw [← List.count_pos_iff, ← freqAt_counted hcfg hc b, Nat.pos_iff_ne_zero, ne_eq, ne_eq, ← BitVec.toNat_inj]
    rfl
  rw [presentSymbols, List.mem_filter, List.mem_range, decide_eq_true_iff]
  constructor
  · rintro ⟨hi, hne⟩
    have hval : (BitVec.ofNat 8 i).toNat = i := Nat.mod_eq_of_lt hi
    exact ⟨BitVec.ofNat 8 i, (hpresent _).1 (by rwa [hval]), hval⟩
  · rintro ⟨b, hb, rfl⟩
    exact ⟨b.isLt, (hpresent b).2 hb⟩

theorem mem_presentLeaves_counted {b : Byte} {n : Nat} :
    (b, n) ∈ presentLeaves (counted s) ↔ n = (inputBytes s).count b ∧ n ≠ 0 := by
  rw [presentLeaves, List.mem_map]
  constructor
  · rintro ⟨i, hi, he⟩
    obtain ⟨c, hc', rfl⟩ := (mem_presentSymbols_counted hcfg hc).1 hi
    rw [BitVec.ofNat_toNat, BitVec.setWidth_eq, freqAt_counted hcfg hc] at he
    obtain ⟨rfl, rfl⟩ := Prod.mk.inj he
    exact ⟨rfl, (List.count_pos_iff.2 hc').ne'⟩
  · rintro ⟨rfl, hn⟩
    refine ⟨b.toNat, (mem_presentSymbols_counted hcfg hc).2 ⟨b, List.count_pos_iff.1 (Nat.pos_of_ne_zero hn), rfl⟩, ?_⟩
    rw [BitVec.ofNat_toNat, BitVec.setWidth_eq, freqAt_counted hcfg hc]

/-- Every byte of the input is counted once. -/
theorem freqTotal_counted : freqTotal (counted s) = s.inLen.toNat := by
  have hcount : ∀ i ∈ List.range 256, (freqAt (counted s) i).toNat = ((inputBytes s).map BitVec.toNat).count i := fun i hi => by
    have hval : (BitVec.ofNat 8 i).toNat = i := Nat.mod_eq_of_lt (List.mem_range.1 hi)
    have h := freqAt_counted hcfg hc (BitVec.ofNat 8 i)
    rw [hval] at h
    rw [h, ← List.count_map_of_injective (inputBytes s) BitVec.toNat (fun _ _ => BitVec.eq_of_toNat_eq) (BitVec.ofNat 8 i), hval]
  have hbytes : ∀ i ∈ (inputBytes s).map BitVec.toNat, i < 256 := fun i hi => by
    obtain ⟨b, -, rfl⟩ := List.mem_map.1 hi
    exact b.isLt
  unfold freqTotal
  rw [List.map_congr_left hcount, sum_count_range hbytes, List.length_map, inputBytes_length]

end Counted

theorem presentLeaves_fst_nodup (s : State) : ((presentLeaves s).map Prod.fst).Nodup := by
  rw [presentLeaves, List.map_map]
  refine (List.nodup_range.filter _).map_on fun i hi j hj h => ?_
  have hi' := List.mem_range.1 (List.mem_of_mem_filter hi)
  have hj' := List.mem_range.1 (List.mem_of_mem_filter hj)
  have hval := congrArg BitVec.toNat h
  simpa [Nat.mod_eq_of_lt hi', Nat.mod_eq_of_lt hj'] using hval

/-! ## How a procedure ends, read off the end of its command (R94, R290) -/

/-- A command that ends with a tree has not faulted. -/
theorem ok_of_finish {r : Res} {t : State} (h : finish r = .next t) (ht : t.treev = true) : ∃ u, r = .ok u ∧ t = complete u := by
  rcases finish_eq_next.1 h with h | ⟨c, w, u, -, rfl⟩
  · exact h
  · cases ht

/-- A command that ends without a tree has faulted, if its procedure leaves one where it does not raise. -/
theorem raise_of_finish {r : Res} {t : State} (h : finish r = .next t) (ht : t.treev = false)
    (hok : ∀ u, r = .ok u → u.treev = true) : ∃ c w u, r = .raise c w u ∧ t = faulted c w u := by
  rcases finish_eq_next.1 h with ⟨u, hu, rfl⟩ | h
  · exact absurd ((hok u hu).symm.trans ht) (by decide)
  · exact h

/-! ## BUILD at step 2 -/

/-- `u` is the state after step 2 of ENCODE from `s`, and `T` the tree: that of the input's counts (R151, R152). -/
structure BuiltTree (s : State) (T : Tree) (u : State) : Prop where
  frame : u = { cleared s with
    treev := true, degen := !T.isInternal, seq := 2, nnode := BitVec.ofNat 10 T.size, root := BitVec.ofNat 9 (T.size - 1),
    pqOut := BitVec.ofNat 9 (T.size - 1), freq := (counted s).freq, heap := u.heap, node := u.node }
  tree : stateTree u = some T
  accepted : s.dgm = true ∨ T.isInternal = true
  summed : T.Summed
  weight : T.weight = s.inLen.toNat
  weighted : ∀ b n, (b, n) ∈ T.weighted ↔ n = (inputBytes s).count b ∧ n ≠ 0
  nodup : T.leaves.Nodup
  length : T.leaves.length ≤ 256
  freq : ∀ b : Byte, (freqAt u b.toNat).toNat = (inputBytes s).count b

theorem Tree.not_isInternal (T : Tree) : (!T.isInternal) = decide (T.leaves.length = 1) := by
  cases T with
  | leaf w b => rfl
  | internal w l r =>
    have hl := List.length_pos_of_ne_nil l.leaves_ne_nil
    have hr := List.length_pos_of_ne_nil r.leaves_ne_nil
    rw [Tree.leaves, List.length_append, decide_eq_false (by omega)]
    rfl

namespace BuiltTree

variable {s u : State} {T : Tree} (h : BuiltTree s T u)

include h

theorem size_le : T.size ≤ 511 := by
  have := T.size_eq
  have := h.length
  omega

theorem depth_le : T.depth ≤ 255 := by
  have := T.depth_lt_leaves
  have := h.length
  omega

theorem inputBytes_eq : inputBytes u = inputBytes s := by rw [h.frame]; rfl

theorem mem_leaves {b : Byte} (hb : b ∈ inputBytes s) : b ∈ T.leaves := by
  rw [Tree.leaves_eq_weighted, List.mem_map]
  exact ⟨(b, _), (h.weighted b _).2 ⟨rfl, (List.count_pos_iff.2 hb).ne'⟩, rfl⟩

end BuiltTree

/-- BUILD of a sole symbol with DGM = 0 (R149, R283). -/
theorem opBuild_lone_symbol {s : State} {i : Nat} (h : presentSymbols s = [i]) (hdgm : s.dgm = false) :
    ∃ u, opBuild s = .raise .degenerate ((BitVec.ofNat 8 i).setWidth 32) u := by
  obtain ⟨t, ht, htframe, hleaf, -, hqueue, -⟩ := opMkleaves_ok (s := s) (by simp [h])
  have hsize : t.hsize = 1 := by rw [htframe, h]; rfl
  have hfirst : heapAt t 0 = 0 := by
    rw [h, queueOf, hsize] at hqueue
    exact List.singleton_perm_singleton.1 hqueue
  obtain ⟨u, hu, huframe, -⟩ := opSetroot_one hsize
  have hnode : nodeAt u (heapAt t 0).toNat = .leaf (freqAt s i) (BitVec.ofNat 8 i) := by
    rw [huframe, hfirst]
    exact hleaf 0 i (by rw [h]; rfl)
  have hudgm : u.dgm = false := by rw [huframe, htframe]; exact hdgm
  exact ⟨{ u with root := heapAt t 0 }, by
    rw [opBuild_eq s (f := 0) (by simp [h]), ht, ok_andThen, mergeLoop, ok_andThen, hu, acceptRoot_raise hnode hudgm]⟩

theorem build_step_lone_symbol {s : State} {i : Nat} (h : presentSymbols (counted s) = [i]) (hdgm : s.dgm = false) :
    ∃ u, stepOf 2 opBuild (counted s) = .raise .degenerate ((BitVec.ofNat 8 i).setWidth 32) u :=
  opBuild_lone_symbol (s := setSeq 2 (counted s)) h (by rw [counted_frame]; exact hdgm)

section Build

variable {s : State} (hcfg : s.cfg.Allowed) (hc : s.inLen.toNat ≤ s.cfg.inCap)

include hcfg hc

theorem presentSymbols_counted_ne_nil (h0 : s.inLen ≠ 0) : presentSymbols (counted s) ≠ [] := by
  have hlen : 0 < (inputBytes s).length := by
    rw [inputBytes_length]
    exact Nat.pos_of_ne_zero fun h => h0 (BitVec.eq_of_toNat_eq h)
  exact List.ne_nil_of_mem ((mem_presentSymbols_counted hcfg hc).2 ⟨_, List.getElem_mem hlen, rfl⟩)

theorem build_step (h0 : s.inLen ≠ 0) (hroot : s.dgm = true ∨ (presentSymbols (counted s)).length ≠ 1) :
    ∃ u T, stepOf 2 opBuild (counted s) = .ok u ∧ BuiltTree s T u := by
  have hne := presentSymbols_counted_ne_nil hcfg hc h0
  have htotal := freqTotal_counted hcfg hc
  have hdgm : (counted s).dgm = s.dgm := by rw [counted_frame]; rfl
  obtain ⟨t, T, ht, htframe, -, -, htree, hsummed, hweight, hperm⟩ :=
    buildMakesTheTree.2 (setSeq 2 (counted s)) hne (htotal.trans_le (by omega)) (hdgm ▸ hroot)
  rw [exec_eq_finish, opOf] at ht
  obtain ⟨u, hu, rfl⟩ := ok_of_finish ht (by rw [htframe])
  have hleaves : T.leaves.length = (presentSymbols (counted s)).length := by
    rw [Tree.leaves_eq_weighted, List.length_map, hperm.length_eq, List.length_map]
    rfl
  have hsize : T.size = 2 * (presentSymbols (counted s)).length - 1 := by
    have := T.size_eq
    omega
  have hdegen := T.not_isInternal
  have huframe := (opBuild_frame _).1 u hu
  refine ⟨u, T, hu, ?_, htree, ?_, hsummed, hweight.trans htotal, fun b n => ?_, ?_, ?_, fun b => ?_⟩
  · have hkept : (u.busy, u.done) = (s.busy, s.done) := by rw [huframe, counted_frame]; rfl
    obtain ⟨hbusy, hdone⟩ := Prod.mk.inj hkept
    calc u = { complete u with busy := u.busy, done := u.done } := rfl
      _ = { counted s with
          treev := true, codev := false, degen := !T.isInternal, seq := 2, nnode := BitVec.ofNat 10 T.size,
          root := BitVec.ofNat 9 (T.size - 1), hsize := 0, pqOut := BitVec.ofNat 9 (T.size - 1), heap := u.heap, node := u.node,
          busy := s.busy, done := s.done } := by
        rw [htframe, hbusy, hdone, hdegen, hleaves, hsize]; rfl
      _ = _ := by rw [counted_frame]; rfl
  · exact hroot.imp_right fun hk => by
      rw [← hleaves] at hk
      simpa [hk] using hdegen
  · exact hperm.mem_iff.trans (mem_presentLeaves_counted hcfg hc)
  · rw [Tree.leaves_eq_weighted, (hperm.map _).nodup_iff]
    exact presentLeaves_fst_nodup (counted s)
  · rw [hleaves]
    exact presentSymbols_length_le _
  · rw [← freqAt_counted hcfg hc b, huframe]
    rfl

end Build

end Sys2Proof.Machine
end

section
/-! PROOFS, the control commands (46_control.md): the steps of ENCODE from its tree on (R255, SEQ 3 to 7): the states they end in where OUT
and BITS have room, and the fault where they have not. -/

namespace Sys2Proof.Machine

open Sys2Proof.Claims

/-- ENCODE from step 3 on. -/
def encodeText (u : State) : Res :=
  (((((stepOf 3 opGencode u).andThen (stepOf 4 opSerialize)).andThen (stepOf 5 opEncsym)).andThen (stepOf 6 opWrhdr)).andThen
    (stepOf 7 opPack)).andThen (endSeq 8)

theorem opEncode_eq_encodeText {s : State} (h0 : s.inLen ≠ 0) (hc : s.inLen.toNat ≤ s.cfg.inCap) :
    opEncode s = (stepOf 2 opBuild (counted s)).andThen encodeText := by
  rw [opEncode, encodeStart_ok h0 hc, ok_andThen, count_step hc, ok_andThen]
  simp only [andThen_assoc]
  congr 1
  funext u
  simp only [encodeText, andThen_assoc]

/-! ## The states between the steps -/

/-- The state with bytes appended to OUT (R69). -/
def appended (bs : List Byte) (s : State) : State :=
  { s with outBuf := tableWrite 0 s.outBuf s.outLen.toNat bs, outLen := word (s.outLen.toNat + bs.length) }

section Append

variable {p : Config.Params} (hcfg : p.Allowed) {v : State} {bs : List Byte} {n : Nat} (hp : v.cfg = p) (hn : v.outLen.toNat = n)

include hcfg hp hn

theorem appendAll_fits (h : n + bs.length ≤ p.outCap) : appendAll bs v = .ok (appended bs v) := by
  obtain ⟨-, -, -, hcap, -⟩ := hcfg
  subst hp hn
  exact appendAll_ok bs v (by omega) h

theorem appendAll_overflow (hl : n ≤ p.outCap) (h : p.outCap < n + bs.length) :
    ∃ w, appendAll bs v = .raise .capacity 2 w ∧ w.seq = v.seq := by
  obtain ⟨-, -, -, hcap, -⟩ := hcfg
  subst hp hn
  obtain ⟨w, hw, hframe⟩ := appendAll_raise bs v (by omega) hl h
  exact ⟨w, hw, by rw [hframe]⟩

end Append

theorem lt_of_le_bitsCap {p : Config.Params} (hcfg : p.Allowed) {n : Nat} (hn : n ≤ p.bitsCap) : n < 2 ^ 32 := by
  obtain ⟨-, -, -, -, -, hcap, -⟩ := hcfg
  omega

/-- The state after step 3 from a state with the tree `T`. -/
def codesMade (T : Tree) (u : State) : State :=
  { u with
    seq := 3, codeLen := (setCodes T.table (clearCodes (setSeq 3 u))).codeLen,
    codeBits := (setCodes T.table (clearCodes (setSeq 3 u))).codeBits, codev := true }

/-- The state after step 4. -/
def treeWritten (T : Tree) (u : State) : State := appended T.ser (setSeq 4 (codesMade T u))

/-- The state after step 5, the input's bit-string being `bits`. -/
def bitsMade (T : Tree) (bits : List Bool) (u : State) : State :=
  { writeBits (setSeq 5 (treeWritten T u)) 0 bits with bitLen := word bits.length, bitsv := true }

/-- The state after step 6. -/
def headerWritten (T : Tree) (bits : List Bool) (u : State) : State :=
  appended (headerBytes (remOf bits.length)) (setRem (setSeq 6 (bitsMade T bits u)))

/-- The state after step 7. -/
def payloadWritten (T : Tree) (bits : List Bool) (u : State) : State :=
  { appended (packOf bits) (setRem (setSeq 7 (headerWritten T bits u))) with payLen := word ((bits.length + 7) / 8) }

@[simp] theorem appended_cfg (bs : List Byte) (s : State) : (appended bs s).cfg = s.cfg := rfl

@[simp] theorem appended_outLen (bs : List Byte) (s : State) : (appended bs s).outLen = word (s.outLen.toNat + bs.length) := rfl

@[simp] theorem codesMade_cfg (T : Tree) (u : State) : (codesMade T u).cfg = u.cfg := rfl

@[simp] theorem codesMade_outLen (T : Tree) (u : State) : (codesMade T u).outLen = u.outLen := rfl

@[simp] theorem bitsMade_cfg (T : Tree) (bits : List Bool) (u : State) : (bitsMade T bits u).cfg = (treeWritten T u).cfg := rfl

@[simp] theorem bitsMade_outLen (T : Tree) (bits : List Bool) (u : State) :
    (bitsMade T bits u).outLen = (treeWritten T u).outLen := rfl

@[simp] theorem bitsMade_outBuf (T : Tree) (bits : List Bool) (u : State) :
    (bitsMade T bits u).outBuf = (treeWritten T u).outBuf := rfl

@[simp] theorem headerBytes_length (r : Nat) : (headerBytes r).length = 3 := rfl

theorem codeAt_codesMade {T : Tree} (hd : T.depth ≤ 255) (u : State) (b : Byte) : codeAt (codesMade T u) b.toNat = T.codeOf b := by
  rw [Tree.codeOf_eq_lastCode, lastCode, ← codeAt_clearCodes (setSeq 3 u) b.toNat]
  exact codeAt_setCodes T.table (clearCodes (setSeq 3 u)) (Tree.table_length hd) b

/-! ## ENCSYM without room in BITS (R233, R285) -/

/-- The loop of ENCSYM where every byte has a code and BITS has no room for all the codes. -/
theorem encodeFrom_full (x : List Byte) (i L : Nat) (s : State) (hc : ∀ b ∈ x, codeLenAt s b.toNat ≠ 0) (hL : L ≤ s.cfg.bitsCap)
    (hl : s.cfg.bitsCap < L + (encOf (fun b => codeAt s b.toNat) x).length) :
    ∃ u, encodeFrom x i L s = .raise .capacity 3 u := by
  induction x generalizing i L s with
  | nil => exact absurd hl (Nat.not_lt.2 hL)
  | cons b x ih =>
    obtain ⟨hb, hx⟩ := List.forall_mem_cons.1 hc
    rw [encodeFrom, if_neg hb]
    by_cases hroom : s.cfg.bitsCap < L + (codeLenAt s b.toNat).toNat
    · rw [if_pos hroom]
      exact ⟨s, rfl⟩
    · rw [if_neg hroom]
      rw [encOf, List.flatMap_cons, List.length_append, codeAt_length, ← Nat.add_assoc] at hl
      exact ih (i + 1) _ (writeBits s L (codeAt s b.toNat)) hx (Nat.not_lt.1 hroom) hl

theorem opEncsym_full {s : State} (hv : s.codev = true) (hc : s.inLen.toNat ≤ s.cfg.inCap)
    (hcode : ∀ b ∈ inputBytes s, codeLenAt s b.toNat ≠ 0)
    (hfull : s.cfg.bitsCap < (encOf (fun b => codeAt s b.toNat) (inputBytes s)).length) :
    ∃ u, opEncsym s = .raise .capacity 3 u := by
  rw [opEncsym, if_neg (by simp [hv]), checkIn_ok hc, ok_andThen]
  exact encodeFrom_full _ 0 0 s hcode (Nat.zero_le _) (by rwa [Nat.zero_add])

/-! ## The steps -/

namespace BuiltTree

variable {s u : State} {T : Tree} {bits : List Bool} (h : BuiltTree s T u)

include h

theorem cfg_eq : u.cfg = s.cfg := by rw [h.frame]; rfl

theorem outLen_eq : u.outLen = 0 := by rw [h.frame]; rfl

theorem treev_eq : u.treev = true := by rw [h.frame]

/-- GENCODE at step 3: the tree is at most 255 deep, so that no code exceeds CODE_MAX (R165). -/
theorem gencode_step : stepOf 3 opGencode u = .ok (codesMade T u) := by
  rw [stepOf, opGencode_eq (s := setSeq 3 u) h.treev_eq, genCodes_eq (s := clearCodes (setSeq 3 u)) h.tree h.depth_le, ok_andThen,
    setCodes_frame]
  rfl

theorem serialize_step_eq : stepOf 4 opSerialize (codesMade T u) = appendAll T.ser (setSeq 4 (codesMade T u)) :=
  opSerialize_eq (s := setSeq 4 (codesMade T u)) h.treev_eq h.tree

theorem cfg_codesMade : (setSeq 4 (codesMade T u)).cfg = s.cfg := by simp [h.cfg_eq]

theorem outLen_codesMade : (setSeq 4 (codesMade T u)).outLen.toNat = 0 := by simp [h.outLen_eq]

theorem cfg_treeWritten : (treeWritten T u).cfg = s.cfg := by simp [treeWritten, h.cfg_eq]

theorem outLen_treeWritten : (treeWritten T u).outLen.toNat = 2 * T.size := by
  have hsize := h.size_le
  rw [treeWritten, appended_outLen, h.outLen_codesMade, T.ser_length, Nat.zero_add]
  exact Nat.mod_eq_of_lt (by omega)

theorem cfg_bitsMade : (setRem (setSeq 6 (bitsMade T bits u))).cfg = s.cfg := by simp [h.cfg_treeWritten]

theorem outLen_bitsMade : (setRem (setSeq 6 (bitsMade T bits u))).outLen.toNat = 2 * T.size := by simp [h.outLen_treeWritten]

theorem cfg_headerWritten : (setRem (setSeq 7 (headerWritten T bits u))).cfg = s.cfg := by
  simp [headerWritten, h.cfg_treeWritten]

theorem outLen_headerWritten : (setRem (setSeq 7 (headerWritten T bits u))).outLen.toNat = 2 * T.size + 3 := by
  have hsize := h.size_le
  rw [headerWritten, setRem_outLen, setSeq_outLen, appended_outLen, h.outLen_bitsMade, headerBytes_length]
  exact Nat.mod_eq_of_lt (by omega)

theorem inputBytes_treeWritten : inputBytes (treeWritten T u) = inputBytes s := h.inputBytes_eq

/-- Every byte of the input has a code. -/
theorem codeLenAt_treeWritten {b : Byte} (hb : b ∈ inputBytes s) : codeLenAt (treeWritten T u) b.toNat ≠ 0 := fun h0 => by
  have hlen : (codeAt (codesMade T u) b.toNat).length = 0 := by rw [codeAt_length]; exact congrArg BitVec.toNat h0
  have hpos := T.table_code_pos _ (Tree.codeOf_mem (h.mem_leaves hb))
  rw [codeAt_codesMade h.depth_le] at hlen
  exact absurd hlen (Nat.ne_of_gt hpos)

theorem encOf_treeWritten :
    encOf (fun b => codeAt (treeWritten T u) b.toNat) (inputBytes (treeWritten T u)) = encOf T.codeOf (inputBytes s) := by
  rw [h.inputBytes_treeWritten]
  exact congrArg (encOf · _) (funext fun b => codeAt_codesMade h.depth_le u b)

end BuiltTree

theorem wrhdr_step_eq (T : Tree) {bits : List Bool} (u : State) (hlen : bits.length < 2 ^ 32) :
    stepOf 6 opWrhdr (bitsMade T bits u) = appendAll (headerBytes (remOf bits.length)) (setRem (setSeq 6 (bitsMade T bits u))) := by
  have hbitLen : (setSeq 6 (bitsMade T bits u)).bitLen.toNat = bits.length := Nat.mod_eq_of_lt hlen
  rw [stepOf, opWrhdr_eq rfl, hbitLen]

theorem pack_step_eq (T : Tree) {bits : List Bool} (u : State) (hlen : bits.length < 2 ^ 32) :
    stepOf 7 opPack (headerWritten T bits u) =
      (appendAll (packOf bits) (setRem (setSeq 7 (headerWritten T bits u)))).andThen fun t =>
        .ok { t with payLen := word ((bits.length + 7) / 8) } := by
  have hbitLen : (setSeq 7 (headerWritten T bits u)).bitLen.toNat = bits.length := Nat.mod_eq_of_lt hlen
  have hbits : bitString (setSeq 7 (headerWritten T bits u)) = bits :=
    bitString_of_writeBits (s := setSeq 5 (treeWritten T u)) rfl hbitLen
  rw [stepOf, opPack_eq rfl, hbits, hbitLen]

section Steps

variable {s u : State} {T : Tree} {bits : List Bool} (h : BuiltTree s T u) (hcfg : s.cfg.Allowed) (hc : s.inLen.toNat ≤ s.cfg.inCap)
  (hbits : encOf T.codeOf (inputBytes s) = bits)

include h

section

include hcfg

theorem serialize_step (ho : 2 * T.size ≤ s.cfg.outCap) : stepOf 4 opSerialize (codesMade T u) = .ok (treeWritten T u) := by
  rw [h.serialize_step_eq]
  exact appendAll_fits hcfg h.cfg_codesMade h.outLen_codesMade (by rw [T.ser_length]; omega)

theorem wrhdr_step (hb : bits.length ≤ s.cfg.bitsCap) (ho : 2 * T.size + 3 ≤ s.cfg.outCap) :
    stepOf 6 opWrhdr (bitsMade T bits u) = .ok (headerWritten T bits u) := by
  rw [wrhdr_step_eq T u (lt_of_le_bitsCap hcfg hb)]
  exact appendAll_fits (bs := headerBytes (remOf bits.length)) hcfg h.cfg_bitsMade h.outLen_bitsMade ho

theorem pack_step (hb : bits.length ≤ s.cfg.bitsCap) (ho : 2 * T.size + 3 + (bits.length + 7) / 8 ≤ s.cfg.outCap) :
    stepOf 7 opPack (headerWritten T bits u) = .ok (payloadWritten T bits u) := by
  rw [pack_step_eq T u (lt_of_le_bitsCap hcfg hb), appendAll_fits hcfg h.cfg_headerWritten h.outLen_headerWritten (by rwa [packOf_length])]
  rfl

end

include hc hbits

theorem encsym_step (hb : bits.length ≤ s.cfg.bitsCap) : stepOf 5 opEncsym (treeWritten T u) = .ok (bitsMade T bits u) := by
  have hlen : u.inLen.toNat ≤ u.cfg.inCap := by rw [h.frame]; exact hc
  exact opEncsym_ok (s := setSeq 5 (treeWritten T u)) rfl hlen
    (fun b hb => h.codeLenAt_treeWritten (h.inputBytes_treeWritten ▸ hb)) (h.encOf_treeWritten.trans hbits) (h.cfg_eq ▸ hb)

theorem encsym_step_full (hb : s.cfg.bitsCap < bits.length) : ∃ v, stepOf 5 opEncsym (treeWritten T u) = .raise .capacity 3 v := by
  have hlen : u.inLen.toNat ≤ u.cfg.inCap := by rw [h.frame]; exact hc
  rw [← hbits, ← h.encOf_treeWritten, ← h.cfg_eq] at hb
  exact opEncsym_full (s := setSeq 5 (treeWritten T u)) rfl hlen
    (fun b hb => h.codeLenAt_treeWritten (h.inputBytes_treeWritten ▸ hb)) hb

include hcfg

/-- ENCODE where OUT and BITS have room for all it writes. -/
theorem encodeText_ok (hb : bits.length ≤ s.cfg.bitsCap) (ho : 2 * T.size + 3 + (bits.length + 7) / 8 ≤ s.cfg.outCap) :
    encodeText u = .ok (setSeq 8 (payloadWritten T bits u)) := by
  rw [encodeText, h.gencode_step, ok_andThen, serialize_step h hcfg (by omega), ok_andThen, encsym_step h hc hbits hb, ok_andThen,
    wrhdr_step h hcfg hb (by omega), ok_andThen, pack_step h hcfg hb ho, ok_andThen, endSeq]

/-! ## The faults of these steps (R255, R285) -/

omit hc hbits in
/-- No room for the tree in OUT. -/
theorem encodeText_full_tree (ho : s.cfg.outCap < 2 * T.size) : ∃ v, encodeText u = .raise .capacity 2 v ∧ v.seq = 4 := by
  obtain ⟨v, hv, hseq⟩ := appendAll_overflow (v := setSeq 4 (codesMade T u)) (bs := T.ser) hcfg h.cfg_codesMade h.outLen_codesMade
    (Nat.zero_le _) (by rw [T.ser_length]; omega)
  exact ⟨v, by rw [encodeText, h.gencode_step, ok_andThen, h.serialize_step_eq, hv]; rfl, hseq⟩

/-- No room for the bit-string in BITS. -/
theorem encodeText_full_bits (ho : 2 * T.size ≤ s.cfg.outCap) (hb : s.cfg.bitsCap < bits.length) :
    ∃ v, encodeText u = .raise .capacity 3 v ∧ v.seq = 5 := by
  obtain ⟨v, hv⟩ := encsym_step_full h hc hbits hb
  have hseq := (opOf_raise_seq_freq (i := .encsym) rfl hv).1
  exact ⟨v, by rw [encodeText, h.gencode_step, ok_andThen, serialize_step h hcfg ho, ok_andThen, hv]; rfl, hseq⟩

/-- No room for the header in OUT. -/
theorem encodeText_full_header (ho : 2 * T.size ≤ s.cfg.outCap) (hb : bits.length ≤ s.cfg.bitsCap)
    (hfull : s.cfg.outCap < 2 * T.size + 3) : ∃ v, encodeText u = .raise .capacity 2 v ∧ v.seq = 6 := by
  obtain ⟨v, hv, hseq⟩ := appendAll_overflow (v := setRem (setSeq 6 (bitsMade T bits u))) (bs := headerBytes (remOf bits.length)) hcfg
    h.cfg_bitsMade h.outLen_bitsMade ho hfull
  have hwrhdr := (wrhdr_step_eq T u (lt_of_le_bitsCap hcfg hb)).trans hv
  exact ⟨v, by
    rw [encodeText, h.gencode_step, ok_andThen, serialize_step h hcfg ho, ok_andThen, encsym_step h hc hbits hb, ok_andThen, hwrhdr]
    rfl, hseq⟩

/-- No room for the payload in OUT. -/
theorem encodeText_full_payload (ho : 2 * T.size + 3 ≤ s.cfg.outCap) (hb : bits.length ≤ s.cfg.bitsCap)
    (hfull : s.cfg.outCap < 2 * T.size + 3 + (bits.length + 7) / 8) : ∃ v, encodeText u = .raise .capacity 2 v ∧ v.seq = 7 := by
  obtain ⟨v, hv, hseq⟩ := appendAll_overflow (v := setRem (setSeq 7 (headerWritten T bits u))) (bs := packOf bits) hcfg
    h.cfg_headerWritten h.outLen_headerWritten ho (by rwa [packOf_length])
  have hpack := pack_step_eq T u (lt_of_le_bitsCap hcfg hb)
  rw [hv] at hpack
  exact ⟨v, by
    rw [encodeText, h.gencode_step, ok_andThen, serialize_step h hcfg (by omega), ok_andThen, encsym_step h hc hbits hb, ok_andThen,
      wrhdr_step h hcfg hb ho, ok_andThen, hpack]
    rfl, hseq⟩

/-- ENCODE that ends without fault had room for all it wrote. -/
theorem encodeText_room {t : State} (ht : encodeText u = .ok t) :
    bits.length ≤ s.cfg.bitsCap ∧ 2 * T.size + 3 + (bits.length + 7) / 8 ≤ s.cfg.outCap := by
  have hraise : ∀ {c w} {k : BitVec 4}, ¬ ∃ v, encodeText u = .raise c w v ∧ v.seq = k := fun ⟨_, hv, _⟩ => by
    rw [ht] at hv
    cases hv
  have htree := mt (encodeText_full_tree h hcfg) hraise
  have hb := mt (encodeText_full_bits h hcfg hc hbits (by omega)) hraise
  have hheader := mt (encodeText_full_header h hcfg hc hbits (by omega) (by omega)) hraise
  have hpayload := mt (encodeText_full_payload h hcfg hc hbits (by omega) (by omega)) hraise
  omega

end Steps

end Sys2Proof.Machine
end

section
/-! PROOFS, the control commands (46_control.md): what ENCODE writes (R255, R266) and what its faults leave (R27, R290). -/

namespace Sys2Proof.Machine

open Sys2Proof.Claims

/-! ## The end of ENCODE -/

theorem outputBytes_appended {bs : List Byte} {s : State} (h : s.outLen.toNat + bs.length < 2 ^ 32) :
    outputBytes (appended bs s) = outputBytes s ++ bs := outputBytes_append rfl (Nat.mod_eq_of_lt h)

theorem outArray_appended {bs : List Byte} {s : State} {a : Nat} (h : s.outLen.toNat + bs.length ≤ a) :
    outArray (appended bs s) a = outArray s a := outArray_append rfl a (.inr h)

theorem outputBytes_completed (n : Nat) (s : State) : outputBytes (complete (setSeq n s)) = outputBytes s := rfl

theorem outArray_completed (n : Nat) (s : State) (a : Nat) : outArray (complete (setSeq n s)) a = outArray s a := rfl

theorem Tree.codeOf_length_le {T : Tree} (hd : T.depth ≤ 255) (b : Byte) : (T.codeOf b).length ≤ 255 := by
  by_cases hb : b ∈ T.leaves
  · exact Tree.table_length hd _ (Tree.codeOf_mem hb)
  · rw [Tree.codeOf_of_notMem hb]
    exact Nat.zero_le _

theorem encOf_length_le {c : Byte → List Bool} {m : Nat} (hc : ∀ b, (c b).length ≤ m) (x : List Byte) :
    (encOf c x).length ≤ m * x.length := by
  induction x with
  | nil => exact Nat.zero_le _
  | cons b x ih =>
    have hb := hc b
    rw [encOf, List.flatMap_cons, List.length_append, List.length_cons, Nat.mul_add, Nat.mul_one]
    rw [encOf] at ih
    omega

/-- What the steps after GENCODE have changed. -/
theorem payloadWritten_frame (T : Tree) (bits : List Bool) (u : State) :
    payloadWritten T bits u = { codesMade T u with
      seq := 7, bits := tableWrite false (codesMade T u).bits 0 bits, bitLen := word bits.length, bitsv := true,
      rem := (payloadWritten T bits u).rem, outBuf := (payloadWritten T bits u).outBuf,
      outLen := (payloadWritten T bits u).outLen, payLen := (payloadWritten T bits u).payLen } := by
  simp [payloadWritten, headerWritten, bitsMade, treeWritten, appended, setSeq, setRem, writeBits]

namespace BuiltTree

variable {s u : State} {T : Tree} {bits : List Bool} (h : BuiltTree s T u)

include h

/-- What differs from the state before ENCODE in the state after it. -/
theorem encoded_frame (hlen : bits.length < 2 ^ 32) {t : State} (ht : t = complete (setSeq 8 (payloadWritten T bits u))) :
    t = { s with
      treev := true, codev := true, bitsv := true, hdrv := false, resid := false, degen := !T.isInternal, seq := 8,
      outLen := word (2 * T.size + 3 + (packOf bits).length), payLen := word (packOf bits).length,
      rem := BitVec.ofNat 3 (remOf bits.length), cur := 0, bitLen := word bits.length, nnode := BitVec.ofNat 10 T.size,
      root := BitVec.ofNat 9 (T.size - 1), hsize := 0, pqOut := BitVec.ofNat 9 (T.size - 1),
      freq := t.freq, heap := t.heap, node := t.node, codeLen := t.codeLen, codeBits := t.codeBits, bits := t.bits,
      outBuf := t.outBuf, busy := false, done := true } := by
  have hbitLen : (word bits.length).toNat = bits.length := Nat.mod_eq_of_lt hlen
  have hsize := h.size_le
  have hheader : (2 * T.size + 3) % 4294967296 = 2 * T.size + 3 := Nat.mod_eq_of_lt (by omega)
  subst ht
  rw [h.frame]
  simp [complete, setSeq, setRem, payloadWritten, headerWritten, bitsMade, treeWritten, codesMade, appended, writeBits, cleared, clrw,
    hbitLen, hheader, T.ser_length, packOf_length]

/-- The output of ENCODE is the wire format of R97 and R266. -/
theorem outputBytes_payloadWritten (hlen : bits.length < 2 ^ 32) :
    outputBytes (payloadWritten T bits u) = T.ser ++ headerBytes (remOf bits.length) ++ packOf bits := by
  have hsize := h.size_le
  have hpack := packOf_length bits
  have hempty : outputBytes (setSeq 4 (codesMade T u)) = [] := by rw [outputBytes, h.outLen_codesMade]; rfl
  have hbits : outputBytes (setRem (setSeq 6 (bitsMade T bits u))) = outputBytes (treeWritten T u) := by simp [outputBytes, outArray]
  have hheader : outputBytes (setRem (setSeq 7 (headerWritten T bits u))) = outputBytes (headerWritten T bits u) := by
    simp [outputBytes, outArray]
  calc outputBytes (payloadWritten T bits u) = outputBytes (appended (packOf bits) (setRem (setSeq 7 (headerWritten T bits u)))) := rfl
    _ = outputBytes (headerWritten T bits u) ++ packOf bits := by
      rw [outputBytes_appended (by rw [h.outLen_headerWritten]; omega), hheader]
    _ = outputBytes (treeWritten T u) ++ headerBytes (remOf bits.length) ++ packOf bits := by
      rw [headerWritten, outputBytes_appended (by rw [h.outLen_bitsMade, headerBytes_length]; omega), hbits]
    _ = T.ser ++ headerBytes (remOf bits.length) ++ packOf bits := by
      rw [treeWritten, outputBytes_appended (by rw [h.outLen_codesMade, T.ser_length]; omega), hempty, List.nil_append]

/-- The OUT array behind the output of ENCODE. -/
theorem outArray_payloadWritten {a : Nat} (ha : 2 * T.size + 3 + (packOf bits).length ≤ a) :
    outArray (payloadWritten T bits u) a = outArray s a := by
  have hbits : outArray (setRem (setSeq 6 (bitsMade T bits u))) a = outArray (treeWritten T u) a := by simp [outArray]
  have hheader : outArray (setRem (setSeq 7 (headerWritten T bits u))) a = outArray (headerWritten T bits u) a := by simp [outArray]
  calc outArray (payloadWritten T bits u) a = outArray (appended (packOf bits) (setRem (setSeq 7 (headerWritten T bits u)))) a := rfl
    _ = outArray (headerWritten T bits u) a := by rw [outArray_appended (by rw [h.outLen_headerWritten]; exact ha), hheader]
    _ = outArray (treeWritten T u) a := by
      rw [headerWritten, outArray_appended (by rw [h.outLen_bitsMade, headerBytes_length]; omega), hbits]
    _ = outArray u a := outArray_appended (s := setSeq 4 (codesMade T u)) (by rw [h.outLen_codesMade, T.ser_length]; omega)
    _ = outArray s a := by rw [h.frame]; rfl

end BuiltTree

/-- An input with two distinct bytes has at least two present symbols. -/
theorem presentSymbols_counted_length_ne_one {s : State} (hcfg : s.cfg.Allowed) (hc : s.inLen.toNat ≤ s.cfg.inCap)
    (h : ∃ b ∈ inputBytes s, ∃ c ∈ inputBytes s, b ≠ c) : (presentSymbols (counted s)).length ≠ 1 := by
  obtain ⟨b, hb, c, hc', hne⟩ := h
  intro hone
  obtain ⟨i, hi⟩ := List.length_eq_one_iff.1 hone
  have hmem : ∀ d ∈ inputBytes s, d.toNat = i := fun d hd => by
    rw [← List.mem_singleton, ← hi]
    exact (mem_presentSymbols_counted hcfg hc).2 ⟨d, hd, rfl⟩
  exact hne (BitVec.eq_of_toNat_eq ((hmem b hb).trans (hmem c hc').symm))

/-- Settles O57: the steps of ENCODE, one after the other, each with room for what it writes. -/
theorem encodeWritesTheWireFormat : Obligations.EncodeWritesTheWireFormat := by
  intro s hcfg h0 hc hroot hout hbitsCap
  obtain ⟨u, T, hu, h⟩ := build_step hcfg hc h0 (hroot.imp_right (presentSymbols_counted_length_ne_one hcfg hc))
  have hsize := h.size_le
  have hpos : 0 < s.inLen.toNat := Nat.pos_of_ne_zero fun e => h0 (BitVec.eq_of_toNat_eq e)
  have hbits := encOf_length_le (Tree.codeOf_length_le h.depth_le) (inputBytes s)
  rw [inputBytes_length] at hbits
  obtain ⟨bits, henc⟩ : ∃ bits, encOf T.codeOf (inputBytes s) = bits := ⟨_, rfl⟩
  rw [henc] at hbits
  have hlen := lt_of_le_bitsCap hcfg (hbits.trans hbitsCap)
  have hrun := exec_eq_finish .encode s
  rw [opOf, opEncode_eq_encodeText h0 hc, hu, ok_andThen, encodeText_ok h hcfg hc henc (hbits.trans hbitsCap) (by omega), finish_ok] at hrun
  obtain ⟨t, ht⟩ : ∃ t, t = complete (setSeq 8 (payloadWritten T bits u)) := ⟨_, rfl⟩
  rw [← ht] at hrun
  refine ⟨t, T, hrun, ?_⟩
  rw [henc]
  refine ⟨h.encoded_frame hlen ht, ?_, h.summed, h.weight, h.nodup, h.weighted, fun b => ⟨?_, ?_⟩, ?_, ?_, fun a ha => ?_⟩
  · rw [ht, payloadWritten_frame]
    exact h.tree
  · rw [ht, payloadWritten_frame]
    exact h.freq b
  · rw [ht, payloadWritten_frame]
    exact codeAt_codesMade h.depth_le u b
  · rw [ht, payloadWritten_frame]
    exact bitString_of_writeBits (s := u) rfl (Nat.mod_eq_of_lt hlen)
  · rw [ht, outputBytes_completed]
    exact h.outputBytes_payloadWritten hlen
  · rw [ht, outArray_completed]
    exact h.outArray_payloadWritten ha

end Sys2Proof.Machine
end

section
/-! PROOFS, the control commands (46_control.md): the steps of DECODE (R260) on a wire format, and on an input that is none. -/

namespace Sys2Proof.Machine

open Sys2Proof.Claims

/-- DECODE from step 2 on. -/
def decodeText (u : State) : Res :=
  (((stepOf 2 opRdhdr u).andThen (stepOf 3 opUnpack)).andThen (stepOf 4 opDecsym)).andThen (endSeq 5)

theorem opDecode_eq_decodeText {s : State} (hc : s.inLen.toNat ≤ s.cfg.inCap) :
    opDecode s = (stepOf 1 opDeserialize (cleared s)).andThen decodeText := by
  rw [opDecode, decodeStart_ok hc, ok_andThen]
  simp only [andThen_assoc]
  congr 1
  funext u
  simp only [decodeText, andThen_assoc]

/-! ## The input, read from an offset on -/

theorem inBytes_rest (s : State) (c : Nat) : inBytes s c (s.inLen.toNat - c) = (inputBytes s).drop c := by
  refine List.ext_getElem (by simp [inputBytes, inBytes]) fun i _ _ => ?_
  simp [inputBytes, inBytes]

theorem inHas_iff {s : State} {c : Nat} {b : Byte} : inHas s c b = true ↔ (inputBytes s)[c]? = some b := by
  rw [inHas_eq_true, List.getElem?_eq_some_iff]
  simp [inputBytes, inBytes]

/-! ## DESERIALIZE at step 1 -/

/-- `u` is the state after step 1 of DECODE from `s`, the input beginning with `T`. -/
structure ReadTree (s : State) (T : Tree) (u : State) : Prop where
  frame : u = { cleared s with
    treev := true, degen := !T.isInternal, seq := 1, nnode := BitVec.ofNat 10 T.size, root := BitVec.ofNat 9 (T.size - 1),
    cur := word T.ser.length, node := u.node }
  tree : stateTree u = some T.zeroed

theorem deserialize_step {s : State} {T : Tree} {y : List Byte} (hc : s.inLen.toNat ≤ s.cfg.inCap) (hin : inputBytes s = T.ser ++ y)
    (hsize : T.size ≤ 511) (hroot : s.dgm = true ∨ T.isInternal = true) :
    ∃ u, stepOf 1 opDeserialize (cleared s) = .ok u ∧ ReadTree s T u := by
  obtain ⟨t, ht, htframe, htree, -, -⟩ := deserializeRebuildsTheTree (setSeq 1 (cleared s)) T y hc hin hsize hroot
  rw [exec_eq_finish, opOf] at ht
  obtain ⟨u, hu, rfl⟩ := ok_of_finish ht (by rw [htframe])
  have hkept : (u.busy, u.done) = (s.busy, s.done) := by rw [(opDeserialize_frame _).1 u hu]; rfl
  obtain ⟨hbusy, hdone⟩ := Prod.mk.inj hkept
  refine ⟨u, hu, ?_, htree⟩
  calc u = { complete u with busy := u.busy, done := u.done } := rfl
    _ = _ := by rw [htframe, hbusy, hdone]; simp [cleared, setSeq, clrw]

/-! ## The walk does not see weights (R182, R191, R241) -/

theorem walkFrom_zeroed (T U : Tree) (moved : Bool) (bs : List Bool) : walkFrom T.zeroed U.zeroed moved bs = walkFrom T U moved bs := by
  induction bs generalizing U moved with
  | nil => cases U <;> rfl
  | cons b bs ih =>
    cases U with
    | leaf w s => rfl
    | internal w l r =>
      rw [Tree.zeroed, walkFrom_internal_cons, walkFrom_internal_cons, ← apply_ite Tree.zeroed]
      cases (if b = true then r else l) with
      | leaf w s => exact congrArg (fun x : List Byte × Bool => (s :: x.1, x.2)) (ih T false)
      | internal w l r => exact ih (.internal w l r) true

theorem Tree.walk_zeroed (T : Tree) (bs : List Bool) : T.zeroed.walk bs = T.walk bs := by
  cases T with
  | leaf w s => rfl
  | internal w l r => exact walkFrom_zeroed (.internal w l r) (.internal w l r) false bs

/-! ## RDHDR, UNPACK and DECSYM at steps 2 to 4 -/

/-- The state after step 2. -/
def headerRead (r : Nat) (u : State) : State :=
  { u with seq := 2, rem := BitVec.ofNat 3 r, cur := word (u.cur.toNat + 3), hdrv := true }

/-- The state after step 3, the payload having `n` bytes. -/
def payloadRead (n r : Nat) (u : State) : State := unpackBits n (setSeq 3 (headerRead r u))

/-- The state after step 4, the walk having emitted `x.1` and left the residual flag `x.2`. -/
def textWritten (x : List Byte × Bool) (n r : Nat) (u : State) : State :=
  { appended x.1 (setSeq 4 (payloadRead n r u)) with resid := x.2 }

namespace ReadTree

variable {s u : State} {T : Tree} {y : List Byte} (h : ReadTree s T u)

include h

theorem inLen_eq : u.inLen = s.inLen := by rw [h.frame]; rfl

theorem cfg_eq : u.cfg = s.cfg := by rw [h.frame]; rfl

theorem outLen_eq : u.outLen = 0 := by rw [h.frame]; rfl

theorem treev_eq : u.treev = true := by rw [h.frame]

theorem inputBytes_eq : inputBytes u = inputBytes s := by rw [h.frame]; rfl

theorem checkIn_le (hc : s.inLen.toNat ≤ s.cfg.inCap) : u.inLen.toNat ≤ u.cfg.inCap := by rwa [h.inLen_eq, h.cfg_eq]

/-- The cursor stands behind the tree. -/
theorem cur_toNat (hin : inputBytes s = T.ser ++ y) : u.cur.toNat = T.ser.length := by
  have hlen := congrArg List.length hin
  rw [inputBytes_length, List.length_append] at hlen
  rw [h.frame]
  exact Nat.mod_eq_of_lt (by omega)

/-- The bytes behind the tree, as RDHDR reads them. -/
theorem inHas_header (hin : inputBytes s = T.ser ++ y) (j : Nat) (b : Byte) : inHas u (u.cur.toNat + j) b = true ↔ y[j]? = some b := by
  rw [inHas_iff, h.inputBytes_eq, hin, h.cur_toNat hin, List.getElem?_append_right (Nat.le_add_right _ _), Nat.add_sub_cancel_left]

end ReadTree

theorem inLen_of_wire {s : State} {x p : List Byte} {r : Nat} (hin : inputBytes s = x ++ (headerBytes r ++ p)) :
    s.inLen.toNat = x.length + 3 + p.length := by
  rw [← inputBytes_length, hin, List.length_append, List.length_append, headerBytes_length, Nat.add_assoc]

theorem rem_headerRead {r : Nat} (hr : r ≤ 7) (u : State) : (setSeq 3 (headerRead r u)).rem.toNat = r := Nat.mod_eq_of_lt (by omega)

/-- What RDHDR and UNPACK have changed. -/
theorem payloadRead_frame (n r : Nat) (u : State) :
    payloadRead n r u = { u with
      seq := 3, hdrv := true, bitsv := true, rem := BitVec.ofNat 3 r, cur := u.inLen, payLen := word n,
      bits := (payloadRead n r u).bits, bitLen := (payloadRead n r u).bitLen } := by
  simp [payloadRead, unpackBits, writeBits, headerRead, setSeq]

theorem cfg_payloadRead {s u : State} {T : Tree} {n r : Nat} (h : ReadTree s T u) : (setSeq 4 (payloadRead n r u)).cfg = s.cfg := by
  rw [payloadRead_frame, ← h.cfg_eq]
  rfl

theorem outLen_payloadRead {s u : State} {T : Tree} {n r : Nat} (h : ReadTree s T u) :
    (setSeq 4 (payloadRead n r u)).outLen.toNat = 0 := by
  rw [payloadRead_frame, setSeq_outLen, h.outLen_eq]
  rfl

theorem treev_payloadRead {s u : State} {T : Tree} {n r : Nat} (h : ReadTree s T u) :
    (setSeq 4 (payloadRead n r u)).treev = true := by
  rw [payloadRead_frame, setSeq_treev, h.treev_eq]

theorem stateTree_payloadRead {s u : State} {T : Tree} {n r : Nat} (h : ReadTree s T u) :
    stateTree (setSeq 4 (payloadRead n r u)) = some T.zeroed := by
  rw [payloadRead_frame]
  exact h.tree

section Wire

variable {s u : State} {T : Tree} {r : Nat} {p : List Byte} (h : ReadTree s T u) (hin : inputBytes s = T.ser ++ (headerBytes r ++ p))
  (hc : s.inLen.toNat ≤ s.cfg.inCap) (hr : r ≤ 7)

include h hin

/-- The cursor stands at the payload. -/
theorem cur_headerRead : (setSeq 3 (headerRead r u)).cur.toNat = T.ser.length + 3 := by
  have hlen := inLen_of_wire hin
  have hcur : (setSeq 3 (headerRead r u)).cur = word (u.cur.toNat + 3) := rfl
  rw [hcur, h.cur_toNat hin]
  exact Nat.mod_eq_of_lt (by omega)

theorem inLen_headerRead : (setSeq 3 (headerRead r u)).inLen.toNat = T.ser.length + 3 + p.length :=
  (congrArg BitVec.toNat h.inLen_eq).trans (inLen_of_wire hin)

theorem payload_length : (setSeq 3 (headerRead r u)).inLen.toNat - (setSeq 3 (headerRead r u)).cur.toNat = p.length := by
  rw [cur_headerRead h hin, inLen_headerRead h hin, Nat.add_sub_cancel_left]

theorem payload_bytes : inBytes (setSeq 3 (headerRead r u)) (setSeq 3 (headerRead r u)).cur.toNat p.length = p := by
  have hrest := inBytes_rest (setSeq 3 (headerRead r u)) (setSeq 3 (headerRead r u)).cur.toNat
  have hbytes : inputBytes (setSeq 3 (headerRead r u)) = inputBytes s := h.inputBytes_eq
  rw [payload_length h hin, hbytes, cur_headerRead h hin, hin, ← List.append_assoc] at hrest
  rw [cur_headerRead h hin, hrest]
  exact List.drop_left' (by rw [List.length_append, headerBytes_length])

include hr

/-- The bits of the payload, as DECSYM reads them. -/
theorem bitString_payloadRead (hcfg : s.cfg.Allowed) (hr8 : r ≤ 8 * p.length) (hb : 8 * p.length ≤ s.cfg.bitsCap) :
    bitString (setSeq 4 (payloadRead p.length r u)) = unpackOf p r := by
  have hbits := bitString_unpackBits (s := setSeq 3 (headerRead r u)) (nb := p.length) (by rwa [rem_headerRead hr])
    (lt_of_le_bitsCap hcfg hb)
  rwa [payload_bytes h hin, rem_headerRead hr] at hbits

include hc

theorem rdhdr_step : stepOf 2 opRdhdr u = .ok (headerRead r u) :=
  opRdhdr_ok (s := setSeq 2 u) (h.checkIn_le hc) hr ((h.inHas_header hin 0 newline).2 rfl) ((h.inHas_header hin 1 (digitOf r)).2 rfl)
    ((h.inHas_header hin 2 newline).2 rfl)

theorem unpack_step (hr8 : r ≤ 8 * p.length) (hb : 8 * p.length ≤ s.cfg.bitsCap) :
    stepOf 3 opUnpack (headerRead r u) = .ok (payloadRead p.length r u) := by
  have hn := payload_length h hin
  have hcur := cur_headerRead h hin
  have hlen := inLen_headerRead h hin
  have hok := opUnpack_ok (s := setSeq 3 (headerRead r u)) rfl (h.checkIn_le hc) (by omega) (by rwa [hn, rem_headerRead hr])
    (by rw [hn]; exact h.cfg_eq ▸ hb)
  rwa [hn] at hok

/-- A payload shorter than the padding (R212): there is none, and the cursor stands at the end of the input. -/
theorem unpack_step_short (hshort : 8 * p.length < r) :
    stepOf 3 opUnpack (headerRead r u) = .raise .parse s.inLen (setSeq 3 (headerRead r u)) := by
  have hn := payload_length h hin
  have hcur := cur_headerRead h hin
  have hlen := inLen_headerRead h hin
  have hend : (setSeq 3 (headerRead r u)).cur = s.inLen := BitVec.eq_of_toNat_eq (by rw [hcur, inLen_of_wire hin]; omega)
  have hraise := opUnpack_raise_short (s := setSeq 3 (headerRead r u)) rfl (h.checkIn_le hc) (by omega)
    (by rwa [hn, rem_headerRead hr])
  rwa [hend] at hraise

/-- A payload that BITS has no room for (R285). -/
theorem unpack_step_long (hr8 : r ≤ 8 * p.length) (hb : s.cfg.bitsCap < 8 * p.length) :
    stepOf 3 opUnpack (headerRead r u) = .raise .capacity 3 (setSeq 3 (headerRead r u)) := by
  have hn := payload_length h hin
  have hcur := cur_headerRead h hin
  have hlen := inLen_headerRead h hin
  exact opUnpack_raise_long (s := setSeq 3 (headerRead r u)) rfl (h.checkIn_le hc) (by omega) (by rwa [hn, rem_headerRead hr])
    (by rw [hn]; exact h.cfg_eq ▸ hb)

omit hc in
theorem decsym_step_eq (hcfg : s.cfg.Allowed) (hr8 : r ≤ 8 * p.length) (hb : 8 * p.length ≤ s.cfg.bitsCap) :
    stepOf 4 opDecsym (payloadRead p.length r u) =
      (appendAll (T.walk (unpackOf p r)).1 (setSeq 4 (payloadRead p.length r u))).andThen fun t =>
        .ok { t with resid := (T.walk (unpackOf p r)).2 } := by
  have heq := opDecsym_eq (s := setSeq 4 (payloadRead p.length r u)) (treev_payloadRead h) rfl (stateTree_payloadRead h)
  rwa [bitString_payloadRead h hin hr hcfg hr8 hb, Tree.walk_zeroed] at heq

/-- DECODE from step 2 on, where OUT and BITS have room for what it writes. -/
theorem decodeText_ok (hcfg : s.cfg.Allowed) (hr8 : r ≤ 8 * p.length) (hb : 8 * p.length ≤ s.cfg.bitsCap)
    (ho : (T.walk (unpackOf p r)).1.length ≤ s.cfg.outCap) :
    decodeText u = .ok (setSeq 5 (textWritten (T.walk (unpackOf p r)) p.length r u)) := by
  rw [decodeText, rdhdr_step h hin hc hr, ok_andThen, unpack_step h hin hc hr hr8 hb, ok_andThen,
    decsym_step_eq h hin hr hcfg hr8 hb, appendAll_fits hcfg (cfg_payloadRead h) (outLen_payloadRead h) (by omega), ok_andThen,
    ok_andThen, endSeq, textWritten]

/-- DECODE without room for the text in OUT. -/
theorem decodeText_full (hcfg : s.cfg.Allowed) (hr8 : r ≤ 8 * p.length) (hb : 8 * p.length ≤ s.cfg.bitsCap)
    (ho : s.cfg.outCap < (T.walk (unpackOf p r)).1.length) : ∃ v, decodeText u = .raise .capacity 2 v ∧ v.seq = 4 := by
  obtain ⟨v, hv, hseq⟩ := appendAll_overflow (v := setSeq 4 (payloadRead p.length r u)) (bs := (T.walk (unpackOf p r)).1) hcfg
    (cfg_payloadRead h) (outLen_payloadRead h) (Nat.zero_le _) (by omega)
  refine ⟨v, ?_, hseq⟩
  rw [decodeText, rdhdr_step h hin hc hr, ok_andThen, unpack_step h hin hc hr hr8 hb, ok_andThen,
    decsym_step_eq h hin hr hcfg hr8 hb, hv]
  rfl

end Wire

/-! ## The end of DECODE -/

/-- What the steps after DESERIALIZE have changed. -/
theorem textWritten_frame (x : List Byte × Bool) (n r : Nat) (u : State) :
    textWritten x n r u = { u with
      seq := 4, hdrv := true, bitsv := true, resid := x.2, rem := BitVec.ofNat 3 r, cur := u.inLen, payLen := word n,
      bits := (textWritten x n r u).bits, bitLen := (textWritten x n r u).bitLen, outBuf := (textWritten x n r u).outBuf,
      outLen := (textWritten x n r u).outLen } := by
  simp [textWritten, appended, payloadRead, unpackBits, writeBits, headerRead, setSeq]

theorem bitString_textWritten (x : List Byte × Bool) (n r : Nat) (u : State) :
    bitString (complete (setSeq 5 (textWritten x n r u))) = bitString (setSeq 4 (payloadRead n r u)) := by
  simp [bitString, bitAt, textWritten, appended]

/-- What differs from the state before DECODE in the state after it. -/
theorem ReadTree.decoded_frame {s u t : State} {T : Tree} {r : Nat} {p : List Byte} {x : List Byte × Bool} (h : ReadTree s T u)
    (hr : r ≤ 7) (ht : t = complete (setSeq 5 (textWritten x p.length r u))) :
    t = { s with
      treev := true, codev := false, bitsv := true, hdrv := true, degen := !T.isInternal, resid := x.2,
      seq := 5, outLen := word x.1.length, payLen := word p.length, rem := BitVec.ofNat 3 r,
      cur := s.inLen, bitLen := word (8 * p.length - r), nnode := BitVec.ofNat 10 T.size, root := BitVec.ofNat 9 (T.size - 1),
      hsize := 0, pqOut := 0, heap := [], node := t.node, codeLen := [], codeBits := [], bits := t.bits, outBuf := t.outBuf,
      busy := false, done := true } := by
  have hrem : r % 8 = r := Nat.mod_eq_of_lt (by omega)
  subst ht
  rw [h.frame]
  simp [complete, setSeq, textWritten, appended, payloadRead, unpackBits, writeBits, headerRead, cleared, clrw, hrem]

theorem ReadTree.outputBytes_textWritten {s u : State} {T : Tree} {x : List Byte × Bool} {n r : Nat} (h : ReadTree s T u)
    (hx : x.1.length < 2 ^ 32) : outputBytes (textWritten x n r u) = x.1 := by
  have hempty : outputBytes (setSeq 4 (payloadRead n r u)) = [] := by rw [outputBytes, outLen_payloadRead h]; rfl
  have htext : outputBytes (textWritten x n r u) = outputBytes (appended x.1 (setSeq 4 (payloadRead n r u))) := rfl
  rw [htext, outputBytes_appended (by rw [outLen_payloadRead h]; omega), hempty, List.nil_append]

theorem ReadTree.outArray_textWritten {s u : State} {T : Tree} {x : List Byte × Bool} {n r a : Nat} (h : ReadTree s T u)
    (ha : x.1.length ≤ a) : outArray (textWritten x n r u) a = outArray s a := by
  have hout : outArray (setSeq 4 (payloadRead n r u)) a = outArray u a := by
    rw [payloadRead_frame]
    rfl
  calc outArray (textWritten x n r u) a = outArray (appended x.1 (setSeq 4 (payloadRead n r u))) a := rfl
    _ = outArray u a := by rw [outArray_appended (by rw [outLen_payloadRead h]; omega), hout]
    _ = outArray s a := by rw [h.frame]; rfl

/-- Settles O59: the steps of DECODE, one after the other. -/
theorem decodeExpandsTheWireFormat : Obligations.DecodeExpandsTheWireFormat := by
  intro s T r p hcfg hc hin hsize hroot hr hr8 hb ho
  rw [List.append_assoc] at hin
  obtain ⟨u, hu, h⟩ := deserialize_step hc hin hsize hroot
  have hrun := exec_eq_finish .decode s
  rw [opOf, opDecode_eq_decodeText hc, hu, ok_andThen, decodeText_ok h hin hc hr hcfg hr8 hb ho, finish_ok] at hrun
  obtain ⟨t, ht⟩ : ∃ t, t = complete (setSeq 5 (textWritten (T.walk (unpackOf p r)) p.length r u)) := ⟨_, rfl⟩
  rw [← ht] at hrun
  refine ⟨t, hrun, h.decoded_frame hr ht, ?_, ?_, ?_, fun a ha => ?_⟩
  · rw [ht, textWritten_frame]
    exact h.tree
  · rw [ht, bitString_textWritten]
    exact bitString_payloadRead h hin hr hcfg hr8 hb
  · rw [ht, outputBytes_completed]
    exact h.outputBytes_textWritten (by omega)
  · rw [ht, outArray_completed]
    exact h.outArray_textWritten ha

end Sys2Proof.Machine
end

section
/-! PROOFS, the control commands (46_control.md): the faults that end ENCODE and DECODE at each of their steps (R27, R255, R260, R281 to
R285), and the round trip (R265). -/

namespace Sys2Proof.Machine

open Sys2Proof.Claims

/-! ## The end of a command that raised (R290) -/

theorem workStateCleared_of_raise {i : Instr} {s v : State} {c : CoreFault} {w : Word} (h : opOf i s = .raise c w v) :
    WorkStateCleared s (faulted c w v) :=
  workStateCleared_faulted (((hostSide_kept s).opOf i rfl).2 c w v h) c w

theorem endsIn_of_raise {i : Instr} {s : State} {c : CoreFault} {w : Word} {k : BitVec 4}
    (h : ∃ v, opOf i s = .raise c w v ∧ v.seq = k) : EndsIn s (exec i s) c.code w k := by
  obtain ⟨v, hv, hseq⟩ := h
  exact ⟨faulted c w v, by rw [exec_eq_finish, hv, finish_raise], workStateCleared_of_raise hv, rfl, rfl, hseq⟩

/-! ## The faults of ENCODE -/

theorem exec_encode_empty {s : State} (h0 : s.inLen = 0) : exec .encode s = .next (faulted .emptyInput 0 { s with seq := 0 }) := by
  have hraise : stepOf 0 encodeStart s = .raise .emptyInput 0 (setSeq 0 s) := if_pos h0
  rw [exec_eq_finish, opOf, opEncode, hraise]
  rfl

/-- An input of one byte only has one present symbol. -/
theorem presentSymbols_counted_singleton {s : State} {b : Byte} (hcfg : s.cfg.Allowed) (hc : s.inLen.toNat ≤ s.cfg.inCap)
    (h0 : s.inLen ≠ 0) (hb : ∀ c ∈ inputBytes s, c = b) : presentSymbols (counted s) = [b.toNat] := by
  have hmem : ∀ i ∈ presentSymbols (counted s), i = b.toNat := fun i hi => by
    obtain ⟨c, hc', rfl⟩ := (mem_presentSymbols_counted hcfg hc).1 hi
    rw [hb c hc']
  have hnodup : (presentSymbols (counted s)).Nodup := List.nodup_range.filter _
  have hreplicate := List.eq_replicate_of_mem hmem
  have hpos := List.length_pos_of_ne_nil (presentSymbols_counted_ne_nil hcfg hc h0)
  rw [hreplicate, List.nodup_replicate] at hnodup
  rw [hreplicate, show (presentSymbols (counted s)).length = 1 by omega]
  rfl

/-- ENCODE of an input of one byte only with DGM = 0 (R283), FREQ keeping the count. -/
theorem exec_encode_degenerate {s : State} {b : Byte} (hcfg : s.cfg.Allowed) (h0 : s.inLen ≠ 0) (hc : s.inLen.toNat ≤ s.cfg.inCap)
    (hdgm : s.dgm = false) (hb : ∀ c ∈ inputBytes s, c = b) :
    ∃ t, exec .encode s = .next t ∧ WorkStateCleared s t ∧ t.err = 3 ∧ t.einfo = b.setWidth 32 ∧ t.seq = 2 ∧
      freqAt t b.toNat = s.inLen := by
  obtain ⟨v, hv⟩ := build_step_lone_symbol (presentSymbols_counted_singleton hcfg hc h0 hb) hdgm
  rw [BitVec.ofNat_toNat, BitVec.setWidth_eq] at hv
  have hraise : opOf .encode s = .raise .degenerate (b.setWidth 32) v := by
    rw [opOf, opEncode_eq_encodeText h0 hc, hv, raise_andThen]
  obtain ⟨hseq, hfreq⟩ := opOf_raise_seq_freq (i := .build) rfl hv
  refine ⟨_, by rw [exec_eq_finish, hraise, finish_raise], workStateCleared_of_raise hraise, rfl, rfl, hseq, BitVec.eq_of_toNat_eq ?_⟩
  have hcount : (inputBytes s).count b = (inputBytes s).length := List.count_eq_length.2 fun c h => (hb c h).symm
  calc (freqAt v b.toNat).toNat = (freqAt (counted s) b.toNat).toNat := by rw [freqAt, hfreq]; rfl
    _ = s.inLen.toNat := by rw [freqAt_counted hcfg hc, hcount, inputBytes_length]

/-- The tree of ENCODE's steps 0 to 2 where they do not raise. -/
theorem builtTree_of_build_step {s u : State} (hcfg : s.cfg.Allowed) (h0 : s.inLen ≠ 0) (hc : s.inLen.toNat ≤ s.cfg.inCap)
    (hu : stepOf 2 opBuild (counted s) = .ok u) : ∃ T, BuiltTree s T u := by
  have hroot : s.dgm = true ∨ (presentSymbols (counted s)).length ≠ 1 := by
    by_contra hn
    obtain ⟨hdgm, hone⟩ := not_or.1 hn
    obtain ⟨i, hi⟩ := List.length_eq_one_iff.1 (not_not.1 hone)
    obtain ⟨v, hv⟩ := build_step_lone_symbol hi (Bool.eq_false_iff.2 hdgm)
    exact nomatch hu.symm.trans hv
  obtain ⟨v, T, hv, h⟩ := build_step hcfg hc h0 hroot
  cases hu.symm.trans hv
  exact ⟨T, h⟩

/-- The same, where the steps run as unit commands and end without fault. -/
theorem builtTree_of_unit_commands {s u : State} {T : Tree} (hs : Running s) (hi : s.einfo = 0) (hcfg : s.cfg.Allowed) (h0 : s.inLen ≠ 0)
    (hc : s.inLen.toNat ≤ s.cfg.inCap)
    (hu : (exec .clr s |> atStep 1 |> thenRun .count |> atStep 2 |> thenRun .build) = .next u) (hue : u.err = 0)
    (hT : stateTree u = some T) : ∃ v, stepOf 2 opBuild (counted s) = .ok v ∧ BuiltTree s T v := by
  rw [encode_tree_unit_commands hs hi h0 hc, encodeStart_ok h0 hc, ok_andThen, count_step hc, ok_andThen] at hu
  rcases finish_eq_next.1 hu with ⟨v, hv, rfl⟩ | ⟨c, w, v, -, rfl⟩
  · obtain ⟨T', h⟩ := builtTree_of_build_step hcfg h0 hc hv
    cases h.tree.symm.trans hT
    exact ⟨v, hv, h⟩
  · exact absurd hue (faulted_err_ne c w v)

/-! ## The faults of DECODE -/

/-- Where step `k` of DECODE raises in a state that differs in work state and SEQ only. -/
theorem exec_decode_of_raise {s v : State} {c : CoreFault} {w : Word} {k : BitVec 4} (h : opDecode s = .raise c w v)
    (hv : clrw v = clrw { s with seq := k }) : exec .decode s = .next (faulted c w { s with seq := k }) := by
  rw [exec_eq_finish, opOf, h, finish_raise, clrw_congr hv]

theorem opDeserialize_treev {s t : State} (ht : opDeserialize s = .ok t) : t.treev = true := by
  obtain ⟨s, -, ht⟩ := andThen_eq_ok.1 ht
  cases hp : parse 512 s.cur.toNat 0 (clrt s) with
  | raise k i u =>
    rw [hp] at ht
    cases ht
  | ok r c seen u =>
    rw [hp] at ht
    rw [acceptRoot_eq_ok ht]

/-- Where DESERIALIZE faults at step 1. -/
theorem exec_decode_of_deserialize {s : State} {c : CoreFault} {w : Word} (hc : s.inLen.toNat ≤ s.cfg.inCap)
    (h : finish (opDeserialize (setSeq 1 (cleared s))) = .next (faulted c w (setSeq 1 (cleared s)))) :
    exec .decode s = .next (faulted c w { s with seq := 1 }) := by
  obtain ⟨c', w', v, hv, hend⟩ := raise_of_finish h rfl fun _ => opDeserialize_treev
  have hstep : stepOf 1 opDeserialize (cleared s) = .raise c' w' v := hv
  rw [exec_eq_finish, opOf, opDecode_eq_decodeText hc, hstep, raise_andThen, finish_raise, ← hend]
  rfl

theorem digitOf_bounds {d : Nat} (hd : d ≤ 7) : 0x30 ≤ digitOf d ∧ digitOf d ≤ 0x37 := by
  have hval : (digitOf d).toNat = 0x30 + d := Nat.mod_eq_of_lt (by omega)
  exact ⟨by rw [BitVec.le_def, hval]; exact Nat.le_add_right _ _, by rw [BitVec.le_def, hval]; exact Nat.add_le_add_left hd _⟩

/-- A byte that passes RDHDR's check is a digit 0 to 7 (R205). -/
theorem eq_digitOf {b : Byte} (hlow : ¬ b < 0x30) (hhigh : ¬ 0x37 < b) : ∃ d ≤ 7, b = digitOf d := by
  rw [BitVec.lt_def] at hlow hhigh
  simp only [BitVec.reduceToNat] at hlow hhigh
  refine ⟨b.toNat - 0x30, by omega, BitVec.eq_of_toNat_eq ?_⟩
  rw [digitOf, BitVec.toNat_ofNat]
  have := b.isLt
  omega

/-- RDHDR at step 2 where what follows the tree is no header (R205). -/
theorem rdhdr_step_raise {s u : State} {T : Tree} {y : List Byte} {info : Word} (h : ReadTree s T u)
    (hc : s.inLen.toNat ≤ s.cfg.inCap) (hin : inputBytes s = T.ser ++ y) (herr : HeaderError T.ser.length y info) :
    stepOf 2 opRdhdr u = .raise .parse info (setSeq 2 u) := by
  have hread := h.inHas_header hin
  have hcur := h.cur_toNat hin
  have hc' : (setSeq 2 u).inLen.toNat ≤ (setSeq 2 u).cfg.inCap := h.checkIn_le hc
  have hnot : ∀ {j b}, y[j]? ≠ some b → inHas u (u.cur.toNat + j) b = false := fun hne =>
    Bool.eq_false_iff.2 (mt (hread _ _).1 hne)
  cases herr with
  | first hfirst =>
    have hraise := opRdhdr_raise_first (s := setSeq 2 u) hc' (hnot (j := 0) (by rwa [← List.head?_eq_getElem?]))
    have hinfo : u.cur = word T.ser.length := by rw [h.frame]
    rwa [setSeq_cur, hinfo] at hraise
  | digit z hy hdigit =>
    subst hy
    have hdigit' : u.inLen.toNat ≤ u.cur.toNat + 1 ∨ inByte u (u.cur.toNat + 1) < 0x30 ∨ 0x37 < inByte u (u.cur.toNat + 1) := by
      by_contra hn
      simp only [not_or, Nat.not_le] at hn
      obtain ⟨hlen, hlow, hhigh⟩ := hn
      obtain ⟨d, hd, hb⟩ := eq_digitOf hlow hhigh
      exact hdigit d hd (List.head?_eq_getElem?.trans ((hread 1 (digitOf d)).1 (inHas_eq_true.2 ⟨hlen, hb⟩)))
    have hraise := opRdhdr_raise_digit (s := setSeq 2 u) hc' ((hread 0 newline).2 rfl) hdigit'
    rwa [setSeq_cur, hcur] at hraise
  | second d z hd hy hsecond =>
    subst hy
    obtain ⟨hlen, hb⟩ := inHas_eq_true.1 ((hread 1 (digitOf d)).2 rfl)
    obtain ⟨hlow, hhigh⟩ := digitOf_bounds hd
    have hraise := opRdhdr_raise_second (s := setSeq 2 u) hc' ((hread 0 newline).2 rfl) hlen (hb ▸ hlow) (hb ▸ hhigh)
      (hnot (j := 2) (by rwa [List.head?_eq_getElem?] at hsecond))
    rwa [setSeq_cur, hcur] at hraise

section Decode

variable {s : State} {T : Tree} (hc : s.inLen.toNat ≤ s.cfg.inCap) (hsize : T.size ≤ 511)
  (hroot : s.dgm = true ∨ T.isInternal = true)

include hc hsize hroot

/-- DECODE of a tree that no header follows. -/
theorem exec_decode_header {y : List Byte} {info : Word} (hin : inputBytes s = T.ser ++ y) (herr : HeaderError T.ser.length y info) :
    exec .decode s = .next (faulted .parse info { s with seq := 2 }) := by
  obtain ⟨u, hu, h⟩ := deserialize_step hc hin hsize hroot
  have hraise : opDecode s = .raise .parse info (setSeq 2 u) := by
    rw [opDecode_eq_decodeText hc, hu, ok_andThen, decodeText, rdhdr_step_raise h hc hin herr]
    rfl
  exact exec_decode_of_raise hraise (by rw [h.frame]; rfl)

variable {r : Nat} {p : List Byte} (hr : r ≤ 7) (hin : inputBytes s = T.ser ++ (headerBytes r ++ p))

include hr hin

/-- DECODE of a payload shorter than its padding (R212). -/
theorem exec_decode_short (hshort : 8 * p.length < r) : exec .decode s = .next (faulted .parse s.inLen { s with seq := 3 }) := by
  obtain ⟨u, hu, h⟩ := deserialize_step hc hin hsize hroot
  have hraise : opDecode s = .raise .parse s.inLen (setSeq 3 (headerRead r u)) := by
    rw [opDecode_eq_decodeText hc, hu, ok_andThen, decodeText, rdhdr_step h hin hc hr, ok_andThen,
      unpack_step_short h hin hc hr hshort]
    rfl
  exact exec_decode_of_raise hraise (by rw [h.frame]; rfl)

/-- DECODE of a payload that BITS has no room for. -/
theorem exec_decode_long (hr8 : r ≤ 8 * p.length) (hb : s.cfg.bitsCap < 8 * p.length) :
    exec .decode s = .next (faulted .capacity 3 { s with seq := 3 }) := by
  obtain ⟨u, hu, h⟩ := deserialize_step hc hin hsize hroot
  have hraise : opDecode s = .raise .capacity 3 (setSeq 3 (headerRead r u)) := by
    rw [opDecode_eq_decodeText hc, hu, ok_andThen, decodeText, rdhdr_step h hin hc hr, ok_andThen,
      unpack_step_long h hin hc hr hr8 hb]
    rfl
  exact exec_decode_of_raise hraise (by rw [h.frame]; rfl)

/-- DECODE of a text that OUT has no room for. -/
theorem exec_decode_full (hcfg : s.cfg.Allowed) (hr8 : r ≤ 8 * p.length) (hb : 8 * p.length ≤ s.cfg.bitsCap)
    (ho : s.cfg.outCap < (T.walk (unpackOf p r)).1.length) : EndsIn s (exec .decode s) 5 2 4 := by
  obtain ⟨u, hu, h⟩ := deserialize_step hc hin hsize hroot
  refine endsIn_of_raise (i := .decode) (c := .capacity) ?_
  rw [opOf, opDecode_eq_decodeText hc, hu, ok_andThen]
  exact decodeText_full h hin hc hr hcfg hr8 hb ho

end Decode

/-- Settles O58: the composites as their unit commands, and step by step the faults that end them. -/
theorem compositeTraps : Obligations.CompositeTraps := by
  refine ⟨fun s hb hd he hi hc =>
      ⟨fun h0 => encode_unit_commands ⟨hb, hd, he⟩ hi h0 hc, decode_unit_commands ⟨hb, hd, he⟩ hi hc⟩,
    fun s => ⟨exec_encode_empty, fun b hcfg h0 hc hdgm => exec_encode_degenerate hcfg h0 hc hdgm⟩, ?_, fun s hcfg hc => ?_⟩
  · intro s u T n hb hd he hi hcfg h0 hc hu hue hT hn
    obtain ⟨v, hv, h⟩ := builtTree_of_unit_commands ⟨hb, hd, he⟩ hi hcfg h0 hc hu hue hT
    have hends : ∀ {c w} {k : BitVec 4}, (∃ x, encodeText v = .raise c w x ∧ x.seq = k) → EndsIn s (exec .encode s) c.code w k :=
      fun hx => endsIn_of_raise (i := .encode) (by rwa [opOf, opEncode_eq_encodeText h0 hc, hv, ok_andThen])
    subst hn
    exact ⟨fun ho => hends (encodeText_full_tree h hcfg ho), fun ho hfull => hends (encodeText_full_bits h hcfg hc rfl ho hfull),
      fun ho hbits hfull => hends (encodeText_full_header h hcfg hc rfl ho hbits hfull),
      fun ho hbits hfull => hends (encodeText_full_payload h hcfg hc rfl ho hbits hfull)⟩
  · refine ⟨fun e info h => exec_decode_of_deserialize hc (opDeserialize_treeError hc h),
      fun b x hdgm hin => exec_decode_of_deserialize hc (opDeserialize_lone_leaf hc hin hdgm),
      fun T y info hsize hroot hin herr => exec_decode_header hc hsize hroot hin herr, fun T r p hsize hroot hr hin => ?_⟩
    rw [List.append_assoc] at hin
    exact ⟨exec_decode_short hc hsize hroot hr hin, exec_decode_long hc hsize hroot hr hin,
      fun hr8 hb ho => exec_decode_full hc hsize hroot hr hin hcfg hr8 hb ho⟩

/-! ## The round trip (R265) -/

/-- An ENCODE that ends without fault passed the checks of its first step. -/
theorem encodeStart_of_opEncode {s t : State} (ht : opEncode s = .ok t) : s.inLen ≠ 0 ∧ s.inLen.toNat ≤ s.cfg.inCap := by
  have hpass : ∀ {c w v}, stepOf 0 encodeStart s ≠ .raise c w v := fun h => by
    rw [opEncode, h] at ht
    exact nomatch ht
  have h0 : s.inLen ≠ 0 := fun h => hpass (if_pos h : stepOf 0 encodeStart s = .raise .emptyInput 0 (setSeq 0 s))
  refine ⟨h0, Nat.not_lt.1 fun hlong => ?_⟩
  have hraise := checkIn_raise (s := setSeq 0 s) hlong
  have hcheck : stepOf 0 encodeStart s = (checkIn (setSeq 0 s)).andThen fun v => .ok (clrw v) := if_neg h0
  exact hpass (by rw [hcheck, hraise, raise_andThen])

/-- An ENCODE that ends without fault, step by step. -/
theorem opEncode_eq_ok {s t : State} (hcfg : s.cfg.Allowed) (ht : opEncode s = .ok t) :
    ∃ u T bits, BuiltTree s T u ∧ encOf T.codeOf (inputBytes s) = bits ∧ bits.length ≤ s.cfg.bitsCap ∧
      2 * T.size + 3 + (bits.length + 7) / 8 ≤ s.cfg.outCap ∧ t = setSeq 8 (payloadWritten T bits u) := by
  obtain ⟨h0, hc⟩ := encodeStart_of_opEncode ht
  obtain ⟨u, hu, ht⟩ := andThen_eq_ok.1 ((opEncode_eq_encodeText h0 hc).symm.trans ht)
  obtain ⟨T, h⟩ := builtTree_of_build_step hcfg h0 hc hu
  obtain ⟨hb, ho⟩ := encodeText_room h hcfg hc rfl ht
  exact ⟨u, T, _, h, rfl, hb, ho, Res.ok.inj (ht.symm.trans (encodeText_ok h hcfg hc rfl hb ho))⟩

/-- Settles O60: ENCODE without fault wrote a wire format (the steps of O57), which DECODE expands (O59); the walk of the encoding is the
text (O56). -/
theorem roundTrip : Obligations.RoundTrip := by
  intro s t u hcfg he ht hte hucfg hdgm hlen hin hc hpay hout
  have hrun := exec_eq_finish .encode s
  rw [ht, opOf] at hrun
  rcases finish_eq_next.1 hrun.symm with ⟨v, hv, rfl⟩ | ⟨c, w, v, -, rfl⟩
  · obtain ⟨v, T, bits, h, hbits, hb, ho, rfl⟩ := opEncode_eq_ok hcfg hv
    have hlen := lt_of_le_bitsCap hcfg hb
    have hpack := packOf_length bits
    have height := eight_mul_packed bits.length
    rw [outputBytes_completed, h.outputBytes_payloadWritten hlen] at hin
    have hpayLen : (complete (setSeq 8 (payloadWritten T bits v))).payLen.toNat = (packOf bits).length :=
      (Nat.mod_eq_of_lt (by omega)).trans hpack.symm
    have hwalk : T.walk (unpackOf (packOf bits) (remOf bits.length)) = (inputBytes s, false) := by
      rw [unpackOf_packOf, ← hbits, walkOfEncodingIsTheText T _ h.nodup fun b => h.mem_leaves]
    obtain ⟨x, hx, hxframe, -, -, hxout, -⟩ := decodeExpandsTheWireFormat u T (remOf bits.length) (packOf bits) hucfg hc hin h.size_le
      (hdgm ▸ h.accepted) (remOf_le _) (by omega) (by omega) (by rw [hwalk, inputBytes_length]; exact hout)
    rw [hwalk] at hxframe hxout
    refine ⟨x, hx, (congrArg State.err hxframe :), hxout, ?_, (congrArg State.resid hxframe :),
      (congrArg State.cur hxframe :).trans (congrArg State.inLen hxframe :).symm⟩
    refine (congrArg State.outLen hxframe :).trans ?_
    show word (inputBytes s).length = s.inLen
    rw [inputBytes_length, word, BitVec.ofNat_toNat, BitVec.setWidth_eq]
  · exact absurd hte (faulted_err_ne c w v)

end Sys2Proof.Machine
end

section
/-! PROOFS, the exceptions (60_exceptions.md): fault entry (R290), ILLEGAL (R287), the queue's faults (R284, R285, R288), the interrupt
(R295), and what clears ERR (R292). -/

namespace Sys2Proof.Machine

open Sys2Proof.Claims

/-! ## Fault entry (R287, R290) -/

/-- Settles O16: a fault raised in `s` itself. -/
theorem faultEntryEffect : Obligations.FaultEntryEffect := fun c info s =>
  ⟨faulted c info s, finish_raise c info s, workStateCleared_faulted rfl c info, rfl, rfl, faulted_err_ne c info s, rfl, rfl, rfl, rfl,
    rfl, rfl, rfl, rfl, rfl, outByte_of_outLen_zero rfl⟩

/-- Settles O5: the core's turn on a word that decode rejects is fault entry with the word. -/
theorem illegalWordFaults : Obligations.IllegalWordFaults := by
  intro s r hb hd hh
  refine ⟨faulted .illegal s.cmd s, ?_, workStateCleared_faulted rfl _ _, rfl, rfl, rfl, rfl, rfl, rfl, rfl⟩
  rw [step_of_host_nil hh, coreTurn_of_decode_error hb hd]

/-- A command that raises in a state where CLRW leaves what it leaves in `s` (R48) ends in fault entry from `s`. -/
theorem exec_of_raise {i : Instr} {s v : State} {c : CoreFault} {w : Word} (h : opOf i s = .raise c w v) (hv : clrw v = clrw s) :
    exec i s = .next (faulted c w s) := by
  rw [exec_eq_finish, h, finish_raise, clrw_congr hv]

/-! ## The queue (R284, R285, R288) -/

/-- Settles O29: PQ_INSERT's check of its operand, PqInsert's of the room, and PqExtract's of HSIZE. -/
theorem queueTraps : Obligations.QueueTraps := by
  refine fun s => ⟨fun n hn => exec_of_raise (opPqInsert_raise hn) rfl, fun n hn hfull => exec_of_raise ?_ rfl,
    fun h => exec_of_raise (pqExtract_raise h) rfl⟩
  exact (opPqInsert_of_allocated hn).trans (pqInsert_raise _ hfull)

/-! ## The interrupt (R295) -/

theorem irq_eq_true {s : State} : irq s = true ↔ s.ie = true ∧ s.done = true := Bool.and_eq_true_iff

theorem irq_of_done {s : State} (h : s.done = false) : irq s = false := by rw [irq, h, Bool.and_false]

theorem irq_of_ie {s : State} (h : s.ie = false) : irq s = false := by rw [irq, h, Bool.false_and]

theorem transact_write_ctrl {s : State} (hb : s.busy = false) (v : Word) :
    transact (.write4 0x004 v) s = respond .okWrite (writeCtrl v s) := by
  rw [transact_write4 hb]; rfl

theorem transact_write_status {s : State} (hb : s.busy = false) (v : Word) :
    transact (.write4 0x00C v) s = respond .okWrite (writeStatus v s) := by
  rw [transact_write4 hb]; rfl

/-- Settles O13: completion sets DONE and keeps IE; each of the three writes of the host clears one of the two, or keeps both. -/
theorem interruptFollowsDone : Obligations.InterruptFollowsDone := by
  refine ⟨fun s => irq_eq_true, fun i s t h => ?_, fun s v hb => ⟨fun hv => ?_, fun hv => ?_⟩, fun s v hb hv => ?_,
    fun s v hb h => ?_⟩
  · obtain ⟨-, hdone, -, hie, -⟩ := commandsKeepTheHostSide i s t h
    rw [irq, hdone, hie, Bool.and_true]
  · rw [transact_write_status hb]
    refine irq_of_done ?_
    show (s.done && !v.getLsbD 1) = false
    rw [hv, Bool.not_true, Bool.and_false]
  · rw [transact_write_status hb]
    show (s.ie && (s.done && !v.getLsbD 1)) = (s.ie && s.done)
    rw [hv, Bool.not_false, Bool.and_true]
  · rw [transact_write_ctrl hb]
    exact irq_of_ie hv
  · rw [transact_write_cmd hb, offerCommand, if_neg fun ⟨he, hw⟩ => h.elim he hw]
    exact irq_of_done rfl

/-! ## What clears ERR (R292) -/

theorem frame_err_eq {i : Instr} (hi : isComposite i = false) (hc : i ≠ .clr) {s t : State} (h : Frame i s t) : t.err = s.err := by
  cases i
  case clr => exact absurd rfl hc
  case encode | decode => cases hi
  all_goals exact (congrArg State.err h :)

/-- A command other than CLR that does not raise leaves ERR as it was: CLRW at the start of a composite command does not touch it. -/
theorem opOf_err_eq {i : Instr} (hc : i ≠ .clr) (s : State) : (opOf i s).Ends (fun t => t.err = s.err) fun _ => True := by
  have hop : ∀ j, isComposite j = false ∧ j ≠ .clr → ∀ u : State, u.err = s.err →
      (opOf j u).Ends (fun t => t.err = s.err) fun _ => True := fun j ⟨hj, hjc⟩ u hu =>
    (opOf_frame j u).ends (fun _ ht => (frame_err_eq hj hjc ht).trans hu) fun _ _ => trivial
  cases i with
  | encode =>
    exact opEncode_ends (encodeStart_ends trivial rfl) (fun _ _ _ h => h) fun j hj => hop j (by revert hj; revert j; decide)
  | decode =>
    exact opDecode_ends (decodeStart_ends trivial rfl) (fun _ _ _ h => h) fun j hj => hop j (by revert hj; revert j; decide)
  | _ => exact hop _ ⟨rfl, hc⟩ s rfl

/-- In a core that has faulted CLR alone ends with ERR 0. -/
theorem exec_clears_err {i : Instr} {s t : State} (h : exec i s = .next t) (hs : s.err ≠ 0) (ht : t.err = 0) : i = .clr := by
  by_contra hc
  rw [exec_eq_finish] at h
  rcases finish_eq_next.1 h with ⟨u, hu, rfl⟩ | ⟨c, w, u, -, rfl⟩
  · exact hs (((opOf_err_eq hc s).1 u hu).symm.trans ht)
  · exact faulted_err_ne c w u ht

/-- The core's turn, likewise: its command is CLR's word. -/
theorem coreTurn_clears_err {s t : State} (h : coreTurn s = .next t) (hs : s.err ≠ 0) (ht : t.err = 0) :
    s.busy = true ∧ s.cmd = 0x00000001 := by
  cases hb : s.busy with
  | false =>
    rw [coreTurn, hb] at h
    cases h
    exact absurd ht hs
  | true =>
    cases hd : decode s.cmd with
    | ok i =>
      rw [coreTurn_of_decode_ok hb hd] at h
      obtain rfl := exec_clears_err h hs ht
      exact ⟨rfl, (decode_eq_formatN (e := (0x01, .clr)) (by decide)).1 hd⟩
    | error r =>
      rw [coreTurn_of_decode_error hb hd] at h
      cases h
      exact absurd ht (faulted_err_ne _ _ s)

theorem HostWrite.err_eq {s t : State} (h : HostWrite s t) : t.err = s.err := by
  cases h with
  | nothing | ctrl | accepted | status | inLen | freq | input => rfl

theorem transact_err (x : Txn) (s : State) : (transact x s).err = s.err := by
  obtain ⟨r, u, hu, he⟩ := transact_cases x s
  rw [he]
  exact hu.err_eq

/-- Settles O19, by whose turn the step is. -/
theorem onlyClrAndResetClearErr : Obligations.OnlyClrAndResetClearErr := by
  intro s t h hs ht
  cases hh : s.host with
  | nil =>
    rw [step_of_host_nil hh] at h
    exact .inr (coreTurn_clears_err h hs ht)
  | cons m rest =>
    cases m with
    | txn x =>
      rw [step_of_host_txn hh] at h
      cases h
      exact absurd ((transact_err x { s with host := rest }).symm.trans ht) hs
    | wait =>
      rw [step_of_host_wait hh] at h
      exact .inr (coreTurn_clears_err (s := { s with host := rest }) h hs ht)
    | rst => exact .inl ⟨rest, rfl⟩

end Sys2Proof.Machine
end

section
/-! PROOFS, the exceptions (60_exceptions.md): the faults of MKLEAVES and BUILD (R281, R283, R285) and of ENCSYM (R285, R289). -/

namespace Sys2Proof.Machine

open Sys2Proof.Claims

/-! ## The total of the queue's keys, through BUILD's loop (R141, R151) -/

/-- The sum of the keys of the queued items. -/
def keyTotal (s : State) : Nat := ((queueOf s).map (keyOf s)).sum

theorem keyOf_lt (s : State) (n : NodeIx) : keyOf s n < 2 ^ 32 := (nodeAt s n.toNat).weight.isLt

/-- A total that does not fit 32 bits takes two items. -/
theorem two_le_hsize_of_keyTotal {s : State} (h : 0xFFFFFFFF < keyTotal s) : 2 ≤ s.hsize.toNat := by
  by_contra hc
  have hkey := keyOf_lt s (heapAt s 0)
  rw [keyTotal, queueOf] at h
  rcases (by omega : s.hsize.toNat = 0 ∨ s.hsize.toNat = 1) with h0 | h1
  · simp [h0] at h
  · rw [h1] at h
    change 0xFFFFFFFF < keyOf s (heapAt s 0) + 0 at h
    omega

/-- MERGE keeps the total: the new node's key is the sum of the two it replaces, and the other queued items are old entries (R141). -/
theorem opMerge_keyTotal {s t : State} (h : TreeStructure s) (ht : opMerge s = .ok t) :
    keyTotal t = keyTotal s ∧ t.nnode.toNat + t.hsize.toNat = s.nnode.toNat + s.hsize.toNat := by
  have hsize := opMerge_hsize h ht
  obtain ⟨h2, hfull, hsum⟩ := opMerge_eq_ok ht
  obtain ⟨hnn, h256, -, -, -, halloc, -⟩ := h
  have hroom : s.nnode.toNat ≠ 511 := fun e => hfull (BitVec.eq_of_toNat_eq e)
  obtain ⟨u, rest, hu, hframe, hnode, hout, hin, -⟩ := opMerge_ok h2 h256 (by omega) hsum
  obtain rfl : u = t := Res.ok.inj (hu.symm.trans ht)
  have hkey : ∀ n, keyOf u n = if n.toNat = s.nnode.toNat then keyOf s (heapAt s 0) + keyOf s (secondLeast s) else keyOf s n := by
    intro n
    rw [keyOf, nodeAt, hnode, nodeOf_set]
    split
    · exact Nat.mod_eq_of_lt (by omega)
    · rfl
  have hrest : rest.map (keyOf u) = rest.map (keyOf s) := List.map_congr_left fun n hn => by
    have := halloc n (hout.symm.subset (by simp [hn]))
    rw [hkey, if_neg (by omega)]
  have hnn' : u.nnode.toNat = s.nnode.toNat + 1 := by rw [hframe]; exact nnode_succ (by omega)
  refine ⟨?_, by omega⟩
  rw [keyTotal, keyTotal, (hin.map _).sum_eq, (hout.map _).sum_eq, List.map_cons, List.sum_cons, hrest, hkey,
    if_pos (nextIx_toNat (by omega)), List.map_cons, List.map_cons, List.sum_cons, List.sum_cons, Nat.add_assoc]

/-- BUILD's loop on a total that does not fit 32 bits: some MERGE on the way meets a sum that does not (R141, R285). -/
theorem mergeLoop_weight_raise (f : Nat) {s : State} (h : TreeStructure s) (hroom : s.nnode.toNat + s.hsize.toNat ≤ 512)
    (hf : s.hsize.toNat ≤ f + 1) (htotal : 0xFFFFFFFF < keyTotal s) : ∃ t, mergeLoop f s = .raise .capacity 6 t := by
  have h2 := two_le_hsize_of_keyTotal htotal
  induction f generalizing s with
  | zero => omega
  | succ f ih =>
    have hfull : s.nnode ≠ 511 := ne_of_toNat_lt (show s.nnode.toNat < 511 by omega)
    rw [mergeLoop_turn h2]
    rcases Nat.lt_or_ge 0xFFFFFFFF (keyOf s (heapAt s 0) + keyOf s (secondLeast s)) with hsum | hsum
    · obtain ⟨t, ht, -⟩ := opMerge_weight_raise h2 hfull hsum
      exact ⟨t, by rw [ht, raise_andThen]⟩
    · have ⟨_, h256, _⟩ := h
      obtain ⟨t, _, ht, -⟩ := opMerge_ok h2 h256 (by omega) hsum
      obtain ⟨hkeys, hnodes⟩ := opMerge_keyTotal h ht
      have hsize := opMerge_hsize h ht
      rw [ht, ok_andThen]
      exact ih (opMerge_sound h ht).shape (by omega) (by omega) (hkeys ▸ htotal) (two_le_hsize_of_keyTotal (hkeys ▸ htotal))

/-! ## MKLEAVES and BUILD (R134, R148 to R150) -/

theorem presentSymbols_ne_nil_of_freqTotal {s : State} (h : 0 < freqTotal s) : presentSymbols s ≠ [] := fun he => by
  rw [← presentLeaves_sum, presentLeaves, he] at h
  exact absurd h (Nat.lt_irrefl 0)

theorem opBuild_empty {s : State} (h : presentSymbols s = []) : opBuild s = .raise .emptyInput 0 s := by
  rw [opBuild, opMkleaves_raise h, raise_andThen]

theorem opBuild_weight_raise {s : State} (h : 0xFFFFFFFF < freqTotal s) : ∃ t, opBuild s = .raise .capacity 6 t := by
  have hk := presentSymbols_length_le s
  obtain ⟨u, hu, hforest, hnn, -⟩ := opMkleaves_forest (presentSymbols_ne_nil_of_freqTotal (s := s) (by omega))
  have hnodes := hforest.nodes
  have htotal : keyTotal u = freqTotal s := hforest.sum_keys.trans (presentLeaves_sum s)
  obtain ⟨t, ht⟩ := mergeLoop_weight_raise 255 (opMkleaves_sound hu).shape (by omega) (by omega) (htotal ▸ h)
  exact ⟨t, by rw [opBuild_eq s (f := 255) (by omega), hu, ok_andThen, ht, raise_andThen]⟩

/-- Whatever BUILD has changed before it raises, CLRW clears. -/
theorem exec_build_of_raise {s : State} {c : CoreFault} {w : Word} (h : ∃ v, opBuild s = .raise c w v) :
    exec .build s = .next (faulted c w s) := by
  obtain ⟨v, hv⟩ := h
  exact exec_of_raise (i := .build) hv (by rw [(opBuild_frame s).2 c w v hv]; rfl)

/-- Settles O34: the check of MKLEAVES, AcceptRoot's of a lone leaf, and MERGE's of the sum. -/
theorem buildTraps : Obligations.BuildTraps := by
  refine fun s => ⟨fun h => ⟨exec_of_raise (opMkleaves_raise h) rfl, exec_of_raise (opBuild_empty h) rfl⟩, fun i h hdgm => ?_,
    fun h => exec_build_of_raise (opBuild_weight_raise h)⟩
  have hi : i < 256 := by
    have hmem : i ∈ presentSymbols s := by rw [h]; exact List.mem_singleton_self i
    exact List.mem_range.1 (List.mem_of_mem_filter hmem)
  have hsym : (BitVec.ofNat 8 i).setWidth 32 = word i := BitVec.eq_of_toNat_eq (by simp; omega)
  exact exec_build_of_raise (hsym ▸ opBuild_lone_symbol h hdgm)

/-! ## ENCSYM (R230, R232, R233) -/

section Encsym

variable {s : State} {x y : List Byte} {b : Byte} (hv : s.codev = true) (hc : s.inLen.toNat ≤ s.cfg.inCap)
  (hin : inputBytes s = x ++ b :: y) (hcodes : ∀ c ∈ x, codeLenAt s c.toNat ≠ 0)
  (hfit : (encOf (fun c => codeAt s c.toNat) x).length ≤ s.cfg.bitsCap)

include hv hc hin hcodes hfit

/-- ENCSYM, the bytes before `b` encoded. -/
theorem opEncsym_reaches :
    opEncsym s = encodeFrom (b :: y) x.length (encOf (fun c => codeAt s c.toNat) x).length
      (writeBits s 0 (encOf (fun c => codeAt s c.toNat) x)) := by
  rw [opEncsym, if_neg (by simp [hv]), checkIn_ok hc, ok_andThen, hin, encodeFrom_prefix x _ 0 0 s hcodes (by omega), Nat.zero_add,
    Nat.zero_add]

theorem opEncsym_noCode (h : codeLenAt s b.toNat = 0) : ∃ v, opEncsym s = .raise .noCode (word x.length) v :=
  ⟨_, (opEncsym_reaches hv hc hin hcodes hfit).trans (if_pos h)⟩

theorem opEncsym_noRoom (h : codeLenAt s b.toNat ≠ 0)
    (hfull : s.cfg.bitsCap < (encOf (fun c => codeAt s c.toNat) x).length + (codeLenAt s b.toNat).toNat) :
    ∃ v, opEncsym s = .raise .capacity 3 v :=
  ⟨_, (opEncsym_reaches hv hc hin hcodes hfit).trans ((if_neg h).trans (if_pos hfull))⟩

end Encsym

/-- Settles O54: the loop reaches the byte, and its first or its second check stops it there. -/
theorem encsymTraps : Obligations.EncsymTraps := by
  intro s x y b hv hc hin hcodes hfit
  have hends : ∀ {c w}, (∃ v, opEncsym s = .raise c w v) →
      ∃ t, exec .encsym s = .next t ∧ WorkStateCleared s t ∧ t.err = c.code ∧ t.einfo = w := by
    rintro c w ⟨v, h⟩
    exact ⟨faulted c w v, by rw [exec_eq_finish, opOf, h, finish_raise], workStateCleared_of_raise (i := .encsym) h, rfl, rfl⟩
  exact ⟨fun h => hends (opEncsym_noCode hv hc hin hcodes hfit h),
    fun h hfull => hends (opEncsym_noRoom hv hc hin hcodes hfit h hfull)⟩

end Sys2Proof.Machine
end

section
/-! PROOFS, the exceptions (60_exceptions.md R286): which commands raise Fault(STATE), and where. -/

namespace Sys2Proof.Machine

open Sys2Proof.Claims

/-! ## Procedures that do not raise Fault(STATE) -/

/-- The procedure does not end by raising Fault(STATE). -/
def Res.NoStateFault (r : Res) : Prop := ∀ w t, r ≠ .raise .stateAbsent w t

theorem Res.noStateFault_ok {s : State} : (Res.ok s).NoStateFault := fun _ _ h => (by cases h)

theorem Res.noStateFault_raise {c : CoreFault} (hc : c ≠ .stateAbsent) {w : Word} {s : State} : (Res.raise c w s).NoStateFault :=
  fun _ _ h => (by cases h; exact hc rfl)

theorem Res.noStateFault_endless : Res.endless.NoStateFault := fun _ _ h => (by cases h)

theorem Res.noStateFault_raiseCapacity {r : Resource} {s : State} : (raiseCapacity r s).NoStateFault := Res.noStateFault_raise (by decide)

theorem Res.NoStateFault.andThen {r : Res} {f : State → Res} (hr : r.NoStateFault) (hf : ∀ s, r = .ok s → (f s).NoStateFault) :
    (r.andThen f).NoStateFault := fun w t h => by
  rcases andThen_eq_raise.1 h with h | ⟨s, hs, h⟩
  · exact hr w t h
  · exact hf s hs w t h

/-! ## The shared procedures -/

theorem checkIn_noStateFault (s : State) : (checkIn s).NoStateFault := by
  unfold checkIn; split
  · exact Res.noStateFault_raiseCapacity
  · exact Res.noStateFault_ok

theorem outAppend_noStateFault (b : Byte) (s : State) : (outAppend b s).NoStateFault := by
  unfold outAppend; split
  · exact Res.noStateFault_raiseCapacity
  · exact Res.noStateFault_ok

theorem appendAll_noStateFault (bs : List Byte) (s : State) : (appendAll bs s).NoStateFault := by
  induction bs generalizing s with
  | nil => exact Res.noStateFault_ok
  | cons b bs ih => exact (outAppend_noStateFault b s).andThen fun t _ => ih t

theorem alloc_noStateFault (n : Node) (s : State) : (alloc n s).NoStateFault := by
  unfold alloc; split
  · exact Res.noStateFault_raiseCapacity
  · exact Res.noStateFault_ok

theorem recordCode_noStateFault (i : Nat) (c : List Bool) (s : State) : (recordCode i c s).NoStateFault := by
  unfold recordCode; split
  · exact Res.noStateFault_raiseCapacity
  · exact Res.noStateFault_ok

theorem acceptRoot_noStateFault (r : NodeIx) (s : State) : (acceptRoot r s).NoStateFault := by
  unfold acceptRoot; split
  · split
    · exact Res.noStateFault_ok
    · exact Res.noStateFault_raise (by decide)
  · exact Res.noStateFault_ok

theorem pqInsert_noStateFault (n : NodeIx) (s : State) : (pqInsert n s).NoStateFault := by
  unfold pqInsert; split
  · exact Res.noStateFault_raiseCapacity
  · exact Res.noStateFault_ok

theorem pqExtract_noStateFault (s : State) : (pqExtract s).NoStateFault := by
  unfold pqExtract; split
  · exact Res.noStateFault_raise (by decide)
  · exact Res.noStateFault_ok

/-! ## The queue and BUILD -/

theorem opPqInsert_noStateFault (n : Nat) (s : State) : (opPqInsert n s).NoStateFault := by
  unfold opPqInsert; split
  · exact Res.noStateFault_raise (by decide)
  · exact pqInsert_noStateFault _ s

theorem makeLeaves_noStateFault (l : List Nat) (s : State) : (makeLeaves l s).NoStateFault := by
  induction l generalizing s with
  | nil => exact Res.noStateFault_ok
  | cons i l ih =>
    unfold makeLeaves; split
    · exact ih s
    · exact (alloc_noStateFault _ s).andThen fun t _ => (pqInsert_noStateFault _ t).andThen fun u _ => ih u

theorem opMkleaves_noStateFault (s : State) : (opMkleaves s).NoStateFault := by
  unfold opMkleaves; split
  · exact Res.noStateFault_raise (by decide)
  · exact makeLeaves_noStateFault _ _

theorem mergeNodes_noStateFault (a b : NodeIx) (s : State) : (mergeNodes a b s).NoStateFault := by
  unfold mergeNodes; split
  · exact Res.noStateFault_raiseCapacity
  · exact (alloc_noStateFault _ s).andThen fun t _ => pqInsert_noStateFault _ t

theorem opMerge_noStateFault (s : State) : (opMerge s).NoStateFault := by
  unfold opMerge; split
  · exact Res.noStateFault_raise (by decide)
  · split
    · exact Res.noStateFault_raiseCapacity
    · exact (pqExtract_noStateFault _).andThen fun t _ => (pqExtract_noStateFault t).andThen fun u _ => mergeNodes_noStateFault _ _ u

theorem mergeLoop_noStateFault (f : Nat) (s : State) : (mergeLoop f s).NoStateFault := by
  induction f generalizing s with
  | zero => exact Res.noStateFault_ok
  | succ f ih =>
    unfold mergeLoop; split
    · exact (opMerge_noStateFault s).andThen fun t _ => ih t
    · exact Res.noStateFault_ok

/-- SETROOT with one item queued passes its check (R145). -/
theorem opSetroot_noStateFault {s : State} (h : s.hsize = 1) : (opSetroot s).NoStateFault := by
  rw [opSetroot, if_neg (by simp [h])]
  exact (pqExtract_noStateFault _).andThen fun t _ => acceptRoot_noStateFault _ t

/-- BUILD's loop leaves one item queued (R148, R153). -/
theorem mergeLoop_hsize (f : Nat) {s t : State} (h : TreeStructure s) (h1 : 1 ≤ s.hsize.toNat) (hf : s.hsize.toNat ≤ f + 1)
    (ht : mergeLoop f s = .ok t) : t.hsize = 1 := by
  induction f generalizing s with
  | zero =>
    cases ht
    exact BitVec.eq_of_toNat_eq (Nat.le_antisymm hf h1)
  | succ f ih =>
    rcases Nat.lt_or_ge 1 s.hsize.toNat with h2 | h2
    · rw [mergeLoop_turn h2] at ht
      obtain ⟨u, hu, ht⟩ := andThen_eq_ok.1 ht
      have hsize := opMerge_hsize h hu
      exact ih (opMerge_sound h hu).shape (by omega) (by omega) ht
    · rw [mergeLoop_done h2] at ht
      cases ht
      exact BitVec.eq_of_toNat_eq (Nat.le_antisymm h2 h1)

/-- BUILD's SETROOT finds one item queued. -/
theorem opBuild_noStateFault (s : State) : (opBuild s).NoStateFault := by
  refine (opMkleaves_noStateFault s).andThen fun t ht => (mergeLoop_noStateFault _ t).andThen fun u hu => opSetroot_noStateFault ?_
  obtain ⟨-, hpos⟩ := opMkleaves_hsize ht
  exact mergeLoop_hsize _ (opMkleaves_sound ht).shape hpos (Nat.le_succ _) hu

/-! ## The walks -/

theorem walkCodes_noStateFault (f i : Nat) (path : List Bool) (s : State) : (walkCodes f i path s).NoStateFault := by
  induction f generalizing i path s with
  | zero => exact Res.noStateFault_endless
  | succ f ih =>
    unfold walkCodes; split
    · exact recordCode_noStateFault _ _ s
    · exact (ih _ _ s).andThen fun t _ => ih _ _ t

theorem genCodes_noStateFault (s : State) : (genCodes s).NoStateFault := by
  unfold genCodes; split
  · exact Res.noStateFault_ok
  · exact walkCodes_noStateFault _ _ _ s

theorem serNode_noStateFault (f i : Nat) (s : State) : (serNode f i s).NoStateFault := by
  induction f generalizing i s with
  | zero => exact Res.noStateFault_endless
  | succ f ih =>
    unfold serNode; split
    · exact (outAppend_noStateFault _ s).andThen fun t _ => outAppend_noStateFault _ t
    · exact (((outAppend_noStateFault _ s).andThen fun t _ => ih _ t).andThen fun t _ => outAppend_noStateFault _ t).andThen
        fun t _ => ih _ t

theorem encodeFrom_noStateFault (x : List Byte) (i L : Nat) (s : State) : (encodeFrom x i L s).NoStateFault := by
  induction x generalizing i L s with
  | nil => exact Res.noStateFault_ok
  | cons b x ih =>
    unfold encodeFrom; split
    · exact Res.noStateFault_raise (by decide)
    · split
      · exact Res.noStateFault_raiseCapacity
      · exact ih _ _ _

theorem decodeBits_noStateFault (B : List Bool) (p : NodeIx) (s : State) : (decodeBits B p s).NoStateFault := by
  induction B generalizing p s with
  | nil => exact Res.noStateFault_ok
  | cons b B ih =>
    unfold decodeBits; split
    · exact (outAppend_noStateFault _ s).andThen fun t _ => ih _ t
    · split
      · exact (outAppend_noStateFault _ s).andThen fun t _ => ih _ t
      · exact ih _ s

/-! ## DESERIALIZE -/

/-- The parse does not end by raising Fault(STATE). -/
def ParseRes.NoStateFault (p : ParseRes) : Prop := ∀ w t, p ≠ .raise .stateAbsent w t

theorem ParseRes.noStateFault_raise {c : CoreFault} (hc : c ≠ .stateAbsent) {w : Word} {s : State} :
    (ParseRes.raise c w s).NoStateFault :=
  fun _ _ h => (by cases h; exact hc rfl)

theorem ParseRes.NoStateFault.andThen {p : ParseRes} {f : NodeIx → Nat → Nat → State → ParseRes} (hp : p.NoStateFault)
    (hf : ∀ r c seen s, (f r c seen s).NoStateFault) : (p.andThen f).NoStateFault := by
  cases p with
  | ok r c seen s => exact hf r c seen s
  | raise k w s => exact hp

theorem parseAlloc_noStateFault (n : Node) (c seen : Nat) (s : State) : (parseAlloc n c seen s).NoStateFault := by
  have halloc := alloc_noStateFault n s
  unfold parseAlloc
  cases h : alloc n s with
  | ok t => exact fun _ _ h => (by cases h)
  | raise k w t => exact ParseRes.noStateFault_raise fun hk => halloc w t (hk ▸ h)
  | endless => exact ParseRes.noStateFault_raise (by decide)

theorem parse_noStateFault (f c seen : Nat) (s : State) : (parse f c seen s).NoStateFault := by
  induction f generalizing c seen s with
  | zero => exact ParseRes.noStateFault_raise (by decide)
  | succ f ih =>
    unfold parse; split
    · exact ParseRes.noStateFault_raise (by decide)
    · split
      · split
        · exact ParseRes.noStateFault_raise (by decide)
        · split
          · exact ParseRes.noStateFault_raise (by decide)
          · exact parseAlloc_noStateFault _ _ _ s
      · split
        · split
          · exact ParseRes.noStateFault_raise (by decide)
          · refine (ih _ _ s).andThen fun l c1 seen1 t => ?_
            split
            · exact (ih _ _ t).andThen fun r c2 seen2 u => parseAlloc_noStateFault _ _ _ u
            · exact ParseRes.noStateFault_raise (by decide)
        · exact ParseRes.noStateFault_raise (by decide)

theorem opDeserialize_noStateFault (s : State) : (opDeserialize s).NoStateFault := by
  refine (checkIn_noStateFault s).andThen fun t _ => ?_
  have hparse := parse_noStateFault 512 t.cur.toNat 0 (clrt t)
  cases h : parse 512 t.cur.toNat 0 (clrt t) with
  | ok r c seen u => exact acceptRoot_noStateFault r _
  | raise k w u => exact Res.noStateFault_raise fun hk => hparse w u (hk ▸ h)

/-! ## RDHDR and UNPACK -/

theorem opRdhdr_noStateFault (s : State) : (opRdhdr s).NoStateFault := by
  refine (checkIn_noStateFault s).andThen fun t _ => ?_
  split
  · exact Res.noStateFault_raise (by decide)
  · split
    · exact Res.noStateFault_raise (by decide)
    · split
      · exact Res.noStateFault_raise (by decide)
      · exact Res.noStateFault_ok

/-- UNPACK with a header read, and the cursor within an input that is not too long (R206). -/
theorem opUnpack_noStateFault {s : State} (hv : s.hdrv = true) (hcur : s.inLen.toNat ≤ s.cfg.inCap → s.cur.toNat ≤ s.inLen.toNat) :
    (opUnpack s).NoStateFault := by
  rw [opUnpack, if_neg (by simp [hv])]
  rcases Nat.lt_or_ge s.cfg.inCap s.inLen.toNat with hlong | hfit
  · rw [checkIn_raise hlong]
    exact Res.noStateFault_raise (by decide)
  · rw [checkIn_ok hfit, ok_andThen, if_neg (Nat.not_lt.2 (hcur hfit))]
    split
    · exact Res.noStateFault_raise (by decide)
    · split
      · exact Res.noStateFault_raiseCapacity
      · exact Res.noStateFault_ok

/-! ## The unit commands (R286) -/

/-- A command that lacks the state it needs raises at its first check, UNPACK's of the cursor coming after CheckIn. -/
theorem opOf_of_lacks {i : Instr} {s : State} (h : Lacks i s) : opOf i s = raiseState s := by
  cases i with
  | nop | clr | pqInsert | pqExtract | count | mkleaves | merge | build | deserialize | rdhdr | encode | decode => exact h.elim
  | gencode | serialize | decsym | encsym | wrhdr | pack | setroot => exact if_pos h
  | unpack =>
    cases hv : s.hdrv with
    | false => exact if_pos hv
    | true =>
      obtain ⟨hfit, hcur⟩ := h.resolve_left (by simp [hv])
      rw [opOf, opUnpack, if_neg (by simp [hv]), checkIn_ok hfit, ok_andThen, if_pos hcur]

/-- A unit command that lacks nothing does not raise Fault(STATE). -/
theorem opOf_noStateFault {i : Instr} (hi : isComposite i = false) {s : State} (h : ¬ Lacks i s) : (opOf i s).NoStateFault := by
  cases i with
  | encode | decode => cases hi
  | nop | clr => exact Res.noStateFault_ok
  | pqInsert n => exact opPqInsert_noStateFault n s
  | pqExtract => exact pqExtract_noStateFault s
  | count => exact (checkIn_noStateFault s).andThen fun _ _ => Res.noStateFault_ok
  | mkleaves => exact opMkleaves_noStateFault s
  | merge => exact opMerge_noStateFault s
  | setroot => exact opSetroot_noStateFault (not_not.1 h)
  | build => exact opBuild_noStateFault s
  | gencode =>
    rw [opOf, opGencode, if_neg (show ¬ s.treev = false from h)]
    exact (genCodes_noStateFault _).andThen fun _ _ => Res.noStateFault_ok
  | serialize =>
    rw [opOf, opSerialize, if_neg (show ¬ s.treev = false from h)]
    exact serNode_noStateFault _ _ s
  | deserialize => exact opDeserialize_noStateFault s
  | wrhdr =>
    rw [opOf, opWrhdr, if_neg (show ¬ s.bitsv = false from h)]
    exact appendAll_noStateFault _ _
  | pack =>
    rw [opOf, opPack, if_neg (show ¬ s.bitsv = false from h)]
    exact (appendAll_noStateFault _ _).andThen fun _ _ => Res.noStateFault_ok
  | rdhdr => exact opRdhdr_noStateFault s
  | unpack =>
    obtain ⟨hv, hcur⟩ := not_or.1 h
    exact opUnpack_noStateFault (by simpa using hv) fun hfit => Nat.not_lt.1 fun hlt => hcur ⟨hfit, hlt⟩
  | encsym =>
    rw [opOf, opEncsym, if_neg (show ¬ s.codev = false from h)]
    exact (checkIn_noStateFault s).andThen fun t _ => encodeFrom_noStateFault _ _ _ t
  | decsym =>
    rw [opOf, opDecsym, if_neg (show ¬ (s.treev = false ∨ s.bitsv = false) from h)]
    exact decodeBits_noStateFault _ _ s

/-! ## What the steps of ENCODE and DECODE leave for the next ones (R255, R260) -/

theorem opBuild_treev {s t : State} (ht : opBuild s = .ok t) : t.treev = true := by
  obtain ⟨_, -, ht⟩ := andThen_eq_ok.1 ht
  obtain ⟨u, -, ht⟩ := andThen_eq_ok.1 ht
  unfold opSetroot at ht
  split at ht
  · cases ht
  · obtain ⟨_, -, ht⟩ := andThen_eq_ok.1 ht
    rw [acceptRoot_eq_ok ht]

theorem opGencode_codev {s t : State} (ht : opGencode s = .ok t) : t.codev = true := by
  unfold opGencode at ht
  split at ht
  · cases ht
  · obtain ⟨_, -, ht⟩ := andThen_eq_ok.1 ht
    cases ht
    rfl

theorem opEncsym_bitsv {s t : State} (ht : opEncsym s = .ok t) : t.bitsv = true := by
  unfold opEncsym at ht
  split at ht
  · cases ht
  · obtain ⟨u, -, ht⟩ := andThen_eq_ok.1 ht
    obtain ⟨hok, -⟩ := encodeFrom_frame (inputBytes u) 0 0 u (Nat.zero_le _)
    rw [(hok t ht).1]

/-- RDHDR that succeeds marks the header and leaves the cursor behind it, within the input. -/
theorem opRdhdr_hdrv_cur {s t : State} (ht : opRdhdr s = .ok t) : t.hdrv = true ∧ t.cur.toNat ≤ t.inLen.toNat := by
  obtain ⟨u, -, ht⟩ := andThen_eq_ok.1 ht
  split at ht
  · cases ht
  · split at ht
    · cases ht
    · split at ht
      · cases ht
      · next hlast =>
        cases ht
        obtain ⟨hlt, -⟩ := inHas_eq_true.1 (by simpa using hlast)
        exact ⟨rfl, (word_toNat_le _).trans hlt⟩

theorem opUnpack_bitsv {s t : State} (ht : opUnpack s = .ok t) : t.bitsv = true := by
  unfold opUnpack at ht
  split at ht
  · cases ht
  · obtain ⟨u, -, ht⟩ := andThen_eq_ok.1 ht
    split at ht
    · cases ht
    · split at ht
      · cases ht
      · split at ht
        · cases ht
        · cases ht
          rfl

/-! ## The composite commands -/

/-- The procedure does not raise Fault(STATE), and ends with `P` where it does not raise at all. -/
structure Res.Supplies (P : State → Prop) (r : Res) : Prop where
  ok : ∀ t, r = .ok t → P t
  noStateFault : r.NoStateFault

theorem Res.Supplies.andThen {P Q : State → Prop} {r : Res} {f : State → Res} (hr : r.Supplies P)
    (hf : ∀ s, P s → (f s).Supplies Q) : (r.andThen f).Supplies Q where
  ok t ht := by
    obtain ⟨s, hs, ht⟩ := andThen_eq_ok.1 ht
    exact (hf s (hr.ok s hs)).ok t ht
  noStateFault := hr.noStateFault.andThen fun s hs => (hf s (hr.ok s hs)).noStateFault

/-- A further step of a composite command, for which there is what its command needs. -/
theorem Res.Supplies.step {P : State → Prop} {r : Res} (hr : r.Supplies P) (n : Nat) {i : Instr} (hi : isComposite i = false)
    (Q : State → Prop) (hneeds : ∀ s, P s → ¬ Lacks i (setSeq n s))
    (hleaves : ∀ s t, P s → opOf i (setSeq n s) = .ok t → Frame i (setSeq n s) t → Q t) :
    (r.andThen (stepOf n (opOf i))).Supplies Q :=
  hr.andThen fun s hs =>
    { ok := fun t ht => hleaves s t hs ht ((opOf_frame i _).1 t ht)
      noStateFault := opOf_noStateFault hi (hneeds s hs) }

theorem decodeStart_noStateFault (s : State) : (decodeStart s).NoStateFault :=
  (checkIn_noStateFault s).andThen fun _ _ => Res.noStateFault_ok

theorem encodeStart_noStateFault (s : State) : (encodeStart s).NoStateFault := by
  unfold encodeStart; split
  · exact Res.noStateFault_raise (by decide)
  · exact decodeStart_noStateFault s

/-- ENCODE's steps make the tree, the codes and the bits before the steps that need them. -/
theorem opEncode_noStateFault (s : State) : (opEncode s).NoStateFault := by
  have h0 : (stepOf 0 encodeStart s).Supplies fun _ => True := ⟨fun _ _ => trivial, encodeStart_noStateFault _⟩
  have h1 := h0.step 1 (i := .count) rfl (fun _ => True) (fun _ _ => id) fun _ _ _ _ _ => trivial
  have h2 := h1.step 2 (i := .build) rfl (fun t => t.treev = true) (fun _ _ => id) fun _ _ _ ht _ => opBuild_treev ht
  have h3 := h2.step 3 (i := .gencode) rfl (fun t => t.treev = true ∧ t.codev = true) (fun _ htree => ne_false_of_eq_true htree)
    fun _ _ htree ht hf => ⟨(congrArg State.treev hf :).trans htree, opGencode_codev ht⟩
  have h4 := h3.step 4 (i := .serialize) rfl (fun t => t.codev = true) (fun _ ⟨htree, _⟩ => ne_false_of_eq_true htree)
    fun _ _ ⟨_, hcode⟩ _ hf => (congrArg State.codev hf :).trans hcode
  have h5 := h4.step 5 (i := .encsym) rfl (fun t => t.bitsv = true) (fun _ hcode => ne_false_of_eq_true hcode)
    fun _ _ _ ht _ => opEncsym_bitsv ht
  have h6 := h5.step 6 (i := .wrhdr) rfl (fun t => t.bitsv = true) (fun _ hbits => ne_false_of_eq_true hbits)
    fun _ _ hbits _ hf => (congrArg State.bitsv hf :).trans hbits
  have h7 := h6.step 7 (i := .pack) rfl (fun _ => True) (fun _ hbits => ne_false_of_eq_true hbits) fun _ _ _ _ _ => trivial
  exact h7.noStateFault.andThen fun _ _ => Res.noStateFault_ok

/-- DECODE's steps read the tree, the header and the bits before the steps that need them. -/
theorem opDecode_noStateFault (s : State) : (opDecode s).NoStateFault := by
  have h0 : (stepOf 0 decodeStart s).Supplies fun _ => True := ⟨fun _ _ => trivial, decodeStart_noStateFault _⟩
  have h1 := h0.step 1 (i := .deserialize) rfl (fun t => t.treev = true) (fun _ _ => id) fun _ _ _ ht _ => opDeserialize_treev ht
  have h2 := h1.step 2 (i := .rdhdr) rfl (fun t => t.treev = true ∧ t.hdrv = true ∧ t.cur.toNat ≤ t.inLen.toNat) (fun _ _ => id)
    fun _ _ htree ht hf => ⟨(congrArg State.treev hf :).trans htree, opRdhdr_hdrv_cur ht⟩
  have h3 := h2.step 3 (i := .unpack) rfl (fun t => t.treev = true ∧ t.bitsv = true)
    (fun _ ⟨_, hhdr, hcur⟩ => not_or.2 ⟨ne_false_of_eq_true hhdr, fun ⟨_, hlt⟩ => Nat.not_lt.2 hcur hlt⟩)
    fun _ _ ⟨htree, _⟩ ht hf => ⟨(congrArg State.treev hf :).trans htree, opUnpack_bitsv ht⟩
  have h4 := h3.step 4 (i := .decsym) rfl (fun _ => True)
    (fun _ ⟨htree, hbits⟩ => not_or.2 ⟨ne_false_of_eq_true htree, ne_false_of_eq_true hbits⟩) fun _ _ _ _ _ => trivial
  exact h4.noStateFault.andThen fun _ _ => Res.noStateFault_ok

/-! ## Every command -/

/-- A command raises Fault(STATE) only where it lacks the state it needs. -/
theorem lacks_of_raise {i : Instr} {s t : State} {w : Word} (h : opOf i s = .raise .stateAbsent w t) : Lacks i s := by
  by_contra hl
  cases i with
  | encode => exact opEncode_noStateFault s w t h
  | decode => exact opDecode_noStateFault s w t h
  | _ => exact opOf_noStateFault rfl hl w t h

theorem CoreFault.eq_stateAbsent {c : CoreFault} (h : c.code = 6) : c = .stateAbsent := by
  cases c with
  | stateAbsent => rfl
  | emptyInput | parse | degenerate | pqEmpty | capacity | illegal | badArg | noCode => exact absurd h (by decide)

/-- Settles O42: the first check of each command of the list, and that nothing else raises Fault(STATE). -/
theorem missingStateTraps : Obligations.MissingStateTraps := by
  refine fun i s => ⟨fun h => exec_of_raise (opOf_of_lacks h) rfl, fun t hs ht he => ?_⟩
  rw [exec_eq_finish] at ht
  rcases finish_eq_next.1 ht with ⟨u, hu, rfl⟩ | ⟨c, w, u, hu, rfl⟩
  · exact absurd (((opOf_err i hs).1 u hu).symm.trans he) (by decide)
  · obtain rfl := CoreFault.eq_stateAbsent he
    exact lacks_of_raise hu

end Sys2Proof.Machine
end

section
/-! PROOFS, reset (70_reset_and_hazards.md R320 to R322): the reset state as the host reads it, and `rst` at any time. -/

namespace Sys2Proof.Machine

/-! ## The reset state (R321) -/

/-- Every item of the map but ID reads 0 after reset: registers are 0 and tables empty. -/
theorem readWord_reset {i : WordItem} (h : i ≠ .id) : readWord State.reset i = 0 := by
  cases i with
  | id => exact absurd rfl h
  | ctrl | cmd | status | err | einfo | seq | inLen | outLen | payLen | rem | cur | bitLen | nnode | root | hsize | pqOut => rfl
  | freq i | heap i | codeLen i => rfl
  | node i w => exact ite_self 0
  | codeBits i w => exact BitVec.extractLsb'_zero

/-- Settles O14: ID is a constant, OUT_LEN 0 hides every byte of OUT, and the rest is 0, false or empty. -/
theorem resetState : Obligations.ResetState := by
  refine ⟨fun i => ?_, outByte_of_outLen_zero rfl, fun _ => rfl, rfl, rfl, fun _ => rfl⟩
  split
  · next hid => rw [hid]; rfl
  · next hid => exact readWord_reset hid

/-! ## Asserting `rst` (R320, R322) -/

theorem step_of_host_rst {s : State} {rest : List HostMove} (hh : s.host = .rst :: rest) :
    step s = .next (assertReset { s with host := rest }) := by rw [step, turn, hh]; rfl

/-- Settles O15: the host's move `rst` does not look at the core, BUSY or not. -/
theorem assertedResetGivesTheResetState : Obligations.AssertedResetGivesTheResetState := fun _ _ hh => step_of_host_rst hh

end Sys2Proof.Machine
end

section
/-! PROOFS, completion (70_reset_and_hazards.md R327): no command runs for ever. Only the walks of GENCODE and SERIALIZE could, and a
NODE table whose children lie below their parents (R47 (b)) gives each of them a tree to walk. -/

namespace Sys2Proof.Machine

/-! ## Procedures that end -/

/-- The procedure ends, raising or not. -/
def Res.Halts (r : Res) : Prop := r ≠ .endless

theorem Res.halts_ok {s : State} : (Res.ok s).Halts := nofun

theorem Res.halts_raise {c : CoreFault} {w : Word} {s : State} : (Res.raise c w s).Halts := nofun

theorem Res.halts_ite {p : Prop} [Decidable p] {a b : Res} (ha : a.Halts) (hb : b.Halts) : (if p then a else b).Halts := by
  split
  · exact ha
  · exact hb

theorem Res.Halts.andThen {r : Res} {f : State → Res} (hr : r.Halts) (hf : ∀ s, r = .ok s → (f s).Halts) : (r.andThen f).Halts := by
  intro h
  rcases andThen_eq_endless.1 h with h | ⟨s, hs, h⟩
  · exact hr h
  · exact hf s hs h

/-! ## The shared procedures, the queue and BUILD -/

theorem checkIn_halts (s : State) : (checkIn s).Halts := Res.halts_ite Res.halts_raise Res.halts_ok

theorem alloc_halts (n : Node) (s : State) : (alloc n s).Halts := Res.halts_ite Res.halts_raise Res.halts_ok

theorem acceptRoot_halts (r : NodeIx) (s : State) : (acceptRoot r s).Halts := by
  unfold acceptRoot; split
  · exact Res.halts_ite Res.halts_ok Res.halts_raise
  · exact Res.halts_ok

theorem pqInsert_halts (n : NodeIx) (s : State) : (pqInsert n s).Halts := Res.halts_ite Res.halts_raise Res.halts_ok

theorem pqExtract_halts (s : State) : (pqExtract s).Halts := Res.halts_ite Res.halts_raise Res.halts_ok

theorem makeLeaves_halts (l : List Nat) (s : State) : (makeLeaves l s).Halts := by
  induction l generalizing s with
  | nil => exact Res.halts_ok
  | cons i l ih =>
    exact Res.halts_ite (ih s) ((alloc_halts _ s).andThen fun t _ => (pqInsert_halts _ t).andThen fun u _ => ih u)

theorem opMkleaves_halts (s : State) : (opMkleaves s).Halts := Res.halts_ite Res.halts_raise (makeLeaves_halts _ _)

theorem mergeNodes_halts (a b : NodeIx) (s : State) : (mergeNodes a b s).Halts :=
  Res.halts_ite Res.halts_raise ((alloc_halts _ s).andThen fun t _ => pqInsert_halts _ t)

theorem opMerge_halts (s : State) : (opMerge s).Halts :=
  Res.halts_ite Res.halts_raise <| Res.halts_ite Res.halts_raise <|
    (pqExtract_halts _).andThen fun t _ => (pqExtract_halts t).andThen fun u _ => mergeNodes_halts _ _ u

theorem opSetroot_halts (s : State) : (opSetroot s).Halts :=
  Res.halts_ite Res.halts_raise ((pqExtract_halts _).andThen fun t _ => acceptRoot_halts _ t)

theorem mergeLoop_halts (f : Nat) (s : State) : (mergeLoop f s).Halts := by
  induction f generalizing s with
  | zero => exact Res.halts_ok
  | succ f ih => exact Res.halts_ite ((opMerge_halts s).andThen fun t _ => ih t) Res.halts_ok

theorem opBuild_halts (s : State) : (opBuild s).Halts :=
  (opMkleaves_halts s).andThen fun t _ => (mergeLoop_halts _ t).andThen fun u _ => opSetroot_halts u

/-! ## The walks of the tree (R160, R175) -/

/-- A NODE table whose children lie below their parents has a tree at ROOT, within the depth of the walks (R47 (b)). -/
theorem stateTree_exists {s : State} (h : childrenBelow s.node) : ∃ T, stateTree s = some T := by
  obtain ⟨T, hT⟩ := treeOf_exists h s.root.toNat
  exact ⟨T, treeOf_mono hT s.root.isLt⟩

/-- GENCODE's walk fills the code table or meets a leaf that is too deep. -/
theorem genCodes_halts {s : State} (h : childrenBelow s.node) : (genCodes s).Halts := by
  obtain ⟨T, hT⟩ := stateTree_exists h
  rcases Nat.lt_or_ge 255 T.depth with hdeep | hfit
  · obtain ⟨u, hu, -⟩ := genCodes_deep hT hdeep
    rw [hu]; exact Res.halts_raise
  · rw [genCodes_eq hT hfit]; exact Res.halts_ok

theorem opGencode_halts {s : State} (h : childrenBelow s.node) : (opGencode s).Halts :=
  Res.halts_ite Res.halts_raise ((genCodes_halts (s := clearCodes s) h).andThen fun _ _ => Res.halts_ok)

/-- SERIALIZE's walk appends the finite text of the tree. -/
theorem opSerialize_halts {s : State} (h : childrenBelow s.node) : (opSerialize s).Halts := by
  obtain ⟨T, hT⟩ := stateTree_exists h
  refine Res.halts_ite Res.halts_raise ?_
  rw [serNode_eq hT]
  exact appendAll_frame.2

/-! ## DESERIALIZE and the commands on bits -/

theorem opDeserialize_halts (s : State) : (opDeserialize s).Halts := by
  refine (checkIn_halts s).andThen fun t _ => ?_
  split
  · exact acceptRoot_halts _ _
  · exact Res.halts_raise

theorem opRdhdr_halts (s : State) : (opRdhdr s).Halts :=
  (checkIn_halts s).andThen fun _ _ =>
    Res.halts_ite Res.halts_raise <| Res.halts_ite Res.halts_raise <| Res.halts_ite Res.halts_raise Res.halts_ok

theorem opUnpack_halts (s : State) : (opUnpack s).Halts :=
  Res.halts_ite Res.halts_raise <| (checkIn_halts s).andThen fun _ _ =>
    Res.halts_ite Res.halts_raise <| Res.halts_ite Res.halts_raise <| Res.halts_ite Res.halts_raise Res.halts_ok

theorem opEncsym_halts (s : State) : (opEncsym s).Halts :=
  Res.halts_ite Res.halts_raise <| (checkIn_halts s).andThen fun t _ => by
    obtain ⟨-, -, hloop, -⟩ := encodeFrom_frame (inputBytes t) 0 0 t (Nat.zero_le _)
    exact hloop

/-! ## The commands (R327) -/

/-- A unit command ends, where the NODE table is acyclic. -/
theorem opOf_unit_halts {i : Instr} (hi : isComposite i = false) {s : State} (h : childrenBelow s.node) : (opOf i s).Halts := by
  cases i with
  | encode | decode => cases hi
  | nop | clr => exact Res.halts_ok
  | pqInsert n => exact Res.halts_ite Res.halts_raise (pqInsert_halts _ s)
  | pqExtract => exact pqExtract_halts s
  | count => exact (checkIn_halts s).andThen fun _ _ => Res.halts_ok
  | mkleaves => exact opMkleaves_halts s
  | merge => exact opMerge_halts s
  | setroot => exact opSetroot_halts s
  | build => exact opBuild_halts s
  | gencode => exact opGencode_halts h
  | serialize => exact opSerialize_halts h
  | deserialize => exact opDeserialize_halts s
  | wrhdr => exact Res.halts_ite Res.halts_raise appendAll_frame.2
  | pack => exact Res.halts_ite Res.halts_raise (Res.Halts.andThen appendAll_frame.2 fun _ _ => Res.halts_ok)
  | rdhdr => exact opRdhdr_halts s
  | unpack => exact opUnpack_halts s
  | encsym => exact opEncsym_halts s
  | decsym => exact Res.halts_ite Res.halts_raise (decodeBits_frame _ _ s).2

/-- Every procedure that succeeds leaves the structure of R47. -/
theorem opOf_treeStructure {i : Instr} {s t : State} (h : TreeStructure s) (ht : opOf i s = .ok t) : TreeStructure t := by
  cases opOf_treeEffect h ht with
  | same hp => exact of_treePart_eq hp h
  | sound hs => exact hs.shape
  | queue _ hs _ => exact hs
  | root _ _ _ hs _ => exact hs

/-- The steps of a composite command end: each finds the structure that the one before it left. -/
theorem stepsFrom_halts (n : Nat) {l : List Instr} (hl : ∀ i ∈ l, isComposite i = false) {r : Res} (hr : r.Halts)
    (hs : ∀ t, r = .ok t → TreeStructure t) : (stepsFrom n l r).Halts := by
  induction l generalizing n r with
  | nil => exact hr.andThen fun _ _ => Res.halts_ok
  | cons i l ih =>
    obtain ⟨hi, hl⟩ := List.forall_mem_cons.1 hl
    refine ih (n + 1) hl (hr.andThen fun t ht => ?_) fun u hu => ?_
    · obtain ⟨-, -, -, -, hbelow, -⟩ := hs t ht
      exact opOf_unit_halts (s := setSeq n t) hi hbelow
    · obtain ⟨t, ht, hu⟩ := andThen_eq_ok.1 hu
      exact opOf_treeStructure (s := setSeq n t) (hs t ht) hu

theorem decodeStart_halts (s : State) : (decodeStart s).Halts := (checkIn_halts s).andThen fun _ _ => Res.halts_ok

theorem opDecode_halts (s : State) : (opDecode s).Halts := by
  have hclear : (decodeStart (setSeq 0 s)).Ends TreeStructure fun _ => True := decodeStart_ends trivial (treeSound_of_empty rfl).shape
  exact stepsFrom_halts 1 (l := [.deserialize, .rdhdr, .unpack, .decsym]) (by decide) (decodeStart_halts _) hclear.1

theorem opEncode_halts (s : State) : (opEncode s).Halts := by
  have hclear : (encodeStart (setSeq 0 s)).Ends TreeStructure fun _ => True := encodeStart_ends trivial (treeSound_of_empty rfl).shape
  exact stepsFrom_halts 1 (l := [.count, .build, .gencode, .serialize, .encsym, .wrhdr, .pack]) (by decide)
    (Res.halts_ite Res.halts_raise (decodeStart_halts _)) hclear.1

theorem opOf_halts (i : Instr) {s : State} (h : childrenBelow s.node) : (opOf i s).Halts := by
  cases i with
  | encode => exact opEncode_halts s
  | decode => exact opDecode_halts s
  | _ => exact opOf_unit_halts rfl h

/-- The end of a procedure that ends is the completion of its command (R94). -/
theorem finish_completes {r : Res} (h : r.Halts) : ∃ t, finish r = .next t ∧ t.busy = false := by
  cases r with
  | ok s => exact ⟨complete s, rfl, rfl⟩
  | raise c w s => exact ⟨faulted c w s, rfl, rfl⟩
  | endless => exact absurd rfl h

theorem exec_completes (i : Instr) {s : State} (h : childrenBelow s.node) : ∃ t, exec i s = .next t ∧ t.busy = false := by
  rw [exec_eq_finish]
  exact finish_completes (opOf_halts i h)

/-! ## The steps -/

theorem coreTurn_next {s : State} (h : childrenBelow s.node) : ∃ t, coreTurn s = .next t := by
  cases hb : s.busy with
  | false => exact ⟨s, if_neg (by simp [hb])⟩
  | true =>
    cases hd : decode s.cmd with
    | ok i =>
      obtain ⟨t, ht, -⟩ := exec_completes i h
      exact ⟨t, (coreTurn_of_decode_ok hb hd).trans ht⟩
    | error r => exact ⟨_, coreTurn_of_decode_error hb hd⟩

theorem step_next {s : State} (h : childrenBelow s.node) : ∃ t, step s = .next t := by
  cases hh : s.host with
  | nil => rw [step_of_host_nil hh]; exact coreTurn_next h
  | cons m rest =>
    cases m with
    | txn x => exact ⟨_, step_of_host_txn hh⟩
    | wait => rw [step_of_host_wait hh]; exact coreTurn_next (s := { s with host := rest }) h
    | rst => exact ⟨_, step_of_host_rst hh⟩

/-- Settles O20: of the structure of R47 only (b) is needed, which keeps the walks of NODE from running for ever. -/
theorem everyCommandCompletes : Obligations.EveryCommandCompletes := by
  rintro s ⟨-, -, -, -, hbelow, -⟩
  exact ⟨fun i => exec_completes i hbelow, step_next hbelow⟩

end Sys2Proof.Machine
end
